-- ==== Sys2Proof/Word.lean ====
section
/-! DEFINITION. The word types of the core (spec/00_scope.md R6, R8). -/

namespace Sys2Proof

/-- A byte of memory. -/
abbrev Byte := BitVec 8

/-- A 16-bit instruction or halfword. -/
abbrev Half := BitVec 16

/-- A 32-bit register, address or instruction (R6: `XLEN` = 32, `ADDR_BITS` = 32). -/
abbrev Word := BitVec 32

/-- A register number r0 to r15 (R6: SP = 13, LR = 14, PC = 15). -/
abbrev Reg := Fin 16

/-- A register number of a 3-bit field of the 16-bit set, r0 to r7. -/
abbrev LowReg := Fin 8

end Sys2Proof
end

