-- ==== Sys2Proof/Config.lean ====
section
/-! DEFINITION. What is fixed for one machine: the OPEN parameters of spec/00_scope.md R6 as plain data, the
architecture's constants, and the two free values of spec/41_alu_shifter_condition.md R211. -/

namespace Sys2Proof

/-- The parameters the spec leaves OPEN (R6, 92 "Parameters left OPEN") and the host's configuration.
A state carries them (`World.cfg`), so a statement about every state holds for every value of them. -/
structure Config where
  /-- `RESET_CPSR` (D8). -/
  resetCpsr : Word
  /-- `RESET_VECTOR` (D8). -/
  resetVector : Word
  /-- `SCHED_CAPACITY` (D17): an Add that would make this many events pending is fatal. -/
  schedCapacity : Nat
  /-- `SCHED_PRIO_MAX` (D18). -/
  schedPrioMax : Nat
  /-- The event classes registered up front (65 R590). -/
  classes : List Nat
  /-- `SWI_INTERCEPT` present (60 R540). -/
  swiIntercept : Bool
  deriving DecidableEq, Repr

/-- The values the spec recommends for tests (92 "Parameters left OPEN").
DESIGN CHOICE (unsafe, log entries 1, 11, 12): the spec leaves each of them open. -/
def Config.recommended : Config where
  resetCpsr := 0x000000D3#32
  resetVector := 0x00000000#32
  schedCapacity := 4
  schedPrioMax := 7
  classes := [0, 1, 2, 3]
  swiIntercept := false

/-- `VEC_UND` (60 R521). -/
def Config.vecUnd : Word := 0x00000004#32

/-- `VEC_SWI` (60 R521). -/
def Config.vecSwi : Word := 0x00000008#32

/-- `VEC_IRQ` (60 R521). -/
def Config.vecIrq : Word := 0x00000018#32

/-- `STORE_PC_OFFSET` relative to the storing instruction (00 R6, D30). -/
def Config.storePcOffset : Word := 12#32

/-- The C flag after the flag-setting multiply that makes the n-th draw (41 R211, D25 `MUL_CARRY`):
a free value, nothing is known of it (safe, log entry 6). -/
opaque Config.mulCarry : Nat → Bool

/-- The V flag after the flag-setting long multiply that makes the n-th draw (41 R211, D25
`MULL_OVERFLOW`): a free value, nothing is known of it (safe, log entry 6). -/
opaque Config.mullOverflow : Nat → Bool

end Sys2Proof
end

