-- ==== Sys2Proof/Syntax.lean ====
section
/-! DEFINITION. The instructions of the two sets as syntax: one constructor per instruction rule of spec/42 to 49,
with the operand forms of spec/30_encoding.md. Every row of spec/opcode_table.json belongs to one constructor. -/

namespace Sys2Proof

/-- The condition field of the 32-bit set (41 R190). -/
inductive Cond
  | eq | ne | cs | cc | mi | pl | vs | vc | hi | ls | ge | lt | gt | le | al | nv
  deriving DecidableEq, Repr

/-- The shift types of the barrel shifter (30 R122: 00 LSL, 01 LSR, 10 ASR, 11 ROR). -/
inductive ShiftType
  | lsl | lsr | asr | ror
  deriving DecidableEq, Repr

/-- The second operand of a data-processing instruction (30 R122, 42 R241). -/
inductive Operand2
  /-- `arm_dp_imm`: `imm` rotated right by twice `rot`. -/
  | imm (rot : BitVec 4) (imm : BitVec 8)
  /-- `arm_dp_regshift_imm`: `rm` shifted by the immediate amount field. -/
  | shiftImm (amt : BitVec 5) (ty : ShiftType) (rm : Reg)
  /-- `arm_dp_regshift_reg`: `rm` shifted by the low byte of `rs`. -/
  | shiftReg (rs : Reg) (ty : ShiftType) (rm : Reg)
  deriving DecidableEq, Repr

/-- The offset of a word or byte transfer (30 R127, 44 R310). -/
inductive Offset
  | imm (imm : BitVec 12)
  | reg (amt : BitVec 5) (ty : ShiftType) (rm : Reg)
  deriving DecidableEq, Repr

/-- The offset of a halfword or signed transfer (30 R126, 44 R310). -/
inductive HalfOffset
  | imm (imm : BitVec 8)
  | reg (rm : Reg)
  deriving DecidableEq, Repr

/-- The P and W bits of a single transfer (44 R310): P = 1 W = 0, P = 1 W = 1, P = 0 W = 0.
(P = 0 with W = 1 is the T form, R316, or reserved, R322.) -/
inductive Index
  | offset | pre | post
  deriving DecidableEq, Repr

/-- The P and U bits of a block transfer (45 R350). -/
inductive BlockMode
  | da | ia | db | ib
  deriving DecidableEq, Repr

/-- The instructions. The `cond` argument `c` is the condition field; `sf` the S bit; `up` the U bit. -/
inductive Instr
  /-- `AND` (42 R246). -/
  | and (c : Cond) (sf : Bool) (rn rd : Reg) (op2 : Operand2)
  /-- `EOR` (42 R247). -/
  | eor (c : Cond) (sf : Bool) (rn rd : Reg) (op2 : Operand2)
  /-- `SUB` (42 R248). -/
  | sub (c : Cond) (sf : Bool) (rn rd : Reg) (op2 : Operand2)
  /-- `RSB` (42 R249). -/
  | rsb (c : Cond) (sf : Bool) (rn rd : Reg) (op2 : Operand2)
  /-- `ADD` (42 R250). -/
  | add (c : Cond) (sf : Bool) (rn rd : Reg) (op2 : Operand2)
  /-- `ADC` (42 R251). -/
  | adc (c : Cond) (sf : Bool) (rn rd : Reg) (op2 : Operand2)
  /-- `SBC` (42 R252). -/
  | sbc (c : Cond) (sf : Bool) (rn rd : Reg) (op2 : Operand2)
  /-- `RSC` (42 R253). -/
  | rsc (c : Cond) (sf : Bool) (rn rd : Reg) (op2 : Operand2)
  /-- `TST` (42 R254). The Rd field is kept: 15 is refused (R245). -/
  | tst (c : Cond) (rn rd : Reg) (op2 : Operand2)
  /-- `TEQ` (42 R255). The Rd field is kept: 15 is refused (R245). -/
  | teq (c : Cond) (rn rd : Reg) (op2 : Operand2)
  /-- `CMP` (42 R256). The Rd field is kept: 15 is refused (R245). -/
  | cmp (c : Cond) (rn rd : Reg) (op2 : Operand2)
  /-- `CMN` (42 R257). The Rd field is kept: 15 is refused (R245). -/
  | cmn (c : Cond) (rn rd : Reg) (op2 : Operand2)
  /-- `ORR` (42 R258). -/
  | orr (c : Cond) (sf : Bool) (rn rd : Reg) (op2 : Operand2)
  /-- `MOV` (42 R259). The Rn field is ignored (R122). -/
  | mov (c : Cond) (sf : Bool) (rd : Reg) (op2 : Operand2)
  /-- `BIC` (42 R260). -/
  | bic (c : Cond) (sf : Bool) (rn rd : Reg) (op2 : Operand2)
  /-- `MVN` (42 R261). The Rn field is ignored (R122). -/
  | mvn (c : Cond) (sf : Bool) (rd : Reg) (op2 : Operand2)
  /-- `MRS` (43 R280); `p` = true reads SPSR. -/
  | mrs (c : Cond) (p : Bool) (rd : Reg)
  /-- `MSR`, register operand (43 R281); `p` = true writes SPSR. -/
  | msrReg (c : Cond) (p : Bool) (mask : BitVec 4) (rm : Reg)
  /-- `MSR`, immediate operand (43 R282). -/
  | msrImm (c : Cond) (p : Bool) (mask : BitVec 4) (rot : BitVec 4) (imm : BitVec 8)
  /-- `MUL` (43 R285). -/
  | mul (c : Cond) (sf : Bool) (rd rs rm : Reg)
  /-- `MLA` (43 R286). -/
  | mla (c : Cond) (sf : Bool) (rd rn rs rm : Reg)
  /-- `UMULL` (43 R287). -/
  | umull (c : Cond) (sf : Bool) (rdHi rdLo rs rm : Reg)
  /-- `UMLAL` (43 R288). -/
  | umlal (c : Cond) (sf : Bool) (rdHi rdLo rs rm : Reg)
  /-- `SMULL` (43 R289). -/
  | smull (c : Cond) (sf : Bool) (rdHi rdLo rs rm : Reg)
  /-- `SMLAL` (43 R290). -/
  | smlal (c : Cond) (sf : Bool) (rdHi rdLo rs rm : Reg)
  /-- `LDR` (44 R312). -/
  | ldr (c : Cond) (ix : Index) (up : Bool) (rn rd : Reg) (off : Offset)
  /-- `LDRB` (44 R313). -/
  | ldrb (c : Cond) (ix : Index) (up : Bool) (rn rd : Reg) (off : Offset)
  /-- `STR` (44 R314). -/
  | str (c : Cond) (ix : Index) (up : Bool) (rn rd : Reg) (off : Offset)
  /-- `STRB` (44 R315). -/
  | strb (c : Cond) (ix : Index) (up : Bool) (rn rd : Reg) (off : Offset)
  /-- `LDRT` (44 R316): post-indexed with W = 1. -/
  | ldrt (c : Cond) (up : Bool) (rn rd : Reg) (off : Offset)
  /-- `LDRBT` (44 R316): post-indexed with W = 1. -/
  | ldrbt (c : Cond) (up : Bool) (rn rd : Reg) (off : Offset)
  /-- `STRT` (44 R316): post-indexed with W = 1. -/
  | strt (c : Cond) (up : Bool) (rn rd : Reg) (off : Offset)
  /-- `STRBT` (44 R316): post-indexed with W = 1. -/
  | strbt (c : Cond) (up : Bool) (rn rd : Reg) (off : Offset)
  /-- `LDRH` (44 R318). -/
  | ldrh (c : Cond) (ix : Index) (up : Bool) (rn rd : Reg) (off : HalfOffset)
  /-- `STRH` (44 R319). -/
  | strh (c : Cond) (ix : Index) (up : Bool) (rn rd : Reg) (off : HalfOffset)
  /-- `LDRSB` (44 R320). -/
  | ldrsb (c : Cond) (ix : Index) (up : Bool) (rn rd : Reg) (off : HalfOffset)
  /-- `LDRSH` (44 R321). -/
  | ldrsh (c : Cond) (ix : Index) (up : Bool) (rn rd : Reg) (off : HalfOffset)
  /-- `LDM` (45 R351); `sb` is the S bit, `wb` the W bit. -/
  | ldm (c : Cond) (m : BlockMode) (sb wb : Bool) (rn : Reg) (list : BitVec 16)
  /-- `STM` (45 R352); `sb` is the S bit, `wb` the W bit. -/
  | stm (c : Cond) (m : BlockMode) (sb wb : Bool) (rn : Reg) (list : BitVec 16)
  /-- `SWP` (45 R360). -/
  | swp (c : Cond) (rn rd rm : Reg)
  /-- `SWPB` (45 R361). -/
  | swpb (c : Cond) (rn rd rm : Reg)
  /-- `B` (46 R380). -/
  | b (c : Cond) (imm : BitVec 24)
  /-- `BL` (46 R381). -/
  | bl (c : Cond) (imm : BitVec 24)
  /-- `BX` (46 R382). -/
  | bx (c : Cond) (rm : Reg)
  /-- `SWI` (46 R383). -/
  | swi (c : Cond) (imm : BitVec 24)
  /-- The UNDEFINED space (46 R384); `raw` is bits 27:0. -/
  | undefined (c : Cond) (raw : BitVec 28)
  /-- The coprocessor space (46 R385). -/
  | coprocessor (c : Cond) (raw : BitVec 28)
  /-- `RESERVED_PSR_IMM` (43 R283). -/
  | reservedPsrImm (c : Cond) (raw : BitVec 28)
  /-- `RESERVED_PSR_REG` (43 R283). -/
  | reservedPsrReg (c : Cond) (raw : BitVec 28)
  /-- `RESERVED_MUL` (43 R291). -/
  | reservedMul (c : Cond) (raw : BitVec 28)
  /-- `RESERVED_SWP` (45 R362). -/
  | reservedSwp (c : Cond) (raw : BitVec 28)
  /-- `RESERVED_HALF_POSTW` (44 R322). -/
  | reservedHalfPostw (c : Cond) (raw : BitVec 28)
  /-- `RESERVED_HALF_STORE` (44 R322). -/
  | reservedHalfStore (c : Cond) (raw : BitVec 28)
  /-- 16-bit set, immediate shift, format 1 (47 R400). -/
  | tLslImm (imm : BitVec 5) (rs rd : LowReg)
  /-- 16-bit set, immediate shift, format 1 (47 R401). -/
  | tLsrImm (imm : BitVec 5) (rs rd : LowReg)
  /-- 16-bit set, immediate shift, format 1 (47 R402). -/
  | tAsrImm (imm : BitVec 5) (rs rd : LowReg)
  /-- 16-bit set, format 2 (47 R403). -/
  | tAddReg (rn rs rd : LowReg)
  /-- 16-bit set, format 2 (47 R404). -/
  | tSubReg (rn rs rd : LowReg)
  /-- 16-bit set, format 2 (47 R405). -/
  | tAddImm3 (imm : BitVec 3) (rs rd : LowReg)
  /-- 16-bit set, format 2 (47 R406). -/
  | tSubImm3 (imm : BitVec 3) (rs rd : LowReg)
  /-- 16-bit set, format 3 (47 R407). -/
  | tMovImm (rd : LowReg) (imm : BitVec 8)
  /-- 16-bit set, format 3 (47 R408). -/
  | tCmpImm (rd : LowReg) (imm : BitVec 8)
  /-- 16-bit set, format 3 (47 R409). -/
  | tAddImm8 (rd : LowReg) (imm : BitVec 8)
  /-- 16-bit set, format 3 (47 R410). -/
  | tSubImm8 (rd : LowReg) (imm : BitVec 8)
  /-- 16-bit set, format 4, op 0 (47 R411). -/
  | tAnd (rs rd : LowReg)
  /-- 16-bit set, format 4, op 1 (47 R412). -/
  | tEor (rs rd : LowReg)
  /-- 16-bit set, format 4, op 2 (47 R413). -/
  | tLsl (rs rd : LowReg)
  /-- 16-bit set, format 4, op 3 (47 R414). -/
  | tLsr (rs rd : LowReg)
  /-- 16-bit set, format 4, op 4 (47 R415). -/
  | tAsr (rs rd : LowReg)
  /-- 16-bit set, format 4, op 5 (47 R416). -/
  | tAdc (rs rd : LowReg)
  /-- 16-bit set, format 4, op 6 (47 R417). -/
  | tSbc (rs rd : LowReg)
  /-- 16-bit set, format 4, op 7 (47 R418). -/
  | tRor (rs rd : LowReg)
  /-- 16-bit set, format 4, op 8 (47 R419). -/
  | tTst (rs rd : LowReg)
  /-- 16-bit set, format 4, op 9 (47 R420). -/
  | tNeg (rs rd : LowReg)
  /-- 16-bit set, format 4, op 10 (47 R421). -/
  | tCmp (rs rd : LowReg)
  /-- 16-bit set, format 4, op 11 (47 R422). -/
  | tCmn (rs rd : LowReg)
  /-- 16-bit set, format 4, op 12 (47 R423). -/
  | tOrr (rs rd : LowReg)
  /-- 16-bit set, format 4, op 13 (47 R424). -/
  | tMul (rs rd : LowReg)
  /-- 16-bit set, format 4, op 14 (47 R425). -/
  | tBic (rs rd : LowReg)
  /-- 16-bit set, format 4, op 15 (47 R426). -/
  | tMvn (rs rd : LowReg)
  /-- 16-bit set, format 5 (47 R427). -/
  | tAddHi (rd rs : Reg)
  /-- 16-bit set, format 5 (47 R428). -/
  | tCmpHi (rd rs : Reg)
  /-- 16-bit set, format 5 (47 R429). -/
  | tMovHi (rd rs : Reg)
  /-- 16-bit set, format 5 (49 R494). -/
  | tBx (rs : Reg)
  /-- 16-bit set, format 6 (48 R450). -/
  | tLdrPc (rd : LowReg) (imm : BitVec 8)
  /-- 16-bit set, format 7 (48 R451). -/
  | tStrReg (ro rb rd : LowReg)
  /-- 16-bit set, format 7 (48 R452). -/
  | tStrbReg (ro rb rd : LowReg)
  /-- 16-bit set, format 7 (48 R453). -/
  | tLdrReg (ro rb rd : LowReg)
  /-- 16-bit set, format 7 (48 R454). -/
  | tLdrbReg (ro rb rd : LowReg)
  /-- 16-bit set, format 8 (48 R455). -/
  | tStrhReg (ro rb rd : LowReg)
  /-- 16-bit set, format 8 (48 R456). -/
  | tLdsbReg (ro rb rd : LowReg)
  /-- 16-bit set, format 8 (48 R457). -/
  | tLdrhReg (ro rb rd : LowReg)
  /-- 16-bit set, format 8 (48 R458). -/
  | tLdshReg (ro rb rd : LowReg)
  /-- 16-bit set, format 9 (48 R459). -/
  | tStrImm (imm : BitVec 5) (rb rd : LowReg)
  /-- 16-bit set, format 9 (48 R460). -/
  | tLdrImm (imm : BitVec 5) (rb rd : LowReg)
  /-- 16-bit set, format 9 (48 R461). -/
  | tStrbImm (imm : BitVec 5) (rb rd : LowReg)
  /-- 16-bit set, format 9 (48 R462). -/
  | tLdrbImm (imm : BitVec 5) (rb rd : LowReg)
  /-- 16-bit set, format 10 (48 R463). -/
  | tStrhImm (imm : BitVec 5) (rb rd : LowReg)
  /-- 16-bit set, format 10 (48 R464). -/
  | tLdrhImm (imm : BitVec 5) (rb rd : LowReg)
  /-- 16-bit set, format 11 (48 R465). -/
  | tStrSp (rd : LowReg) (imm : BitVec 8)
  /-- 16-bit set, format 11 (48 R466). -/
  | tLdrSp (rd : LowReg) (imm : BitVec 8)
  /-- 16-bit set, format 12 (47 R430). -/
  | tAddPc (rd : LowReg) (imm : BitVec 8)
  /-- 16-bit set, format 12 (47 R431). -/
  | tAddSp (rd : LowReg) (imm : BitVec 8)
  /-- 16-bit set, format 13 (47 R432). -/
  | tSpAdd (imm : BitVec 7)
  /-- 16-bit set, format 13 (47 R433). -/
  | tSpSub (imm : BitVec 7)
  /-- 16-bit set, format 14 (48 R467). -/
  | tPush (lr : Bool) (list : BitVec 8)
  /-- 16-bit set, format 14 (48 R468). -/
  | tPop (pc : Bool) (list : BitVec 8)
  /-- 16-bit set, format 15 (48 R469). -/
  | tStmia (rb : LowReg) (list : BitVec 8)
  /-- 16-bit set, format 15 (48 R470). -/
  | tLdmia (rb : LowReg) (list : BitVec 8)
  /-- 16-bit set, format 16 (49 R490). -/
  | tBcond (c : Cond) (imm : BitVec 8)
  /-- 16-bit set, format 17 (49 R495). -/
  | tSwi (imm : BitVec 8)
  /-- 16-bit set, format 18 (49 R491). -/
  | tB (imm : BitVec 11)
  /-- 16-bit set, format 19, first half (49 R492). -/
  | tBlFirst (imm : BitVec 11)
  /-- 16-bit set, format 19, second half (49 R493). -/
  | tBlSecond (imm : BitVec 11)
  /-- 16-bit set, the UNDEFINED space (49 R496). -/
  | tUndefined (raw : BitVec 16)
  /-- 16-bit set, `RESERVED_HI_LOLO` (49 R497). -/
  | tReservedHiLoLo (raw : BitVec 16)
  /-- 16-bit set, `RESERVED_BX_H1` (49 R497). -/
  | tReservedBxH1 (raw : BitVec 16)
  /-- 16-bit set, `RESERVED_BCOND_AL` (49 R497). -/
  | tReservedBcondAl (raw : BitVec 16)
  deriving DecidableEq, Repr

end Sys2Proof
end

