-- ==== Sys2Proof/WellFormed.lean ====
section
/-! DEFINITION. Which terms of `Instr` some word encodes. Every register, immediate and condition field is as wide
as its encoding, so only the raw spaces and three Thumb formats need a check (spec/30_encoding.md R121, R127, R130,
R131, R143). -/

namespace Sys2Proof

/-- The indices of `RESERVED_PSR_IMM` (30 R121 test 2). -/
def inPsrImmSpace (raw : BitVec 28) : Bool :=
  raw.extractLsb' 25 3 == 0b001#3 && raw.extractLsb' 23 2 == 0b10#2 && !raw.getLsbD 21 && !raw.getLsbD 20

/-- The indices of `RESERVED_PSR_REG` (30 R121 test 9): opcode 8 to 11 with S = 0, register form, less what the
tests before it and the two architected values take. -/
def inPsrRegSpace (raw : BitVec 28) : Bool :=
  raw.extractLsb' 25 3 == 0b000#3 && raw.extractLsb' 23 2 == 0b10#2 && !raw.getLsbD 20
    && !(raw.extractLsb' 20 8 == 0x12#8 && raw.extractLsb' 4 4 == 0x1#4)
    && raw.extractLsb' 4 4 != 0x0#4 && raw.extractLsb' 4 4 != 0x9#4 && raw.extractLsb' 4 4 != 0xB#4
    && raw.extractLsb' 4 4 != 0xD#4 && raw.extractLsb' 4 4 != 0xF#4

/-- The indices of `RESERVED_MUL` (43 R291). -/
def inMulSpace (raw : BitVec 28) : Bool :=
  raw.extractLsb' 23 5 == 0b00000#5 && raw.getLsbD 22 && raw.extractLsb' 4 4 == 0x9#4

/-- The indices of `RESERVED_SWP` (45 R362). -/
def inSwpSpace (raw : BitVec 28) : Bool :=
  raw.extractLsb' 24 4 == 0b0001#4 && raw.extractLsb' 4 4 == 0x9#4
    && (raw.getLsbD 23 || raw.getLsbD 21 || raw.getLsbD 20)

/-- The indices of `RESERVED_HALF_POSTW` (44 R322). -/
def inHalfPostwSpace (raw : BitVec 28) : Bool :=
  raw.extractLsb' 25 3 == 0b000#3
    && (raw.extractLsb' 4 4 == 0xB#4 || raw.extractLsb' 4 4 == 0xD#4 || raw.extractLsb' 4 4 == 0xF#4)
    && !raw.getLsbD 24 && raw.getLsbD 21

/-- The indices of `RESERVED_HALF_STORE` (44 R322). -/
def inHalfStoreSpace (raw : BitVec 28) : Bool :=
  raw.extractLsb' 25 3 == 0b000#3 && (raw.extractLsb' 4 4 == 0xD#4 || raw.extractLsb' 4 4 == 0xF#4)
    && !raw.getLsbD 20 && (raw.getLsbD 24 || !raw.getLsbD 21)

/-- The architecturally UNDEFINED space (30 R127). -/
def inUndefinedSpace (raw : BitVec 28) : Bool :=
  raw.extractLsb' 25 3 == 0b011#3 && raw.getLsbD 4

/-- The coprocessor space (30 R130). -/
def inCoprocessorSpace (raw : BitVec 28) : Bool :=
  raw.extractLsb' 26 2 == 0b11#2 && raw.extractLsb' 24 2 != 0b11#2

/-- The UNDEFINED spaces of the 16-bit set (49 R496). -/
def inThumbUndefinedSpace (raw : BitVec 16) : Bool :=
  (raw.extractLsb' 12 4 == 0b1011#4 && raw.extractLsb' 8 4 != 0b0000#4 && raw.extractLsb' 9 2 != 0b10#2)
    || raw.extractLsb' 11 5 == 0b11101#5

/-- Hi-register ADD, CMP, MOV with H1 = H2 = 0 (49 R497). -/
def inHiLoLoSpace (raw : BitVec 16) : Bool :=
  raw.extractLsb' 10 6 == 0b010001#6 && raw.extractLsb' 8 2 != 0b11#2 && raw.extractLsb' 6 2 == 0b00#2

/-- BX with H1 = 1 (49 R497). -/
def inBxH1Space (raw : BitVec 16) : Bool :=
  raw.extractLsb' 7 9 == 0b010001111#9

/-- `B<cond>` with cond = 1110 (49 R497). -/
def inBcondAlSpace (raw : BitVec 16) : Bool :=
  raw.extractLsb' 8 8 == 0xDE#8

/-- At least one of two registers is r8 to r15: the hi-register formats exist only then (47 section 5). -/
def someHigh (rd rs : Reg) : Bool := decide (8 ≤ rd.val ∨ 8 ≤ rs.val)

/-- The instruction is one that some word of its set encodes. -/
def Instr.WellFormed : Instr → Bool
  | .undefined _ raw => inUndefinedSpace raw
  | .coprocessor _ raw => inCoprocessorSpace raw
  | .reservedPsrImm _ raw => inPsrImmSpace raw
  | .reservedPsrReg _ raw => inPsrRegSpace raw
  | .reservedMul _ raw => inMulSpace raw
  | .reservedSwp _ raw => inSwpSpace raw
  | .reservedHalfPostw _ raw => inHalfPostwSpace raw
  | .reservedHalfStore _ raw => inHalfStoreSpace raw
  | .tAddHi rd rs => someHigh rd rs
  | .tCmpHi rd rs => someHigh rd rs
  | .tMovHi rd rs => someHigh rd rs
  | .tBcond c _ => c != .al && c != .nv
  | .tUndefined raw => inThumbUndefinedSpace raw
  | .tReservedHiLoLo raw => inHiLoLoSpace raw
  | .tReservedBxH1 raw => inBxH1Space raw
  | .tReservedBcondAl raw => inBcondAlSpace raw
  | .and .. | .eor .. | .sub .. | .rsb .. | .add .. | .adc .. | .sbc .. | .rsc .. => true
  | .tst .. | .teq .. | .cmp .. | .cmn .. | .orr .. | .mov .. | .bic .. | .mvn .. => true
  | .mrs .. | .msrReg .. | .msrImm .. => true
  | .mul .. | .mla .. | .umull .. | .umlal .. | .smull .. | .smlal .. => true
  | .ldr .. | .ldrb .. | .str .. | .strb .. | .ldrt .. | .ldrbt .. | .strt .. | .strbt .. => true
  | .ldrh .. | .strh .. | .ldrsb .. | .ldrsh .. => true
  | .ldm .. | .stm .. | .swp .. | .swpb .. | .b .. | .bl .. | .bx .. | .swi .. => true
  | .tLslImm .. | .tLsrImm .. | .tAsrImm .. | .tAddReg .. | .tSubReg .. | .tAddImm3 .. | .tSubImm3 .. => true
  | .tMovImm .. | .tCmpImm .. | .tAddImm8 .. | .tSubImm8 .. => true
  | .tAnd .. | .tEor .. | .tLsl .. | .tLsr .. | .tAsr .. | .tAdc .. | .tSbc .. | .tRor .. => true
  | .tTst .. | .tNeg .. | .tCmp .. | .tCmn .. | .tOrr .. | .tMul .. | .tBic .. | .tMvn .. => true
  | .tBx .. | .tLdrPc .. => true
  | .tStrReg .. | .tStrbReg .. | .tLdrReg .. | .tLdrbReg .. => true
  | .tStrhReg .. | .tLdsbReg .. | .tLdrhReg .. | .tLdshReg .. => true
  | .tStrImm .. | .tLdrImm .. | .tStrbImm .. | .tLdrbImm .. | .tStrhImm .. | .tLdrhImm .. => true
  | .tStrSp .. | .tLdrSp .. | .tAddPc .. | .tAddSp .. | .tSpAdd .. | .tSpSub .. => true
  | .tPush .. | .tPop .. | .tStmia .. | .tLdmia .. => true
  | .tSwi .. | .tB .. | .tBlFirst .. | .tBlSecond .. => true

end Sys2Proof
end

