-- ==== Sys2Proof/Decode.lean ====
section
/-! DEFINITION. Decoding, a pure function of the instruction bits (spec/30_encoding.md R112 to R114): the dispatch
index selects a class by the tests of R121, R127 to R131 in their order, and the class reads its operand fields.
Then the encoder, from the format tables R122 to R132. -/

namespace Sys2Proof

/-! ## Fields -/

/-- The condition of a 4-bit field (41 R190). -/
def Cond.ofBits (b : BitVec 4) : Cond :=
  match b.toNat with
  | 0 => .eq | 1 => .ne | 2 => .cs | 3 => .cc | 4 => .mi | 5 => .pl | 6 => .vs | 7 => .vc
  | 8 => .hi | 9 => .ls | 10 => .ge | 11 => .lt | 12 => .gt | 13 => .le | 14 => .al | _ => .nv

/-- The 4-bit field of a condition (41 R190). -/
def Cond.bits : Cond → BitVec 4
  | .eq => 0x0#4 | .ne => 0x1#4 | .cs => 0x2#4 | .cc => 0x3#4 | .mi => 0x4#4 | .pl => 0x5#4 | .vs => 0x6#4
  | .vc => 0x7#4 | .hi => 0x8#4 | .ls => 0x9#4 | .ge => 0xA#4 | .lt => 0xB#4 | .gt => 0xC#4 | .le => 0xD#4
  | .al => 0xE#4 | .nv => 0xF#4

/-- The shift type of a 2-bit field (30 R122). -/
def ShiftType.ofBits (b : BitVec 2) : ShiftType :=
  match b.toNat with
  | 0 => .lsl | 1 => .lsr | 2 => .asr | _ => .ror

/-- The 2-bit field of a shift type (30 R122). -/
def ShiftType.bits : ShiftType → BitVec 2
  | .lsl => 0b00#2 | .lsr => 0b01#2 | .asr => 0b10#2 | .ror => 0b11#2

/-- The register of a 4-bit field. -/
def Reg.ofBits (b : BitVec 4) : Reg := ⟨b.toNat, b.isLt⟩

/-- The 4-bit field of a register. -/
def Reg.bits (r : Reg) : BitVec 4 := BitVec.ofNat 4 r.val

/-- The register of a 3-bit field of the 16-bit set. -/
def LowReg.ofBits (b : BitVec 3) : LowReg := ⟨b.toNat, b.isLt⟩

/-- The 3-bit field of a low register. -/
def LowReg.bits (r : LowReg) : BitVec 3 := BitVec.ofNat 3 r.val

/-! ## The dispatch index -/

/-- `arm_index`: bits 27:20 and 7:4 (R112). -/
def armIndex (w : Word) : BitVec 12 := w.extractLsb' 20 8 ++ w.extractLsb' 4 4

/-- `thumb_index`: bits 15:6 (R113). -/
def thumbIndex (w : Half) : BitVec 10 := w.extractLsb' 6 10

/-- What the 4096 indices of the 32-bit set select (R121, R127 to R130). -/
inductive ArmClass
  | msrImm | reservedPsrImm | dpImm | bx | mul | mla | reservedMul | umull | umlal | smull | smlal
  | swp | swpb | reservedSwp | reservedHalfPostw | ldrh | ldrsb | ldrsh | strh | reservedHalfStore
  | mrs | msrReg | reservedPsrReg | dpShiftImm | dpShiftReg
  | undefined | ldr | ldrb | str | strb | ldrt | ldrbt | strt | strbt
  | ldm | stm | b | bl | swi | coprocessor
  deriving DecidableEq, Repr

/-- The tests of R121 (class 00), in their order; only index bits of `w` are read. -/
def armClass00 (w : Word) : ArmClass :=
  if w.getLsbD 25 then
    if w.getLsbD 24 && !w.getLsbD 23 && !w.getLsbD 20 then
      if w.getLsbD 21 then .msrImm else .reservedPsrImm
    else .dpImm
  else if w.extractLsb' 20 8 == 0x12#8 && w.extractLsb' 4 4 == 0x1#4 then .bx
  else if w.extractLsb' 4 4 == 0x9#4 && !w.getLsbD 24 && !w.getLsbD 23 then
    if w.getLsbD 22 then .reservedMul else if w.getLsbD 21 then .mla else .mul
  else if w.extractLsb' 4 4 == 0x9#4 && !w.getLsbD 24 && w.getLsbD 23 then
    if w.getLsbD 22 then (if w.getLsbD 21 then .smlal else .smull)
    else if w.getLsbD 21 then .umlal else .umull
  else if w.extractLsb' 4 4 == 0x9#4 && w.getLsbD 24 then
    if !w.getLsbD 23 && !w.getLsbD 21 && !w.getLsbD 20 then
      if w.getLsbD 22 then .swpb else .swp
    else .reservedSwp
  else if w.extractLsb' 4 4 == 0xB#4 || w.extractLsb' 4 4 == 0xD#4 || w.extractLsb' 4 4 == 0xF#4 then
    if !w.getLsbD 24 && w.getLsbD 21 then .reservedHalfPostw
    else if w.getLsbD 20 then
      if w.extractLsb' 4 4 == 0xB#4 then .ldrh else if w.extractLsb' 4 4 == 0xD#4 then .ldrsb else .ldrsh
    else if w.extractLsb' 4 4 == 0xB#4 then .strh else .reservedHalfStore
  else if w.getLsbD 24 && !w.getLsbD 23 && !w.getLsbD 20 then
    if w.extractLsb' 4 4 == 0x0#4 then (if w.getLsbD 21 then .msrReg else .mrs) else .reservedPsrReg
  else if w.getLsbD 4 then .dpShiftReg else .dpShiftImm

/-- The tests of R127 (class 01). -/
def armClass01 (w : Word) : ArmClass :=
  if w.getLsbD 25 && w.getLsbD 4 then .undefined
  else if !w.getLsbD 24 && w.getLsbD 21 then
    if w.getLsbD 20 then (if w.getLsbD 22 then .ldrbt else .ldrt)
    else if w.getLsbD 22 then .strbt else .strt
  else
    if w.getLsbD 20 then (if w.getLsbD 22 then .ldrb else .ldr)
    else if w.getLsbD 22 then .strb else .str

/-- The top-level partition of R120, with R128 to R130. -/
def armClassOf (w : Word) : ArmClass :=
  if w.extractLsb' 26 2 == 0b00#2 then armClass00 w
  else if w.extractLsb' 26 2 == 0b01#2 then armClass01 w
  else if w.extractLsb' 26 2 == 0b10#2 then
    if w.getLsbD 25 then (if w.getLsbD 24 then .bl else .b)
    else if w.getLsbD 20 then .ldm else .stm
  else if w.extractLsb' 24 2 == 0b11#2 then .swi else .coprocessor

/-- The 4096-entry dispatch (R112): bits outside the index take no part, so they are given as 0. -/
def armClass (i : BitVec 12) : ArmClass :=
  armClassOf (0#4 ++ i.extractLsb' 4 8 ++ 0#12 ++ i.extractLsb' 0 4 ++ 0#4)

/-- What the 1024 indices of the 16-bit set select (R131). -/
inductive ThumbClass
  | lslImm | lsrImm | asrImm | addReg | subReg | addImm3 | subImm3 | movImm | cmpImm | addImm8 | subImm8
  | alu | addHi | cmpHi | movHi | bx | reservedHiLoLo | reservedBxH1 | ldrPc
  | strReg | strbReg | ldrReg | ldrbReg | strhReg | ldsbReg | ldrhReg | ldshReg
  | strImm | ldrImm | strbImm | ldrbImm | strhImm | ldrhImm | strSp | ldrSp | addPc | addSp | spAdd | spSub
  | push | pop | undefined | stmia | ldmia | bcond | reservedBcondAl | swi | b | blFirst | blSecond
  deriving DecidableEq, Repr

/-- The tests of R131, in their order; only index bits of `w` are read. -/
def thumbClassOf (w : Half) : ThumbClass :=
  if w.extractLsb' 13 3 == 0b000#3 && w.extractLsb' 11 2 != 0b11#2 then
    if w.extractLsb' 11 2 == 0b00#2 then .lslImm else if w.extractLsb' 11 2 == 0b01#2 then .lsrImm else .asrImm
  else if w.extractLsb' 11 5 == 0b00011#5 then
    if w.getLsbD 10 then (if w.getLsbD 9 then .subImm3 else .addImm3)
    else if w.getLsbD 9 then .subReg else .addReg
  else if w.extractLsb' 13 3 == 0b001#3 then
    if w.getLsbD 12 then (if w.getLsbD 11 then .subImm8 else .addImm8)
    else if w.getLsbD 11 then .cmpImm else .movImm
  else if w.extractLsb' 10 6 == 0b010000#6 then .alu
  else if w.extractLsb' 10 6 == 0b010001#6 then
    if w.extractLsb' 8 2 == 0b11#2 then (if w.getLsbD 7 then .reservedBxH1 else .bx)
    else if !w.getLsbD 7 && !w.getLsbD 6 then .reservedHiLoLo
    else if w.extractLsb' 8 2 == 0b00#2 then .addHi
    else if w.extractLsb' 8 2 == 0b01#2 then .cmpHi else .movHi
  else if w.extractLsb' 11 5 == 0b01001#5 then .ldrPc
  else if w.extractLsb' 12 4 == 0b0101#4 && !w.getLsbD 9 then
    if w.getLsbD 11 then (if w.getLsbD 10 then .ldrbReg else .ldrReg)
    else if w.getLsbD 10 then .strbReg else .strReg
  else if w.extractLsb' 12 4 == 0b0101#4 then
    if w.getLsbD 11 then (if w.getLsbD 10 then .ldshReg else .ldrhReg)
    else if w.getLsbD 10 then .ldsbReg else .strhReg
  else if w.extractLsb' 13 3 == 0b011#3 then
    if w.getLsbD 12 then (if w.getLsbD 11 then .ldrbImm else .strbImm)
    else if w.getLsbD 11 then .ldrImm else .strImm
  else if w.extractLsb' 12 4 == 0b1000#4 then (if w.getLsbD 11 then .ldrhImm else .strhImm)
  else if w.extractLsb' 12 4 == 0b1001#4 then (if w.getLsbD 11 then .ldrSp else .strSp)
  else if w.extractLsb' 12 4 == 0b1010#4 then (if w.getLsbD 11 then .addSp else .addPc)
  else if w.extractLsb' 8 8 == 0b10110000#8 then (if w.getLsbD 7 then .spSub else .spAdd)
  else if w.extractLsb' 12 4 == 0b1011#4 && w.extractLsb' 9 2 == 0b10#2 then
    if w.getLsbD 11 then .pop else .push
  else if w.extractLsb' 12 4 == 0b1011#4 then .undefined
  else if w.extractLsb' 12 4 == 0b1100#4 then (if w.getLsbD 11 then .ldmia else .stmia)
  else if w.extractLsb' 12 4 == 0b1101#4 && w.extractLsb' 9 3 != 0b111#3 then .bcond
  else if w.extractLsb' 8 8 == 0b11011110#8 then .reservedBcondAl
  else if w.extractLsb' 8 8 == 0b11011111#8 then .swi
  else if w.extractLsb' 11 5 == 0b11100#5 then .b
  else if w.extractLsb' 11 5 == 0b11101#5 then .undefined
  else if w.extractLsb' 11 5 == 0b11110#5 then .blFirst
  else .blSecond

/-- The 1024-entry dispatch (R113): bits outside the index take no part, so they are given as 0. -/
def thumbClass (i : BitVec 10) : ThumbClass := thumbClassOf (i ++ 0#6)

/-! ## Operand fields of the 32-bit set (R122 to R130) -/

/-- The register field whose lowest bit is `lo`. -/
def regAt (w : Word) (lo : Nat) : Reg := Reg.ofBits (w.extractLsb' lo 4)

/-- `shift_imm`, `shift_type`, `Rm` of `arm_dp_regshift_imm`. -/
def shiftImmOf (w : Word) : Operand2 :=
  .shiftImm (w.extractLsb' 7 5) (ShiftType.ofBits (w.extractLsb' 5 2)) (regAt w 0)

/-- `Rs`, `shift_type`, `Rm` of `arm_dp_regshift_reg`. -/
def shiftRegOf (w : Word) : Operand2 :=
  .shiftReg (regAt w 8) (ShiftType.ofBits (w.extractLsb' 5 2)) (regAt w 0)

/-- The P and W bits (44 R310). -/
def indexOf (w : Word) : Index :=
  if w.getLsbD 24 then (if w.getLsbD 21 then .pre else .offset) else .post

/-- The offset of `arm_ldst_imm`, `arm_ldst_reg` (R127). -/
def offsetOf (w : Word) : Offset :=
  if w.getLsbD 25 then .reg (w.extractLsb' 7 5) (ShiftType.ofBits (w.extractLsb' 5 2)) (regAt w 0)
  else .imm (w.extractLsb' 0 12)

/-- The offset of `arm_ldsth_imm`, `arm_ldsth_reg` (R126). -/
def halfOffsetOf (w : Word) : HalfOffset :=
  if w.getLsbD 22 then .imm (w.extractLsb' 8 4 ++ w.extractLsb' 0 4) else .reg (regAt w 0)

/-- The P and U bits of a block transfer (45 R350). -/
def blockModeOf (w : Word) : BlockMode :=
  if w.getLsbD 24 then (if w.getLsbD 23 then .ib else .db) else if w.getLsbD 23 then .ia else .da

/-- The data-processing instruction of a word, by its opcode field (R122). -/
def dpOf (w : Word) (op2 : Operand2) : Instr :=
  let c := Cond.ofBits (w.extractLsb' 28 4)
  let sf := w.getLsbD 20
  let rn := regAt w 16
  let rd := regAt w 12
  match (w.extractLsb' 21 4).toNat with
  | 0 => .and c sf rn rd op2
  | 1 => .eor c sf rn rd op2
  | 2 => .sub c sf rn rd op2
  | 3 => .rsb c sf rn rd op2
  | 4 => .add c sf rn rd op2
  | 5 => .adc c sf rn rd op2
  | 6 => .sbc c sf rn rd op2
  | 7 => .rsc c sf rn rd op2
  | 8 => .tst c rn rd op2
  | 9 => .teq c rn rd op2
  | 10 => .cmp c rn rd op2
  | 11 => .cmn c rn rd op2
  | 12 => .orr c sf rn rd op2
  | 13 => .mov c sf rd op2
  | 14 => .bic c sf rn rd op2
  | _ => .mvn c sf rd op2

/-- The instruction of a 32-bit word. -/
def decodeArm (w : Word) : Instr :=
  let c := Cond.ofBits (w.extractLsb' 28 4)
  let sf := w.getLsbD 20
  let up := w.getLsbD 23
  let wb := w.getLsbD 21
  let p := w.getLsbD 22
  let rn := regAt w 16
  let rd := regAt w 12
  let rs := regAt w 8
  let rm := regAt w 0
  let raw := w.extractLsb' 0 28
  match armClass (armIndex w) with
  | .msrImm => .msrImm c p (w.extractLsb' 16 4) (w.extractLsb' 8 4) (w.extractLsb' 0 8)
  | .reservedPsrImm => .reservedPsrImm c raw
  | .dpImm => dpOf w (.imm (w.extractLsb' 8 4) (w.extractLsb' 0 8))
  | .bx => .bx c rm
  | .mul => .mul c sf rn rs rm
  | .mla => .mla c sf rn rd rs rm
  | .reservedMul => .reservedMul c raw
  | .umull => .umull c sf rn rd rs rm
  | .umlal => .umlal c sf rn rd rs rm
  | .smull => .smull c sf rn rd rs rm
  | .smlal => .smlal c sf rn rd rs rm
  | .swp => .swp c rn rd rm
  | .swpb => .swpb c rn rd rm
  | .reservedSwp => .reservedSwp c raw
  | .reservedHalfPostw => .reservedHalfPostw c raw
  | .ldrh => .ldrh c (indexOf w) up rn rd (halfOffsetOf w)
  | .ldrsb => .ldrsb c (indexOf w) up rn rd (halfOffsetOf w)
  | .ldrsh => .ldrsh c (indexOf w) up rn rd (halfOffsetOf w)
  | .strh => .strh c (indexOf w) up rn rd (halfOffsetOf w)
  | .reservedHalfStore => .reservedHalfStore c raw
  | .mrs => .mrs c p rd
  | .msrReg => .msrReg c p (w.extractLsb' 16 4) rm
  | .reservedPsrReg => .reservedPsrReg c raw
  | .dpShiftImm => dpOf w (shiftImmOf w)
  | .dpShiftReg => dpOf w (shiftRegOf w)
  | .undefined => .undefined c raw
  | .ldr => .ldr c (indexOf w) up rn rd (offsetOf w)
  | .ldrb => .ldrb c (indexOf w) up rn rd (offsetOf w)
  | .str => .str c (indexOf w) up rn rd (offsetOf w)
  | .strb => .strb c (indexOf w) up rn rd (offsetOf w)
  | .ldrt => .ldrt c up rn rd (offsetOf w)
  | .ldrbt => .ldrbt c up rn rd (offsetOf w)
  | .strt => .strt c up rn rd (offsetOf w)
  | .strbt => .strbt c up rn rd (offsetOf w)
  | .ldm => .ldm c (blockModeOf w) p wb rn (w.extractLsb' 0 16)
  | .stm => .stm c (blockModeOf w) p wb rn (w.extractLsb' 0 16)
  | .b => .b c (w.extractLsb' 0 24)
  | .bl => .bl c (w.extractLsb' 0 24)
  | .swi => .swi c (w.extractLsb' 0 24)
  | .coprocessor => .coprocessor c raw

/-! ## Operand fields of the 16-bit set (R132) -/

/-- The low register field whose lowest bit is `lo`. -/
def lowRegAt (w : Half) (lo : Nat) : LowReg := LowReg.ofBits (w.extractLsb' lo 3)

/-- `H1 : Rd` of format 5. -/
def hiRd (w : Half) : Reg := Reg.ofBits (w.extractLsb' 7 1 ++ w.extractLsb' 0 3)

/-- `H2 : Rs` of format 5. -/
def hiRs (w : Half) : Reg := Reg.ofBits (w.extractLsb' 6 1 ++ w.extractLsb' 3 3)

/-- The format 4 instruction of a halfword, by its op field (R131). -/
def aluOf (w : Half) : Instr :=
  let rs := lowRegAt w 3
  let rd := lowRegAt w 0
  match (w.extractLsb' 6 4).toNat with
  | 0 => .tAnd rs rd
  | 1 => .tEor rs rd
  | 2 => .tLsl rs rd
  | 3 => .tLsr rs rd
  | 4 => .tAsr rs rd
  | 5 => .tAdc rs rd
  | 6 => .tSbc rs rd
  | 7 => .tRor rs rd
  | 8 => .tTst rs rd
  | 9 => .tNeg rs rd
  | 10 => .tCmp rs rd
  | 11 => .tCmn rs rd
  | 12 => .tOrr rs rd
  | 13 => .tMul rs rd
  | 14 => .tBic rs rd
  | _ => .tMvn rs rd

/-- The instruction of a 16-bit halfword. -/
def decodeThumb (w : Half) : Instr :=
  let r8 := lowRegAt w 8
  let r6 := lowRegAt w 6
  let r3 := lowRegAt w 3
  let r0 := lowRegAt w 0
  let imm5 := w.extractLsb' 6 5
  let imm3 := w.extractLsb' 6 3
  let imm8 := w.extractLsb' 0 8
  let imm11 := w.extractLsb' 0 11
  match thumbClass (thumbIndex w) with
  | .lslImm => .tLslImm imm5 r3 r0
  | .lsrImm => .tLsrImm imm5 r3 r0
  | .asrImm => .tAsrImm imm5 r3 r0
  | .addReg => .tAddReg r6 r3 r0
  | .subReg => .tSubReg r6 r3 r0
  | .addImm3 => .tAddImm3 imm3 r3 r0
  | .subImm3 => .tSubImm3 imm3 r3 r0
  | .movImm => .tMovImm r8 imm8
  | .cmpImm => .tCmpImm r8 imm8
  | .addImm8 => .tAddImm8 r8 imm8
  | .subImm8 => .tSubImm8 r8 imm8
  | .alu => aluOf w
  | .addHi => .tAddHi (hiRd w) (hiRs w)
  | .cmpHi => .tCmpHi (hiRd w) (hiRs w)
  | .movHi => .tMovHi (hiRd w) (hiRs w)
  | .bx => .tBx (hiRs w)
  | .reservedHiLoLo => .tReservedHiLoLo w
  | .reservedBxH1 => .tReservedBxH1 w
  | .ldrPc => .tLdrPc r8 imm8
  | .strReg => .tStrReg r6 r3 r0
  | .strbReg => .tStrbReg r6 r3 r0
  | .ldrReg => .tLdrReg r6 r3 r0
  | .ldrbReg => .tLdrbReg r6 r3 r0
  | .strhReg => .tStrhReg r6 r3 r0
  | .ldsbReg => .tLdsbReg r6 r3 r0
  | .ldrhReg => .tLdrhReg r6 r3 r0
  | .ldshReg => .tLdshReg r6 r3 r0
  | .strImm => .tStrImm imm5 r3 r0
  | .ldrImm => .tLdrImm imm5 r3 r0
  | .strbImm => .tStrbImm imm5 r3 r0
  | .ldrbImm => .tLdrbImm imm5 r3 r0
  | .strhImm => .tStrhImm imm5 r3 r0
  | .ldrhImm => .tLdrhImm imm5 r3 r0
  | .strSp => .tStrSp r8 imm8
  | .ldrSp => .tLdrSp r8 imm8
  | .addPc => .tAddPc r8 imm8
  | .addSp => .tAddSp r8 imm8
  | .spAdd => .tSpAdd (w.extractLsb' 0 7)
  | .spSub => .tSpSub (w.extractLsb' 0 7)
  | .push => .tPush (w.getLsbD 8) imm8
  | .pop => .tPop (w.getLsbD 8) imm8
  | .undefined => .tUndefined w
  | .stmia => .tStmia r8 imm8
  | .ldmia => .tLdmia r8 imm8
  | .bcond => .tBcond (Cond.ofBits (w.extractLsb' 8 4)) imm8
  | .reservedBcondAl => .tReservedBcondAl w
  | .swi => .tSwi imm8
  | .b => .tB imm11
  | .blFirst => .tBlFirst imm11
  | .blSecond => .tBlSecond imm11

/-! ## Bytes -/

/-- Why bytes do not decode: fewer bytes than one instruction of the set has. No word is refused: every index of
both tables is bound (R114), the reserved ones to constructors of their own. -/
inductive DecodeError
  | truncated
  deriving DecidableEq, Repr

/-- One instruction from the front of a list of bytes, and the bytes after it; `CPSR.T` alone gives the length
(R110), and bit 0 is bit 0 of the first byte (R111). -/
def decodeBytes (thumb : Bool) : List Byte → Except DecodeError (Instr × List Byte)
  | b0 :: b1 :: rest =>
    if thumb then .ok (decodeThumb (b1 ++ b0), rest)
    else
      match rest with
      | b2 :: b3 :: rest' => .ok (decodeArm (b3 ++ b2 ++ b1 ++ b0), rest')
      | _ => .error .truncated
  | _ => .error .truncated

/-- The instruction of a numbered table word: 32 bits in the 32-bit set, 16 bits in the 16-bit set (R148), laid out
low byte first. -/
def decodeTableWord (nbits w : Nat) : Option Instr :=
  let byte (k : Nat) : Byte := BitVec.ofNat 8 (w >>> (8 * k))
  if nbits = 32 then
    match decodeBytes false [byte 0, byte 1, byte 2, byte 3] with
    | .ok (i, _) => some i
    | .error _ => none
  else if nbits = 16 then
    match decodeBytes true [byte 0, byte 1] with
    | .ok (i, _) => some i
    | .error _ => none
  else none

/-! ## The encoder -/

/-- An encoded instruction: a word of the 32-bit set or a halfword of the 16-bit set. -/
inductive Code
  | arm (w : Word)
  | thumb (w : Half)
  deriving DecidableEq, Repr

/-- What a code means in its set. -/
def Code.decode : Code → Instr
  | .arm w => decodeArm w
  | .thumb w => decodeThumb w

/-- One bit. -/
def bit1 (b : Bool) : BitVec 1 := BitVec.ofBool b

/-- A data-processing word (R122). -/
def encodeDp (c : Cond) (op : BitVec 4) (sf : Bool) (rn rd : Reg) : Operand2 → Code
  | .imm rot imm =>
    .arm (c.bits ++ 0b00#2 ++ 1#1 ++ op ++ bit1 sf ++ Reg.bits rn ++ Reg.bits rd ++ rot ++ imm)
  | .shiftImm amt ty rm =>
    .arm (c.bits ++ 0b00#2 ++ 0#1 ++ op ++ bit1 sf ++ Reg.bits rn ++ Reg.bits rd ++ amt ++ ty.bits ++ 0#1
      ++ Reg.bits rm)
  | .shiftReg rs ty rm =>
    .arm (c.bits ++ 0b00#2 ++ 0#1 ++ op ++ bit1 sf ++ Reg.bits rn ++ Reg.bits rd ++ Reg.bits rs ++ 0#1 ++ ty.bits
      ++ 1#1 ++ Reg.bits rm)

/-- A multiply word (R124): `a` is the A bit, `hd` bits 19:16, `ld` bits 15:12. -/
def encodeMul (c : Cond) (op : BitVec 5) (signed a sf : Bool) (hd ld rs rm : Reg) : Code :=
  .arm (c.bits ++ op ++ bit1 signed ++ bit1 a ++ bit1 sf ++ Reg.bits hd ++ Reg.bits ld ++ Reg.bits rs ++ 0b1001#4
    ++ Reg.bits rm)

/-- The P bit of an index mode (44 R310). -/
def Index.p : Index → Bool
  | .offset => true | .pre => true | .post => false

/-- The W bit of an index mode (44 R310). -/
def Index.w : Index → Bool
  | .offset => false | .pre => true | .post => false

/-- A word or byte transfer (R127): `p`, `up`, `b`, `w`, `l` are the bits P, U, B, W, L. -/
def encodeLdst (c : Cond) (p up b w l : Bool) (rn rd : Reg) : Offset → Code
  | .imm imm =>
    .arm (c.bits ++ 0b01#2 ++ 0#1 ++ bit1 p ++ bit1 up ++ bit1 b ++ bit1 w ++ bit1 l ++ Reg.bits rn ++ Reg.bits rd
      ++ imm)
  | .reg amt ty rm =>
    .arm (c.bits ++ 0b01#2 ++ 1#1 ++ bit1 p ++ bit1 up ++ bit1 b ++ bit1 w ++ bit1 l ++ Reg.bits rn ++ Reg.bits rd
      ++ amt ++ ty.bits ++ 0#1 ++ Reg.bits rm)

/-- A halfword or signed transfer (R126): `sh` is bits 6:5. -/
def encodeHalf (c : Cond) (ix : Index) (up l : Bool) (sh : BitVec 2) (rn rd : Reg) : HalfOffset → Code
  | .imm imm =>
    .arm (c.bits ++ 0b000#3 ++ bit1 ix.p ++ bit1 up ++ 1#1 ++ bit1 ix.w ++ bit1 l ++ Reg.bits rn ++ Reg.bits rd
      ++ imm.extractLsb' 4 4 ++ 1#1 ++ sh ++ 1#1 ++ imm.extractLsb' 0 4)
  | .reg rm =>
    .arm (c.bits ++ 0b000#3 ++ bit1 ix.p ++ bit1 up ++ 0#1 ++ bit1 ix.w ++ bit1 l ++ Reg.bits rn ++ Reg.bits rd
      ++ 0b0000#4 ++ 1#1 ++ sh ++ 1#1 ++ Reg.bits rm)

/-- The P and U bits of a block mode (45 R350). -/
def BlockMode.bits : BlockMode → BitVec 2
  | .da => 0b00#2 | .ia => 0b01#2 | .db => 0b10#2 | .ib => 0b11#2

/-- A block transfer (R128). -/
def encodeBlock (c : Cond) (m : BlockMode) (sb wb l : Bool) (rn : Reg) (list : BitVec 16) : Code :=
  .arm (c.bits ++ 0b100#3 ++ m.bits ++ bit1 sb ++ bit1 wb ++ bit1 l ++ Reg.bits rn ++ list)

/-- A word given by its condition and bits 27:0. -/
def encodeRaw (c : Cond) (raw : BitVec 28) : Code := .arm (c.bits ++ raw)

/-- A format 4 halfword (R132). -/
def encodeAlu (op : BitVec 4) (rs rd : LowReg) : Code :=
  .thumb (0b010000#6 ++ op ++ LowReg.bits rs ++ LowReg.bits rd)

/-- A format 5 halfword (R132). -/
def encodeHi (op : BitVec 2) (rd rs : Reg) : Code :=
  .thumb (0b010001#6 ++ op ++ (Reg.bits rd).extractLsb' 3 1 ++ (Reg.bits rs).extractLsb' 3 1
    ++ (Reg.bits rs).extractLsb' 0 3 ++ (Reg.bits rd).extractLsb' 0 3)

/-- A halfword of three register fields or an immediate and two (formats 1, 2, 7 to 10). -/
def encodeThree (op : BitVec 7) (a b d : BitVec 3) : Code := .thumb (op ++ a ++ b ++ d)

/-- A halfword with a 5-bit immediate and two registers (formats 1, 9, 10). -/
def encodeImm5 (op : BitVec 5) (imm : BitVec 5) (b d : LowReg) : Code :=
  .thumb (op ++ imm ++ LowReg.bits b ++ LowReg.bits d)

/-- A halfword with a register in bits 10:8 and an 8-bit field (formats 3, 6, 11, 12, 15). -/
def encodeImm8 (op : BitVec 5) (rd : LowReg) (imm : BitVec 8) : Code := .thumb (op ++ LowReg.bits rd ++ imm)

/-- The word of an instruction. The bits the encoding ignores are written as R123 and R125 print them. -/
def encode : Instr → Code
  | .and c sf rn rd op2 => encodeDp c 0b0000#4 sf rn rd op2
  | .eor c sf rn rd op2 => encodeDp c 0b0001#4 sf rn rd op2
  | .sub c sf rn rd op2 => encodeDp c 0b0010#4 sf rn rd op2
  | .rsb c sf rn rd op2 => encodeDp c 0b0011#4 sf rn rd op2
  | .add c sf rn rd op2 => encodeDp c 0b0100#4 sf rn rd op2
  | .adc c sf rn rd op2 => encodeDp c 0b0101#4 sf rn rd op2
  | .sbc c sf rn rd op2 => encodeDp c 0b0110#4 sf rn rd op2
  | .rsc c sf rn rd op2 => encodeDp c 0b0111#4 sf rn rd op2
  | .tst c rn rd op2 => encodeDp c 0b1000#4 true rn rd op2
  | .teq c rn rd op2 => encodeDp c 0b1001#4 true rn rd op2
  | .cmp c rn rd op2 => encodeDp c 0b1010#4 true rn rd op2
  | .cmn c rn rd op2 => encodeDp c 0b1011#4 true rn rd op2
  | .orr c sf rn rd op2 => encodeDp c 0b1100#4 sf rn rd op2
  | .mov c sf rd op2 => encodeDp c 0b1101#4 sf 0 rd op2
  | .bic c sf rn rd op2 => encodeDp c 0b1110#4 sf rn rd op2
  | .mvn c sf rd op2 => encodeDp c 0b1111#4 sf 0 rd op2
  | .mrs c p rd => .arm (c.bits ++ 0b00010#5 ++ bit1 p ++ 0b00#2 ++ 0b1111#4 ++ Reg.bits rd ++ 0#12)
  | .msrReg c p mask rm =>
    .arm (c.bits ++ 0b00010#5 ++ bit1 p ++ 0b10#2 ++ mask ++ 0b1111#4 ++ 0#8 ++ Reg.bits rm)
  | .msrImm c p mask rot imm =>
    .arm (c.bits ++ 0b00110#5 ++ bit1 p ++ 0b10#2 ++ mask ++ 0b1111#4 ++ rot ++ imm)
  | .mul c sf rd rs rm => encodeMul c 0b00000#5 false false sf rd 0 rs rm
  | .mla c sf rd rn rs rm => encodeMul c 0b00000#5 false true sf rd rn rs rm
  | .umull c sf rdHi rdLo rs rm => encodeMul c 0b00001#5 false false sf rdHi rdLo rs rm
  | .umlal c sf rdHi rdLo rs rm => encodeMul c 0b00001#5 false true sf rdHi rdLo rs rm
  | .smull c sf rdHi rdLo rs rm => encodeMul c 0b00001#5 true false sf rdHi rdLo rs rm
  | .smlal c sf rdHi rdLo rs rm => encodeMul c 0b00001#5 true true sf rdHi rdLo rs rm
  | .ldr c ix up rn rd off => encodeLdst c ix.p up false ix.w true rn rd off
  | .ldrb c ix up rn rd off => encodeLdst c ix.p up true ix.w true rn rd off
  | .str c ix up rn rd off => encodeLdst c ix.p up false ix.w false rn rd off
  | .strb c ix up rn rd off => encodeLdst c ix.p up true ix.w false rn rd off
  | .ldrt c up rn rd off => encodeLdst c false up false true true rn rd off
  | .ldrbt c up rn rd off => encodeLdst c false up true true true rn rd off
  | .strt c up rn rd off => encodeLdst c false up false true false rn rd off
  | .strbt c up rn rd off => encodeLdst c false up true true false rn rd off
  | .ldrh c ix up rn rd off => encodeHalf c ix up true 0b01#2 rn rd off
  | .strh c ix up rn rd off => encodeHalf c ix up false 0b01#2 rn rd off
  | .ldrsb c ix up rn rd off => encodeHalf c ix up true 0b10#2 rn rd off
  | .ldrsh c ix up rn rd off => encodeHalf c ix up true 0b11#2 rn rd off
  | .ldm c m sb wb rn list => encodeBlock c m sb wb true rn list
  | .stm c m sb wb rn list => encodeBlock c m sb wb false rn list
  | .swp c rn rd rm =>
    .arm (c.bits ++ 0b00010000#8 ++ Reg.bits rn ++ Reg.bits rd ++ 0b0000#4 ++ 0b1001#4 ++ Reg.bits rm)
  | .swpb c rn rd rm =>
    .arm (c.bits ++ 0b00010100#8 ++ Reg.bits rn ++ Reg.bits rd ++ 0b0000#4 ++ 0b1001#4 ++ Reg.bits rm)
  | .b c imm => .arm (c.bits ++ 0b101#3 ++ 0#1 ++ imm)
  | .bl c imm => .arm (c.bits ++ 0b101#3 ++ 1#1 ++ imm)
  | .bx c rm => .arm (c.bits ++ 0b00010010#8 ++ 0xFFF#12 ++ 0b0001#4 ++ Reg.bits rm)
  | .swi c imm => .arm (c.bits ++ 0b1111#4 ++ imm)
  | .undefined c raw => encodeRaw c raw
  | .coprocessor c raw => encodeRaw c raw
  | .reservedPsrImm c raw => encodeRaw c raw
  | .reservedPsrReg c raw => encodeRaw c raw
  | .reservedMul c raw => encodeRaw c raw
  | .reservedSwp c raw => encodeRaw c raw
  | .reservedHalfPostw c raw => encodeRaw c raw
  | .reservedHalfStore c raw => encodeRaw c raw
  | .tLslImm imm rs rd => encodeImm5 0b00000#5 imm rs rd
  | .tLsrImm imm rs rd => encodeImm5 0b00001#5 imm rs rd
  | .tAsrImm imm rs rd => encodeImm5 0b00010#5 imm rs rd
  | .tAddReg rn rs rd => encodeThree 0b0001100#7 (LowReg.bits rn) (LowReg.bits rs) (LowReg.bits rd)
  | .tSubReg rn rs rd => encodeThree 0b0001101#7 (LowReg.bits rn) (LowReg.bits rs) (LowReg.bits rd)
  | .tAddImm3 imm rs rd => encodeThree 0b0001110#7 imm (LowReg.bits rs) (LowReg.bits rd)
  | .tSubImm3 imm rs rd => encodeThree 0b0001111#7 imm (LowReg.bits rs) (LowReg.bits rd)
  | .tMovImm rd imm => encodeImm8 0b00100#5 rd imm
  | .tCmpImm rd imm => encodeImm8 0b00101#5 rd imm
  | .tAddImm8 rd imm => encodeImm8 0b00110#5 rd imm
  | .tSubImm8 rd imm => encodeImm8 0b00111#5 rd imm
  | .tAnd rs rd => encodeAlu 0b0000#4 rs rd
  | .tEor rs rd => encodeAlu 0b0001#4 rs rd
  | .tLsl rs rd => encodeAlu 0b0010#4 rs rd
  | .tLsr rs rd => encodeAlu 0b0011#4 rs rd
  | .tAsr rs rd => encodeAlu 0b0100#4 rs rd
  | .tAdc rs rd => encodeAlu 0b0101#4 rs rd
  | .tSbc rs rd => encodeAlu 0b0110#4 rs rd
  | .tRor rs rd => encodeAlu 0b0111#4 rs rd
  | .tTst rs rd => encodeAlu 0b1000#4 rs rd
  | .tNeg rs rd => encodeAlu 0b1001#4 rs rd
  | .tCmp rs rd => encodeAlu 0b1010#4 rs rd
  | .tCmn rs rd => encodeAlu 0b1011#4 rs rd
  | .tOrr rs rd => encodeAlu 0b1100#4 rs rd
  | .tMul rs rd => encodeAlu 0b1101#4 rs rd
  | .tBic rs rd => encodeAlu 0b1110#4 rs rd
  | .tMvn rs rd => encodeAlu 0b1111#4 rs rd
  | .tAddHi rd rs => encodeHi 0b00#2 rd rs
  | .tCmpHi rd rs => encodeHi 0b01#2 rd rs
  | .tMovHi rd rs => encodeHi 0b10#2 rd rs
  | .tBx rs => encodeHi 0b11#2 0 rs
  | .tLdrPc rd imm => encodeImm8 0b01001#5 rd imm
  | .tStrReg ro rb rd => encodeThree 0b0101000#7 (LowReg.bits ro) (LowReg.bits rb) (LowReg.bits rd)
  | .tStrbReg ro rb rd => encodeThree 0b0101010#7 (LowReg.bits ro) (LowReg.bits rb) (LowReg.bits rd)
  | .tLdrReg ro rb rd => encodeThree 0b0101100#7 (LowReg.bits ro) (LowReg.bits rb) (LowReg.bits rd)
  | .tLdrbReg ro rb rd => encodeThree 0b0101110#7 (LowReg.bits ro) (LowReg.bits rb) (LowReg.bits rd)
  | .tStrhReg ro rb rd => encodeThree 0b0101001#7 (LowReg.bits ro) (LowReg.bits rb) (LowReg.bits rd)
  | .tLdsbReg ro rb rd => encodeThree 0b0101011#7 (LowReg.bits ro) (LowReg.bits rb) (LowReg.bits rd)
  | .tLdrhReg ro rb rd => encodeThree 0b0101101#7 (LowReg.bits ro) (LowReg.bits rb) (LowReg.bits rd)
  | .tLdshReg ro rb rd => encodeThree 0b0101111#7 (LowReg.bits ro) (LowReg.bits rb) (LowReg.bits rd)
  | .tStrImm imm rb rd => encodeImm5 0b01100#5 imm rb rd
  | .tLdrImm imm rb rd => encodeImm5 0b01101#5 imm rb rd
  | .tStrbImm imm rb rd => encodeImm5 0b01110#5 imm rb rd
  | .tLdrbImm imm rb rd => encodeImm5 0b01111#5 imm rb rd
  | .tStrhImm imm rb rd => encodeImm5 0b10000#5 imm rb rd
  | .tLdrhImm imm rb rd => encodeImm5 0b10001#5 imm rb rd
  | .tStrSp rd imm => encodeImm8 0b10010#5 rd imm
  | .tLdrSp rd imm => encodeImm8 0b10011#5 rd imm
  | .tAddPc rd imm => encodeImm8 0b10100#5 rd imm
  | .tAddSp rd imm => encodeImm8 0b10101#5 rd imm
  | .tSpAdd imm => .thumb (0b10110000#8 ++ 0#1 ++ imm)
  | .tSpSub imm => .thumb (0b10110000#8 ++ 1#1 ++ imm)
  | .tPush lr list => .thumb (0b1011#4 ++ 0#1 ++ 0b10#2 ++ bit1 lr ++ list)
  | .tPop pc list => .thumb (0b1011#4 ++ 1#1 ++ 0b10#2 ++ bit1 pc ++ list)
  | .tStmia rb list => encodeImm8 0b11000#5 rb list
  | .tLdmia rb list => encodeImm8 0b11001#5 rb list
  | .tBcond c imm => .thumb (0b1101#4 ++ c.bits ++ imm)
  | .tSwi imm => .thumb (0b11011111#8 ++ imm)
  | .tB imm => .thumb (0b11100#5 ++ imm)
  | .tBlFirst imm => .thumb (0b11110#5 ++ imm)
  | .tBlSecond imm => .thumb (0b11111#5 ++ imm)
  | .tUndefined raw => .thumb raw
  | .tReservedHiLoLo raw => .thumb raw
  | .tReservedBxH1 raw => .thumb raw
  | .tReservedBcondAl raw => .thumb raw

end Sys2Proof
end

