-- ==== Sys2Proof/Machine/State.lean ====
section
/-! DEFINITION. The state of the block as plain data (spec/10_state.md R20 to R47, spec/65_scheduler.md R570 to
R572), what the environment does to it between steps and inside bus calls (R5, R45, R48, R75), the reasons a step
stops, and the state after reset (10 R50, 70 R620). -/

namespace Sys2Proof.Machine

open Sys2Proof

/-! ## Modes and banks -/

/-- The seven recognised modes (R31). -/
inductive Mode
  | usr | fiq | irq | svc | abt | und | sys
  deriving DecidableEq, Repr

/-- The banks of r13 and r14 (R24). `shared` is the spec's bank NONE, of User and System. -/
inductive Bank
  | shared | fiq | irq | svc | abt | und
  deriving DecidableEq, Repr

/-- r13 and r14 of one bank. -/
structure Pair where
  r13 : Word
  r14 : Word
  deriving DecidableEq, Repr

/-- `bank_lo` (S2). -/
structure LoBanks where
  shared : Pair
  fiq : Pair
  irq : Pair
  svc : Pair
  abt : Pair
  und : Pair
  deriving DecidableEq, Repr

/-- `bank_hi`, r8 to r12 (S3). -/
structure HiBanks where
  shared : Vector Word 5
  fiq : Vector Word 5
  deriving DecidableEq, Repr

/-- `spsr` (S5). -/
structure Spsrs where
  fiq : Word
  irq : Word
  svc : Word
  abt : Word
  und : Word
  deriving DecidableEq, Repr

/-! ## The bus -/

/-- Nonsequential or sequential: every access carries exactly one of the two (20 R71). -/
inductive AccessKind
  | n | s
  deriving DecidableEq, Repr

/-- Access flags (20 R71). -/
structure Access where
  kind : AccessKind
  code : Bool
  lock : Bool
  dma : Bool
  deriving DecidableEq, Repr

/-- Access sizes 1, 2, 4 (20 R80). -/
inductive Size
  | byte | half | word
  deriving DecidableEq, Repr

/-- One call of the bus contract (20 R70): the address exactly as computed, the value of a write. -/
inductive BusCall
  | read (size : Size) (addr : Word) (acc : Access)
  | write (size : Size) (addr : Word) (value : Word) (acc : Access)
  | idle
  deriving DecidableEq, Repr

/-! ## The scheduler -/

/-- A pending event (65 R572). -/
structure Event where
  cls : Nat
  timestamp : Nat
  priority : Nat
  seq : Nat
  handle : Nat
  deriving DecidableEq, Repr

/-- S12 (65 R570). `pending` is kept in key order (R573), so the first event is the next to fire. -/
structure Sched where
  now : Nat
  pending : List Event
  seq : Nat
  deriving DecidableEq, Repr

/-! ## The reasons a step stops -/

/-- Faults: the fatal assertions of 00 R10 (b) and the named fault of 10 R38. All are safe: the model stops. -/
inductive Fault
  /-- `SwitchMode` received an unrecognised mode (10 R38, D22). Raised by MSR to CPSR, the exception returns, and a
  step in the degraded state. Safe: the hardware goes on. -/
  | invalidMode
  /-- Fatal: CPSR.M names no bank while `invalid_mode` is clear, which no rule produces (10 R39). Raised by a step.
  Safe (log entry 8). -/
  | unreachableBankingState
  /-- Fatal: `Add` reached `SCHED_CAPACITY` (65 R575). Raised by an environment act. -/
  | schedulerCapacity
  deriving DecidableEq, Repr

/-- Refusals: the cases the spec says a model must refuse (00 R10 (c)). All are safe: the spec gives no effect. -/
inductive Refusal
  /-- An instruction whose meaning is not written. Raised by `exec` alone. Safe. -/
  | notModelled (mnemonic : String)
  /-- Register-specified shift by r15 (42 R243). Raised by data processing. Safe. -/
  | shiftByPc
  /-- TST, TEQ, CMP, CMN with Rd = 15 (42 R245). Safe. -/
  | comparePc
  /-- Exception return by data processing in User or System mode (42 R244, D36). Safe. -/
  | returnWithoutSpsr
  /-- LDM or STM with S = 1 in User or System mode (45 R351, R352). Safe. -/
  | sBitWithoutSpsr
  /-- MRS with Rd = 15 (43 R280). Safe. -/
  | mrsToPc
  /-- MSR with Rm = 15 (43 R281). Safe. -/
  | msrFromPc
  /-- MSR writes a 1 to a reserved bit (43 R284, D24). Safe. -/
  | msrReservedBit
  /-- MSR to SPSR in User or System mode (43 R284, 10 R35). Safe. -/
  | msrSpsrWithoutSpsr
  /-- MSR to CPSR would change T (43 R284). Safe. -/
  | msrChangesT
  /-- MUL or MLA operands (43 R285, R286). Safe. -/
  | mulOperands
  /-- Long multiply operands (43 R287). Safe. -/
  | mullOperands
  /-- Single transfer with write-back and Rn = 15 (44 R310). Safe. -/
  | writebackToPc
  /-- Single transfer with write-back and Rn = Rd (44 R310). Safe. -/
  | writebackToRd
  /-- Single transfer with Rm = 15 (44 R310). Safe. -/
  | offsetPc
  /-- Byte transfer with Rd = 15 (44 R311, R313). Safe. -/
  | bytePc
  /-- Halfword or signed transfer with Rd = 15 (44 R317). Safe. -/
  | halfPc
  /-- Block transfer with Rn = 15 (45 R350). Safe. -/
  | blockBasePc
  /-- Block transfer with an empty list (45 R350, 48 R467 to R470). Safe. -/
  | blockEmptyList
  /-- LDM with write-back and the base in the list (45 R351). Safe. -/
  | ldmBaseInList
  /-- STM or STMIA with write-back and the base in the list, not lowest (45 R352, 48 R469). Safe. -/
  | stmBaseNotLowest
  /-- User-bank transfer with write-back (45 R351, R352). Safe. -/
  | userBankWriteback
  /-- SWP or SWPB operands (45 R360). Safe. -/
  | swpOperands
  /-- BX to the 32-bit set at an address with bit 1 set (46 R382, 49 R494). Safe. -/
  | bxUnaligned
  /-- Thumb MUL with Rd = Rs (47 R424). Safe. -/
  | thumbMulSameReg
  /-- Hi-register CMP with d = 15 (47 R428). Safe. -/
  | thumbCmpPc
  /-- `RESERVED_PSR_IMM` (43 R283). Safe. -/
  | reservedPsrImm
  /-- `RESERVED_PSR_REG` (43 R283). Safe. -/
  | reservedPsrReg
  /-- `RESERVED_MUL` (43 R291). Safe. -/
  | reservedMul
  /-- `RESERVED_SWP` (45 R362). Safe. -/
  | reservedSwp
  /-- `RESERVED_HALF_POSTW` (44 R322). Safe. -/
  | reservedHalfPostw
  /-- `RESERVED_HALF_STORE` (44 R322). Safe. -/
  | reservedHalfStore
  /-- `RESERVED_HI_LOLO` (49 R497). Safe. -/
  | reservedHiLoLo
  /-- `RESERVED_BX_H1` (49 R497). Safe. -/
  | reservedBxH1
  /-- `RESERVED_BCOND_AL` (49 R497). Safe. -/
  | reservedBcondAl
  /-- An access to r8 to r14 or SPSR, or an exception entry, while `bank_conflict` is set (10 R46, 45 R353,
  60 R525, D23). Raised by any instruction and by a step that would take an IRQ. Safe. -/
  | bankConflict
  /-- `Add` with an unregistered class (65 R576). Raised by an environment act. Safe. -/
  | unregisteredClass
  /-- `Add` with a priority above `SCHED_PRIO_MAX` (65 R576). Raised by an environment act. Safe. -/
  | priorityOutOfRange
  /-- `Cancel` of a handle that no pending event has (65 R577). Raised by an environment act. Safe. -/
  | deadHandle
  /-- A query for the next timestamp with nothing pending (65 R583). Raised by an environment act. Safe. -/
  | noPendingEvent
  /-- `AddCycles` inside a callback (65 R580, D20). Raised by an environment act. Safe. -/
  | nestedAddCycles
  /-- `Reset()` inside a bus call or a callback (70 R621, 20 R75). Raised by an environment act. Safe. -/
  | resetInsideCall
  /-- `Run()` inside a bus call or a callback (20 R75). Raised by an environment act. Safe. -/
  | runInsideCall
  /-- The environment reads or writes CPU state inside a bus call or a callback (10 R48, 20 R75). Raised by an
  environment act. Safe. -/
  | cpuAccessInsideCall
  /-- `Run()` before the first `Reset()` (70 R623, D8). Raised by a step. Safe. -/
  | runBeforeReset
  /-- The host restores a snapshot that no bulk read gives (10 R48; log entry 18). Safe. -/
  | invalidSnapshot
  deriving DecidableEq, Repr

/-- A stop on record: the fault or the refusal that an act of the environment raised inside a bus call, which the step
answers (log entry 4). -/
inductive Stop
  | fault (f : Fault)
  | refused (why : Refusal)
  deriving DecidableEq, Repr

/-! ## The environment -/

/-- What the environment may do between steps, inside a bus call and inside a callback alike (20 R75, 65 R591). -/
inductive CommonAct
  /-- `Add(delay, class, priority)` (65 R576). -/
  | add (delay cls priority : Nat)
  /-- `Cancel(handle)` (65 R577). -/
  | cancel (handle : Nat)
  /-- `GetTimestampNow()` (65 R583). -/
  | getNow
  /-- `GetTimestampTarget()` (65 R583). -/
  | getTarget
  /-- `GetRemainingCycleCount()` (65 R583). -/
  | getRemaining
  /-- The interrupt controller drives the IRQ wire (10 R45). -/
  | setIrq (level : Bool)
  /-- The platform drives `HALTED` (60 R536). -/
  | setHalted (level : Bool)
  /-- Another master or a device changes a byte of memory (20 R75, R92). -/
  | poke (addr : Word) (v : Byte)
  deriving DecidableEq, Repr

/-- What a scheduler callback may try; all but the common acts are refused (20 R75, 65 R580, 70 R621). -/
inductive CallbackAct
  | common (a : CommonAct)
  /-- A nested `AddCycles(n)`. -/
  | addCycles (n : Nat)
  | reset
  | run
  /-- A read or write of CPU state. -/
  | touchCpu
  deriving DecidableEq, Repr

/-- What the environment may try inside a bus call of the CPU; the last three are refused (20 R75, 65 R591, 70 R621).
-/
inductive InsideAct
  | common (a : CommonAct)
  /-- `AddCycles(n)`, the cost of the call; `scripts` says what the callbacks of the events it fires do, first fired
  first (65 R580, R591). -/
  | addCycles (n : Nat) (scripts : List (List CallbackAct))
  | reset
  | run
  /-- A read or write of CPU state. -/
  | touchCpu
  deriving DecidableEq, Repr

/-- The whole of S1 to S11 (10 R48). -/
structure Snapshot where
  x : Vector Word 16
  bankLo : LoBanks
  bankHi : HiBanks
  cpsr : Word
  spsr : Spsrs
  slot0 : Word
  slot1 : Word
  fetchKind : AccessKind
  irqMaskLatch : Bool
  irqLine : Bool
  invalidMode : Bool
  bankConflict : Bool
  deriving DecidableEq, Repr

/-- What the environment and the host may do between two steps. -/
inductive EnvAct
  | common (a : CommonAct)
  /-- `AddCycles(n)`; `scripts` says what the callbacks of the events it fires do, first fired first (65 R580). -/
  | addCycles (n : Nat) (scripts : List (List CallbackAct))
  /-- `Reset()` (70 R620). -/
  | reset
  /-- The host reads S1 to S11 in bulk (10 R48). -/
  | save
  /-- The host replaces S1 to S11 in bulk (10 R48). -/
  | restore (snap : Snapshot)
  /-- The host configures software-interrupt interception (60 R540). -/
  | intercept (present : Bool)
  deriving DecidableEq, Repr

/-- What the block tells the environment, beside its bus calls. -/
inductive HostNote
  /-- The interception callback receives the call number (60 R540). -/
  | swiCallback (n : Word)
  /-- The callback of `e.cls` is invoked; `now` is what it sees (65 R580). -/
  | fired (e : Event) (now : Nat)
  /-- `Add` returns a handle (65 R576). -/
  | handle (h : Nat)
  /-- A query returns a number (65 R583). -/
  | answer (v : Int)
  /-- The host's bulk read (10 R48). -/
  | snapshot (s : Snapshot)
  deriving DecidableEq, Repr

/-! ## The state -/

/-- What lies outside the register file: the inputs S9 and `HALTED`, the scheduler S12, the memory behind the bus, the
parameters, and the model's own `env`, `inside`, `stop`, `bus`, `host` (log entries 4, 5). The environment acts on this
part alone (20 R75). -/
structure World where
  /-- S9 (10 R45). -/
  irqLine : Bool
  /-- The `HALTED` input (60 R536). -/
  halted : Bool
  /-- S12 (10 R47). -/
  sched : Sched
  /-- The memory behind the bus (20 R79): strictly rising addresses, no listed byte 0; an unlisted byte reads 0
  (DESIGN CHOICE, unsafe, log entry 3). -/
  mem : List Host.Cell
  /-- Parameters and host configuration. -/
  cfg : Config
  /-- What the environment does at the entry of each of the coming steps, next step first (log entry 4). -/
  env : List (List EnvAct)
  /-- What the environment does inside each of the coming bus calls and interception callbacks, next call first (20 R75,
  log entry 4). -/
  inside : List (List InsideAct)
  /-- The stop that the environment raised inside a call of this step, if it did. -/
  stop : Option Stop
  /-- The bus calls of the last step, in order (70 R650; log entry 5). -/
  bus : List BusCall
  /-- What the last step told the host, in order (log entry 5). -/
  host : List HostNote
  deriving DecidableEq, Repr

/-- The state: S1 to S8, S10 and S11 of R20, which the CPU alone owns (10 R48), whether the block has been started, the
count of free values drawn, and the world around. -/
structure State where
  /-- S1: the visible general registers; `x[15]` is the stored r15, two widths ahead (R40). -/
  x : Vector Word 16
  /-- S2. -/
  bankLo : LoBanks
  /-- S3. -/
  bankHi : HiBanks
  /-- S4 (R27). -/
  cpsr : Word
  /-- S5. -/
  spsr : Spsrs
  /-- S6: the opcode that executes next. -/
  slot0 : Word
  /-- S6: the opcode after it. -/
  slot1 : Word
  /-- S7. -/
  fetchKind : AccessKind
  /-- S8 (R44). -/
  irqMaskLatch : Bool
  /-- S10 (R38). -/
  invalidMode : Bool
  /-- S11 (R46). -/
  bankConflict : Bool
  /-- `Reset()` has been called, or a snapshot loaded, since construction (70 R623; log entry 19). -/
  started : Bool
  /-- How many free values have been drawn (log entry 6). -/
  draws : Nat
  /-- S9, S12, memory, inputs, configuration and the environment's own part. -/
  world : World
  deriving DecidableEq, Repr

/-! ## Reset -/

/-- A bank pair of zeros. -/
def Pair.zero : Pair := { r13 := 0, r14 := 0 }

/-- The state after `Reset()` with the recommended parameters and nothing in memory (10 R50, 70 R620; log entries
1, 2, 3, 11, 12, 15). -/
def State.reset : State where
  x := #v[0, 0, 0, 0, 0, 0, 0, 0, 0, 0, 0, 0, 0, 0, 0, 0x00000008]
  bankLo :=
    { shared := Pair.zero, fiq := Pair.zero, irq := Pair.zero, svc := Pair.zero, abt := Pair.zero, und := Pair.zero }
  bankHi := { shared := #v[0, 0, 0, 0, 0], fiq := #v[0, 0, 0, 0, 0] }
  cpsr := 0x000000D3
  spsr := { fiq := 0, irq := 0, svc := 0, abt := 0, und := 0 }
  slot0 := 0
  slot1 := 0
  fetchKind := .s
  irqMaskLatch := true
  invalidMode := false
  bankConflict := false
  started := true
  draws := 0
  world :=
    { irqLine := false
      halted := false
      sched := { now := 0, pending := [], seq := 0 }
      mem := []
      cfg := Config.recommended
      env := []
      inside := []
      stop := none
      bus :=
        [.read .word 0x00000000 { kind := .n, code := true, lock := false, dma := false },
         .read .word 0x00000004 { kind := .s, code := true, lock := false, dma := false }]
      host := [] }

end Sys2Proof.Machine
end

