-- ==== Sys2Proof/Machine/Memory.lean ====
section
/-! DEFINITION. The memory behind the bus (spec/20_memory.md R79 to R84): a canonical list of (address, byte) pairs,
little-endian access functions, the rotated and signed loads. -/

namespace Sys2Proof.Machine

open Sys2Proof

namespace Memory

/-- The byte at an address; an unlisted address reads 0 (DESIGN CHOICE, unsafe, log entry 3). -/
def lookup : List Host.Cell → Nat → Byte
  | [], _ => 0
  | c :: m, k => if c.1 = k then c.2 else lookup m k

/-- Put a cell before the first cell of a larger address. -/
def insert : List Host.Cell → Nat → Byte → List Host.Cell
  | [], k, v => [(k, v)]
  | c :: m, k, v => if k < c.1 then (k, v) :: c :: m else c :: insert m k v

/-- Remove every cell of an address. -/
def erase : List Host.Cell → Nat → List Host.Cell
  | [], _ => []
  | c :: m, k => if c.1 = k then erase m k else c :: erase m k

/-- Write one byte, keeping the canonical form: a byte 0 is not listed. -/
def store (m : List Host.Cell) (k : Nat) (v : Byte) : List Host.Cell :=
  if v = 0 then erase m k else insert (erase m k) k v

/-- Canonical from address `lo` on: strictly rising addresses below 2^32, no byte 0. -/
def wfFrom : Nat → List Host.Cell → Bool
  | _, [] => true
  | lo, c :: m => decide (lo ≤ c.1) && decide (c.1 < 4294967296) && c.2 != 0 && wfFrom (c.1 + 1) m

/-- The canonical form of a memory. -/
def wf (m : List Host.Cell) : Bool := wfFrom 0 m

/-- `a & ~1` (R79). -/
def alignHalf (a : Word) : Word := a &&& 0xFFFFFFFE#32

/-- `a & ~3` (R79). -/
def alignWord (a : Word) : Word := a &&& 0xFFFFFFFC#32

/-- `ReadByte` (R79). -/
def readByte (m : List Host.Cell) (a : Word) : Byte := lookup m a.toNat

/-- `ReadHalf` (R79). -/
def readHalf (m : List Host.Cell) (a : Word) : Half :=
  readByte m (alignHalf a + 1) ++ readByte m (alignHalf a)

/-- `ReadWord` (R79). -/
def readWord (m : List Host.Cell) (a : Word) : Word :=
  readByte m (alignWord a + 3) ++ readByte m (alignWord a + 2) ++ readByte m (alignWord a + 1)
    ++ readByte m (alignWord a)

/-- `WriteByte` (R79). -/
def writeByte (m : List Host.Cell) (a : Word) (v : Word) : List Host.Cell :=
  store m a.toNat (v.extractLsb' 0 8)

/-- `WriteHalf` (R79). -/
def writeHalf (m : List Host.Cell) (a : Word) (v : Word) : List Host.Cell :=
  store (store m (alignHalf a).toNat (v.extractLsb' 0 8)) (alignHalf a + 1).toNat (v.extractLsb' 8 8)

/-- `WriteWord` (R79). -/
def writeWord (m : List Host.Cell) (a : Word) (v : Word) : List Host.Cell :=
  store (store (store (store m (alignWord a).toNat (v.extractLsb' 0 8))
    (alignWord a + 1).toNat (v.extractLsb' 8 8))
    (alignWord a + 2).toNat (v.extractLsb' 16 8))
    (alignWord a + 3).toNat (v.extractLsb' 24 8)

/-- The first byte a store of this size to `a` changes (R79, R81). -/
def storeBase : Size → Word → Word
  | .byte, a => a
  | .half, a => alignHalf a
  | .word, a => alignWord a

/-- How many bytes an access has (R80). -/
def sizeBytes : Size → Nat
  | .byte => 1
  | .half => 2
  | .word => 4

/-- A store of this size to `a` changes the byte at `b`. -/
def inStore (size : Size) (a b : Word) : Bool := decide ((b - storeBase size a).toNat < sizeBytes size)

/-- A write of this size (R73). -/
def write (m : List Host.Cell) : Size → Word → Word → List Host.Cell
  | .byte, a, v => writeByte m a v
  | .half, a, v => writeHalf m a v
  | .word, a, v => writeWord m a v

/-- A read of this size, zero-extended (R72). -/
def read (m : List Host.Cell) : Size → Word → Word
  | .byte, a => (readByte m a).setWidth 32
  | .half, a => (readHalf m a).setWidth 32
  | .word, a => readWord m a

/-- `ReadWordRotate` (R82). -/
def readWordRotate (m : List Host.Cell) (a : Word) : Word :=
  (read m .word a).rotateRight (8 * (a.extractLsb' 0 2).toNat)

/-- `ReadHalfRotate` (R83). -/
def readHalfRotate (m : List Host.Cell) (a : Word) : Word :=
  if a.getLsbD 0 then (read m .half a).rotateRight 8 else read m .half a

/-- The size of the access of `ReadHalfSigned` (R84): a byte at an odd address. -/
def halfSignedSize (a : Word) : Size := if a.getLsbD 0 then .byte else .half

/-- `ReadHalfSigned` (R84). -/
def readHalfSigned (m : List Host.Cell) (a : Word) : Word :=
  if a.getLsbD 0 then (readByte m a).signExtend 32 else (readHalf m a).signExtend 32

/-- A sign-extended byte read (44 R320). -/
def readByteSigned (m : List Host.Cell) (a : Word) : Word := (readByte m a).signExtend 32

end Memory

end Sys2Proof.Machine
end

