-- ==== Sys2Proof/Machine/Result.lean ====
section
/-! DEFINITION. Outcomes in sequence (spec/00_scope.md R10): the first fault or refusal ends a step. -/

namespace Sys2Proof.Machine

/-- A next value, a fault or a refusal. -/
abbrev Res (α : Type) := Host.Outcome α Fault Refusal

/-- Go on with the next value, if there is one. -/
def andThen {α β : Type} (r : Res α) (k : α → Res β) : Res β :=
  match r with
  | .next a => k a
  | .fault f => .fault f
  | .refused why => .refused why

/-- `refuse(why)` when the condition holds (00 R9). -/
def refuseIf {α : Type} (b : Bool) (why : Refusal) (k : Res α) : Res α :=
  if b then .refused why else k

end Sys2Proof.Machine
end

