-- ==== Sys2Proof/Machine/Scheduler.lean ====
section
/-! DEFINITION. The event scheduler (spec/65_scheduler.md), and what the environment may do in a callback (20 R75, 65
R591). All of it works on `World`: no part of the CPU's own state is in reach (10 R48). -/

namespace Sys2Proof.Machine

open Sys2Proof

/-- The key order (R573): timestamp, then priority, then submission. -/
def Event.before (a b : Event) : Bool :=
  decide (a.timestamp < b.timestamp) ||
    (a.timestamp == b.timestamp &&
      (decide (a.priority < b.priority) || (a.priority == b.priority && decide (a.seq < b.seq))))

namespace Sched

/-- Put an event at its place in the key order. -/
def insert : List Event → Event → List Event
  | [], e => [e]
  | d :: es, e => if e.before d then e :: d :: es else d :: insert es e

/-- Some pending event has this handle. -/
def hasHandle (es : List Event) (h : Nat) : Bool := es.any (fun e => e.handle == h)

/-- `Add` (R575, R576): the capacity guard comes first. The handle is the submission number (log entry 13). -/
def add (cfg : Config) (sc : Sched) (delay cls priority : Nat) : Res (Sched × Nat) :=
  if cfg.schedCapacity ≤ sc.pending.length + 1 then .fault .schedulerCapacity
  else if !cfg.classes.contains cls then .refused .unregisteredClass
  else if cfg.schedPrioMax < priority then .refused .priorityOutOfRange
  else
    .next
      ({ sc with
          pending := insert sc.pending
            { cls := cls, timestamp := sc.now + delay, priority := priority, seq := sc.seq, handle := sc.seq }
          seq := sc.seq + 1 },
       sc.seq)

/-- `Cancel` (R577). -/
def cancel (sc : Sched) (h : Nat) : Res Sched :=
  if hasHandle sc.pending h then .next { sc with pending := sc.pending.filter (fun e => e.handle != h) }
  else .refused .deadHandle

/-- `GetTimestampTarget()` (R583). -/
def target (sc : Sched) : Res Nat :=
  match sc.pending with
  | [] => .refused .noPendingEvent
  | e :: _ => .next e.timestamp

/-- `GetRemainingCycleCount()` (R583): an integer. -/
def remaining (sc : Sched) : Res Int :=
  andThen sc.target fun t => .next ((t : Int) - (sc.now : Int))

/-- Reset of the scheduler (R574). -/
def zero : Sched := { now := 0, pending := [], seq := 0 }

end Sched

namespace World

/-- Tell the host. -/
def note (w : World) (m : HostNote) : World := { w with host := w.host ++ [m] }

/-- The scheduler's `Add` on the world; the handle goes to the caller. -/
def schedAdd (w : World) (delay cls priority : Nat) : Res World :=
  andThen (w.sched.add w.cfg delay cls priority) fun r => .next ({ w with sched := r.1 }.note (.handle r.2))

/-- The scheduler's `Cancel` on the world. -/
def schedCancel (w : World) (h : Nat) : Res World :=
  andThen (w.sched.cancel h) fun sc => .next { w with sched := sc }

/-- An act allowed between steps, inside a bus call and inside a callback (20 R75, 65 R591). -/
def applyCommon (w : World) : CommonAct → Res World
  | .add delay cls priority => w.schedAdd delay cls priority
  | .cancel h => w.schedCancel h
  | .getNow => .next (w.note (.answer w.sched.now))
  | .getTarget => andThen w.sched.target fun t => .next (w.note (.answer t))
  | .getRemaining => andThen w.sched.remaining fun r => .next (w.note (.answer r))
  | .setIrq level => .next { w with irqLine := level }
  | .setHalted level => .next { w with halted := level }
  | .poke addr v => .next { w with mem := Memory.store w.mem addr.toNat v }

/-- One act of a callback (20 R75, 65 R580, 70 R621). -/
def applyCallbackAct (w : World) : CallbackAct → Res World
  | .common a => w.applyCommon a
  | .addCycles _ => .refused .nestedAddCycles
  | .reset => .refused .resetInsideCall
  | .run => .refused .runInsideCall
  | .touchCpu => .refused .cpuAccessInsideCall

/-- A callback runs to completion (R591). -/
def runCallback : List CallbackAct → World → Res World
  | [], w => .next w
  | a :: acts, w => andThen (w.applyCallbackAct a) (runCallback acts)

/-- Remove an event before its callback is invoked, and invoke it (R580, R582): `rest` is what stays pending. -/
def fire (w : World) (e : Event) (rest : List Event) : World :=
  { w with sched := { w.sched with pending := rest } }.note (.fired e w.sched.now)

/-- Fire every due event, with callbacks that do nothing (R580, log entry 14). -/
def fireQuiet : List Event → World → World
  | [], w => w
  | e :: es, w => if e.timestamp ≤ w.sched.now then fireQuiet es (w.fire e es) else w

/-- The firing loop of R580: the pending set is looked at afresh after each callback. -/
def fireLoop : List (List CallbackAct) → World → Res World
  | [], w => .next (fireQuiet w.sched.pending w)
  | script :: scripts, w =>
    match w.sched.pending with
    | [] => .next w
    | e :: es =>
      if e.timestamp ≤ w.sched.now then andThen (runCallback script (w.fire e es)) (fireLoop scripts)
      else .next w

/-- `AddCycles(n)` (R580): the whole of n before anything fires. -/
def addCycles (w : World) (n : Nat) (scripts : List (List CallbackAct)) : Res World :=
  fireLoop scripts { w with sched := { w.sched with now := w.sched.now + n } }

end World

end Sys2Proof.Machine
end

