-- ==== Sys2Proof/Machine/Bus.lean ====
section
/-! DEFINITION. The bus contract (spec/20_memory.md R70 to R75): a call of the CPU, and what the environment does inside
it (65 R591). -/

namespace Sys2Proof.Machine

open Sys2Proof

/-! ## Accesses -/

/-- The flags of a data access: no `Code`, no `Lock`, never `Dma` (20 R71, R76). -/
def dataAcc (k : AccessKind) : Access := { kind := k, code := false, lock := false, dma := false }

/-- The flags of an opcode fetch (20 R76). -/
def codeAcc (k : AccessKind) : Access := { kind := k, code := true, lock := false, dma := false }

/-- The flags of the two accesses of a swap (20 R95). -/
def lockAcc : Access := { kind := .n, code := false, lock := true, dma := false }

/-- The value a write passes to the bus (20 R73). -/
def busValue : Size → Word → Word
  | .byte, v => (v.extractLsb' 0 8).setWidth 32
  | .half, v => (v.extractLsb' 0 16).setWidth 32
  | .word, v => v

namespace World

/-! ## The environment inside a call -/

/-- One act of the environment inside a bus call (20 R75, 65 R591, 70 R621). -/
def applyInside (w : World) : InsideAct → Res World
  | .common a => w.applyCommon a
  | .addCycles n scripts => w.addCycles n scripts
  | .reset => .refused .resetInsideCall
  | .run => .refused .runInsideCall
  | .touchCpu => .refused .cpuAccessInsideCall

/-- The acts inside one call, in order. -/
def insideActs : List InsideAct → World → Res World
  | [], w => .next w
  | a :: acts, w => andThen (w.applyInside a) (insideActs acts)

/-- The environment's turn inside the next call: the acts that stand first in `inside`. A fault or a refusal goes on
record for the step to answer, and nothing more is done inside its calls (00 R10, log entry 4). -/
def turn (w : World) : World :=
  match w.stop with
  | some _ => w
  | none =>
    match insideActs (w.inside.headD []) { w with inside := w.inside.tail } with
    | .next v => v
    | .fault f => { w with inside := w.inside.tail, stop := some (.fault f) }
    | .refused why => { w with inside := w.inside.tail, stop := some (.refused why) }

/-- The stop on record, if there is one, before an outcome that comes after it: a step ends in the first of its stops
(00 R10). -/
def stopOr {α : Type} (w : World) (r : Res α) : Res α :=
  match w.stop with
  | none => r
  | some (.fault f) => .fault f
  | some (.refused why) => .refused why

/-! ## Calls -/

/-- What a call does to memory (20 R72 to R74). -/
def answer (w : World) : BusCall → World
  | .read _ _ _ => w
  | .write size a v _ => { w with mem := Memory.write w.mem size a v }
  | .idle => w

/-- One bus call (20 R70): the environment's turn, then the access; the call goes into the trace (70 R650). A read
returns what memory holds after the turn (20 R91). -/
def call (w : World) (c : BusCall) : World := { w.turn.answer c with bus := w.turn.bus ++ [c] }

/-- Bus calls one after the other, each complete before the next begins (20 R92). -/
def play : List BusCall → World → World
  | [], w => w
  | c :: cs, w => play cs (w.call c)

/-- A callback of the host (60 R540): it receives its note, and the environment takes a turn. -/
def callHost (w : World) (m : HostNote) : World := (w.note m).turn

end World

end Sys2Proof.Machine
end

