-- ==== Sys2Proof/Machine/Flags.lean ====
section
/-! DEFINITION. The condition evaluator and the ALU (spec/41_alu_shifter_condition.md R190, R205 to R211), and the
fields of a status register (spec/10_state.md R27). -/

namespace Sys2Proof.Machine

open Sys2Proof

/-! ## Status-register fields -/

/-- `w` with bit `i` replaced. -/
def setBit (w : Word) (i : Nat) (b : Bool) : Word :=
  if b then w ||| (1#32 <<< i) else w &&& ~~~(1#32 <<< i)

/-- The mode field 4:0 replaced (R27). -/
def setMode (w : Word) (m : BitVec 5) : Word := (w &&& 0xFFFFFFE0#32) ||| m.setWidth 32

/-- The mode field (R27). -/
def modeField (w : Word) : BitVec 5 := w.extractLsb' 0 5

/-- Bits 27:8 are 0 (R32). -/
def reservedClear (w : Word) : Bool := w &&& 0x0FFFFF00#32 == 0

/-- The four condition flags. -/
structure Flags where
  n : Bool
  z : Bool
  c : Bool
  v : Bool
  deriving DecidableEq, Repr

/-- The flags of a status register (R27). -/
def flagsOf (w : Word) : Flags where
  n := w.getLsbD 31
  z := w.getLsbD 30
  c := w.getLsbD 29
  v := w.getLsbD 28

/-- A status register with its flags replaced (R27). -/
def withFlags (w : Word) (f : Flags) : Word := setBit (setBit (setBit (setBit w 31 f.n) 30 f.z) 29 f.c) 28 f.v

/-! ## Conditions -/

/-- `ConditionPassed` (R190). -/
def condHolds (c : Cond) (f : Flags) : Bool :=
  match c with
  | .eq => f.z
  | .ne => !f.z
  | .cs => f.c
  | .cc => !f.c
  | .mi => f.n
  | .pl => !f.n
  | .vs => f.v
  | .vc => !f.v
  | .hi => f.c && !f.z
  | .ls => !f.c || f.z
  | .ge => f.n == f.v
  | .lt => f.n != f.v
  | .gt => !f.z && f.n == f.v
  | .le => f.z || f.n != f.v
  | .al => true
  | .nv => false

/-! ## The ALU -/

/-- What an ALU operation gives (R205). -/
structure AluResult where
  value : Word
  flags : Flags
  deriving DecidableEq, Repr

/-- `AddWithCarry` (R206). -/
def addWithCarry (a b : Word) (c : Bool) : AluResult :=
  let wide := a.toNat + b.toNat + c.toNat
  let r : Word := BitVec.ofNat 32 wide
  { value := r
    flags := { n := r.getLsbD 31, z := r == 0, c := decide (2 ^ 32 ≤ wide),
               v := (~~~(a ^^^ b) &&& (a ^^^ r)).getLsbD 31 } }

/-- `SubWithCarry` (R207): V is written from the uncomplemented operands. -/
def subWithCarry (a b : Word) (c : Bool) : AluResult :=
  let r := addWithCarry a (~~~b) c
  { r with flags := { r.flags with v := ((a ^^^ b) &&& (a ^^^ r.value)).getLsbD 31 } }

/-- The logical class (R208): C from the shifter, V kept. -/
def logical (r : Word) (sc v : Bool) : AluResult where
  value := r
  flags := { n := r.getLsbD 31, z := r == 0, c := sc, v := v }

end Sys2Proof.Machine
end

