-- ==== Sys2Proof/Machine/Operands.lean ====
section
/-! DEFINITION. The barrel shifter (spec/41_alu_shifter_condition.md R195 to R201), immediates (30 R141, R142) and
`MulCycles` (43 R292), as pure functions. -/

namespace Sys2Proof.Machine

open Sys2Proof

/-- `ShiftLSL` (R198). -/
def shiftLsl (v : Word) (n : Nat) (cin : Bool) : Word × Bool :=
  if n = 0 then (v, cin)
  else if n < 32 then (v <<< n, v.getLsbD (32 - n))
  else if n = 32 then (0, v.getLsbD 0)
  else (0, false)

/-- `ShiftLSR` (R198). -/
def shiftLsr (v : Word) (n : Nat) (cin : Bool) : Word × Bool :=
  if n = 0 then (v, cin)
  else if n < 32 then (v >>> n, v.getLsbD (n - 1))
  else if n = 32 then (0, v.getLsbD 31)
  else (0, false)

/-- `ShiftASR` (R198). -/
def shiftAsr (v : Word) (n : Nat) (cin : Bool) : Word × Bool :=
  if n = 0 then (v, cin)
  else if n < 32 then (v.sshiftRight n, v.getLsbD (n - 1))
  else (if v.getLsbD 31 then 0xFFFFFFFF#32 else 0, v.getLsbD 31)

/-- `ShiftROR` (R198). -/
def shiftRor (v : Word) (n : Nat) (cin : Bool) : Word × Bool :=
  if n = 0 then (v, cin)
  else if n % 32 = 0 then (v, v.getLsbD 31)
  else (v.rotateRight (n % 32), v.getLsbD (n % 32 - 1))

/-- `RRX` (R198). -/
def rrx (v : Word) (cin : Bool) : Word × Bool :=
  ((if cin then 0x80000000#32 else 0) ||| (v >>> 1), v.getLsbD 0)

/-- `ShiftReg` (R200). -/
def shiftReg (ty : ShiftType) (v : Word) (n : Nat) (cin : Bool) : Word × Bool :=
  match ty with
  | .lsl => shiftLsl v n cin
  | .lsr => shiftLsr v n cin
  | .asr => shiftAsr v n cin
  | .ror => shiftRor v n cin

/-- `ShiftImm` (R199): amount 0 means no shift, 32, 32 and RRX. -/
def shiftImm (ty : ShiftType) (v : Word) (imm5 : BitVec 5) (cin : Bool) : Word × Bool :=
  if imm5 = 0 then
    match ty with
    | .lsl => (v, cin)
    | .lsr => shiftLsr v 32 cin
    | .asr => shiftAsr v 32 cin
    | .ror => rrx v cin
  else shiftReg ty v imm5.toNat cin

/-- The rotated immediate (R201). -/
def rotImm (rot : BitVec 4) (imm : BitVec 8) (cin : Bool) : Word × Bool :=
  let r := (imm.setWidth 32 : Word).rotateRight (2 * rot.toNat)
  (r, if rot = 0 then cin else r.getLsbD 31)

/-- `sext_26(imm24 : 00)` (30 R141). -/
def branchOffset (imm : BitVec 24) : Word := (imm ++ 0b00#2).signExtend 32

/-- `sext_9(simm8 : 0)` (30 R142). -/
def thumbCondOffset (imm : BitVec 8) : Word := (imm ++ 0#1).signExtend 32

/-- `sext_12(simm11 : 0)` (30 R142). -/
def thumbBranchOffset (imm : BitVec 11) : Word := (imm ++ 0#1).signExtend 32

/-- `sext_11(imm11) << 12` (49 R492). -/
def thumbBlHigh (imm : BitVec 11) : Word := imm.signExtend 32 <<< 12

/-- `imm11 << 1` (49 R493). -/
def thumbBlLow (imm : BitVec 11) : Word := imm.setWidth 32 <<< 1

/-- The top bits `v[31:k]` are all 0, or all 1 where early termination is signed (43 R292). -/
def topBitsUniform (v : Word) (k : Nat) (signedEarly : Bool) : Bool :=
  v >>> k == 0 || (signedEarly && v.sshiftRight k == 0xFFFFFFFF#32)

/-- `MulCycles` (43 R292). -/
def mulCycles (v : Word) (signedEarly : Bool) : Nat :=
  if topBitsUniform v 8 signedEarly then 1
  else if topBitsUniform v 16 signedEarly then 2
  else if topBitsUniform v 24 signedEarly then 3
  else 4

end Sys2Proof.Machine
end

