-- ==== Sys2Proof/Machine/Ops.lean ====
section
/-! DEFINITION. The shared operations over the state: registers and banks (spec/10_state.md), bus calls (20),
`next` and `pc <- target` (40 R165, R166), taking an exception and returning from one (60 R524 to R529, 42 R244). -/

namespace Sys2Proof.Machine

open Sys2Proof

/-! ## Modes -/

/-- The number of a mode (10 R31). -/
def Mode.bits : Mode → BitVec 5
  | .usr => 0x10#5 | .fiq => 0x11#5 | .irq => 0x12#5 | .svc => 0x13#5 | .abt => 0x17#5 | .und => 0x1B#5
  | .sys => 0x1F#5

/-- The mode of a number, if it is one of the seven (10 R31). -/
def Mode.ofBits (b : BitVec 5) : Option Mode :=
  if b = 0x10#5 then some .usr
  else if b = 0x11#5 then some .fiq
  else if b = 0x12#5 then some .irq
  else if b = 0x13#5 then some .svc
  else if b = 0x17#5 then some .abt
  else if b = 0x1B#5 then some .und
  else if b = 0x1F#5 then some .sys
  else none

/-- `BankOf` (10 R31). -/
def Mode.bank : Mode → Bank
  | .usr => .shared | .fiq => .fiq | .irq => .irq | .svc => .svc | .abt => .abt | .und => .und | .sys => .shared

/-- The stack pointer, r13 (00 R6). -/
abbrev regSp : Reg := 13

/-- The link register, r14 (00 R6). -/
abbrev regLr : Reg := 14

/-- The program counter, r15 (00 R6). -/
abbrev regPc : Reg := 15

/-- A low register as a register. -/
def low (r : LowReg) : Reg := ⟨r.val, by omega⟩

/-- r8 to r14, the registers some bank replaces (10 R24). -/
def isBanked (r : Reg) : Bool := decide (8 ≤ r.val ∧ r.val ≤ 14)

namespace State

/-! ## Registers and status -/

/-- `x[i]` (10 R22); `x[15]` is the stored r15 (10 R40). -/
def get (s : State) (r : Reg) : Word := s.x[r.val]

/-- `x[i] <- v` (10 R22). No register is hard-wired (10 R21). -/
def set (s : State) (r : Reg) (v : Word) : State := { s with x := s.x.set r.val v }

/-- The whole of CPSR written, without a mode switch. -/
def setCpsr (s : State) (w : Word) : State := { s with cpsr := w }

/-- N, Z, C, V (10 R28). -/
def flags (s : State) : Flags := flagsOf s.cpsr

/-- `CPSR.{N,Z,C,V} <- f`. -/
def setFlags (s : State) (f : Flags) : State := s.setCpsr (withFlags s.cpsr f)

/-- `CPSR.T` (10 R30). -/
def thumb (s : State) : Bool := s.cpsr.getLsbD 5

/-- `CPSR.I` (10 R29). -/
def irqDisable (s : State) : Bool := s.cpsr.getLsbD 7

/-- The mode. A step faults before it uses a mode number that names none (`run`, 10 R39); the value given here for
one is never reached by a run. -/
def mode (s : State) : Mode := (Mode.ofBits (modeField s.cpsr)).getD .usr

/-- `BankOf(CPSR.M)` (10 R31). -/
def bank (s : State) : Bank := s.mode.bank

/-- `fetch_kind <- k` (10 R42). -/
def setFetchKind (s : State) (k : AccessKind) : State := { s with fetchKind := k }

/-- A condition on the current flags (41 R192). -/
def passes (s : State) (c : Cond) : Bool := condHolds c s.flags

/-! ## Bank storage -/

/-- `bank_lo[b]` (10 R24). -/
def loBank (s : State) : Bank → Pair
  | .shared => s.bankLo.shared | .fiq => s.bankLo.fiq | .irq => s.bankLo.irq | .svc => s.bankLo.svc
  | .abt => s.bankLo.abt | .und => s.bankLo.und

/-- `bank_lo[b] <- p` (10 R24). -/
def setLoBank (s : State) (b : Bank) (p : Pair) : State :=
  match b with
  | .shared => { s with bankLo := { s.bankLo with shared := p } }
  | .fiq => { s with bankLo := { s.bankLo with fiq := p } }
  | .irq => { s with bankLo := { s.bankLo with irq := p } }
  | .svc => { s with bankLo := { s.bankLo with svc := p } }
  | .abt => { s with bankLo := { s.bankLo with abt := p } }
  | .und => { s with bankLo := { s.bankLo with und := p } }

/-- `bank_hi[FIQ]`, or `bank_hi[NONE]` (10 R24). -/
def hiBank (s : State) (fiq : Bool) : Vector Word 5 := if fiq then s.bankHi.fiq else s.bankHi.shared

/-- `bank_hi[FIQ] <- v`, or `bank_hi[NONE] <- v` (10 R24). -/
def setHiBank (s : State) (fiq : Bool) (v : Vector Word 5) : State :=
  if fiq then { s with bankHi := { s.bankHi with fiq := v } } else { s with bankHi := { s.bankHi with shared := v } }

/-- Save the visible r8 to r12 and load the other bank's (10 R36). -/
def swapHigh (s : State) (oldFiq newFiq : Bool) : State :=
  let s1 := s.setHiBank oldFiq #v[s.get 8, s.get 9, s.get 10, s.get 11, s.get 12]
  let v := s1.hiBank newFiq
  ((((s1.set 8 v[0]).set 9 v[1]).set 10 v[2]).set 11 v[3]).set 12 v[4]

/-- Save the visible r13 and r14 and load the new bank's (10 R36). -/
def swapLow (s : State) (old new : Bank) : State :=
  let s1 := s.setLoBank old { r13 := s.get regSp, r14 := s.get regLr }
  (s1.set regSp (s1.loBank new).r13).set regLr (s1.loBank new).r14

/-- `SwitchMode` to a recognised mode (10 R36): r8 to r12 are exchanged where FIQ is on either side, for an exception
entry from FIQ mode too (log entry 24). -/
def switchTo (s : State) (m : Mode) : State :=
  let s1 := s.setCpsr (setMode s.cpsr m.bits)
  if s.bank = m.bank then s1
  else
    let s2 := if s.bank = .fiq ∨ m.bank = .fiq then s1.swapHigh (s.bank == .fiq) (m.bank == .fiq) else s1
    s2.swapLow s.bank m.bank

/-- `SwitchMode(new_mode)` (10 R36): an unrecognised number is the fault of R38; while `bank_conflict` is set a
switch that copies banked registers is refused (10 R46; DEDUCED, safe, log entry 9). -/
def switchMode (s : State) (b : BitVec 5) : Res State :=
  match Mode.ofBits b with
  | none => .fault .invalidMode
  | some m => refuseIf (s.bankConflict && s.bank != m.bank) .bankConflict (.next (s.switchTo m))

/-- `spsr[b]`; for the bank of User and System the reference aliases CPSR (10 R33). -/
def spsrOf (s : State) : Bank → Word
  | .shared => s.cpsr | .fiq => s.spsr.fiq | .irq => s.spsr.irq | .svc => s.spsr.svc | .abt => s.spsr.abt
  | .und => s.spsr.und

/-- `spsr[b] <- w`; no rule writes through the alias of User and System (10 R35). -/
def setSpsr (s : State) (b : Bank) (w : Word) : State :=
  match b with
  | .shared => s
  | .fiq => { s with spsr := { s.spsr with fiq := w } }
  | .irq => { s with spsr := { s.spsr with irq := w } }
  | .svc => { s with spsr := { s.spsr with svc := w } }
  | .abt => { s with spsr := { s.spsr with abt := w } }
  | .und => { s with spsr := { s.spsr with und := w } }

/-- `GetSPSR()` (10 R34). -/
def getSpsr (s : State) : Word :=
  if s.bankConflict then s.spsrOf s.bank ||| s.cpsr else s.spsrOf s.bank

end State

/-! ## Instruction widths -/

/-- The size of an opcode (30 R110). -/
def opSize (thumb : Bool) : Size := if thumb then .half else .word

/-- W, the width of an instruction in bytes (00 R6). -/
def opWidth (thumb : Bool) : Word := if thumb then 2#32 else 4#32

/-- An address aligned to an instruction (10 R41). -/
def alignPc (thumb : Bool) (a : Word) : Word := if thumb then Memory.alignHalf a else Memory.alignWord a

namespace State

/-! ## Bus calls -/

/-- A bus call of the CPU (20 R70): it changes the world alone. -/
def call (s : State) (c : BusCall) : State := { s with world := s.world.call c }

/-- Bus calls one after the other. -/
def calls (s : State) (cs : List BusCall) : State := { s with world := s.world.play cs }

/-- The memory that the next bus call finds: the environment acts inside the call, before the bus answers (20 R75, R91,
log entry 4). What a read of the next call returns is read from it. -/
def heard (s : State) : List Host.Cell := s.world.turn.mem

/-- `MemRead` (20 R72): the call; the value comes from `heard`. -/
def busRead (s : State) (size : Size) (a : Word) (acc : Access) : State := s.call (.read size a acc)

/-- `MemWrite` (20 R73). -/
def busWrite (s : State) (size : Size) (a v : Word) (acc : Access) : State :=
  s.call (.write size a (busValue size v) acc)

/-- `Idle()` (20 R74), `n` times. -/
def idle (s : State) (n : Nat) : State := s.calls (List.replicate n .idle)

/-- The step answers the stop that the environment raised inside a call, if there is one (00 R10, log entry 4). -/
def settle (s : State) : Res State := s.world.stopOr (.next s)

/-- The end of an instruction that has made bus calls, `s` the state after them: where it stops by itself, a stop that
the environment raised inside one of those calls came first and is what it answers (00 R10, log entry 20). -/
def stopFirst (s : State) : Res State → Res State
  | .next t => .next t
  | .fault f => s.world.stopOr (.fault f)
  | .refused why => s.world.stopOr (.refused why)

/-! ## The end of an instruction -/

/-- `next` for an instruction of this width (40 R165); ends the window of `bank_conflict` (45 R353, log entry 10). -/
def next (s : State) (thumb : Bool) : State :=
  { s.set regPc (s.get regPc + opWidth thumb) with bankConflict := false }

/-- `ReloadPipeline(W)` at address `a`, W selected by T (40 R166). -/
def reload (s : State) (a : Word) : State :=
  let t := s.thumb
  let b := alignPc t a
  let s1 := s.busRead (opSize t) b (codeAcc .n)
  let s2 := s1.busRead (opSize t) (b + opWidth t) (codeAcc .s)
  { s2.set regPc (b + opWidth t + opWidth t) with
    slot0 := Memory.read s.heard (opSize t) b
    slot1 := Memory.read s1.heard (opSize t) (b + opWidth t)
    fetchKind := .s }

/-- `pc <- target` (40 R166, R168); ends the window of `bank_conflict` (45 R353, log entry 10). -/
def branchTo (s : State) (target : Word) : State := { s.reload target with bankConflict := false }

/-! ## Exceptions -/

/-- `Enter(mode, vector, link)` (60 R524). From FIQ mode the switch exchanges r8 to r12 as 10 R36 has it, where R524's
comment says "never r8..r12 here" (DEDUCED, unsafe, log entry 24). -/
def enter (s : State) (m : Mode) (vector link : Word) : State :=
  let s1 := ((s.switchTo m).setSpsr m.bank s.cpsr).set regLr link
  (s1.setCpsr (setBit (setBit s1.cpsr 7 true) 5 false)).branchTo vector

/-- Taking an exception: refused while `bank_conflict` is set (60 R525). -/
def takeException (s : State) (m : Mode) (vector link : Word) : Res State :=
  refuseIf s.bankConflict .bankConflict (.next (s.enter m vector link))

/-- The link value of the stored r15: the address of the following instruction (60 R527, R528). -/
def linkAfter (s : State) (thumb : Bool) : Word := s.get regPc - opWidth thumb

/-- `raise SWI` (60 R527). -/
def raiseSwi (s : State) (thumb : Bool) : Res State := s.takeException .svc Config.vecSwi (s.linkAfter thumb)

/-- `raise Undefined` (60 R528). -/
def raiseUndefined (s : State) (thumb : Bool) : Res State := s.takeException .und Config.vecUnd (s.linkAfter thumb)

/-- `raise IRQ` (60 R526). -/
def raiseIrq (s : State) : Res State :=
  s.takeException .irq Config.vecIrq (if s.thumb then s.get regPc else s.get regPc - 4)

/-- The exception return of 42 R244 and 45 R354: restore CPSR from SPSR, branch in the restored set. `s` is the state
after the bus calls of the instruction. -/
def exceptionReturn (s : State) (target : Word) : Res State :=
  s.stopFirst <|
  refuseIf (s.bank == .shared) .returnWithoutSpsr <|
  refuseIf s.bankConflict .bankConflict <|
  andThen (s.switchMode (modeField s.getSpsr)) fun s1 => .next ((s1.setCpsr s.getSpsr).branchTo target)

end State

/-! ## The frame of an instruction -/

/-- An instruction that touches these registers: refused if one is banked while `bank_conflict` is set (45 R353). -/
def guardBanked (regs : List Reg) (s : State) (body : Res State) : Res State :=
  refuseIf (s.bankConflict && regs.any isBanked) .bankConflict body

/-- An instruction of the 32-bit set: a failed condition does nothing but `next` and refuses nothing (40 R160 stage
5, R163). -/
def armInstr (c : Cond) (regs : List Reg) (s : State) (body : Res State) : Res State :=
  if s.passes c then guardBanked regs s body else .next (s.next false)

end Sys2Proof.Machine
end

