-- ==== Sys2Proof/Machine/BlockSwap.lean ====
section
/-! DEFINITION. Block transfers and swaps of the 32-bit set (spec/45_arm_block_swap.md), with the block-transfer
loops the 16-bit set shares (48 R467 to R470). -/

namespace Sys2Proof.Machine

open Sys2Proof

/-! ## Lists and addresses (R350) -/

/-- r0 to r15, ascending. -/
def allRegs : List Reg := [0, 1, 2, 3, 4, 5, 6, 7, 8, 9, 10, 11, 12, 13, 14, 15]

/-- The registers of a list, ascending. -/
def regList (list : BitVec 16) : List Reg := allRegs.filter (fun r => list.getLsbD r.val)

/-- 4n, for n registers. -/
def listBytes (regs : List Reg) : Word := BitVec.ofNat 32 (4 * regs.length)

/-- The lowest register of a list is this one. -/
def isLowest (regs : List Reg) (r : Reg) : Bool := regs.head? == some r

/-- `start` (R350). -/
def blockStart (m : BlockMode) (base : Word) (regs : List Reg) : Word :=
  match m with
  | .ia => base
  | .ib => base + 4
  | .da => base - listBytes regs + 4
  | .db => base - listBytes regs

/-- `new_base` (R350). -/
def blockNewBase (m : BlockMode) (base : Word) (regs : List Reg) : Word :=
  match m with
  | .ia => base + listBytes regs
  | .ib => base + listBytes regs
  | .da => base - listBytes regs
  | .db => base - listBytes regs

/-- The first access carries N, every later one S (R350). -/
def blockKind (first : Bool) : AccessKind := if first then .n else .s

/-- Write-back of the base, immediately after the first access (R350). -/
def blockBase (wb : Option (Reg × Word)) (first : Bool) (s : State) : State :=
  match wb with
  | some p => if first then s.set p.1 p.2 else s
  | none => s

/-- The reads of a block load: the registers ascending, from address `a` up; no rotation (R351). -/
def loadRegs (wb : Option (Reg × Word)) : Bool → List Reg → Word → State → State
  | _, [], _, s => s
  | first, r :: rs, a, s =>
    loadRegs wb false rs (a + 4)
      ((blockBase wb first (s.busRead .word a (dataAcc (blockKind first)))).set r (Memory.read s.heard .word a))

/-- The value a block store stores: r15 stores A + `STORE_PC_OFFSET` (R352). -/
def blockStored (s : State) (r : Reg) : Word :=
  if r = regPc then s.get regPc + (Config.storePcOffset - 8) else s.get r

/-- The writes of a block store (R352). -/
def storeRegs (wb : Option (Reg × Word)) : Bool → List Reg → Word → State → State
  | _, [], _, s => s
  | first, r :: rs, a, s =>
    storeRegs wb false rs (a + 4)
      (blockBase wb first (s.busWrite .word a (blockStored s r) (dataAcc (blockKind first))))

/-- The write-back of R350, when W is set. -/
def blockWb (wb : Bool) (m : BlockMode) (rn : Reg) (s : State) (regs : List Reg) : Option (Reg × Word) :=
  if wb then some (rn, blockNewBase m (s.get rn) regs) else none

/-- The reads of an LDM, from the start address of R350. -/
def ldmReads (m : BlockMode) (wb : Bool) (rn : Reg) (regs : List Reg) (s t : State) : State :=
  (loadRegs (blockWb wb m rn s regs) true regs (blockStart m (s.get rn) regs) t).idle 1

/-- The writes of an STM, from the start address of R350. -/
def stmWrites (m : BlockMode) (wb : Bool) (rn : Reg) (regs : List Reg) (s t : State) : State :=
  storeRegs (blockWb wb m rn s regs) true regs (blockStart m (s.get rn) regs) t

/-- An LDM of the current bank (R351), with the branch or the exception return of R354 when r15 is loaded. -/
def ldmCurrent (m : BlockMode) (sb wb : Bool) (rn : Reg) (regs : List Reg) (s : State) : Res State :=
  let t := ldmReads m wb rn regs s (s.setFetchKind .n)
  if regs.contains regPc then
    if sb then t.exceptionReturn (t.get regPc) else .next (t.branchTo (t.get regPc))
  else .next (t.next false)

/-- An LDM of the User bank (R351, R355): sets `bank_conflict` (R353). Refused in the window of an earlier one. -/
def ldmUser (m : BlockMode) (rn : Reg) (regs : List Reg) (s : State) : Res State :=
  refuseIf s.bankConflict .bankConflict <|
  let t := ldmReads m false rn regs s ((s.setFetchKind .n).switchTo .usr)
  .next { (t.switchTo s.mode).next false with bankConflict := true }

/-- LDM (R351). -/
def execLdm (c : Cond) (m : BlockMode) (sb wb : Bool) (rn : Reg) (list : BitVec 16) (s : State) : Res State :=
  armInstr c (rn :: regList list) s <|
  refuseIf (rn == regPc) .blockBasePc <|
  refuseIf (list == 0) .blockEmptyList <|
  refuseIf (sb && s.bank == .shared) .sBitWithoutSpsr <|
  refuseIf (sb && !list.getLsbD 15 && wb) .userBankWriteback <|
  refuseIf (wb && list.getLsbD rn.val) .ldmBaseInList <|
  if sb && !list.getLsbD 15 then ldmUser m rn (regList list) s
  else ldmCurrent m sb wb rn (regList list) s

/-- An STM of the User bank (R352, R355). Refused in the window of a User-bank LDM. -/
def stmUser (m : BlockMode) (rn : Reg) (regs : List Reg) (s : State) : Res State :=
  refuseIf s.bankConflict .bankConflict <|
  .next (((stmWrites m false rn regs s ((s.setFetchKind .n).switchTo .usr)).switchTo s.mode).next false)

/-- STM (R352). -/
def execStm (c : Cond) (m : BlockMode) (sb wb : Bool) (rn : Reg) (list : BitVec 16) (s : State) : Res State :=
  armInstr c (rn :: regList list) s <|
  refuseIf (rn == regPc) .blockBasePc <|
  refuseIf (list == 0) .blockEmptyList <|
  refuseIf (sb && s.bank == .shared) .sBitWithoutSpsr <|
  refuseIf (sb && wb) .userBankWriteback <|
  refuseIf (wb && list.getLsbD rn.val && !isLowest (regList list) rn) .stmBaseNotLowest <|
  if sb then stmUser m rn (regList list) s
  else .next ((stmWrites m wb rn (regList list) s (s.setFetchKind .n)).next false)

/-! ## Swap (R360, R361) -/

/-- A swap of this size; `v` is the value read. -/
def swapOp (c : Cond) (size : Size) (rn rd rm : Reg) (v : Word) (s : State) : Res State :=
  armInstr c [rn, rd, rm] s <|
  refuseIf (rn == regPc || rd == regPc || rm == regPc || rn == rm || rn == rd) .swpOperands <|
  .next ((((((s.busRead size (s.get rn) lockAcc).busWrite size (s.get rn) (s.get rm) lockAcc).idle 1).set rd
    v).setFetchKind .n).next false)

/-- SWP (R360). -/
def execSwp (c : Cond) (rn rd rm : Reg) (s : State) : Res State :=
  swapOp c .word rn rd rm (Memory.readWordRotate s.heard (s.get rn)) s

/-- SWPB (R361). -/
def execSwpb (c : Cond) (rn rd rm : Reg) (s : State) : Res State :=
  swapOp c .byte rn rd rm (Memory.read s.heard .byte (s.get rn)) s

/-- `RESERVED_SWP` (R362). -/
def execReservedSwp (c : Cond) (_raw : BitVec 28) (s : State) : Res State :=
  armInstr c [] s (.refused .reservedSwp)

end Sys2Proof.Machine
end

