-- ==== Sys2Proof/Machine/Branch.lean ====
section
/-! DEFINITION. Branches, software interrupt, undefined and coprocessor space of the 32-bit set
(spec/46_arm_branch_system.md), with the parts the 16-bit set shares (spec/49_thumb_branch_system.md). -/

namespace Sys2Proof.Machine

open Sys2Proof

/-- BX to `a` (R382, 49 R494): bit 0 selects the set. -/
def bxTo (a : Word) (s : State) : Res State :=
  refuseIf (!a.getLsbD 0 && a.getLsbD 1) .bxUnaligned <|
  .next ((s.setCpsr (setBit s.cpsr 5 (a.getLsbD 0))).branchTo a)

/-- A software interrupt: the callback and `next` where interception is configured (60 R540), else the exception
(60 R527). -/
def swiOp (thumb : Bool) (n : Word) (s : State) : Res State :=
  if s.world.cfg.swiIntercept then .next ({ s with world := s.world.callHost (.swiCallback n) }.next thumb)
  else s.raiseSwi thumb

/-- B (R380). -/
def execB (c : Cond) (imm : BitVec 24) (s : State) : Res State :=
  armInstr c [] s <|
  .next (s.branchTo (s.get regPc + branchOffset imm))

/-- BL (R381). -/
def execBl (c : Cond) (imm : BitVec 24) (s : State) : Res State :=
  armInstr c [regLr] s <|
  .next ((s.set regLr (s.get regPc - 4)).branchTo (s.get regPc + branchOffset imm))

/-- BX (R382). -/
def execBx (c : Cond) (rm : Reg) (s : State) : Res State :=
  armInstr c [rm] s <|
  bxTo (s.get rm) s

/-- SWI (R383). -/
def execSwi (c : Cond) (imm : BitVec 24) (s : State) : Res State :=
  armInstr c [] s <|
  swiOp false (imm.setWidth 32) s

/-- The UNDEFINED space (R384). -/
def execUndefined (c : Cond) (_raw : BitVec 28) (s : State) : Res State :=
  armInstr c [] s <|
  s.raiseUndefined false

/-- The coprocessor space (R385). -/
def execCoprocessor (c : Cond) (_raw : BitVec 28) (s : State) : Res State :=
  armInstr c [] s <|
  s.raiseUndefined false

end Sys2Proof.Machine
end

