-- ==== Sys2Proof/Machine/DataProcessing.lean ====
section
/-! DEFINITION. The data-processing instructions of the 32-bit set (spec/42_arm_data_processing.md). -/

namespace Sys2Proof.Machine

open Sys2Proof

/-! ## Operands (R241 to R243) -/

/-- The registers an operand reads. -/
def op2Regs : Operand2 → List Reg
  | .imm _ _ => []
  | .shiftImm _ _ rm => [rm]
  | .shiftReg rs _ rm => [rs, rm]

/-- The format is `arm_dp_regshift_reg`. -/
def op2ByReg : Operand2 → Bool
  | .imm _ _ => false
  | .shiftImm _ _ _ => false
  | .shiftReg _ _ _ => true

/-- `Rs = 15` (R243). -/
def op2ShiftByPc : Operand2 → Bool
  | .imm _ _ => false
  | .shiftImm _ _ _ => false
  | .shiftReg rs _ _ => rs == regPc

/-- A register read by data processing: r15 reads A + 8, or A + 12 where the amount is a register (R241 to R243). -/
def dpReg (s : State) (byReg : Bool) (r : Reg) : Word :=
  if byReg && r == regPc then s.get r + 4 else s.get r

/-- `Operand2()`: the operand and the shifter's carry-out (R241). -/
def operand2 (s : State) : Operand2 → Word × Bool
  | .imm rot imm => rotImm rot imm s.flags.c
  | .shiftImm amt ty rm => shiftImm ty (s.get rm) amt s.flags.c
  | .shiftReg rs ty rm => shiftReg ty (dpReg s true rm) ((s.get rs).extractLsb' 0 8).toNat s.flags.c

/-- `ReadRn()` (R242). -/
def readRn (s : State) (op2 : Operand2) (rn : Reg) : Word := dpReg s (op2ByReg op2) rn

/-- The internal cycle of a register-specified shift (R243). -/
def op2Cycle (s : State) (op2 : Operand2) : State :=
  if op2ByReg op2 then (s.idle 1).setFetchKind .n else s

/-! ## The skeleton (R240) -/

/-- Step 4 for an instruction with a destination; r15 is a branch, or with S = 1 the exception return (R244). -/
def dpWrite (sf : Bool) (rd : Reg) (r : AluResult) (s : State) : Res State :=
  if rd = regPc then
    if sf then s.exceptionReturn r.value else .next (s.branchTo r.value)
  else .next (((if sf then s.setFlags r.flags else s).set rd r.value).next false)

/-- An instruction with a destination; `r` is the result of step 3, from the operands before any write. -/
def dataOp (c : Cond) (regs : List Reg) (sf : Bool) (rd : Reg) (op2 : Operand2) (r : AluResult) (s : State) :
    Res State :=
  armInstr c (rd :: regs ++ op2Regs op2) s <|
  refuseIf (op2ShiftByPc op2) .shiftByPc <|
  dpWrite sf rd r (op2Cycle s op2)

/-- A comparison: flags only, Rd = 15 refused (R245). -/
def compareOp (c : Cond) (rn rd : Reg) (op2 : Operand2) (f : Flags) (s : State) : Res State :=
  armInstr c (rn :: op2Regs op2) s <|
  refuseIf (op2ShiftByPc op2) .shiftByPc <|
  refuseIf (rd == regPc) .comparePc <|
  .next (((op2Cycle s op2).setFlags f).next false)

/-- The logical class (41 R208) on Rn and the operand. -/
def dpLogical (f : Word → Word → Word) (s : State) (op2 : Operand2) (rn : Reg) : AluResult :=
  logical (f (readRn s op2 rn) (operand2 s op2).1) (operand2 s op2).2 s.flags.v

/-! ## The instructions -/

/-- AND (R246). -/
def execAnd (c : Cond) (sf : Bool) (rn rd : Reg) (op2 : Operand2) (s : State) : Res State :=
  dataOp c [rn] sf rd op2 (dpLogical (fun a b => a &&& b) s op2 rn) s

/-- EOR (R247). -/
def execEor (c : Cond) (sf : Bool) (rn rd : Reg) (op2 : Operand2) (s : State) : Res State :=
  dataOp c [rn] sf rd op2 (dpLogical (fun a b => a ^^^ b) s op2 rn) s

/-- SUB (R248). -/
def execSub (c : Cond) (sf : Bool) (rn rd : Reg) (op2 : Operand2) (s : State) : Res State :=
  dataOp c [rn] sf rd op2 (subWithCarry (readRn s op2 rn) (operand2 s op2).1 true) s

/-- RSB (R249). -/
def execRsb (c : Cond) (sf : Bool) (rn rd : Reg) (op2 : Operand2) (s : State) : Res State :=
  dataOp c [rn] sf rd op2 (subWithCarry (operand2 s op2).1 (readRn s op2 rn) true) s

/-- ADD (R250). -/
def execAdd (c : Cond) (sf : Bool) (rn rd : Reg) (op2 : Operand2) (s : State) : Res State :=
  dataOp c [rn] sf rd op2 (addWithCarry (readRn s op2 rn) (operand2 s op2).1 false) s

/-- ADC (R251). -/
def execAdc (c : Cond) (sf : Bool) (rn rd : Reg) (op2 : Operand2) (s : State) : Res State :=
  dataOp c [rn] sf rd op2 (addWithCarry (readRn s op2 rn) (operand2 s op2).1 s.flags.c) s

/-- SBC (R252). -/
def execSbc (c : Cond) (sf : Bool) (rn rd : Reg) (op2 : Operand2) (s : State) : Res State :=
  dataOp c [rn] sf rd op2 (subWithCarry (readRn s op2 rn) (operand2 s op2).1 s.flags.c) s

/-- RSC (R253). -/
def execRsc (c : Cond) (sf : Bool) (rn rd : Reg) (op2 : Operand2) (s : State) : Res State :=
  dataOp c [rn] sf rd op2 (subWithCarry (operand2 s op2).1 (readRn s op2 rn) s.flags.c) s

/-- TST (R254). -/
def execTst (c : Cond) (rn rd : Reg) (op2 : Operand2) (s : State) : Res State :=
  compareOp c rn rd op2 (dpLogical (fun a b => a &&& b) s op2 rn).flags s

/-- TEQ (R255). -/
def execTeq (c : Cond) (rn rd : Reg) (op2 : Operand2) (s : State) : Res State :=
  compareOp c rn rd op2 (dpLogical (fun a b => a ^^^ b) s op2 rn).flags s

/-- CMP (R256). -/
def execCmp (c : Cond) (rn rd : Reg) (op2 : Operand2) (s : State) : Res State :=
  compareOp c rn rd op2 (subWithCarry (readRn s op2 rn) (operand2 s op2).1 true).flags s

/-- CMN (R257). -/
def execCmn (c : Cond) (rn rd : Reg) (op2 : Operand2) (s : State) : Res State :=
  compareOp c rn rd op2 (addWithCarry (readRn s op2 rn) (operand2 s op2).1 false).flags s

/-- ORR (R258). -/
def execOrr (c : Cond) (sf : Bool) (rn rd : Reg) (op2 : Operand2) (s : State) : Res State :=
  dataOp c [rn] sf rd op2 (dpLogical (fun a b => a ||| b) s op2 rn) s

/-- MOV (R259). -/
def execMov (c : Cond) (sf : Bool) (rd : Reg) (op2 : Operand2) (s : State) : Res State :=
  dataOp c [] sf rd op2 (logical (operand2 s op2).1 (operand2 s op2).2 s.flags.v) s

/-- BIC (R260). -/
def execBic (c : Cond) (sf : Bool) (rn rd : Reg) (op2 : Operand2) (s : State) : Res State :=
  dataOp c [rn] sf rd op2 (dpLogical (fun a b => a &&& ~~~b) s op2 rn) s

/-- MVN (R261). -/
def execMvn (c : Cond) (sf : Bool) (rd : Reg) (op2 : Operand2) (s : State) : Res State :=
  dataOp c [] sf rd op2 (logical (~~~(operand2 s op2).1) (operand2 s op2).2 s.flags.v) s

end Sys2Proof.Machine
end

