-- ==== Sys2Proof/Machine/LoadStore.lean ====
section
/-! DEFINITION. The single data transfers of the 32-bit set (spec/44_arm_load_store.md). -/

namespace Sys2Proof.Machine

open Sys2Proof

/-! ## Addressing (R310) -/

/-- The register an offset reads. -/
def offsetRegs : Offset → List Reg
  | .imm _ => []
  | .reg _ _ rm => [rm]

/-- `Rm = 15` in an offset (R310). -/
def offsetByPc : Offset → Bool
  | .imm _ => false
  | .reg _ _ rm => rm == regPc

/-- The offset of a word or byte transfer; the shifter's carry is discarded (R310). -/
def offsetValue (s : State) : Offset → Word
  | .imm imm => imm.setWidth 32
  | .reg amt ty rm => (shiftImm ty (s.get rm) amt s.flags.c).1

/-- The register a halfword offset reads. -/
def halfOffsetRegs : HalfOffset → List Reg
  | .imm _ => []
  | .reg rm => [rm]

/-- `Rm = 15` in a halfword offset (R310). -/
def halfOffsetByPc : HalfOffset → Bool
  | .imm _ => false
  | .reg rm => rm == regPc

/-- The offset of a halfword or signed transfer (R310). -/
def halfOffsetValue (s : State) : HalfOffset → Word
  | .imm imm => imm.setWidth 32
  | .reg rm => s.get rm

/-- `indexed` (R310). -/
def indexedAddr (s : State) (up : Bool) (rn : Reg) (off : Word) : Word :=
  if up then s.get rn + off else s.get rn - off

/-- `addr`: the indexed address, or the base where post-indexed (R310). -/
def transferAddr (s : State) (ix : Index) (up : Bool) (rn : Reg) (off : Word) : Word :=
  match ix with
  | .offset => indexedAddr s up rn off
  | .pre => indexedAddr s up rn off
  | .post => s.get rn

/-- `wb` (R310). -/
def writesBack : Index → Bool
  | .offset => false
  | .pre => true
  | .post => true

/-- The write-back of R310. -/
def writeBack (s : State) (ix : Index) (rn : Reg) (indexed : Word) : State :=
  if writesBack ix then s.set rn indexed else s

/-- The refused operand combinations of R310. -/
def transferChecks (ix : Index) (rn rd : Reg) (rmPc : Bool) (k : Res State) : Res State :=
  refuseIf (writesBack ix && rn == regPc) .writebackToPc <|
  refuseIf (writesBack ix && rn == rd) .writebackToRd <|
  refuseIf rmPc .offsetPc k

/-! ## The transfers -/

/-- A load up to its internal cycle: the access, the write-back, `Idle()` (R312). -/
def loadAccess (s : State) (ix : Index) (up : Bool) (rn : Reg) (off : Word) (size : Size) : State :=
  (writeBack ((s.setFetchKind .n).busRead size (transferAddr s ix up rn off) (dataAcc .n)) ix rn
    (indexedAddr s up rn off)).idle 1

/-- The end of a load: r15 is a branch (R312). -/
def loadFinish (rd : Reg) (v : Word) (s : State) : State :=
  if rd = regPc then s.branchTo v else (s.set rd v).next false

/-- A store after its checks (R314). -/
def storeAccess (s : State) (ix : Index) (up : Bool) (rn : Reg) (off : Word) (size : Size) (v : Word) : State :=
  (writeBack ((s.setFetchKind .n).busWrite size (transferAddr s ix up rn off) v (dataAcc .n)) ix rn
    (indexedAddr s up rn off)).next false

/-- LDR with any index mode (R312). -/
def loadWordOp (c : Cond) (ix : Index) (up : Bool) (rn rd : Reg) (off : Offset) (s : State) : Res State :=
  armInstr c (rn :: rd :: offsetRegs off) s <|
  transferChecks ix rn rd (offsetByPc off) <|
  .next (loadFinish rd (Memory.readWordRotate s.heard (transferAddr s ix up rn (offsetValue s off)))
    (loadAccess s ix up rn (offsetValue s off) .word))

/-- LDRB with any index mode (R313). -/
def loadByteOp (c : Cond) (ix : Index) (up : Bool) (rn rd : Reg) (off : Offset) (s : State) : Res State :=
  armInstr c (rn :: rd :: offsetRegs off) s <|
  transferChecks ix rn rd (offsetByPc off) <|
  refuseIf (rd == regPc) .bytePc <|
  .next (loadFinish rd (Memory.read s.heard .byte (transferAddr s ix up rn (offsetValue s off)))
    (loadAccess s ix up rn (offsetValue s off) .byte))

/-- The value a word store stores: r15 stores A + `STORE_PC_OFFSET` (R311). -/
def storedWord (s : State) (rd : Reg) : Word :=
  if rd = regPc then s.get regPc + (Config.storePcOffset - 8) else s.get rd

/-- STR with any index mode (R314). -/
def storeWordOp (c : Cond) (ix : Index) (up : Bool) (rn rd : Reg) (off : Offset) (s : State) : Res State :=
  armInstr c (rn :: rd :: offsetRegs off) s <|
  transferChecks ix rn rd (offsetByPc off) <|
  .next (storeAccess s ix up rn (offsetValue s off) .word (storedWord s rd))

/-- STRB with any index mode (R315). -/
def storeByteOp (c : Cond) (ix : Index) (up : Bool) (rn rd : Reg) (off : Offset) (s : State) : Res State :=
  armInstr c (rn :: rd :: offsetRegs off) s <|
  transferChecks ix rn rd (offsetByPc off) <|
  refuseIf (rd == regPc) .bytePc <|
  .next (storeAccess s ix up rn (offsetValue s off) .byte (s.get rd))

/-- A halfword or signed load (R317): `v` is the loaded value at the address. -/
def loadHalfOp (c : Cond) (ix : Index) (up : Bool) (rn rd : Reg) (off : HalfOffset) (size : Word → Size)
    (v : Word → Word) (s : State) : Res State :=
  armInstr c (rn :: rd :: halfOffsetRegs off) s <|
  transferChecks ix rn rd (halfOffsetByPc off) <|
  refuseIf (rd == regPc) .halfPc <|
  .next (loadFinish rd (v (transferAddr s ix up rn (halfOffsetValue s off)))
    (loadAccess s ix up rn (halfOffsetValue s off) (size (transferAddr s ix up rn (halfOffsetValue s off)))))

/-! ## The instructions -/

/-- LDR (R312). -/
def execLdr (c : Cond) (ix : Index) (up : Bool) (rn rd : Reg) (off : Offset) (s : State) : Res State :=
  loadWordOp c ix up rn rd off s

/-- LDRB (R313). -/
def execLdrb (c : Cond) (ix : Index) (up : Bool) (rn rd : Reg) (off : Offset) (s : State) : Res State :=
  loadByteOp c ix up rn rd off s

/-- STR (R314). -/
def execStr (c : Cond) (ix : Index) (up : Bool) (rn rd : Reg) (off : Offset) (s : State) : Res State :=
  storeWordOp c ix up rn rd off s

/-- STRB (R315). -/
def execStrb (c : Cond) (ix : Index) (up : Bool) (rn rd : Reg) (off : Offset) (s : State) : Res State :=
  storeByteOp c ix up rn rd off s

/-- LDRT: exactly the post-indexed form (R316, D29). -/
def execLdrt (c : Cond) (up : Bool) (rn rd : Reg) (off : Offset) (s : State) : Res State :=
  loadWordOp c .post up rn rd off s

/-- LDRBT: exactly the post-indexed form (R316, D29). -/
def execLdrbt (c : Cond) (up : Bool) (rn rd : Reg) (off : Offset) (s : State) : Res State :=
  loadByteOp c .post up rn rd off s

/-- STRT: exactly the post-indexed form (R316, D29). -/
def execStrt (c : Cond) (up : Bool) (rn rd : Reg) (off : Offset) (s : State) : Res State :=
  storeWordOp c .post up rn rd off s

/-- STRBT: exactly the post-indexed form (R316, D29). -/
def execStrbt (c : Cond) (up : Bool) (rn rd : Reg) (off : Offset) (s : State) : Res State :=
  storeByteOp c .post up rn rd off s

/-- LDRH (R318). -/
def execLdrh (c : Cond) (ix : Index) (up : Bool) (rn rd : Reg) (off : HalfOffset) (s : State) : Res State :=
  loadHalfOp c ix up rn rd off (fun _ => .half) (Memory.readHalfRotate s.heard) s

/-- LDRSB (R320). -/
def execLdrsb (c : Cond) (ix : Index) (up : Bool) (rn rd : Reg) (off : HalfOffset) (s : State) : Res State :=
  loadHalfOp c ix up rn rd off (fun _ => .byte) (Memory.readByteSigned s.heard) s

/-- LDRSH (R321). -/
def execLdrsh (c : Cond) (ix : Index) (up : Bool) (rn rd : Reg) (off : HalfOffset) (s : State) : Res State :=
  loadHalfOp c ix up rn rd off Memory.halfSignedSize (Memory.readHalfSigned s.heard) s

/-- STRH (R319). -/
def execStrh (c : Cond) (ix : Index) (up : Bool) (rn rd : Reg) (off : HalfOffset) (s : State) : Res State :=
  armInstr c (rn :: rd :: halfOffsetRegs off) s <|
  transferChecks ix rn rd (halfOffsetByPc off) <|
  refuseIf (rd == regPc) .halfPc <|
  .next (storeAccess s ix up rn (halfOffsetValue s off) .half (s.get rd))

/-- `RESERVED_HALF_POSTW` (R322). -/
def execReservedHalfPostw (c : Cond) (_raw : BitVec 28) (s : State) : Res State :=
  armInstr c [] s (.refused .reservedHalfPostw)

/-- `RESERVED_HALF_STORE` (R322). -/
def execReservedHalfStore (c : Cond) (_raw : BitVec 28) (s : State) : Res State :=
  armInstr c [] s (.refused .reservedHalfStore)

end Sys2Proof.Machine
end

