-- ==== Sys2Proof/Machine/PsrMultiply.lean ====
section
/-! DEFINITION. Status-register transfers and multiplies of the 32-bit set (spec/43_arm_psr_multiply.md). -/

namespace Sys2Proof.Machine

open Sys2Proof

/-! ## Status-register transfers -/

/-- MRS (R280). An SPSR read while `bank_conflict` is set is refused. -/
def execMrs (c : Cond) (p : Bool) (rd : Reg) (s : State) : Res State :=
  armInstr c [rd] s <|
  refuseIf (rd == regPc) .mrsToPc <|
  refuseIf (p && s.bankConflict) .bankConflict <|
  .next ((s.set rd (if p then s.getSpsr else s.cpsr)).next false)

/-- The bytes a field mask names (R284). -/
def fieldMask (mask : BitVec 4) : Word :=
  (if mask.getLsbD 3 then 0xFF000000#32 else 0) ||| (if mask.getLsbD 2 then 0x00FF0000#32 else 0)
    ||| (if mask.getLsbD 1 then 0x0000FF00#32 else 0) ||| (if mask.getLsbD 0 then 0x000000FF#32 else 0)

/-- The mask of R284: an unprivileged write to CPSR reaches only the flags byte. -/
def msrMask (s : State) (p : Bool) (mask : BitVec 4) : Word :=
  if !p && s.mode == .usr then fieldMask mask &&& 0xFF000000#32 else fieldMask mask

/-- The bits of `op` under `mask` into `old` (R284). -/
def mergeMask (old op mask : Word) : Word := (old &&& ~~~mask) ||| (op &&& mask)

/-- The write of R284 to SPSR. -/
def msrSpsr (mask op : Word) (s : State) : Res State :=
  refuseIf (s.bank == .shared) .msrSpsrWithoutSpsr <|
  refuseIf s.bankConflict .bankConflict <|
  .next ((s.setSpsr s.bank (mergeMask (s.spsrOf s.bank) op mask)).next false)

/-- The write of R284 to CPSR. -/
def msrCpsr (mask op : Word) (s : State) : Res State :=
  refuseIf (mask.getLsbD 5 && op.getLsbD 5 != s.thumb) .msrChangesT <|
  andThen (if mask.extractLsb' 0 8 != 0 then s.switchMode (modeField op) else .next s) fun s1 =>
  .next ((s1.setCpsr (mergeMask s1.cpsr op mask)).next false)

/-- The common semantics of MSR (R284). -/
def msrWrite (p : Bool) (mask : BitVec 4) (op : Word) (s : State) : Res State :=
  refuseIf (op &&& msrMask s p mask &&& 0x0FFFFF00#32 != 0) .msrReservedBit <|
  if p then msrSpsr (msrMask s p mask) op s else msrCpsr (msrMask s p mask) op s

/-- MSR, register operand (R281). -/
def execMsrReg (c : Cond) (p : Bool) (mask : BitVec 4) (rm : Reg) (s : State) : Res State :=
  armInstr c [rm] s <|
  refuseIf (rm == regPc) .msrFromPc <|
  msrWrite p mask (s.get rm) s

/-- MSR, immediate operand (R282). -/
def execMsrImm (c : Cond) (p : Bool) (mask rot : BitVec 4) (imm : BitVec 8) (s : State) : Res State :=
  armInstr c [] s <|
  msrWrite p mask (rotImm rot imm s.flags.c).1 s

/-- `RESERVED_PSR_IMM` (R283). -/
def execReservedPsrImm (c : Cond) (_raw : BitVec 28) (s : State) : Res State :=
  armInstr c [] s (.refused .reservedPsrImm)

/-- `RESERVED_PSR_REG` (R283). -/
def execReservedPsrReg (c : Cond) (_raw : BitVec 28) (s : State) : Res State :=
  armInstr c [] s (.refused .reservedPsrReg)

/-! ## Multiplies -/

/-- The flags a flag-setting 32-bit multiply writes (41 R211): C is a free value. -/
def mulFlags (s : State) (r : Word) : Flags where
  n := r.getLsbD 31
  z := r == 0
  c := Config.mulCarry s.draws
  v := s.flags.v

/-- The flags a flag-setting long multiply writes (41 R211): C and V are free values. -/
def mullFlags (s : State) (p : BitVec 64) : Flags where
  n := p.getLsbD 63
  z := p == 0
  c := Config.mulCarry s.draws
  v := Config.mullOverflow s.draws

/-- Flags of a multiply, when it sets them; a draw is used up (41 R211). -/
def drawFlags (sf : Bool) (f : Flags) (s : State) : State :=
  if sf then { s.setFlags f with draws := s.draws + 1 } else s

/-- A 32-bit multiply after its operand checks (R285, R286). -/
def mulFinish (sf : Bool) (rd : Reg) (cycles : Nat) (r : Word) (s : State) : State :=
  (((drawFlags sf (mulFlags s r) (s.idle cycles)).set rd r).setFetchKind .n).next false

/-- A long multiply after its operand checks (R287). -/
def mullFinish (sf : Bool) (rdHi rdLo : Reg) (cycles : Nat) (p : BitVec 64) (s : State) : State :=
  ((((drawFlags sf (mullFlags s p) (s.idle cycles)).set rdLo (p.extractLsb' 0 32)).set rdHi
    (p.extractLsb' 32 32)).setFetchKind .n).next false

/-- MUL (R285). -/
def execMul (c : Cond) (sf : Bool) (rd rs rm : Reg) (s : State) : Res State :=
  armInstr c [rd, rs, rm] s <|
  refuseIf (rd == regPc || rm == regPc || rs == regPc || rd == rm) .mulOperands <|
  .next (mulFinish sf rd (mulCycles (s.get rs) true) (s.get rm * s.get rs) s)

/-- MLA (R286). -/
def execMla (c : Cond) (sf : Bool) (rd rn rs rm : Reg) (s : State) : Res State :=
  armInstr c [rd, rn, rs, rm] s <|
  refuseIf (rd == regPc || rm == regPc || rs == regPc || rn == regPc || rd == rm) .mulOperands <|
  .next (mulFinish sf rd (mulCycles (s.get rs) true + 1) (s.get rm * s.get rs + s.get rn) s)

/-- The operand checks of the long multiplies (R287). -/
def mullRefused (rdHi rdLo rs rm : Reg) : Bool :=
  rdHi == regPc || rdLo == regPc || rm == regPc || rs == regPc || rdHi == rdLo || rdHi == rm || rdLo == rm

/-- The exact unsigned product (R287). -/
def unsignedProduct (a b : Word) : BitVec 64 := a.setWidth 64 * b.setWidth 64

/-- The exact signed product modulo 2^64 (R289). -/
def signedProduct (a b : Word) : BitVec 64 := a.signExtend 64 * b.signExtend 64

/-- UMULL (R287). -/
def execUmull (c : Cond) (sf : Bool) (rdHi rdLo rs rm : Reg) (s : State) : Res State :=
  armInstr c [rdHi, rdLo, rs, rm] s <|
  refuseIf (mullRefused rdHi rdLo rs rm) .mullOperands <|
  .next (mullFinish sf rdHi rdLo (mulCycles (s.get rs) false + 1) (unsignedProduct (s.get rm) (s.get rs)) s)

/-- UMLAL (R288). -/
def execUmlal (c : Cond) (sf : Bool) (rdHi rdLo rs rm : Reg) (s : State) : Res State :=
  armInstr c [rdHi, rdLo, rs, rm] s <|
  refuseIf (mullRefused rdHi rdLo rs rm) .mullOperands <|
  .next (mullFinish sf rdHi rdLo (mulCycles (s.get rs) false + 2)
    (unsignedProduct (s.get rm) (s.get rs) + (s.get rdHi ++ s.get rdLo)) s)

/-- SMULL (R289). -/
def execSmull (c : Cond) (sf : Bool) (rdHi rdLo rs rm : Reg) (s : State) : Res State :=
  armInstr c [rdHi, rdLo, rs, rm] s <|
  refuseIf (mullRefused rdHi rdLo rs rm) .mullOperands <|
  .next (mullFinish sf rdHi rdLo (mulCycles (s.get rs) true + 1) (signedProduct (s.get rm) (s.get rs)) s)

/-- SMLAL (R290). -/
def execSmlal (c : Cond) (sf : Bool) (rdHi rdLo rs rm : Reg) (s : State) : Res State :=
  armInstr c [rdHi, rdLo, rs, rm] s <|
  refuseIf (mullRefused rdHi rdLo rs rm) .mullOperands <|
  .next (mullFinish sf rdHi rdLo (mulCycles (s.get rs) true + 2)
    (signedProduct (s.get rm) (s.get rs) + (s.get rdHi ++ s.get rdLo)) s)

/-- `RESERVED_MUL` (R291). -/
def execReservedMul (c : Cond) (_raw : BitVec 28) (s : State) : Res State :=
  armInstr c [] s (.refused .reservedMul)

end Sys2Proof.Machine
end

