-- ==== Sys2Proof/Machine/ThumbAlu.lean ====
section
/-! DEFINITION. Shifts, arithmetic, logic and moves of the 16-bit set (spec/47_thumb_alu.md). -/

namespace Sys2Proof.Machine

open Sys2Proof

/-- The end of an instruction that writes a low register and the flags (R434). -/
def thumbWrite (rd : LowReg) (r : AluResult) (s : State) : Res State :=
  .next (((s.setFlags r.flags).set (low rd) r.value).next true)

/-- The end of a comparison (R434). -/
def thumbFlags (f : Flags) (s : State) : Res State := .next ((s.setFlags f).next true)

/-- Shift flags: N and Z from the result, C from the shifter, V kept (R434). -/
def shiftResult (s : State) (p : Word × Bool) : AluResult := logical p.1 p.2 s.flags.v

/-- Logical flags: N and Z from the result, C and V kept (R434). -/
def thumbLogical (s : State) (r : Word) : AluResult := logical r s.flags.c s.flags.v

/-- A shift by a register, with its internal cycle (R435). -/
def thumbShiftReg (ty : ShiftType) (rs rd : LowReg) (s : State) : Res State :=
  thumbWrite rd
    (shiftResult s (shiftReg ty (s.get (low rd)) ((s.get (low rs)).extractLsb' 0 8).toNat s.flags.c))
    ((s.idle 1).setFetchKind .n)

/-- A format 5 result: r15 is a branch within the set (R427, R429). -/
def hiWrite (rd : Reg) (v : Word) (s : State) : Res State :=
  if rd = regPc then .next (s.branchTo v) else .next ((s.set rd v).next true)

/-- `4 * imm8` (30 R142). -/
def imm8x4 (imm : BitVec 8) : Word := imm.setWidth 32 <<< 2

/-- `4 * imm7` (30 R142). -/
def imm7x4 (imm : BitVec 7) : Word := imm.setWidth 32 <<< 2

/-- `x[15] & ~2` (40 R170). -/
def pcBase (s : State) : Word := s.get regPc &&& 0xFFFFFFFD#32

/-- LSL Rd, Rs, #imm5 (R400). -/
def execTLslImm (imm : BitVec 5) (rs rd : LowReg) (s : State) : Res State :=
  thumbWrite rd (shiftResult s (shiftImm .lsl (s.get (low rs)) imm s.flags.c)) s

/-- LSR Rd, Rs, #imm5 (R401). -/
def execTLsrImm (imm : BitVec 5) (rs rd : LowReg) (s : State) : Res State :=
  thumbWrite rd (shiftResult s (shiftImm .lsr (s.get (low rs)) imm s.flags.c)) s

/-- ASR Rd, Rs, #imm5 (R402). -/
def execTAsrImm (imm : BitVec 5) (rs rd : LowReg) (s : State) : Res State :=
  thumbWrite rd (shiftResult s (shiftImm .asr (s.get (low rs)) imm s.flags.c)) s

/-- ADD Rd, Rs, Rn (R403). -/
def execTAddReg (rn rs rd : LowReg) (s : State) : Res State :=
  thumbWrite rd (addWithCarry (s.get (low rs)) (s.get (low rn)) false) s

/-- SUB Rd, Rs, Rn (R404). -/
def execTSubReg (rn rs rd : LowReg) (s : State) : Res State :=
  thumbWrite rd (subWithCarry (s.get (low rs)) (s.get (low rn)) true) s

/-- ADD Rd, Rs, #imm3 (R405). -/
def execTAddImm3 (imm : BitVec 3) (rs rd : LowReg) (s : State) : Res State :=
  thumbWrite rd (addWithCarry (s.get (low rs)) (imm.setWidth 32) false) s

/-- SUB Rd, Rs, #imm3 (R406). -/
def execTSubImm3 (imm : BitVec 3) (rs rd : LowReg) (s : State) : Res State :=
  thumbWrite rd (subWithCarry (s.get (low rs)) (imm.setWidth 32) true) s

/-- MOV Rd, #imm8 (R407). -/
def execTMovImm (rd : LowReg) (imm : BitVec 8) (s : State) : Res State :=
  thumbWrite rd (thumbLogical s (imm.setWidth 32)) s

/-- CMP Rd, #imm8 (R408). -/
def execTCmpImm (rd : LowReg) (imm : BitVec 8) (s : State) : Res State :=
  thumbFlags (subWithCarry (s.get (low rd)) (imm.setWidth 32) true).flags s

/-- ADD Rd, #imm8 (R409). -/
def execTAddImm8 (rd : LowReg) (imm : BitVec 8) (s : State) : Res State :=
  thumbWrite rd (addWithCarry (s.get (low rd)) (imm.setWidth 32) false) s

/-- SUB Rd, #imm8 (R410). -/
def execTSubImm8 (rd : LowReg) (imm : BitVec 8) (s : State) : Res State :=
  thumbWrite rd (subWithCarry (s.get (low rd)) (imm.setWidth 32) true) s

/-- AND Rd, Rs (R411). -/
def execTAnd (rs rd : LowReg) (s : State) : Res State :=
  thumbWrite rd (thumbLogical s (s.get (low rd) &&& s.get (low rs))) s

/-- EOR Rd, Rs (R412). -/
def execTEor (rs rd : LowReg) (s : State) : Res State :=
  thumbWrite rd (thumbLogical s (s.get (low rd) ^^^ s.get (low rs))) s

/-- LSL Rd, Rs (R413). -/
def execTLsl (rs rd : LowReg) (s : State) : Res State :=
  thumbShiftReg .lsl rs rd s

/-- LSR Rd, Rs (R414). -/
def execTLsr (rs rd : LowReg) (s : State) : Res State :=
  thumbShiftReg .lsr rs rd s

/-- ASR Rd, Rs (R415). -/
def execTAsr (rs rd : LowReg) (s : State) : Res State :=
  thumbShiftReg .asr rs rd s

/-- ADC Rd, Rs (R416). -/
def execTAdc (rs rd : LowReg) (s : State) : Res State :=
  thumbWrite rd (addWithCarry (s.get (low rd)) (s.get (low rs)) s.flags.c) s

/-- SBC Rd, Rs (R417). -/
def execTSbc (rs rd : LowReg) (s : State) : Res State :=
  thumbWrite rd (subWithCarry (s.get (low rd)) (s.get (low rs)) s.flags.c) s

/-- ROR Rd, Rs (R418). -/
def execTRor (rs rd : LowReg) (s : State) : Res State :=
  thumbShiftReg .ror rs rd s

/-- TST Rd, Rs (R419). -/
def execTTst (rs rd : LowReg) (s : State) : Res State :=
  thumbFlags (thumbLogical s (s.get (low rd) &&& s.get (low rs))).flags s

/-- NEG Rd, Rs (R420). -/
def execTNeg (rs rd : LowReg) (s : State) : Res State :=
  thumbWrite rd (subWithCarry 0 (s.get (low rs)) true) s

/-- CMP Rd, Rs (R421). -/
def execTCmp (rs rd : LowReg) (s : State) : Res State :=
  thumbFlags (subWithCarry (s.get (low rd)) (s.get (low rs)) true).flags s

/-- CMN Rd, Rs (R422). -/
def execTCmn (rs rd : LowReg) (s : State) : Res State :=
  thumbFlags (addWithCarry (s.get (low rd)) (s.get (low rs)) false).flags s

/-- ORR Rd, Rs (R423). -/
def execTOrr (rs rd : LowReg) (s : State) : Res State :=
  thumbWrite rd (thumbLogical s (s.get (low rd) ||| s.get (low rs))) s

/-- MUL Rd, Rs (R424): the cycles come from the old value of Rd. -/
def execTMul (rs rd : LowReg) (s : State) : Res State :=
  refuseIf (rd == rs) .thumbMulSameReg <|
  .next ((((drawFlags true (mulFlags s (s.get (low rd) * s.get (low rs)))
    (s.idle (mulCycles (s.get (low rd)) true))).set (low rd)
    (s.get (low rd) * s.get (low rs))).setFetchKind .n).next true)

/-- BIC Rd, Rs (R425). -/
def execTBic (rs rd : LowReg) (s : State) : Res State :=
  thumbWrite rd (thumbLogical s (s.get (low rd) &&& ~~~(s.get (low rs)))) s

/-- MVN Rd, Rs (R426). -/
def execTMvn (rs rd : LowReg) (s : State) : Res State :=
  thumbWrite rd (thumbLogical s (~~~(s.get (low rs)))) s

/-- ADD Rd, Rs with a hi register (R427). -/
def execTAddHi (rd rs : Reg) (s : State) : Res State :=
  guardBanked [rd, rs] s <|
  hiWrite rd (s.get rd + s.get rs) s

/-- CMP Rd, Rs with a hi register (R428). -/
def execTCmpHi (rd rs : Reg) (s : State) : Res State :=
  guardBanked [rd, rs] s <|
  refuseIf (rd == regPc) .thumbCmpPc <|
  thumbFlags (subWithCarry (s.get rd) (s.get rs) true).flags s

/-- MOV Rd, Rs with a hi register (R429). -/
def execTMovHi (rd rs : Reg) (s : State) : Res State :=
  guardBanked [rd, rs] s <|
  hiWrite rd (s.get rs) s

/-- ADD Rd, PC, #imm (R430). -/
def execTAddPc (rd : LowReg) (imm : BitVec 8) (s : State) : Res State :=
  .next ((s.set (low rd) (pcBase s + imm8x4 imm)).next true)

/-- ADD Rd, SP, #imm (R431). -/
def execTAddSp (rd : LowReg) (imm : BitVec 8) (s : State) : Res State :=
  guardBanked [regSp] s <|
  .next ((s.set (low rd) (s.get regSp + imm8x4 imm)).next true)

/-- ADD SP, #imm (R432). -/
def execTSpAdd (imm : BitVec 7) (s : State) : Res State :=
  guardBanked [regSp] s <|
  .next ((s.set regSp (s.get regSp + imm7x4 imm)).next true)

/-- SUB SP, #imm (R433). -/
def execTSpSub (imm : BitVec 7) (s : State) : Res State :=
  guardBanked [regSp] s <|
  .next ((s.set regSp (s.get regSp - imm7x4 imm)).next true)

end Sys2Proof.Machine
end

