-- ==== Sys2Proof/Machine/ThumbBranch.lean ====
section
/-! DEFINITION. Branches, software interrupt, undefined and reserved of the 16-bit set
(spec/49_thumb_branch_system.md). -/

namespace Sys2Proof.Machine

open Sys2Proof

/-- `B<cond>` (R490). -/
def execTBcond (c : Cond) (imm : BitVec 8) (s : State) : Res State :=
  .next (if s.passes c then s.branchTo (s.get regPc + thumbCondOffset imm) else s.next true)

/-- B (R491). -/
def execTB (imm : BitVec 11) (s : State) : Res State :=
  .next (s.branchTo (s.get regPc + thumbBranchOffset imm))

/-- BL, first halfword (R492). -/
def execTBlFirst (imm : BitVec 11) (s : State) : Res State :=
  guardBanked [regLr] s <|
  .next ((s.set regLr (s.get regPc + thumbBlHigh imm)).next true)

/-- BL, second halfword (R493). -/
def execTBlSecond (imm : BitVec 11) (s : State) : Res State :=
  guardBanked [regLr] s <|
  .next ((s.set regLr ((s.get regPc - 2) ||| 1)).branchTo (s.get regLr + thumbBlLow imm))

/-- BX (R494). -/
def execTBx (rs : Reg) (s : State) : Res State :=
  guardBanked [rs] s <|
  bxTo (s.get rs) s

/-- SWI (R495). -/
def execTSwi (imm : BitVec 8) (s : State) : Res State := swiOp true (imm.setWidth 32) s

/-- UNDEFINED (R496). -/
def execTUndefined (_raw : BitVec 16) (s : State) : Res State := s.raiseUndefined true

/-- `RESERVED_HI_LOLO` (R497). -/
def execTReservedHiLoLo (_raw : BitVec 16) (_s : State) : Res State := .refused .reservedHiLoLo

/-- `RESERVED_BX_H1` (R497). -/
def execTReservedBxH1 (_raw : BitVec 16) (_s : State) : Res State := .refused .reservedBxH1

/-- `RESERVED_BCOND_AL` (R497). -/
def execTReservedBcondAl (_raw : BitVec 16) (_s : State) : Res State := .refused .reservedBcondAl

end Sys2Proof.Machine
end

