-- ==== Sys2Proof/Machine/ThumbLoadStore.lean ====
section
/-! DEFINITION. Loads, stores and block transfers of the 16-bit set (spec/48_thumb_load_store.md). -/

namespace Sys2Proof.Machine

open Sys2Proof

/-! ## Addresses -/

/-- `x[Rb] + x[Ro]` (formats 7 and 8). -/
def regAddr (s : State) (ro rb : LowReg) : Word := s.get (low rb) + s.get (low ro)

/-- `x[Rb] + imm5 * 2^k` (formats 9 and 10). -/
def immAddr (s : State) (imm : BitVec 5) (k : Nat) (rb : LowReg) : Word := s.get (low rb) + imm.setWidth 32 <<< k

/-- `x[13] + 4 * imm8` (format 11). -/
def spAddr (s : State) (imm : BitVec 8) : Word := s.get regSp + imm8x4 imm

/-- `(x[15] & ~2) + 4 * imm8` (format 6). -/
def pcAddr (s : State) (imm : BitVec 8) : Word := pcBase s + imm8x4 imm

/-! ## The common sequence (R471) -/

/-- A load: `v` is the value read at `a`. -/
def thumbLoad (rd : LowReg) (size : Size) (a v : Word) (s : State) : Res State :=
  .next (((((s.setFetchKind .n).busRead size a (dataAcc .n)).idle 1).set (low rd) v).next true)

/-- A store of a low register. -/
def thumbStore (rd : LowReg) (size : Size) (a : Word) (s : State) : Res State :=
  .next (((s.setFetchKind .n).busWrite size a (s.get (low rd)) (dataAcc .n)).next true)

/-! ## The single transfers -/

/-- LDR Rd, [PC, #imm] (R450). -/
def execTLdrPc (rd : LowReg) (imm : BitVec 8) (s : State) : Res State :=
  thumbLoad rd .word (pcAddr s imm) (Memory.readWordRotate s.heard (pcAddr s imm)) s

/-- STR Rd, [Rb, Ro] (R451). -/
def execTStrReg (ro rb rd : LowReg) (s : State) : Res State :=
  thumbStore rd .word (regAddr s ro rb) s

/-- STRB Rd, [Rb, Ro] (R452). -/
def execTStrbReg (ro rb rd : LowReg) (s : State) : Res State :=
  thumbStore rd .byte (regAddr s ro rb) s

/-- LDR Rd, [Rb, Ro] (R453). -/
def execTLdrReg (ro rb rd : LowReg) (s : State) : Res State :=
  thumbLoad rd .word (regAddr s ro rb) (Memory.readWordRotate s.heard (regAddr s ro rb)) s

/-- LDRB Rd, [Rb, Ro] (R454). -/
def execTLdrbReg (ro rb rd : LowReg) (s : State) : Res State :=
  thumbLoad rd .byte (regAddr s ro rb) (Memory.read s.heard .byte (regAddr s ro rb)) s

/-- STRH Rd, [Rb, Ro] (R455). -/
def execTStrhReg (ro rb rd : LowReg) (s : State) : Res State :=
  thumbStore rd .half (regAddr s ro rb) s

/-- LDSB Rd, [Rb, Ro] (R456). -/
def execTLdsbReg (ro rb rd : LowReg) (s : State) : Res State :=
  thumbLoad rd .byte (regAddr s ro rb) (Memory.readByteSigned s.heard (regAddr s ro rb)) s

/-- LDRH Rd, [Rb, Ro] (R457). -/
def execTLdrhReg (ro rb rd : LowReg) (s : State) : Res State :=
  thumbLoad rd .half (regAddr s ro rb) (Memory.readHalfRotate s.heard (regAddr s ro rb)) s

/-- LDSH Rd, [Rb, Ro] (R458). -/
def execTLdshReg (ro rb rd : LowReg) (s : State) : Res State :=
  thumbLoad rd (Memory.halfSignedSize (regAddr s ro rb)) (regAddr s ro rb) (Memory.readHalfSigned s.heard (regAddr s ro rb)) s

/-- STR Rd, [Rb, #imm5*4] (R459). -/
def execTStrImm (imm : BitVec 5) (rb rd : LowReg) (s : State) : Res State :=
  thumbStore rd .word (immAddr s imm 2 rb) s

/-- LDR Rd, [Rb, #imm5*4] (R460). -/
def execTLdrImm (imm : BitVec 5) (rb rd : LowReg) (s : State) : Res State :=
  thumbLoad rd .word (immAddr s imm 2 rb) (Memory.readWordRotate s.heard (immAddr s imm 2 rb)) s

/-- STRB Rd, [Rb, #imm5] (R461). -/
def execTStrbImm (imm : BitVec 5) (rb rd : LowReg) (s : State) : Res State :=
  thumbStore rd .byte (immAddr s imm 0 rb) s

/-- LDRB Rd, [Rb, #imm5] (R462). -/
def execTLdrbImm (imm : BitVec 5) (rb rd : LowReg) (s : State) : Res State :=
  thumbLoad rd .byte (immAddr s imm 0 rb) (Memory.read s.heard .byte (immAddr s imm 0 rb)) s

/-- STRH Rd, [Rb, #imm5*2] (R463). -/
def execTStrhImm (imm : BitVec 5) (rb rd : LowReg) (s : State) : Res State :=
  thumbStore rd .half (immAddr s imm 1 rb) s

/-- LDRH Rd, [Rb, #imm5*2] (R464). -/
def execTLdrhImm (imm : BitVec 5) (rb rd : LowReg) (s : State) : Res State :=
  thumbLoad rd .half (immAddr s imm 1 rb) (Memory.readHalfRotate s.heard (immAddr s imm 1 rb)) s

/-- STR Rd, [SP, #imm] (R465). -/
def execTStrSp (rd : LowReg) (imm : BitVec 8) (s : State) : Res State :=
  guardBanked [regSp] s <|
  thumbStore rd .word (spAddr s imm) s

/-- LDR Rd, [SP, #imm] (R466). -/
def execTLdrSp (rd : LowReg) (imm : BitVec 8) (s : State) : Res State :=
  guardBanked [regSp] s <|
  thumbLoad rd .word (spAddr s imm) (Memory.readWordRotate s.heard (spAddr s imm)) s

/-! ## Push, pop, multiple -/

/-- The low registers of an 8-bit list, ascending. -/
def lowList (list : BitVec 8) : List Reg := regList (list.setWidth 16)

/-- The list of PUSH: R adds r14 (R467). -/
def pushRegs (lr : Bool) (list : BitVec 8) : List Reg := if lr then lowList list ++ [regLr] else lowList list

/-- The list of POP: R adds r15 (R468). -/
def popRegs (pc : Bool) (list : BitVec 8) : List Reg := if pc then lowList list ++ [regPc] else lowList list

/-- The start address of a PUSH (R467). -/
def pushStart (s : State) (regs : List Reg) : Word := s.get regSp - listBytes regs

/-- PUSH (R467). -/
def execTPush (lr : Bool) (list : BitVec 8) (s : State) : Res State :=
  guardBanked [regSp] s <|
  refuseIf (list == 0 && !lr) .blockEmptyList <|
  .next (((storeRegs none true (pushRegs lr list) (pushStart s (pushRegs lr list)) (s.setFetchKind .n)).set regSp
    (pushStart s (pushRegs lr list))).next true)

/-- The reads of a POP and its new stack pointer (R468). -/
def popReads (regs : List Reg) (s : State) : State :=
  ((loadRegs none true regs (s.get regSp) (s.setFetchKind .n)).set regSp (s.get regSp + listBytes regs)).idle 1

/-- POP (R468): with r15, a branch within the set. -/
def execTPop (pc : Bool) (list : BitVec 8) (s : State) : Res State :=
  guardBanked [regSp] s <|
  refuseIf (list == 0 && !pc) .blockEmptyList <|
  .next
    (if pc then (popReads (popRegs pc list) s).branchTo ((popReads (popRegs pc list) s).get regPc)
     else (popReads (popRegs pc list) s).next true)

/-- `new_base` of the multiple transfers (R469, R470). -/
def multipleBase (s : State) (rb : LowReg) (regs : List Reg) : Word := s.get (low rb) + listBytes regs

/-- The list contains the base. -/
def baseInList (rb : LowReg) (list : BitVec 8) : Bool := list.getLsbD rb.val

/-- STMIA (R469). -/
def execTStmia (rb : LowReg) (list : BitVec 8) (s : State) : Res State :=
  refuseIf (list == 0) .blockEmptyList <|
  refuseIf (baseInList rb list && !isLowest (lowList list) (low rb)) .stmBaseNotLowest <|
  .next ((storeRegs (some (low rb, multipleBase s rb (lowList list))) true (lowList list) (s.get (low rb))
    (s.setFetchKind .n)).next true)

/-- LDMIA (R470): a loaded base keeps the loaded value. -/
def execTLdmia (rb : LowReg) (list : BitVec 8) (s : State) : Res State :=
  refuseIf (list == 0) .blockEmptyList <|
  let t := (loadRegs none true (lowList list) (s.get (low rb)) (s.setFetchKind .n)).idle 1
  .next ((if baseInList rb list then t else t.set (low rb) (multipleBase s rb (lowList list))).next true)

end Sys2Proof.Machine
end

