-- ==== Sys2Proof/Machine/Dispatch.lean ====
section
/-! DEFINITION. The dispatch: one meaning per constructor (spec/40_pipeline_dispatch.md R171). -/

namespace Sys2Proof.Machine

open Sys2Proof

/-- Run one decoded instruction. -/
def exec (i : Instr) (s : State) : Host.Outcome State Fault Refusal :=
  match i with
  | .and c sf rn rd op2 => Sys2Proof.Machine.execAnd c sf rn rd op2 s
  | .eor c sf rn rd op2 => Sys2Proof.Machine.execEor c sf rn rd op2 s
  | .sub c sf rn rd op2 => Sys2Proof.Machine.execSub c sf rn rd op2 s
  | .rsb c sf rn rd op2 => Sys2Proof.Machine.execRsb c sf rn rd op2 s
  | .add c sf rn rd op2 => Sys2Proof.Machine.execAdd c sf rn rd op2 s
  | .adc c sf rn rd op2 => Sys2Proof.Machine.execAdc c sf rn rd op2 s
  | .sbc c sf rn rd op2 => Sys2Proof.Machine.execSbc c sf rn rd op2 s
  | .rsc c sf rn rd op2 => Sys2Proof.Machine.execRsc c sf rn rd op2 s
  | .tst c rn rd op2 => Sys2Proof.Machine.execTst c rn rd op2 s
  | .teq c rn rd op2 => Sys2Proof.Machine.execTeq c rn rd op2 s
  | .cmp c rn rd op2 => Sys2Proof.Machine.execCmp c rn rd op2 s
  | .cmn c rn rd op2 => Sys2Proof.Machine.execCmn c rn rd op2 s
  | .orr c sf rn rd op2 => Sys2Proof.Machine.execOrr c sf rn rd op2 s
  | .mov c sf rd op2 => Sys2Proof.Machine.execMov c sf rd op2 s
  | .bic c sf rn rd op2 => Sys2Proof.Machine.execBic c sf rn rd op2 s
  | .mvn c sf rd op2 => Sys2Proof.Machine.execMvn c sf rd op2 s
  | .mrs c p rd => Sys2Proof.Machine.execMrs c p rd s
  | .msrReg c p mask rm => Sys2Proof.Machine.execMsrReg c p mask rm s
  | .msrImm c p mask rot imm => Sys2Proof.Machine.execMsrImm c p mask rot imm s
  | .mul c sf rd rs rm => Sys2Proof.Machine.execMul c sf rd rs rm s
  | .mla c sf rd rn rs rm => Sys2Proof.Machine.execMla c sf rd rn rs rm s
  | .umull c sf rdHi rdLo rs rm => Sys2Proof.Machine.execUmull c sf rdHi rdLo rs rm s
  | .umlal c sf rdHi rdLo rs rm => Sys2Proof.Machine.execUmlal c sf rdHi rdLo rs rm s
  | .smull c sf rdHi rdLo rs rm => Sys2Proof.Machine.execSmull c sf rdHi rdLo rs rm s
  | .smlal c sf rdHi rdLo rs rm => Sys2Proof.Machine.execSmlal c sf rdHi rdLo rs rm s
  | .ldr c ix up rn rd off => Sys2Proof.Machine.execLdr c ix up rn rd off s
  | .ldrb c ix up rn rd off => Sys2Proof.Machine.execLdrb c ix up rn rd off s
  | .str c ix up rn rd off => Sys2Proof.Machine.execStr c ix up rn rd off s
  | .strb c ix up rn rd off => Sys2Proof.Machine.execStrb c ix up rn rd off s
  | .ldrt c up rn rd off => Sys2Proof.Machine.execLdrt c up rn rd off s
  | .ldrbt c up rn rd off => Sys2Proof.Machine.execLdrbt c up rn rd off s
  | .strt c up rn rd off => Sys2Proof.Machine.execStrt c up rn rd off s
  | .strbt c up rn rd off => Sys2Proof.Machine.execStrbt c up rn rd off s
  | .ldrh c ix up rn rd off => Sys2Proof.Machine.execLdrh c ix up rn rd off s
  | .strh c ix up rn rd off => Sys2Proof.Machine.execStrh c ix up rn rd off s
  | .ldrsb c ix up rn rd off => Sys2Proof.Machine.execLdrsb c ix up rn rd off s
  | .ldrsh c ix up rn rd off => Sys2Proof.Machine.execLdrsh c ix up rn rd off s
  | .ldm c m sb wb rn list => Sys2Proof.Machine.execLdm c m sb wb rn list s
  | .stm c m sb wb rn list => Sys2Proof.Machine.execStm c m sb wb rn list s
  | .swp c rn rd rm => Sys2Proof.Machine.execSwp c rn rd rm s
  | .swpb c rn rd rm => Sys2Proof.Machine.execSwpb c rn rd rm s
  | .b c imm => Sys2Proof.Machine.execB c imm s
  | .bl c imm => Sys2Proof.Machine.execBl c imm s
  | .bx c rm => Sys2Proof.Machine.execBx c rm s
  | .swi c imm => Sys2Proof.Machine.execSwi c imm s
  | .undefined c raw => Sys2Proof.Machine.execUndefined c raw s
  | .coprocessor c raw => Sys2Proof.Machine.execCoprocessor c raw s
  | .reservedPsrImm c raw => Sys2Proof.Machine.execReservedPsrImm c raw s
  | .reservedPsrReg c raw => Sys2Proof.Machine.execReservedPsrReg c raw s
  | .reservedMul c raw => Sys2Proof.Machine.execReservedMul c raw s
  | .reservedSwp c raw => Sys2Proof.Machine.execReservedSwp c raw s
  | .reservedHalfPostw c raw => Sys2Proof.Machine.execReservedHalfPostw c raw s
  | .reservedHalfStore c raw => Sys2Proof.Machine.execReservedHalfStore c raw s
  | .tLslImm imm rs rd => Sys2Proof.Machine.execTLslImm imm rs rd s
  | .tLsrImm imm rs rd => Sys2Proof.Machine.execTLsrImm imm rs rd s
  | .tAsrImm imm rs rd => Sys2Proof.Machine.execTAsrImm imm rs rd s
  | .tAddReg rn rs rd => Sys2Proof.Machine.execTAddReg rn rs rd s
  | .tSubReg rn rs rd => Sys2Proof.Machine.execTSubReg rn rs rd s
  | .tAddImm3 imm rs rd => Sys2Proof.Machine.execTAddImm3 imm rs rd s
  | .tSubImm3 imm rs rd => Sys2Proof.Machine.execTSubImm3 imm rs rd s
  | .tMovImm rd imm => Sys2Proof.Machine.execTMovImm rd imm s
  | .tCmpImm rd imm => Sys2Proof.Machine.execTCmpImm rd imm s
  | .tAddImm8 rd imm => Sys2Proof.Machine.execTAddImm8 rd imm s
  | .tSubImm8 rd imm => Sys2Proof.Machine.execTSubImm8 rd imm s
  | .tAnd rs rd => Sys2Proof.Machine.execTAnd rs rd s
  | .tEor rs rd => Sys2Proof.Machine.execTEor rs rd s
  | .tLsl rs rd => Sys2Proof.Machine.execTLsl rs rd s
  | .tLsr rs rd => Sys2Proof.Machine.execTLsr rs rd s
  | .tAsr rs rd => Sys2Proof.Machine.execTAsr rs rd s
  | .tAdc rs rd => Sys2Proof.Machine.execTAdc rs rd s
  | .tSbc rs rd => Sys2Proof.Machine.execTSbc rs rd s
  | .tRor rs rd => Sys2Proof.Machine.execTRor rs rd s
  | .tTst rs rd => Sys2Proof.Machine.execTTst rs rd s
  | .tNeg rs rd => Sys2Proof.Machine.execTNeg rs rd s
  | .tCmp rs rd => Sys2Proof.Machine.execTCmp rs rd s
  | .tCmn rs rd => Sys2Proof.Machine.execTCmn rs rd s
  | .tOrr rs rd => Sys2Proof.Machine.execTOrr rs rd s
  | .tMul rs rd => Sys2Proof.Machine.execTMul rs rd s
  | .tBic rs rd => Sys2Proof.Machine.execTBic rs rd s
  | .tMvn rs rd => Sys2Proof.Machine.execTMvn rs rd s
  | .tAddHi rd rs => Sys2Proof.Machine.execTAddHi rd rs s
  | .tCmpHi rd rs => Sys2Proof.Machine.execTCmpHi rd rs s
  | .tMovHi rd rs => Sys2Proof.Machine.execTMovHi rd rs s
  | .tBx rs => Sys2Proof.Machine.execTBx rs s
  | .tLdrPc rd imm => Sys2Proof.Machine.execTLdrPc rd imm s
  | .tStrReg ro rb rd => Sys2Proof.Machine.execTStrReg ro rb rd s
  | .tStrbReg ro rb rd => Sys2Proof.Machine.execTStrbReg ro rb rd s
  | .tLdrReg ro rb rd => Sys2Proof.Machine.execTLdrReg ro rb rd s
  | .tLdrbReg ro rb rd => Sys2Proof.Machine.execTLdrbReg ro rb rd s
  | .tStrhReg ro rb rd => Sys2Proof.Machine.execTStrhReg ro rb rd s
  | .tLdsbReg ro rb rd => Sys2Proof.Machine.execTLdsbReg ro rb rd s
  | .tLdrhReg ro rb rd => Sys2Proof.Machine.execTLdrhReg ro rb rd s
  | .tLdshReg ro rb rd => Sys2Proof.Machine.execTLdshReg ro rb rd s
  | .tStrImm imm rb rd => Sys2Proof.Machine.execTStrImm imm rb rd s
  | .tLdrImm imm rb rd => Sys2Proof.Machine.execTLdrImm imm rb rd s
  | .tStrbImm imm rb rd => Sys2Proof.Machine.execTStrbImm imm rb rd s
  | .tLdrbImm imm rb rd => Sys2Proof.Machine.execTLdrbImm imm rb rd s
  | .tStrhImm imm rb rd => Sys2Proof.Machine.execTStrhImm imm rb rd s
  | .tLdrhImm imm rb rd => Sys2Proof.Machine.execTLdrhImm imm rb rd s
  | .tStrSp rd imm => Sys2Proof.Machine.execTStrSp rd imm s
  | .tLdrSp rd imm => Sys2Proof.Machine.execTLdrSp rd imm s
  | .tAddPc rd imm => Sys2Proof.Machine.execTAddPc rd imm s
  | .tAddSp rd imm => Sys2Proof.Machine.execTAddSp rd imm s
  | .tSpAdd imm => Sys2Proof.Machine.execTSpAdd imm s
  | .tSpSub imm => Sys2Proof.Machine.execTSpSub imm s
  | .tPush lr list => Sys2Proof.Machine.execTPush lr list s
  | .tPop pc list => Sys2Proof.Machine.execTPop pc list s
  | .tStmia rb list => Sys2Proof.Machine.execTStmia rb list s
  | .tLdmia rb list => Sys2Proof.Machine.execTLdmia rb list s
  | .tBcond c imm => Sys2Proof.Machine.execTBcond c imm s
  | .tSwi imm => Sys2Proof.Machine.execTSwi imm s
  | .tB imm => Sys2Proof.Machine.execTB imm s
  | .tBlFirst imm => Sys2Proof.Machine.execTBlFirst imm s
  | .tBlSecond imm => Sys2Proof.Machine.execTBlSecond imm s
  | .tUndefined raw => Sys2Proof.Machine.execTUndefined raw s
  | .tReservedHiLoLo raw => Sys2Proof.Machine.execTReservedHiLoLo raw s
  | .tReservedBxH1 raw => Sys2Proof.Machine.execTReservedBxH1 raw s
  | .tReservedBcondAl raw => Sys2Proof.Machine.execTReservedBcondAl raw s

end Sys2Proof.Machine
end

