-- ==== Sys2Proof/Machine/Environment.lean ====
section
/-! DEFINITION. What the environment and the host do between two steps (spec/10_state.md R45, R48; 60 R536, R540;
65; 70 R620 to R623), as the acts that `World.env` lists (log entry 4). -/

namespace Sys2Proof.Machine

open Sys2Proof

namespace State

/-- `Reset()` (70 R620): memory, `HALTED`, the parameters and interception stay (R622). -/
def doReset (s : State) : State :=
  { s with
    world := { s.world with sched := Sched.zero, irqLine := false }
    x := Vector.replicate 16 0
    bankLo :=
      { shared := Pair.zero, fiq := Pair.zero, irq := Pair.zero, svc := Pair.zero, abt := Pair.zero,
        und := Pair.zero }
    bankHi := { shared := Vector.replicate 5 0, fiq := Vector.replicate 5 0 }
    spsr := { fiq := 0, irq := 0, svc := 0, abt := 0, und := 0 }
    cpsr := s.world.cfg.resetCpsr
    invalidMode := false
    bankConflict := false
    started := true
    irqMaskLatch := s.world.cfg.resetCpsr.getLsbD 7 }.reload s.world.cfg.resetVector

/-- The bulk read of S1 to S11 (10 R48). -/
def snapshot (s : State) : Snapshot where
  x := s.x
  bankLo := s.bankLo
  bankHi := s.bankHi
  cpsr := s.cpsr
  spsr := s.spsr
  slot0 := s.slot0
  slot1 := s.slot1
  fetchKind := s.fetchKind
  irqMaskLatch := s.irqMaskLatch
  irqLine := s.world.irqLine
  invalidMode := s.invalidMode
  bankConflict := s.bankConflict

/-- The bulk replacement of S1 to S11 (10 R48), which may stand for a first reset (70 R623). -/
def loadSnapshot (s : State) (p : Snapshot) : State :=
  { s with
    x := p.x
    bankLo := p.bankLo
    bankHi := p.bankHi
    cpsr := p.cpsr
    spsr := p.spsr
    slot0 := p.slot0
    slot1 := p.slot1
    fetchKind := p.fetchKind
    irqMaskLatch := p.irqMaskLatch
    invalidMode := p.invalidMode
    bankConflict := p.bankConflict
    started := true
    world := { s.world with irqLine := p.irqLine } }

end State

/-- The reserved bits of every saved status register are 0 (10 R32). -/
def Spsrs.reservedClear (p : Spsrs) : Bool :=
  Machine.reservedClear p.fiq && Machine.reservedClear p.irq && Machine.reservedClear p.svc
    && Machine.reservedClear p.abt && Machine.reservedClear p.und

/-- What every bulk read between steps gives: a recognised mode, r15 aligned, the reserved bits 0, no degraded state
(10 R31, R32, R38, R41; DESIGN CHOICE, safe, log entry 18). -/
def Snapshot.valid (p : Snapshot) : Bool :=
  (Mode.ofBits (modeField p.cpsr)).isSome && !p.invalidMode && Machine.reservedClear p.cpsr && p.spsr.reservedClear
    && alignPc (p.cpsr.getLsbD 5) p.x[15] == p.x[15]

namespace State

/-- What the environment did to the world, on the state. -/
def onWorld (s : State) (r : Res World) : Res State := andThen r fun w => .next { s with world := w }

/-- One act between steps. The fetches of a `Reset()` are bus calls, with the environment inside them. -/
def applyEnvAct (s : State) : EnvAct → Res State
  | .common a => s.onWorld (s.world.applyCommon a)
  | .addCycles n scripts => s.onWorld (s.world.addCycles n scripts)
  | .reset => s.doReset.settle
  | .save => .next { s with world := s.world.note (.snapshot s.snapshot) }
  | .restore p => refuseIf (!p.valid) .invalidSnapshot (.next (s.loadSnapshot p))
  | .intercept present =>
    .next { s with world := { s.world with cfg := { s.world.cfg with swiIntercept := present } } }

/-- The acts of one step's entry, in order. -/
def applyEnvActs : List EnvAct → State → Res State
  | [], s => .next s
  | a :: acts, s => andThen (s.applyEnvAct a) (applyEnvActs acts)

/-- The acts that stand before this step. -/
def envHead (s : State) : List EnvAct := s.world.env.headD []

/-- The state as the step's environment finds it: the trace and the notes of the last step gone, the acts of this
step taken off the list (log entries 4, 5). -/
def beginStep (s : State) : State :=
  { s with world := { s.world with bus := [], host := [], env := s.world.env.tail } }

/-- The environment's turn before a step. -/
def environment (s : State) : Res State := applyEnvActs s.envHead s.beginStep

end State

end Sys2Proof.Machine
end

