-- ==== Sys2Proof/Machine/Run.lean ====
section
/-! DEFINITION. `Run()`, one step of the CPU agent (spec/40_pipeline_dispatch.md R160). -/

namespace Sys2Proof.Machine

open Sys2Proof

namespace State

/-- Stage 1: r15 aligned to the instruction width (10 R41). -/
def alignStep (s : State) : State := s.set regPc (alignPc s.thumb (s.get regPc))

/-- Stage 2: the IRQ decision, with the latch the previous step left (10 R44). -/
def irqTaken (s : State) : Bool := s.world.irqLine && !s.irqMaskLatch

/-- The latch update of stage 3 (10 R44). -/
def latchIrqMask (s : State) : State := { s with irqMaskLatch := s.irqDisable }

/-- The instruction in `slot0`, in the set that T selects (30 R110). -/
def slotInstr (s : State) : Instr :=
  if s.thumb then decodeThumb (s.slot0.extractLsb' 0 16) else decodeArm s.slot0

/-- Stage 4: shift the slots, fetch at r15, next fetch sequential (20 R76). -/
def fetch (s : State) : State :=
  { s.busRead (opSize s.thumb) (s.get regPc) (codeAcc s.fetchKind) with
    slot0 := s.slot1
    slot1 := Memory.read s.heard (opSize s.thumb) (s.get regPc)
    fetchKind := .s }

/-- What an instruction finds: stages 1, 3 and 4 done. -/
def prepare (s : State) : State := s.alignStep.latchIrqMask.fetch

/-- A step that takes the IRQ (stage 3). -/
def irqStep (s : State) : Res State :=
  andThen s.alignStep.raiseIrq fun t => t.latchIrqMask.settle

/-- A step that executes the instruction in slot 0 (stages 1, 3 to 5). -/
def instrStep (s : State) : Res State :=
  andThen s.prepare.settle fun p => andThen (exec s.slotInstr p) settle

end State

/-- `Run()` (R160): refused before the first `Reset()` (70 R623). A step in the degraded state of R38 faults, and so
does one whose mode number names no bank (10 R39, log entry 8). -/
def run (s : State) : Res State :=
  if !s.started then .refused .runBeforeReset
  else if s.world.halted then (s.idle 1).settle
  else if s.invalidMode then .fault .invalidMode
  else if (Mode.ofBits (modeField s.cpsr)).isNone then .fault .unreachableBankingState
  else if s.irqTaken then s.irqStep
  else s.instrStep

/-- The execution address: stored r15 less two widths (10 R43). -/
def execAddr (s : State) : Word := alignPc s.thumb (s.get regPc) - opWidth s.thumb - opWidth s.thumb

/-- The state with an opcode placed where the next step runs it: in `slot0` and at the execution address, in the set
of its width, in a started block, with no act of the environment, no halt and no interrupt before it (log entry 17). -/
def placeOpcode (s : State) (thumb : Bool) (w : Word) : State :=
  let s1 := s.setCpsr (setBit s.cpsr 5 thumb)
  let m := Memory.write s.world.mem (opSize thumb) (execAddr s1) w
  { s1 with
    slot0 := w
    slot1 := Memory.read m (opSize thumb) (execAddr s1 + opWidth thumb)
    started := true
    world :=
      { s.world with mem := m, env := [], inside := [], stop := none, halted := false, irqLine := false } }

end Sys2Proof.Machine
end

