-- ==== Sys2Proof/Machine/Step.lean ====
section
/-! DEFINITION. One step of the machine: the environment's acts, then `Run()` (spec/00_scope.md R5). -/

namespace Sys2Proof.Machine

open Sys2Proof

/-- One step. -/
def step (s : State) : Host.Outcome State Fault Refusal := andThen s.environment run

/-- `s` with a numbered table word placed as the next instruction: 16 bits in the 16-bit set, else 32. -/
def State.withFetchWord (s : State) (nbits w : Nat) : State :=
  placeOpcode s (nbits == 16) (BitVec.ofNat 32 (w % 2 ^ nbits))

end Sys2Proof.Machine
end

