-- ==== Sys2Proof/Safety.lean ====
section
/-! DEFINITION. The terms claims are stated in: the invariant of the machine, what an instruction that retires leaves
unchanged, the registers an instruction may touch. -/

namespace Sys2Proof.Machine

open Sys2Proof

/-! ## The invariant -/

/-- Pending events in strict key order (65 R573), from key `prev` on. -/
def Sched.sortedFrom : Event → List Event → Bool
  | _, [] => true
  | d, e :: es => d.before e && Sched.sortedFrom e es

/-- Pending events in strict key order (65 R573). -/
def Sched.sorted : List Event → Bool
  | [] => true
  | e :: es => Sched.sortedFrom e es

/-- Pending events are in key order, with distinct numbers (65 R572, R573), and each was submitted before now: its number
is below the counter, and its handle is its number (log entry 13). -/
def Sched.wf (sc : Sched) : Bool :=
  Sched.sorted sc.pending && decide (sc.pending.map Event.seq).Nodup
    && sc.pending.all (fun e => decide (e.seq < sc.seq) && e.handle == e.seq)

/-- The parameters are what 10 R50 and 70 R620 require of them. -/
def cfgValid (cfg : Config) : Bool :=
  (Mode.ofBits (modeField cfg.resetCpsr)).isSome && !cfg.resetCpsr.getLsbD 5 && reservedClear cfg.resetCpsr
    && Memory.alignWord cfg.resetVector == cfg.resetVector

/-- The mode bits name one of the seven modes (10 R31), and the degraded state of R38 has not been entered. -/
def State.modeOk (s : State) : Bool := (Mode.ofBits (modeField s.cpsr)).isSome && !s.invalidMode

/-- Bits 27:8 of CPSR and of every SPSR are 0 (10 R32, D24). -/
def State.reservedOk (s : State) : Bool := reservedClear s.cpsr && s.spsr.reservedClear

/-- The stored r15 is aligned to the current set (10 R41). -/
def State.pcAligned (s : State) : Bool := alignPc s.thumb (s.get regPc) == s.get regPc

/-- The world in form: memory canonical, the pending events in form, valid parameters, no stop left on record. -/
def World.ok (w : World) : Bool :=
  Memory.wf w.mem && Sched.wf w.sched && cfgValid w.cfg && w.stop == none

/-- The invariant: what holds between any two steps. -/
def State.Inv (s : State) : Prop :=
  s.modeOk = true ∧ s.reservedOk = true ∧ s.pcAligned = true ∧ s.world.ok = true

/-- The pipeline invariant in a state without stale prefetch (10 R43): with P the aligned r15 and W the width, the
slots hold what memory holds at P - 2W and P - W. -/
def State.Coherent (s : State) : Prop :=
  s.slot0 = Memory.read s.world.mem (opSize s.thumb) (execAddr s) ∧
  s.slot1 = Memory.read s.world.mem (opSize s.thumb) (execAddr s + opWidth s.thumb)

/-! ## Registers as every mode sees them (10 R25) -/

/-- The register that mode `m` sees as `r`, whichever mode is current (10 R25). -/
def State.seenBy (s : State) (m : Mode) (r : Reg) : Word :=
  if r = regSp then (if s.bank = m.bank then s.get r else (s.loBank m.bank).r13)
  else if r = regLr then (if s.bank = m.bank then s.get r else (s.loBank m.bank).r14)
  else if h : 8 ≤ r.val ∧ r.val ≤ 12 then
    (if (s.bank = .fiq) = (m.bank = .fiq) then s.get r else (s.hiBank (m.bank == .fiq))[r.val - 8])
  else s.get r

/-- Modes of these two banks see one register as `r` (10 R25). -/
def sameRegister (a b : Bank) (r : Reg) : Bool :=
  if r = regSp ∨ r = regLr then a == b
  else if 8 ≤ r.val ∧ r.val ≤ 12 then (a == .fiq) == (b == .fiq)
  else true

/-! ## Memory as a reader sees it -/

/-- The act changes a byte of memory. -/
def CommonAct.pokes : CommonAct → Bool
  | .poke _ _ => true
  | _ => false

/-- The act of a callback changes a byte of memory. -/
def CallbackAct.pokes : CallbackAct → Bool
  | .common a => a.pokes
  | _ => false

/-- The act inside a call, or a callback it fires, changes a byte of memory. -/
def InsideAct.pokes : InsideAct → Bool
  | .common a => a.pokes
  | .addCycles _ scripts => scripts.any fun script => script.any CallbackAct.pokes
  | _ => false

/-- Inside the coming calls no one but the CPU changes memory. -/
def World.noPokes (w : World) : Bool := w.inside.all fun acts => !acts.any InsideAct.pokes

/-- The memory that the bus call after `calls` finds, the environment's turn inside it included (20 R75, R91). -/
def State.memAfter (s : State) (calls : List BusCall) : List Host.Cell := (s.world.play calls).turn.mem

/-- Every byte reads as before, where no one else changes memory inside the calls. -/
def KeepsMemory (s t : State) : Prop :=
  s.world.noPokes = true → ∀ a : Word, Memory.readByte t.world.mem a = Memory.readByte s.world.mem a

/-- The bytes of one store of this size to `a` hold `v`, low byte first (20 R73, R79, R81), and every other byte of
memory reads as before, where no one else changes memory inside the calls. -/
def StoredAt (size : Size) (a v : Word) (s t : State) : Prop :=
  s.world.noPokes = true → ∀ b : Word, Memory.readByte t.world.mem b =
    if Memory.inStore size a b then v.extractLsb' (8 * (b - Memory.storeBase size a).toNat) 8
    else Memory.readByte s.world.mem b

/-! ## What an instruction does beside its result -/

/-- The registers an instruction may write (r15 apart), the flags it leaves, the kind of the next opcode fetch, its
bus calls in order, how many free values it draws, what it tells a callback of the host. -/
structure Effect where
  dst : List Reg := []
  flags : Flags
  kind : AccessKind := .s
  calls : List BusCall := []
  draws : Nat := 0
  notes : List HostNote := []

/-- The frame of an instruction that ends without an exception or a mode change: of the registers only `dst` and r15
may change; no bank and no SPSR; of CPSR the flags are those of the effect and bits 27 to 6 and 4 to 0 stay (T is said
beside it). -/
structure Framed (e : Effect) (s t : State) : Prop where
  regs : ∀ r : Reg, r ≠ regPc → r ∉ e.dst → t.get r = s.get r
  bankLo : t.bankLo = s.bankLo
  bankHi : t.bankHi = s.bankHi
  spsr : t.spsr = s.spsr
  flags : t.flags = e.flags
  status : ∀ k : Nat, k < 28 → k ≠ 5 → t.cpsr.getLsbD k = s.cpsr.getLsbD k
  window : t.bankConflict = false
  draws : t.draws = s.draws + e.draws
  latch : t.irqMaskLatch = s.irqMaskLatch
  own : t.invalidMode = s.invalidMode ∧ t.started = s.started

/-- What the environment does in callbacks of the host that receive these notes (60 R540). -/
def World.tell (w : World) (notes : List HostNote) : World := notes.foldl World.callHost w

/-- The instruction ends with `next` (40 R165) in the set that `thumb` names: r15 has moved by one width, the slots
stay, T stays, the world is what the bus calls of the effect and the environment inside them make of it (memory, the
wire, the scheduler, the trace: all of it), and the rest is the frame of the effect. -/
structure Retires (thumb : Bool) (e : Effect) (s t : State) : Prop where
  pc : t.get regPc = s.get regPc + opWidth thumb
  slots : t.slot0 = s.slot0 ∧ t.slot1 = s.slot1
  kind : t.fetchKind = e.kind
  set : t.thumb = s.thumb
  world : t.world = (s.world.play e.calls).tell e.notes
  frame : Framed e s t

/-- The first fetch of a reload at `target` in the set that `thumb` names (40 R166). -/
def fetch0 (thumb : Bool) (target : Word) : BusCall := .read (opSize thumb) (alignPc thumb target) (codeAcc .n)

/-- The second fetch of a reload (40 R166). -/
def fetch1 (thumb : Bool) (target : Word) : BusCall :=
  .read (opSize thumb) (alignPc thumb target + opWidth thumb) (codeAcc .s)

/-- The pipeline after a reload in the set that `thumb` names (40 R166): the two opcodes at the aligned target, each as
its own fetch finds memory, r15 two widths past it, the next fetch sequential; the reload's two fetches come after
`calls`, and the world is what all these calls, and the environment inside them, make of it. -/
structure Reloaded (thumb : Bool) (target : Word) (calls : List BusCall) (s t : State) : Prop where
  pc : t.get regPc = alignPc thumb target + opWidth thumb + opWidth thumb
  slot0 : t.slot0 = Memory.read (s.memAfter calls) (opSize thumb) (alignPc thumb target)
  slot1 : t.slot1 =
    Memory.read (s.memAfter (calls ++ [fetch0 thumb target])) (opSize thumb) (alignPc thumb target + opWidth thumb)
  kind : t.fetchKind = .s
  set : t.thumb = thumb
  world : t.world = s.world.play (calls ++ [fetch0 thumb target, fetch1 thumb target])

/-- The instruction ends with `pc <- target` (40 R166), after which T is `thumb`; the rest is the frame of the
effect. -/
structure Branches (thumb : Bool) (target : Word) (e : Effect) (s t : State) : Prop where
  reload : Reloaded thumb target e.calls s t
  frame : Framed e s t

/-- What exception entry to `m` does (60 R524): the link in its r14, all of CPSR in its SPSR, M, I and T changed and no
other bit of CPSR, the pipeline at the vector, every other register of every mode and all of memory as before. The
registers visible after are those of `m`: from FIQ mode r8 to r12 are exchanged, as 10 R36 has it (DEDUCED, unsafe, log
entry 24). -/
structure Enters (m : Mode) (vector link : Word) (s t : State) : Prop where
  reload : Reloaded false vector [] s t
  mode : modeField t.cpsr = m.bits
  masked : t.irqDisable = true
  status : ∀ k : Nat, k < 32 → 5 < k → k ≠ 7 → t.cpsr.getLsbD k = s.cpsr.getLsbD k
  saved : t.spsrOf m.bank = s.cpsr
  spsr : ∀ b : Bank, b ≠ .shared → b ≠ m.bank → t.spsrOf b = s.spsrOf b
  link : t.get regLr = link
  regs : ∀ (m' : Mode) (r : Reg), r ≠ regPc → ¬(r = regLr ∧ m'.bank = m.bank) → t.seenBy m' r = s.seenBy m' r
  visible : ∀ r : Reg, r ≠ regPc → t.get r = t.seenBy m r
  memory : KeepsMemory s t
  window : t.bankConflict = false
  draws : t.draws = s.draws
  own : t.invalidMode = s.invalidMode ∧ t.started = s.started

/-- What the exception return does (42 R244) with saved status `saved`: CPSR is all of it, its mode's registers are
visible, the pipeline is at the target in the restored set; registers in `dst` apart, every register of every mode is
as before, and every SPSR. -/
structure Returns (saved target : Word) (dst : List Reg) (calls : List BusCall) (s t : State) : Prop where
  reload : Reloaded (saved.getLsbD 5) target calls s t
  cpsr : t.cpsr = saved
  spsr : t.spsr = s.spsr
  regs : ∀ (m : Mode) (r : Reg), r ≠ regPc → ¬(r ∈ dst ∧ sameRegister m.bank s.bank r = true) →
    t.seenBy m r = s.seenBy m r
  visible : ∀ (m : Mode) (r : Reg), Mode.ofBits (modeField saved) = some m → r ≠ regPc → t.get r = t.seenBy m r
  memory : KeepsMemory s t
  window : t.bankConflict = false
  draws : t.draws = s.draws
  latch : t.irqMaskLatch = s.irqMaskLatch
  own : t.invalidMode = s.invalidMode ∧ t.started = s.started

/-! ## The bank-conflict window -/

/-- While `bank_conflict` is set an instruction may not touch a register that some bank replaces (45 R353). -/
def State.MayTouch (s : State) (regs : List Reg) : Prop :=
  s.bankConflict = false ∨ ∀ r ∈ regs, isBanked r = false

/-- The registers an instruction reads or writes by its operands, r13 and r14 where its rule names them; the comparisons
ignore their Rd field (42 R245), MOV and MVN their Rn field. -/
def instrRegs : Instr → List Reg
  | .and _ _ rn rd op2 | .eor _ _ rn rd op2 | .sub _ _ rn rd op2 | .rsb _ _ rn rd op2 => rd :: rn :: op2Regs op2
  | .add _ _ rn rd op2 | .adc _ _ rn rd op2 | .sbc _ _ rn rd op2 | .rsc _ _ rn rd op2 => rd :: rn :: op2Regs op2
  | .orr _ _ rn rd op2 | .bic _ _ rn rd op2 => rd :: rn :: op2Regs op2
  | .tst _ rn _ op2 | .teq _ rn _ op2 | .cmp _ rn _ op2 | .cmn _ rn _ op2 => rn :: op2Regs op2
  | .mov _ _ rd op2 | .mvn _ _ rd op2 => rd :: op2Regs op2
  | .mrs _ _ rd => [rd]
  | .msrReg _ _ _ rm => [rm]
  | .msrImm .. => []
  | .mul _ _ rd rs rm => [rd, rs, rm]
  | .mla _ _ rd rn rs rm => [rd, rn, rs, rm]
  | .umull _ _ hi lo rs rm | .umlal _ _ hi lo rs rm | .smull _ _ hi lo rs rm | .smlal _ _ hi lo rs rm =>
    [hi, lo, rs, rm]
  | .ldr _ _ _ rn rd off | .ldrb _ _ _ rn rd off | .str _ _ _ rn rd off | .strb _ _ _ rn rd off =>
    rn :: rd :: offsetRegs off
  | .ldrt _ _ rn rd off | .ldrbt _ _ rn rd off | .strt _ _ rn rd off | .strbt _ _ rn rd off =>
    rn :: rd :: offsetRegs off
  | .ldrh _ _ _ rn rd off | .strh _ _ _ rn rd off | .ldrsb _ _ _ rn rd off | .ldrsh _ _ _ rn rd off =>
    rn :: rd :: halfOffsetRegs off
  | .ldm _ _ _ _ rn list | .stm _ _ _ _ rn list => rn :: regList list
  | .swp _ rn rd rm | .swpb _ rn rd rm => [rn, rd, rm]
  | .bl .. => [regLr]
  | .bx _ rm => [rm]
  | .b .. | .swi .. | .undefined .. | .coprocessor .. => []
  | .reservedPsrImm .. | .reservedPsrReg .. | .reservedMul .. | .reservedSwp .. => []
  | .reservedHalfPostw .. | .reservedHalfStore .. => []
  | .tLslImm _ rs rd | .tLsrImm _ rs rd | .tAsrImm _ rs rd => [low rs, low rd]
  | .tAddReg rn rs rd | .tSubReg rn rs rd => [low rn, low rs, low rd]
  | .tAddImm3 _ rs rd | .tSubImm3 _ rs rd => [low rs, low rd]
  | .tMovImm rd _ | .tCmpImm rd _ | .tAddImm8 rd _ | .tSubImm8 rd _ => [low rd]
  | .tAnd rs rd | .tEor rs rd | .tLsl rs rd | .tLsr rs rd | .tAsr rs rd | .tAdc rs rd => [low rs, low rd]
  | .tSbc rs rd | .tRor rs rd | .tTst rs rd | .tNeg rs rd | .tCmp rs rd | .tCmn rs rd => [low rs, low rd]
  | .tOrr rs rd | .tMul rs rd | .tBic rs rd | .tMvn rs rd => [low rs, low rd]
  | .tAddHi rd rs | .tCmpHi rd rs | .tMovHi rd rs => [rd, rs]
  | .tBx rs => [rs]
  | .tLdrPc rd _ => [low rd]
  | .tStrReg ro rb rd | .tStrbReg ro rb rd | .tLdrReg ro rb rd | .tLdrbReg ro rb rd => [low ro, low rb, low rd]
  | .tStrhReg ro rb rd | .tLdsbReg ro rb rd | .tLdrhReg ro rb rd | .tLdshReg ro rb rd => [low ro, low rb, low rd]
  | .tStrImm _ rb rd | .tLdrImm _ rb rd | .tStrbImm _ rb rd | .tLdrbImm _ rb rd => [low rb, low rd]
  | .tStrhImm _ rb rd | .tLdrhImm _ rb rd => [low rb, low rd]
  | .tStrSp rd _ | .tLdrSp rd _ | .tAddSp rd _ => [low rd, regSp]
  | .tAddPc rd _ => [low rd]
  | .tSpAdd .. | .tSpSub .. => [regSp]
  | .tPush lr list => regSp :: pushRegs lr list
  | .tPop pc list => regSp :: popRegs pc list
  | .tStmia rb list | .tLdmia rb list => low rb :: lowList list
  | .tBcond .. | .tSwi .. | .tB .. | .tUndefined .. => []
  | .tBlFirst .. | .tBlSecond .. => [regLr]
  | .tReservedHiLoLo .. | .tReservedBxH1 .. | .tReservedBcondAl .. => []

/-- The condition an instruction of the 32-bit set carries (30 R115); none in the 16-bit set. -/
def instrCond : Instr → Option Cond
  | .and c .. | .eor c .. | .sub c .. | .rsb c .. | .add c .. | .adc c .. | .sbc c .. | .rsc c .. => some c
  | .tst c .. | .teq c .. | .cmp c .. | .cmn c .. | .orr c .. | .mov c .. | .bic c .. | .mvn c .. => some c
  | .mrs c .. | .msrReg c .. | .msrImm c .. => some c
  | .mul c .. | .mla c .. | .umull c .. | .umlal c .. | .smull c .. | .smlal c .. => some c
  | .ldr c .. | .ldrb c .. | .str c .. | .strb c .. | .ldrt c .. | .ldrbt c .. | .strt c .. | .strbt c .. => some c
  | .ldrh c .. | .strh c .. | .ldrsb c .. | .ldrsh c .. | .ldm c .. | .stm c .. | .swp c .. | .swpb c .. => some c
  | .b c .. | .bl c .. | .bx c .. | .swi c .. | .undefined c .. | .coprocessor c .. => some c
  | .reservedPsrImm c .. | .reservedPsrReg c .. | .reservedMul c .. | .reservedSwp c .. => some c
  | .reservedHalfPostw c .. | .reservedHalfStore c .. => some c
  | .tLslImm .. | .tLsrImm .. | .tAsrImm .. | .tAddReg .. | .tSubReg .. | .tAddImm3 .. | .tSubImm3 .. => none
  | .tMovImm .. | .tCmpImm .. | .tAddImm8 .. | .tSubImm8 .. => none
  | .tAnd .. | .tEor .. | .tLsl .. | .tLsr .. | .tAsr .. | .tAdc .. | .tSbc .. | .tRor .. => none
  | .tTst .. | .tNeg .. | .tCmp .. | .tCmn .. | .tOrr .. | .tMul .. | .tBic .. | .tMvn .. => none
  | .tAddHi .. | .tCmpHi .. | .tMovHi .. | .tBx .. | .tLdrPc .. => none
  | .tStrReg .. | .tStrbReg .. | .tLdrReg .. | .tLdrbReg .. => none
  | .tStrhReg .. | .tLdsbReg .. | .tLdrhReg .. | .tLdshReg .. => none
  | .tStrImm .. | .tLdrImm .. | .tStrbImm .. | .tLdrbImm .. | .tStrhImm .. | .tLdrhImm .. => none
  | .tStrSp .. | .tLdrSp .. | .tAddPc .. | .tAddSp .. | .tSpAdd .. | .tSpSub .. => none
  | .tPush .. | .tPop .. | .tStmia .. | .tLdmia .. => none
  | .tBcond .. | .tSwi .. | .tB .. | .tBlFirst .. | .tBlSecond .. => none
  | .tUndefined .. | .tReservedHiLoLo .. | .tReservedBxH1 .. | .tReservedBcondAl .. => none

/-- An instruction of the 32-bit set carries a condition. -/
def isArmInstr (i : Instr) : Bool := (instrCond i).isSome

/-- The condition of the instruction, if it carries one, passes. -/
def State.condPasses (s : State) (i : Instr) : Prop := ∀ c, instrCond i = some c → s.passes c = true

/-- The instructions that may change T (10 R30): BX, exception entry, the exception returns. -/
def mayChangeSet : Instr → Bool
  | .bx .. | .tBx .. => true
  | .swi .. | .undefined .. | .coprocessor .. | .tSwi .. | .tUndefined .. => true
  | .and _ sf _ rd _ | .eor _ sf _ rd _ | .sub _ sf _ rd _ | .rsb _ sf _ rd _ | .add _ sf _ rd _ => sf && rd == regPc
  | .adc _ sf _ rd _ | .sbc _ sf _ rd _ | .rsc _ sf _ rd _ | .orr _ sf _ rd _ | .bic _ sf _ rd _ => sf && rd == regPc
  | .mov _ sf rd _ | .mvn _ sf rd _ => sf && rd == regPc
  | .ldm _ _ sb _ _ list => sb && list.getLsbD 15
  | _ => false

/-- The instructions that may write N, Z, C or V (10 R28). -/
def mayWriteFlags : Instr → Bool
  | .and _ sf .. | .eor _ sf .. | .sub _ sf .. | .rsb _ sf .. | .add _ sf .. | .adc _ sf .. | .sbc _ sf .. => sf
  | .rsc _ sf .. | .orr _ sf .. | .mov _ sf .. | .bic _ sf .. | .mvn _ sf .. => sf
  | .tst .. | .teq .. | .cmp .. | .cmn .. => true
  | .mul _ sf .. | .mla _ sf .. | .umull _ sf .. | .umlal _ sf .. | .smull _ sf .. | .smlal _ sf .. => sf
  | .msrReg _ p mask _ | .msrImm _ p mask .. => !p && mask.getLsbD 3
  | .ldm _ _ sb _ _ list => sb && list.getLsbD 15
  | .tLslImm .. | .tLsrImm .. | .tAsrImm .. | .tAddReg .. | .tSubReg .. | .tAddImm3 .. | .tSubImm3 .. => true
  | .tMovImm .. | .tCmpImm .. | .tAddImm8 .. | .tSubImm8 .. => true
  | .tAnd .. | .tEor .. | .tLsl .. | .tLsr .. | .tAsr .. | .tAdc .. | .tSbc .. | .tRor .. => true
  | .tTst .. | .tNeg .. | .tCmp .. | .tCmn .. | .tOrr .. | .tMul .. | .tBic .. | .tMvn .. => true
  | .tCmpHi .. => true
  | _ => false

/-! ## The data-processing table -/

/-- One row of 42 R246 to R261 with a destination: how the instruction is written, and its result from the state before
it. MOV and MVN ignore the Rn argument. -/
structure DataOp where
  instr : Cond → Bool → Reg → Reg → Operand2 → Instr
  result : State → Reg → Operand2 → AluResult

/-- The arithmetic class: SUB, RSB, ADD, ADC, SBC, RSC (41 R206, R207). -/
def arithmeticOps : List DataOp :=
  [{ instr := .sub, result := fun s rn op2 => subWithCarry (readRn s op2 rn) (operand2 s op2).1 true },
   { instr := .rsb, result := fun s rn op2 => subWithCarry (operand2 s op2).1 (readRn s op2 rn) true },
   { instr := .add, result := fun s rn op2 => addWithCarry (readRn s op2 rn) (operand2 s op2).1 false },
   { instr := .adc, result := fun s rn op2 => addWithCarry (readRn s op2 rn) (operand2 s op2).1 s.flags.c },
   { instr := .sbc, result := fun s rn op2 => subWithCarry (readRn s op2 rn) (operand2 s op2).1 s.flags.c },
   { instr := .rsc, result := fun s rn op2 => subWithCarry (operand2 s op2).1 (readRn s op2 rn) s.flags.c }]

/-- N and Z from a result, C from the shifter, V as before (41 R208). -/
def logicalResult (s : State) (op2 : Operand2) (r : Word) : AluResult where
  value := r
  flags := { n := r.getLsbD 31, z := decide (r = 0), c := (operand2 s op2).2, v := s.flags.v }

/-- The logical class: AND, EOR, ORR, BIC, MOV, MVN (41 R208). -/
def logicalOps : List DataOp :=
  [{ instr := .and, result := fun s rn op2 => logicalResult s op2 (readRn s op2 rn &&& (operand2 s op2).1) },
   { instr := .eor, result := fun s rn op2 => logicalResult s op2 (readRn s op2 rn ^^^ (operand2 s op2).1) },
   { instr := .orr, result := fun s rn op2 => logicalResult s op2 (readRn s op2 rn ||| (operand2 s op2).1) },
   { instr := .bic, result := fun s rn op2 => logicalResult s op2 (readRn s op2 rn &&& ~~~(operand2 s op2).1) },
   { instr := fun c sf _ rd op2 => .mov c sf rd op2, result := fun s _ op2 => logicalResult s op2 (operand2 s op2).1 },
   { instr := fun c sf _ rd op2 => .mvn c sf rd op2,
      result := fun s _ op2 => logicalResult s op2 (~~~(operand2 s op2).1) }]

/-- The bus calls of a data-processing instruction: one internal cycle where the shift amount is a register
(42 R243). -/
def op2Calls (op2 : Operand2) : List BusCall := if op2ByReg op2 then [.idle] else []

/-- The kind of the next opcode fetch after it (42 R243). -/
def op2Kind (s : State) (op2 : Operand2) : AccessKind := if op2ByReg op2 then .n else s.fetchKind

/-- N and Z from a result, C and V as before: the logical flags of the 16-bit set (47 R434). -/
def thumbLogicalFlags (s : State) (r : Word) : Flags :=
  { n := r.getLsbD 31, z := decide (r = 0), c := s.flags.c, v := s.flags.v }

/-- N and Z from a result, C from the shifter, V as before (47 R434). -/
def thumbShiftFlags (s : State) (r : Word × Bool) : Flags :=
  { n := r.1.getLsbD 31, z := decide (r.1 = 0), c := r.2, v := s.flags.v }

/-- An instruction of the 16-bit set wrote `v` to `rd` and the flags, and did nothing else but `next`. -/
structure ThumbResult (s t : State) (rd : LowReg) (v : Word) (f : Flags) : Prop where
  value : t.get (low rd) = v
  retires : Retires true { dst := [low rd], flags := f, kind := s.fetchKind } s t
  memory : KeepsMemory s t

/-- The same for a shift by a register: one internal cycle, the next fetch nonsequential (47 R435). -/
structure ThumbShift (s t : State) (rd : LowReg) (r : Word × Bool) : Prop where
  value : t.get (low rd) = r.1
  retires : Retires true { dst := [low rd], flags := thumbShiftFlags s r, kind := .n, calls := [.idle] } s t
  memory : KeepsMemory s t

/-! ## Status-register writes -/

/-- A register or immediate MSR (`p` = true: of SPSR) that gets as far as 43 R284 with this operand (R281, R282). -/
inductive MsrForm (s : State) (p : Bool) (mask : BitVec 4) : Instr → Word → Prop
  | reg (c : Cond) (rm : Reg) (passes : s.passes c = true) (touch : s.MayTouch [rm]) (notPc : rm ≠ regPc) :
      MsrForm s p mask (.msrReg c p mask rm) (s.get rm)
  | imm (c : Cond) (rot : BitVec 4) (imm : BitVec 8) (passes : s.passes c = true) :
      MsrForm s p mask (.msrImm c p mask rot imm) ((imm.setWidth 32).rotateRight (2 * rot.toNat))

/-- Bit `k` is among those the field mask names, less what User mode may not write of CPSR (43 R284). -/
def msrWrites (s : State) (p : Bool) (mask : BitVec 4) (k : Nat) : Bool :=
  mask.getLsbD (k / 8) && (p || decide (24 ≤ k) || decide (s.mode ≠ .usr))

/-- The write stores a 1 in no reserved bit (43 R284, D24). -/
def msrKeepsReserved (s : State) (p : Bool) (mask : BitVec 4) (op : Word) : Prop :=
  ∀ k : Nat, 8 ≤ k → k < 28 → msrWrites s p mask k = true → op.getLsbD k = false

/-! ## Single transfers -/

/-- The base register where it is written back (44 R310). -/
def backDst (ix : Index) (rn : Reg) : List Reg := if writesBack ix then [rn] else []

/-- The base register, where it is written back, holds the indexed address (44 R310). -/
def WroteBack (ix : Index) (up : Bool) (rn : Reg) (off : Word) (s t : State) : Prop :=
  writesBack ix = true → t.get rn = indexedAddr s up rn off

/-- A load of the 32-bit set put `v` in `rd`: one read at the address of 44 R310, one internal cycle (44 R312, R317). -/
structure Loaded (ix : Index) (up : Bool) (rn rd : Reg) (off : Word) (size : Size) (v : Word) (s t : State) : Prop where
  value : t.get rd = v
  back : WroteBack ix up rn off s t
  retires : Retires false
    { dst := rd :: backDst ix rn, flags := s.flags, kind := .n,
      calls := [.read size (transferAddr s ix up rn off) (dataAcc .n), .idle] } s t
  memory : KeepsMemory s t

/-- A store of the 32-bit set stored `v` at the address of 44 R310 (44 R314, R317). -/
structure Stored (ix : Index) (up : Bool) (rn : Reg) (off : Word) (size : Size) (v : Word) (s t : State) : Prop where
  memory : StoredAt size (transferAddr s ix up rn off) v s t
  back : WroteBack ix up rn off s t
  retires : Retires false
    { dst := backDst ix rn, flags := s.flags, kind := .n,
      calls := [.write size (transferAddr s ix up rn off) (busValue size v) (dataAcc .n)] } s t

/-- The operands of a single transfer that 44 R310 does not refuse. -/
def TransferAllowed (ix : Index) (rn rd : Reg) (offPc : Bool) : Prop :=
  (writesBack ix = true → rn ≠ regPc ∧ rn ≠ rd) ∧ offPc = false

/-- A load of the 16-bit set put `v` in `rd` (48 R471). -/
structure ThumbLoaded (rd : LowReg) (size : Size) (a v : Word) (s t : State) : Prop where
  value : t.get (low rd) = v
  retires : Retires true
    { dst := [low rd], flags := s.flags, kind := .n,
      calls := [.read size a (dataAcc .n), .idle] } s t
  memory : KeepsMemory s t

/-- A store of the 16-bit set stored register `rd` at `a` (48 R471). -/
structure ThumbStored (rd : LowReg) (size : Size) (a : Word) (s t : State) : Prop where
  memory : StoredAt size a (s.get (low rd)) s t
  retires : Retires true
    { flags := s.flags, kind := .n,
      calls := [.write size a (busValue size (s.get (low rd))) (dataAcc .n)] } s t

/-! ## Block transfers -/

/-- The address of the k-th register of a block transfer, ascending (45 R350). -/
def wordAddr (start : Word) (k : Nat) : Word := start + BitVec.ofNat 32 (4 * k)

/-- The reads of a block load: the first nonsequential, every later one sequential (45 R350). -/
def readCalls (start : Word) (n : Nat) : List BusCall :=
  (List.range n).map fun k => .read .word (wordAddr start k) (dataAcc (if k = 0 then .n else .s))

/-- The writes of a block store (45 R350); `v` gives the value of the k-th. -/
def writeCalls (start : Word) (n : Nat) (v : Nat → Word) : List BusCall :=
  (List.range n).map fun k => .write .word (wordAddr start k) (v k) (dataAcc (if k = 0 then .n else .s))

/-- The bytes of a block store: each byte of the `n` words from the aligned start holds its byte of the k-th value, and
every other byte of memory reads as before, where no one else changes memory inside the calls (45 R350, 20 R79, R81). -/
def StoredBlock (start : Word) (n : Nat) (v : Nat → Word) (s t : State) : Prop :=
  s.world.noPokes = true → ∀ b : Word, Memory.readByte t.world.mem b =
    if (b - Memory.alignWord start).toNat < 4 * n then
      (v ((b - Memory.alignWord start).toNat / 4)).extractLsb' (8 * ((b - Memory.alignWord start).toNat % 4)) 8
    else Memory.readByte s.world.mem b

/-- The k-th register of an ascending list. -/
def nthReg (regs : List Reg) (k : Nat) : Reg := regs.getD k 0

/-- The value a block store stores for the k-th register: r15 stores A + 12, the stored r15 plus 4 (45 R352). -/
def blockValue (s : State) (regs : List Reg) (k : Nat) : Word :=
  if nthReg regs k = regPc then s.get regPc + 4 else s.get (nthReg regs k)

/-- The word that the k-th access of a block load returns (45 R350, R351): at its address, as that access finds memory. -/
def blockWord (s : State) (start : Word) (k : Nat) : Word :=
  Memory.read (s.memAfter (readCalls start k)) .word (wordAddr start k)

/-- Every loaded register of the list but r15 holds the word its access returned (45 R350, R351). -/
def LoadedBlock (start : Word) (regs : List Reg) (s t : State) : Prop :=
  ∀ k : Nat, k < regs.length → nthReg regs k ≠ regPc → t.get (nthReg regs k) = blockWord s start k

/-- A transfer of the User bank (45 R355) that ended with `next`: beside what it loads, every register of every mode,
all of CPSR and every SPSR are as before; `conflict` says whether the bank-conflict window opens. -/
structure UserBank (loaded : List Reg) (calls : List BusCall) (conflict : Bool) (s t : State) : Prop where
  pc : t.get regPc = s.get regPc + 4
  regs : ∀ (m : Mode) (r : Reg), r ≠ regPc → ¬(r ∈ loaded ∧ sameRegister m.bank .shared r = true) →
    t.seenBy m r = s.seenBy m r
  cpsr : t.cpsr = s.cpsr
  spsr : t.spsr = s.spsr
  slots : t.slot0 = s.slot0 ∧ t.slot1 = s.slot1
  kind : t.fetchKind = .n
  world : t.world = s.world.play calls
  window : t.bankConflict = conflict
  draws : t.draws = s.draws
  latch : t.irqMaskLatch = s.irqMaskLatch
  own : t.invalidMode = s.invalidMode ∧ t.started = s.started

/-! ## The scheduler -/

/-- The events that `AddCycles(n)` finds due (65 R580). -/
def Sched.due (sc : Sched) (n : Nat) : List Event :=
  sc.pending.filter fun e => decide (e.timestamp ≤ sc.now + n)

/-- The events that stay pending (65 R580). -/
def Sched.later (sc : Sched) (n : Nat) : List Event :=
  sc.pending.filter fun e => decide (sc.now + n < e.timestamp)

/-- What the callback of `e` finds when `AddCycles(n)` fires it first (65 R580, R582): the time advanced by all of n, the
event no longer pending, the host told. -/
def World.inCallback (w : World) (n : Nat) (e : Event) : World :=
  { w with
    sched := { w.sched with now := w.sched.now + n, pending := w.sched.pending.filter fun d => d != e }
    host := w.host ++ [.fired e (w.sched.now + n)] }

/-- An act that the environment may not perform inside a bus call, and its refusal (20 R75, 70 R621). -/
def forbiddenInside : List (InsideAct × Refusal) :=
  [(.reset, .resetInsideCall), (.run, .runInsideCall), (.touchCpu, .cpuAccessInsideCall)]

end Sys2Proof.Machine
end

