-- ==== Sys2Proof/Certificates/Slice0/Obligations.lean ====
section
/-! DEFINITION. The statements for the provers. The terms they use (Retires, Branches, Enters, Returns, seenBy, ...) are
in Sys2Proof/Safety.lean. -/

open Sys2Proof Sys2Proof.Machine

/-! ## Reset and the invariant -/

/-- 70 R620, R622, 10 R50, 65 R574: what `Reset()` leaves, for every value of the parameters that the rules allow. The
zeros of r0 to r14, the banks and the SPSRs are the spec's decision D8 and the model's choice (log entry 2), the values of
the parameters log entry 1. The environment may act inside the two fetches; where it does not, the rest of the world is
as R574, R620 and R622 say. -/
def Obligations.ResetLeavesTheStartState : Prop :=
  ∀ s : State, cfgValid s.world.cfg = true →
    Reloaded false s.world.cfg.resetVector []
      { s with world := { s.world with sched := { now := 0, pending := [], seq := 0 }, irqLine := false } } s.doReset ∧
    s.doReset.get regPc = s.world.cfg.resetVector + 8 ∧
    (∀ r : Reg, r ≠ regPc → s.doReset.get r = 0) ∧
    (∀ b : Bank, s.doReset.loBank b = { r13 := 0, r14 := 0 }) ∧
    (∀ fiq : Bool, ∀ k : Fin 5, (s.doReset.hiBank fiq)[k] = 0) ∧
    (∀ b : Bank, b ≠ .shared → s.doReset.spsrOf b = 0) ∧
    s.doReset.cpsr = s.world.cfg.resetCpsr ∧
    s.doReset.invalidMode = false ∧ s.doReset.bankConflict = false ∧ s.doReset.started = true ∧
    s.doReset.irqMaskLatch = s.world.cfg.resetCpsr.getLsbD 7 ∧
    s.doReset.world.cfg = s.world.cfg ∧ KeepsMemory s s.doReset ∧
    (s.world.inside = [] →
      { s.doReset.world with bus := s.world.bus } =
        { s.world with sched := { now := 0, pending := [], seq := 0 }, irqLine := false })

/-- The model's reset state is `Reset()` with the recommended parameters (log entries 1, 2, 3, 11, 12, 15), and it
satisfies the invariant. -/
def Obligations.ResetStateSatisfiesTheInvariant : Prop :=
  State.reset.Inv ∧
    State.doReset { State.reset with world := { State.reset.world with bus := [] } } = State.reset

/-- Every step keeps the invariant, whatever the environment does before it and inside its calls: a recognised mode, the
reserved status bits 0, r15 aligned, memory canonical, the pending events in key order, valid parameters, no stop left on
record. -/
def Obligations.StepKeepsTheInvariant : Prop :=
  ∀ s t : State, s.Inv → step s = .next t → t.Inv

/-! ## Encoding -/

/-- Decoding the encoding of a well-formed instruction of the 32-bit set gives it back. -/
def Obligations.ArmDecodeOfEncodeIsTheInstruction : Prop :=
  ∀ i : Instr, isArmInstr i = true → i.WellFormed = true → ∃ w : Word, encode i = .arm w ∧ decodeArm w = i

/-- Decoding the encoding of a well-formed instruction of the 16-bit set gives it back. -/
def Obligations.ThumbDecodeOfEncodeIsTheInstruction : Prop :=
  ∀ i : Instr, isArmInstr i = false → i.WellFormed = true → ∃ w : Half, encode i = .thumb w ∧ decodeThumb w = i

/-- 30 R112 to R114: every word decodes, to a well-formed instruction of its own set. -/
def Obligations.EveryWordDecodesWellFormed : Prop :=
  (∀ w : Word, isArmInstr (decodeArm w) = true ∧ (decodeArm w).WellFormed = true) ∧
  (∀ w : Half, isArmInstr (decodeThumb w) = false ∧ (decodeThumb w).WellFormed = true)

/-- Words the spec writes out decode to the instructions it names (42 R259, R244, 43 R286, 44 R312, 45 R351, R360, 46
R381, 47 R427, 48 R467, 49 R490). -/
def Obligations.SampleWordsDecodeAsTheSpecSays : Prop :=
  decodeArm 0xE1A00181#32 = .mov .al false 0 (.shiftImm 3 .lsl 1) ∧
  decodeArm 0xE25EF004#32 = .sub .al true 14 15 (.imm 0 4) ∧
  decodeArm 0xE0203291#32 = .mla .al false 0 3 2 1 ∧
  decodeArm 0xE7910102#32 = .ldr .al .offset true 1 0 (.reg 2 .lsl 2) ∧
  decodeArm 0xE8FD8001#32 = .ldm .al .ia true true 13 0x8001 ∧
  decodeArm 0xE1020091#32 = .swp .al 2 0 1 ∧
  decodeArm 0xEB00003E#32 = .bl .al 0x3E ∧
  decodeThumb 0x4488#16 = .tAddHi 8 1 ∧
  decodeThumb 0xB503#16 = .tPush true 3 ∧
  decodeThumb 0xDA80#16 = .tBcond .ge 0x80

/-! ## The step -/

/-- 40 R160: where no halt, no degraded state and no interrupt stands before it, a step is the meaning of the instruction
in slot 0, run on the state that stages 1, 3 and 4 leave; and where slot 0 holds the bytes at the execution address, that
is the instruction those bytes decode to. A stop that the environment raises inside the fetch, or inside a call of the
instruction, is the answer of the step (log entry 4). -/
def Obligations.StepRunsTheDecodedInstruction : Prop :=
  ∀ (s e : State), s.environment = .next e → e.started = true → e.world.halted = false → e.modeOk = true →
    (e.world.irqLine && !e.irqMaskLatch) = false →
    (e.prepare.world.stop = none →
      step s = andThen
        (exec (if e.thumb then decodeThumb (e.slot0.extractLsb' 0 16) else decodeArm e.slot0) e.prepare) State.settle) ∧
    (∀ (i : Instr) (rest : List Byte), e.prepare.world.stop = none →
      e.slot0 = Memory.read e.world.mem (opSize e.thumb) (execAddr e) →
      decodeBytes e.thumb [Memory.readByte e.world.mem (execAddr e), Memory.readByte e.world.mem (execAddr e + 1),
        Memory.readByte e.world.mem (execAddr e + 2), Memory.readByte e.world.mem (execAddr e + 3)] = .ok (i, rest) →
      step s = andThen (exec i e.prepare) State.settle) ∧
    (∀ f : Fault, e.prepare.world.stop = some (.fault f) → step s = .fault f) ∧
    (∀ why : Refusal, e.prepare.world.stop = some (.refused why) → step s = .refused why) ∧
    e.prepare.get regPc = alignPc e.thumb (e.get regPc) ∧
    (∀ r : Reg, r ≠ regPc → e.prepare.get r = e.get r) ∧
    e.prepare.slot0 = e.slot1 ∧
    e.prepare.slot1 = Memory.read e.heard (opSize e.thumb) (alignPc e.thumb (e.get regPc)) ∧
    e.prepare.fetchKind = .s ∧ e.prepare.irqMaskLatch = e.irqDisable ∧
    e.prepare.world =
      e.world.play [.read (opSize e.thumb) (alignPc e.thumb (e.get regPc)) (codeAcc e.fetchKind)] ∧
    { e.prepare with
      x := e.x, slot0 := e.slot0, slot1 := e.slot1, fetchKind := e.fetchKind, irqMaskLatch := e.irqMaskLatch,
      world := e.world } = e ∧
    KeepsMemory e e.prepare

/-- 60 R536: a halted step calls `Idle()` once and changes nothing of the CPU; the IRQ wire is not polled. A stop that the
environment raises inside that call is the answer of the step (log entry 4). -/
def Obligations.HaltedStepOnlyIdles : Prop :=
  ∀ (s e : State), s.environment = .next e → e.started = true → e.world.halted = true →
    ((e.world.play [.idle]).stop = none → step s = .next { e with world := e.world.play [.idle] }) ∧
    (∀ f : Fault, (e.world.play [.idle]).stop = some (.fault f) → step s = .fault f) ∧
    (∀ why : Refusal, (e.world.play [.idle]).stop = some (.refused why) → step s = .refused why)

/-- 60 R526, 40 R160: a step that finds the wire high and the latch clear enters IRQ and executes nothing. In the
bank-conflict window it is refused: R525 with decision D23, the model's choice (log entry 9). For an entry from FIQ mode
`Enters` says that r8 to r12 are exchanged, as 10 R36 has it, where R524 says that r0 to r12 do not change: the model's
choice (log entry 24). -/
def Obligations.StepTakesTheInterrupt : Prop :=
  ∀ (s e : State), s.environment = .next e → e.started = true → e.world.halted = false → e.modeOk = true →
    e.world.irqLine = true → e.irqMaskLatch = false →
    (e.bankConflict = false →
      (e.world.play [fetch0 false 0x00000018#32, fetch1 false 0x00000018#32]).stop = none →
      ∃ t : State, step s = .next t ∧ t.irqMaskLatch = true ∧
        Enters .irq 0x00000018#32
          (if e.thumb then alignPc true (e.get regPc) else alignPc false (e.get regPc) - 4) e t) ∧
    (e.bankConflict = true → step s = .refused .bankConflict)

/-- 10 R44, 60 R534: in a step that executes an instruction the latch takes CPSR.I as it was before the instruction, for
every instruction. -/
def Obligations.LatchHoldsTheMaskOfTheStepEntry : Prop :=
  ∀ (s e t : State), s.environment = .next e → e.world.halted = false →
    (e.world.irqLine && !e.irqMaskLatch) = false → step s = .next t → t.irqMaskLatch = e.irqDisable

/-! ## Whole-machine rules -/

/-- 40 R163: when the condition of a 32-bit instruction fails, the step fetches and advances r15, and nothing else: no
instruction of the set is excepted, and none is refused. -/
def Obligations.FailedConditionDoesOnlyNext : Prop :=
  (∀ (s : State) (i : Instr) (c : Cond), instrCond i = some c → s.passes c = false →
    ∃ t : State, exec i s = .next t ∧ Retires false { flags := s.flags, kind := s.fetchKind } s t ∧
      t.cpsr = s.cpsr ∧ KeepsMemory s t) ∧
  (∀ (s e : State) (c : Cond), s.environment = .next e → e.started = true → e.world.halted = false →
    e.modeOk = true → (e.world.irqLine && !e.irqMaskLatch) = false → e.thumb = false →
    instrCond (decodeArm e.slot0) = some c → e.passes c = false → e.prepare.world.stop = none →
    ∃ t : State, step s = .next t ∧ t.get regPc = alignPc false (e.get regPc) + 4 ∧
      (∀ r : Reg, r ≠ regPc → t.get r = e.get r) ∧ t.cpsr = e.cpsr ∧ t.fetchKind = .s ∧ KeepsMemory e t ∧
      t.slot0 = e.slot1 ∧ t.slot1 = Memory.read e.heard .word (alignPc false (e.get regPc)) ∧
      t.world = e.world.play [.read .word (alignPc false (e.get regPc)) (codeAcc e.fetchKind)])

/-- 60 R550, R520: an instruction executed in User mode leaves CPSR.M, I and F as they are, or takes the SWI or Undefined
exception; a step that starts in User mode, whatever instruction it runs, leaves them as they are or takes one of those
two or the IRQ exception. -/
def Obligations.UserModeIsLeftOnlyByAnException : Prop :=
  (∀ (i : Instr) (s t : State), modeField s.cpsr = Mode.usr.bits → exec i s = .next t →
    (∀ k : Nat, k < 8 → k ≠ 5 → t.cpsr.getLsbD k = s.cpsr.getLsbD k) ∨
    (∃ link : Word, Enters .svc 0x00000008#32 link s t) ∨ (∃ link : Word, Enters .und 0x00000004#32 link s t)) ∧
  (∀ (s e t : State), s.environment = .next e → modeField e.cpsr = Mode.usr.bits → step s = .next t →
    (∀ k : Nat, k < 8 → k ≠ 5 → t.cpsr.getLsbD k = e.cpsr.getLsbD k) ∨
    (∃ link : Word, Enters .svc 0x00000008#32 link e.prepare t) ∨
    (∃ link : Word, Enters .und 0x00000004#32 link e.prepare t) ∨
    (e.world.irqLine = true ∧ e.irqMaskLatch = false ∧ ∃ link : Word, Enters .irq 0x00000018#32 link e t))

/-- 10 R28, R30: only the instructions of `mayWriteFlags` write N, Z, C or V: no store, no branch, no exception entry, no
load but the LDM that restores CPSR; only BX, exception entry and a whole-CPSR write from an SPSR change T, and every
change of T comes with a reload in the new width. -/
def Obligations.OnlyListedInstructionsChangeFlagsOrT : Prop :=
  ∀ (i : Instr) (s t : State), exec i s = .next t →
    (mayWriteFlags i = false → t.flags = s.flags) ∧
    (t.thumb ≠ s.thumb →
      mayChangeSet i = true ∧ ∃ (target : Word) (calls : List BusCall), Reloaded t.thumb target calls s t)

/-- 45 R353, 10 R46, 60 R525: while `bank_conflict` is set an instruction that reads or writes r8 to r14 is refused,
whichever it is, and so are an exception, a read or write of SPSR, an exception return, a transfer of the User bank and a
mode switch that copies banked registers; the flag is set by the User-bank LDM alone, and any other instruction that
completes leaves it clear. A return that touches no banked register makes its bus calls first, so that a stop raised inside
them is the answer (00 R10). Which accesses count (log entry 9), when the flag clears (log entry 10) and which refusal is
answered where several apply (log entry 20) are the model's choices within decision D23. -/
def Obligations.BankConflictRefusesBankedRegisters : Prop :=
  (∀ (i : Instr) (s : State), s.bankConflict = true → (∀ c, instrCond i = some c → s.passes c = true) →
    (∃ r ∈ instrRegs i, isBanked r = true) → exec i s = .refused .bankConflict) ∧
  (∀ (c : Cond) (imm : BitVec 24) (raw : BitVec 28) (s : State), s.bankConflict = true → s.passes c = true →
    (s.world.cfg.swiIntercept = false → exec (.swi c imm) s = .refused .bankConflict) ∧
    exec (.undefined c raw) s = .refused .bankConflict ∧ exec (.coprocessor c raw) s = .refused .bankConflict) ∧
  (∀ (imm : BitVec 8) (raw : BitVec 16) (s : State), s.bankConflict = true →
    (s.world.cfg.swiIntercept = false → exec (.tSwi imm) s = .refused .bankConflict) ∧
    exec (.tUndefined raw) s = .refused .bankConflict) ∧
  (∀ (c : Cond) (rd : Reg) (s : State), s.bankConflict = true → s.passes c = true → rd ≠ regPc →
    exec (.mrs c true rd) s = .refused .bankConflict) ∧
  (∀ (s : State) (mask : BitVec 4) (i : Instr) (op : Word), MsrForm s true mask i op → s.bankConflict = true →
    (∃ why : Refusal, exec i s = .refused why) ∧
    (msrKeepsReserved s true mask op → s.bank ≠ .shared → exec i s = .refused .bankConflict)) ∧
  (∀ (s : State) (mask : BitVec 4) (i : Instr) (op : Word) (m : Mode), MsrForm s false mask i op →
    s.bankConflict = true → msrKeepsReserved s false mask op → msrWrites s false mask 0 = true →
    op.getLsbD 5 = s.thumb → Mode.ofBits (modeField op) = some m → m.bank ≠ s.bank →
    exec i s = .refused .bankConflict) ∧
  (∀ op ∈ arithmeticOps ++ logicalOps, ∀ (c : Cond) (rn : Reg) (op2 : Operand2) (s : State), s.bankConflict = true →
    s.passes c = true → op2ShiftByPc op2 = false → s.bank ≠ .shared →
    ((∃ r ∈ instrRegs (op.instr c true rn regPc op2), isBanked r = true) →
      exec (op.instr c true rn regPc op2) s = .refused .bankConflict) ∧
    ((∀ r ∈ instrRegs (op.instr c true rn regPc op2), isBanked r = false) →
      exec (op.instr c true rn regPc op2) s = (s.world.play (op2Calls op2)).stopOr (.refused .bankConflict))) ∧
  (∀ (c : Cond) (m : BlockMode) (wb : Bool) (rn : Reg) (list : BitVec 16) (s : State), s.bankConflict = true →
    s.passes c = true → rn ≠ regPc → list ≠ 0 → s.bank ≠ .shared →
    (list.getLsbD 15 = true → (wb = true → list.getLsbD rn.val = false) →
      ((∃ r ∈ rn :: regList list, isBanked r = true) → exec (.ldm c m true wb rn list) s = .refused .bankConflict) ∧
      ((∀ r ∈ rn :: regList list, isBanked r = false) → exec (.ldm c m true wb rn list) s =
        (s.world.play (readCalls (blockStart m (s.get rn) (regList list)) (regList list).length ++ [.idle])).stopOr
          (.refused .bankConflict))) ∧
    (list.getLsbD 15 = false → exec (.ldm c m true false rn list) s = .refused .bankConflict) ∧
    exec (.stm c m true false rn list) s = .refused .bankConflict) ∧
  (∀ (i : Instr) (s t : State), exec i s = .next t → t.bankConflict = true →
    ∃ (c : Cond) (m : BlockMode) (wb : Bool) (rn : Reg) (list : BitVec 16),
      i = .ldm c m true wb rn list ∧ list.getLsbD 15 = false ∧ s.passes c = true)

/-- 10 R43, 40 R165, R166: a step inside whose calls no one else changes memory, and that leaves every byte of memory as
it was, keeps the pipeline coherent: the slots hold what memory holds two widths and one width before r15. -/
def Obligations.PipelineStaysCoherent : Prop :=
  ∀ s t : State, run s = .next t → s.world.noPokes = true → s.Coherent → KeepsMemory s t → t.Coherent

/-! ## Modes, banks, saved status -/

/-- 10 R31, R33, R34: the seven mode numbers and their banks, and what `GetSPSR()` reads: in User and System mode
CPSR. -/
def Obligations.ModesBanksAndSavedStatus : Prop :=
  (∀ b : BitVec 5, Mode.ofBits b =
    match b.toNat with
    | 0x10 => some .usr | 0x11 => some .fiq | 0x12 => some .irq | 0x13 => some .svc | 0x17 => some .abt
    | 0x1B => some .und | 0x1F => some .sys | _ => none) ∧
  (∀ m : Mode, m.bank = .shared ↔ m = .usr ∨ m = .sys) ∧
  (∀ m m' : Mode, m.bank = m'.bank → m.bank ≠ .shared → m = m') ∧
  (∀ s : State, s.bank = .shared → s.getSpsr = s.cpsr) ∧
  (∀ s : State, s.bankConflict = false → s.getSpsr = s.spsrOf s.bank) ∧
  (∀ s : State, s.bankConflict = true → s.getSpsr = s.spsrOf s.bank ||| s.cpsr)

/-- 10 R36 to R38, R25: `SwitchMode` to a recognised mode makes that mode's registers visible and loses none of any mode's;
of CPSR it writes the mode field, and nothing else changes. An unrecognised number is the fault of R38: decision D22, the
model stops where the source's machine goes on (log entry 7).
R37: switching to another mode and back restores every register and the saved status. -/
def Obligations.SwitchModeExchangesBanks : Prop :=
  (∀ (s : State) (b : BitVec 5) (m : Mode), Mode.ofBits b = some m → s.bankConflict = false →
    ∃ t : State, s.switchMode b = .next t ∧
      (∀ r : Reg, t.get r = s.seenBy m r) ∧
      (∀ (m' : Mode) (r : Reg), t.seenBy m' r = s.seenBy m' r) ∧
      (∀ r : Reg, r.val < 8 ∨ r = regPc → t.get r = s.get r) ∧
      modeField t.cpsr = m.bits ∧ (∀ k : Nat, 5 ≤ k → t.cpsr.getLsbD k = s.cpsr.getLsbD k) ∧
      { t with x := s.x, bankLo := s.bankLo, bankHi := s.bankHi, cpsr := s.cpsr } = s) ∧
  (∀ (s : State) (b : BitVec 5), Mode.ofBits b = none → s.switchMode b = .fault .invalidMode) ∧
  (∀ (s : State) (a b : Mode), s.mode = a → (Mode.ofBits (modeField s.cpsr)).isSome = true →
    (∀ r : Reg, ((s.switchTo b).switchTo a).get r = s.get r) ∧ ((s.switchTo b).switchTo a).cpsr = s.cpsr ∧
    ((s.switchTo b).switchTo a).spsrOf ((s.switchTo b).switchTo a).bank = s.spsrOf s.bank)

/-! ## Pure functions -/

/-- 41 R190, R191: the condition table, by the number of the condition field, and condition 2k+1 negates condition 2k;
the condition evaluator reads nothing but the flags. -/
def Obligations.ConditionTable : Prop :=
  (∀ (s : State) (n z c v : Bool), s.flags = ⟨n, z, c, v⟩ →
    (s.passes (Cond.ofBits 0x0#4) = true ↔ z = true) ∧ (s.passes (Cond.ofBits 0x2#4) = true ↔ c = true) ∧
    (s.passes (Cond.ofBits 0x4#4) = true ↔ n = true) ∧ (s.passes (Cond.ofBits 0x6#4) = true ↔ v = true) ∧
    (s.passes (Cond.ofBits 0x8#4) = true ↔ c = true ∧ z = false) ∧
    (s.passes (Cond.ofBits 0xA#4) = true ↔ n = v) ∧
    (s.passes (Cond.ofBits 0xC#4) = true ↔ z = false ∧ n = v) ∧ s.passes (Cond.ofBits 0xE#4) = true) ∧
  (∀ (s : State) (k : BitVec 3), s.passes (Cond.ofBits (k ++ 1#1)) = !s.passes (Cond.ofBits (k ++ 0#1)))

/-- 41 R196 to R201: the shifter in arithmetic, for every amount: LSL multiplies, LSR divides, ASR divides the signed
value rounding down, ROR rotates; the carry is the last bit shifted out, and stays for amount 0. Then the special cases of
an immediate amount of 0, and the rotated immediate. -/
def Obligations.ShifterResultsAndCarries : Prop :=
  (∀ (v : Word) (n : Nat) (cin : Bool),
    (shiftLsl v n cin).1.toNat = v.toNat * 2 ^ n % 2 ^ 32 ∧
    (shiftLsl v n cin).2 = (if n = 0 then cin else decide (n ≤ 32) && v.getLsbD (32 - n)) ∧
    (shiftLsr v n cin).1.toNat = v.toNat / 2 ^ n ∧
    (shiftLsr v n cin).2 = (if n = 0 then cin else v.getLsbD (n - 1)) ∧
    (shiftAsr v n cin).1.toInt = v.toInt / 2 ^ n ∧
    (shiftAsr v n cin).2 = (if n = 0 then cin else v.getLsbD (min n 32 - 1)) ∧
    (∀ k : Nat, k < 32 → (shiftRor v n cin).1.getLsbD k = v.getLsbD ((k + n) % 32)) ∧
    (shiftRor v n cin).2 = (if n = 0 then cin else v.getLsbD ((n + 31) % 32))) ∧
  (∀ (v : Word) (cin : Bool),
    shiftImm .lsl v 0 cin = (v, cin) ∧ shiftImm .lsr v 0 cin = (0, v.getLsbD 31) ∧
    shiftImm .asr v 0 cin = (if v.getLsbD 31 then 0xFFFFFFFF#32 else 0#32, v.getLsbD 31) ∧
    (∀ k : Nat, k < 32 → (shiftImm .ror v 0 cin).1.getLsbD k = if k = 31 then cin else v.getLsbD (k + 1)) ∧
    (shiftImm .ror v 0 cin).2 = v.getLsbD 0) ∧
  (∀ (ty : ShiftType) (v : Word) (imm : BitVec 5) (cin : Bool), imm ≠ 0 →
    shiftImm ty v imm cin = shiftReg ty v imm.toNat cin) ∧
  (∀ (rot : BitVec 4) (imm : BitVec 8) (cin : Bool),
    (∀ k : Nat, k < 32 → (rotImm rot imm cin).1.getLsbD k = imm.getLsbD ((k + 2 * rot.toNat) % 32)) ∧
    (rotImm rot imm cin).2 = if rot = 0 then cin else (rotImm rot imm cin).1.getLsbD 31)

/-- 41 R206, R207: the adder and the subtraction on unbounded numbers: C is the carry out, or no borrow; V says that the
signed result does not fit. -/
def Obligations.AdditionAndSubtractionResultsAndFlags : Prop :=
  (∀ (a b : Word) (c : Bool),
    (addWithCarry a b c).value.toNat = (a.toNat + b.toNat + c.toNat) % 2 ^ 32 ∧
    (addWithCarry a b c).flags.n = (addWithCarry a b c).value.getLsbD 31 ∧
    ((addWithCarry a b c).flags.z = true ↔ (addWithCarry a b c).value = 0) ∧
    ((addWithCarry a b c).flags.c = true ↔ 2 ^ 32 ≤ a.toNat + b.toNat + c.toNat) ∧
    ((addWithCarry a b c).flags.v = true ↔ (addWithCarry a b c).value.toInt ≠ a.toInt + b.toInt + c.toNat)) ∧
  (∀ (a b : Word) (c : Bool),
    ((subWithCarry a b c).value.toNat : Int) = ((a.toNat : Int) - b.toNat - (1 - c.toNat)) % 2 ^ 32 ∧
    (subWithCarry a b c).flags.n = (subWithCarry a b c).value.getLsbD 31 ∧
    ((subWithCarry a b c).flags.z = true ↔ (subWithCarry a b c).value = 0) ∧
    ((subWithCarry a b c).flags.c = true ↔ b.toNat + (1 - c.toNat) ≤ a.toNat) ∧
    ((subWithCarry a b c).flags.v = true ↔
      (subWithCarry a b c).value.toInt ≠ a.toInt - b.toInt - (1 - (c.toNat : Int))))

/-- 41 R212, 43 R292: the products are exact, and the number of multiplier cycles says how many low bytes of the
multiplier are significant. -/
def Obligations.ProductsAndMultiplierCycles : Prop :=
  (∀ a b : Word, (unsignedProduct a b).toNat = a.toNat * b.toNat ∧ (signedProduct a b).toInt = a.toInt * b.toInt) ∧
  (∀ v : Word,
    mulCycles v false =
      (if v.toNat < 2 ^ 8 then 1 else if v.toNat < 2 ^ 16 then 2 else if v.toNat < 2 ^ 24 then 3 else 4) ∧
    mulCycles v true =
      (if -(2 ^ 8 : Int) ≤ v.toInt ∧ v.toInt < 2 ^ 8 then 1
       else if -(2 ^ 16 : Int) ≤ v.toInt ∧ v.toInt < 2 ^ 16 then 2
       else if -(2 ^ 24 : Int) ≤ v.toInt ∧ v.toInt < 2 ^ 24 then 3 else 4))

/-- 20 R79, R81 to R84: little-endian reads, low address bits ignored, misaligned loads rotated, and a store is what its
own and every other size of read finds. -/
def Obligations.MemoryReadsAndWrites : Prop :=
  (∀ (m : List Host.Cell) (a : Word),
    (Memory.read m .word a).toNat =
      (Memory.readByte m (Memory.alignWord a)).toNat + 2 ^ 8 * (Memory.readByte m (Memory.alignWord a + 1)).toNat
      + 2 ^ 16 * (Memory.readByte m (Memory.alignWord a + 2)).toNat
      + 2 ^ 24 * (Memory.readByte m (Memory.alignWord a + 3)).toNat ∧
    (Memory.read m .half a).toNat =
      (Memory.readByte m (Memory.alignHalf a)).toNat + 2 ^ 8 * (Memory.readByte m (Memory.alignHalf a + 1)).toNat ∧
    (Memory.read m .byte a).toNat = (Memory.readByte m a).toNat ∧
    (∀ k : Nat, k < 32 → (Memory.readWordRotate m a).getLsbD k =
      (Memory.read m .word a).getLsbD ((k + 8 * (a.toNat % 4)) % 32)) ∧
    (Memory.readWordRotate m a).extractLsb' 0 8 = Memory.readByte m a ∧
    (a.getLsbD 0 = true → (Memory.readHalfRotate m a).toNat =
      (Memory.read m .half a).toNat / 2 ^ 8 + 2 ^ 24 * ((Memory.read m .half a).toNat % 2 ^ 8)) ∧
    (a.getLsbD 0 = false → Memory.readHalfRotate m a = Memory.read m .half a) ∧
    (a.getLsbD 0 = true → (Memory.readHalfSigned m a).toInt = (Memory.readByte m a).toInt) ∧
    (a.getLsbD 0 = false → (Memory.readHalfSigned m a).toInt = (Memory.readHalf m a).toInt)) ∧
  (∀ (m : List Host.Cell) (size : Size) (a v b : Word),
    Memory.readByte (Memory.write m size a v) b =
      if (b - Memory.storeBase size a).toNat < Memory.sizeBytes size
      then v.extractLsb' (8 * (b - Memory.storeBase size a).toNat) 8 else Memory.readByte m b)

/-! ## Data processing -/

/-- 42 R241 to R243, 40 R170: the operands; with a register-specified shift r15 reads 4 further on, and the amount is the
low byte of Rs. -/
def Obligations.OperandsOfDataProcessing : Prop :=
  ∀ (s : State),
    (∀ (rot : BitVec 4) (imm : BitVec 8), operand2 s (.imm rot imm) = rotImm rot imm s.flags.c) ∧
    (∀ (amt : BitVec 5) (ty : ShiftType) (rm : Reg),
      operand2 s (.shiftImm amt ty rm) = shiftImm ty (s.get rm) amt s.flags.c) ∧
    (∀ (rs rm : Reg) (ty : ShiftType), operand2 s (.shiftReg rs ty rm) =
      shiftReg ty (if rm = regPc then s.get regPc + 4 else s.get rm) ((s.get rs).toNat % 256) s.flags.c) ∧
    (∀ (op2 : Operand2) (rn : Reg),
      readRn s op2 rn = if rn = regPc ∧ op2ByReg op2 = true then s.get regPc + 4 else s.get rn)

/-- 42 R240, R246 to R253, R258 to R261: the twelve instructions with a destination, to a register other than r15, write
the result of the tables `arithmeticOps` and `logicalOps`, the flags if S, and nothing else. -/
def Obligations.DataProcessingWritesItsResult : Prop :=
  ∀ op ∈ arithmeticOps ++ logicalOps, ∀ (c : Cond) (sf : Bool) (rn rd : Reg) (op2 : Operand2) (s : State),
    s.passes c = true → s.MayTouch (instrRegs (op.instr c sf rn rd op2)) → op2ShiftByPc op2 = false → rd ≠ regPc →
    ∃ t : State, exec (op.instr c sf rn rd op2) s = .next t ∧ t.get rd = (op.result s rn op2).value ∧
      Retires false
        { dst := [rd], flags := if sf then (op.result s rn op2).flags else s.flags, kind := op2Kind s op2,
          calls := op2Calls op2 } s t ∧
      KeepsMemory s t

/-- 42 R254 to R257, R245: TST, TEQ, CMP and CMN write the flags and no register, and ignore an Rd field other than
15. -/
def Obligations.ComparisonsWriteOnlyFlags : Prop :=
  ∀ (c : Cond) (rn rd : Reg) (op2 : Operand2) (s : State),
    s.passes c = true → s.MayTouch (rn :: op2Regs op2) → op2ShiftByPc op2 = false → rd ≠ regPc →
    (∃ t : State, exec (.tst c rn rd op2) s = .next t ∧ KeepsMemory s t ∧ Retires false
      { flags := (logicalResult s op2 (readRn s op2 rn &&& (operand2 s op2).1)).flags, kind := op2Kind s op2,
        calls := op2Calls op2 } s t) ∧
    (∃ t : State, exec (.teq c rn rd op2) s = .next t ∧ KeepsMemory s t ∧ Retires false
      { flags := (logicalResult s op2 (readRn s op2 rn ^^^ (operand2 s op2).1)).flags, kind := op2Kind s op2,
        calls := op2Calls op2 } s t) ∧
    (∃ t : State, exec (.cmp c rn rd op2) s = .next t ∧ KeepsMemory s t ∧ Retires false
      { flags := (subWithCarry (readRn s op2 rn) (operand2 s op2).1 true).flags, kind := op2Kind s op2,
        calls := op2Calls op2 } s t) ∧
    (∃ t : State, exec (.cmn c rn rd op2) s = .next t ∧ KeepsMemory s t ∧ Retires false
      { flags := (addWithCarry (readRn s op2 rn) (operand2 s op2).1 false).flags, kind := op2Kind s op2,
        calls := op2Calls op2 } s t)

/-- 42 R244: with Rd = 15 and S = 0 the twelve instructions with a destination branch to their result; CPSR is
unchanged. -/
def Obligations.DataProcessingToR15Branches : Prop :=
  ∀ op ∈ arithmeticOps ++ logicalOps, ∀ (c : Cond) (rn : Reg) (op2 : Operand2) (s : State),
    s.passes c = true → s.MayTouch (instrRegs (op.instr c false rn regPc op2)) → op2ShiftByPc op2 = false →
    ∃ t : State, exec (op.instr c false rn regPc op2) s = .next t ∧
      Branches s.thumb (op.result s rn op2).value { flags := s.flags, calls := op2Calls op2 } s t ∧
      t.cpsr = s.cpsr ∧ KeepsMemory s t

/-- 42 R244: with Rd = 15 and S = 1 the twelve instructions return from an exception: CPSR is the SPSR of the mode, its
mode's registers are visible, r15 is at the result in the restored set; no ALU flag is written. An SPSR whose mode number
is unrecognised is the fault of 10 R38; User and System mode are refused; a stop that the environment raised inside the
instruction's own `Idle()` came first and is the answer (00 R10, log entry 20). -/
def Obligations.DataProcessingReturnsFromException : Prop :=
  ∀ op ∈ arithmeticOps ++ logicalOps, ∀ (c : Cond) (rn : Reg) (op2 : Operand2) (s : State),
    s.passes c = true → op2ShiftByPc op2 = false → s.bankConflict = false →
    (∀ m : Mode, s.bank ≠ .shared → Mode.ofBits (modeField (s.spsrOf s.bank)) = some m →
      ∃ t : State, exec (op.instr c true rn regPc op2) s = .next t ∧
        Returns (s.spsrOf s.bank) (op.result s rn op2).value [] (op2Calls op2) s t) ∧
    (s.bank ≠ .shared → Mode.ofBits (modeField (s.spsrOf s.bank)) = none →
      exec (op.instr c true rn regPc op2) s = (s.world.play (op2Calls op2)).stopOr (.fault .invalidMode)) ∧
    (s.bank = .shared →
      exec (op.instr c true rn regPc op2) s = (s.world.play (op2Calls op2)).stopOr (.refused .returnWithoutSpsr))

/-! ## Status-register transfers and multiplies -/

/-- 43 R280: MRS reads CPSR, or the SPSR of the mode, which in User and System mode is CPSR; r15 as destination, and SPSR
in the bank-conflict window, are refused. -/
def Obligations.MrsReadsStatus : Prop :=
  ∀ (c : Cond) (p : Bool) (rd : Reg) (s : State), s.passes c = true → s.MayTouch [rd] →
    (rd ≠ regPc → (p = true → s.bankConflict = false) →
      ∃ t : State, exec (.mrs c p rd) s = .next t ∧
        t.get rd = (if p = true ∧ s.bank ≠ .shared then s.spsrOf s.bank else s.cpsr) ∧
        Retires false { dst := [rd], flags := s.flags, kind := s.fetchKind } s t ∧ KeepsMemory s t) ∧
    (rd = regPc → exec (.mrs c p rd) s = .refused .mrsToPc) ∧
    (rd ≠ regPc → p = true → s.bankConflict = true → exec (.mrs c p rd) s = .refused .bankConflict)

/-- 43 R284, R281, R282: MSR to CPSR writes the bits its field mask names, in User mode the flags byte alone; where it
writes the mode, the new mode's registers are visible and no register of any mode is lost. MSR to SPSR writes the bits its
field mask names into the SPSR of the mode, the mode bits unchecked, and nothing else. -/
def Obligations.MsrWritesItsStatusRegister : Prop :=
  (∀ (s : State) (mask : BitVec 4) (i : Instr) (op : Word), MsrForm s false mask i op →
    msrKeepsReserved s false mask op →
    (msrWrites s false mask 0 = true → op.getLsbD 5 = s.thumb ∧ s.bankConflict = false ∧
      (Mode.ofBits (modeField op)).isSome = true) →
    ∃ t : State, exec i s = .next t ∧
      (∀ k : Nat, k < 32 → t.cpsr.getLsbD k = if msrWrites s false mask k then op.getLsbD k else s.cpsr.getLsbD k) ∧
      (∀ (m : Mode) (r : Reg), r ≠ regPc → t.seenBy m r = s.seenBy m r) ∧
      (∀ r : Reg, r ≠ regPc →
        t.get r = if msrWrites s false mask 0 then s.seenBy t.mode r else s.get r) ∧
      t.get regPc = s.get regPc + 4 ∧ t.bankConflict = false ∧
      { t with x := s.x, bankLo := s.bankLo, bankHi := s.bankHi, cpsr := s.cpsr, bankConflict := s.bankConflict } = s) ∧
  (∀ (s : State) (mask : BitVec 4) (i : Instr) (op : Word), MsrForm s true mask i op →
    msrKeepsReserved s true mask op → s.bank ≠ .shared → s.bankConflict = false →
    ∃ t : State, exec i s = .next t ∧
      (∀ k : Nat, k < 32 → (t.spsrOf s.bank).getLsbD k =
        if msrWrites s true mask k then op.getLsbD k else (s.spsrOf s.bank).getLsbD k) ∧
      (∀ b : Bank, b ≠ s.bank → t.spsrOf b = s.spsrOf b) ∧ t.cpsr = s.cpsr ∧
      Retires false { flags := s.flags, kind := s.fetchKind } s { t with spsr := s.spsr } ∧ KeepsMemory s t)

/-- 43 R284, R281: where MSR stops: a 1 to a reserved bit, SPSR in User or System mode, a change of T, an unrecognised
mode number, Rm = 15. -/
def Obligations.MsrStops : Prop :=
  (∀ (s : State) (p : Bool) (mask : BitVec 4) (i : Instr) (op : Word), MsrForm s p mask i op →
    (¬msrKeepsReserved s p mask op → exec i s = .refused .msrReservedBit) ∧
    (msrKeepsReserved s p mask op → p = true → s.bank = .shared → exec i s = .refused .msrSpsrWithoutSpsr) ∧
    (msrKeepsReserved s p mask op → p = false → msrWrites s p mask 0 = true → op.getLsbD 5 ≠ s.thumb →
      exec i s = .refused .msrChangesT) ∧
    (msrKeepsReserved s p mask op → p = false → msrWrites s p mask 0 = true → op.getLsbD 5 = s.thumb →
      Mode.ofBits (modeField op) = none → exec i s = .fault .invalidMode)) ∧
  (∀ (c : Cond) (p : Bool) (mask : BitVec 4) (s : State), s.passes c = true →
    exec (.msrReg c p mask regPc) s = .refused .msrFromPc)

/-- 43 R285, R286, 47 R424, 41 R211: the 32-bit multiplies: the low word of the product (and sum), N and Z from it, V
kept, C a free value, and the internal cycles. -/
def Obligations.MultipliesWriteTheLowWord : Prop :=
  (∀ (c : Cond) (sf : Bool) (rd rs rm : Reg) (s : State), s.passes c = true → s.MayTouch [rd, rs, rm] →
    rd ≠ regPc → rm ≠ regPc → rs ≠ regPc → rd ≠ rm →
    ∃ t : State, exec (.mul c sf rd rs rm) s = .next t ∧
      t.get rd = s.get rm * s.get rs ∧
      Retires false
        { dst := [rd],
          flags := if sf then { n := (t.get rd).getLsbD 31, z := decide (t.get rd = 0),
                                c := Config.mulCarry s.draws, v := s.flags.v } else s.flags,
          kind := .n, calls := List.replicate (mulCycles (s.get rs) true) .idle, draws := sf.toNat } s t ∧
      KeepsMemory s t) ∧
  (∀ (c : Cond) (sf : Bool) (rd rn rs rm : Reg) (s : State), s.passes c = true → s.MayTouch [rd, rn, rs, rm] →
    rd ≠ regPc → rm ≠ regPc → rs ≠ regPc → rn ≠ regPc → rd ≠ rm →
    ∃ t : State, exec (.mla c sf rd rn rs rm) s = .next t ∧
      t.get rd = s.get rm * s.get rs + s.get rn ∧
      Retires false
        { dst := [rd],
          flags := if sf then { n := (t.get rd).getLsbD 31, z := decide (t.get rd = 0),
                                c := Config.mulCarry s.draws, v := s.flags.v } else s.flags,
          kind := .n, calls := List.replicate (mulCycles (s.get rs) true + 1) .idle, draws := sf.toNat } s t ∧
      KeepsMemory s t) ∧
  (∀ (rs rd : LowReg) (s : State), rd ≠ rs →
    ∃ t : State, exec (.tMul rs rd) s = .next t ∧
      t.get (low rd) = s.get (low rd) * s.get (low rs) ∧
      Retires true
        { dst := [low rd],
          flags := { n := (t.get (low rd)).getLsbD 31, z := decide (t.get (low rd) = 0),
                     c := Config.mulCarry s.draws, v := s.flags.v },
          kind := .n, calls := List.replicate (mulCycles (s.get (low rd)) true) .idle, draws := 1 } s t ∧
      KeepsMemory s t)

/-- 43 R287 to R290, 41 R211: the long multiplies write the 64-bit product, or its sum with the old RdHi:RdLo; N and Z
from the 64 bits, C and V free values. -/
def Obligations.LongMultipliesWriteBothWords : Prop :=
  ∀ (c : Cond) (sf : Bool) (rdHi rdLo rs rm : Reg) (s : State), s.passes c = true →
    s.MayTouch [rdHi, rdLo, rs, rm] → rdHi ≠ regPc → rdLo ≠ regPc → rm ≠ regPc → rs ≠ regPc →
    rdHi ≠ rdLo → rdHi ≠ rm → rdLo ≠ rm →
    ∀ row ∈ [(Instr.umull c sf rdHi rdLo rs rm, unsignedProduct (s.get rm) (s.get rs),
                mulCycles (s.get rs) false + 1),
             (Instr.umlal c sf rdHi rdLo rs rm,
                unsignedProduct (s.get rm) (s.get rs) + (s.get rdHi ++ s.get rdLo), mulCycles (s.get rs) false + 2),
             (Instr.smull c sf rdHi rdLo rs rm, signedProduct (s.get rm) (s.get rs), mulCycles (s.get rs) true + 1),
             (Instr.smlal c sf rdHi rdLo rs rm,
                signedProduct (s.get rm) (s.get rs) + (s.get rdHi ++ s.get rdLo), mulCycles (s.get rs) true + 2)],
      ∃ t : State, exec row.1 s = .next t ∧ t.get rdHi ++ t.get rdLo = row.2.1 ∧
        Retires false
          { dst := [rdHi, rdLo],
            flags := if sf then { n := row.2.1.getLsbD 63, z := decide (row.2.1 = 0),
                                  c := Config.mulCarry s.draws, v := Config.mullOverflow s.draws } else s.flags,
            kind := .n, calls := List.replicate row.2.2 .idle, draws := sf.toNat } s t ∧
        KeepsMemory s t

/-! ## Addresses -/

/-- 44 R310, R317, 45 R350, 48 R450 to R470: the addresses that the statements on transfers name. The offset is the
immediate or the (shifted) register, added or subtracted by U; pre-indexed forms use it, post-indexed forms the base; a
block lies below or above its base and leaves the base above or below; registers ascend; the immediates of the 16-bit set
are scaled, and the PC-relative form clears bit 1 of r15. -/
def Obligations.AddressesOfTransfers : Prop :=
  (∀ (s : State) (rn : Reg) (off : Word),
    (indexedAddr s true rn off).toNat = ((s.get rn).toNat + off.toNat) % 2 ^ 32 ∧
    (indexedAddr s false rn off).toNat = (2 ^ 32 + (s.get rn).toNat - off.toNat) % 2 ^ 32 ∧
    (∀ up : Bool,
      transferAddr s .offset up rn off = indexedAddr s up rn off ∧
      transferAddr s .pre up rn off = indexedAddr s up rn off ∧ transferAddr s .post up rn off = s.get rn)) ∧
  (∀ ix : Index, writesBack ix = true ↔ ix ≠ .offset) ∧
  (∀ (s : State) (imm12 : BitVec 12) (imm8 : BitVec 8) (amt : BitVec 5) (ty : ShiftType) (rm : Reg),
    (offsetValue s (.imm imm12)).toNat = imm12.toNat ∧
    offsetValue s (.reg amt ty rm) = (shiftImm ty (s.get rm) amt s.flags.c).1 ∧
    (halfOffsetValue s (.imm imm8)).toNat = imm8.toNat ∧ halfOffsetValue s (.reg rm) = s.get rm) ∧
  (∀ (b : Word) (regs : List Reg) (k : Nat),
    ((blockStart .ia b regs).toNat : Int) = b.toNat % 2 ^ 32 ∧
    ((blockStart .ib b regs).toNat : Int) = (b.toNat + 4) % 2 ^ 32 ∧
    ((blockStart .da b regs).toNat : Int) = (b.toNat - 4 * regs.length + 4) % 2 ^ 32 ∧
    ((blockStart .db b regs).toNat : Int) = (b.toNat - 4 * regs.length) % 2 ^ 32 ∧
    ((blockNewBase .ia b regs).toNat : Int) = (b.toNat + 4 * regs.length) % 2 ^ 32 ∧
    ((blockNewBase .ib b regs).toNat : Int) = (b.toNat + 4 * regs.length) % 2 ^ 32 ∧
    ((blockNewBase .da b regs).toNat : Int) = (b.toNat - 4 * regs.length) % 2 ^ 32 ∧
    ((blockNewBase .db b regs).toNat : Int) = (b.toNat - 4 * regs.length) % 2 ^ 32 ∧
    (wordAddr b k).toNat = (b.toNat + 4 * k) % 2 ^ 32) ∧
  (∀ (list : BitVec 16) (low8 : BitVec 8) (extra : Bool) (r : Reg),
    (r ∈ regList list ↔ list.getLsbD r.val = true) ∧ (regList list).Pairwise (fun a b => a.val < b.val) ∧
    (r ∈ lowList low8 ↔ low8.getLsbD r.val = true) ∧
    (r ∈ pushRegs extra low8 ↔ low8.getLsbD r.val = true ∨ (extra = true ∧ r = 14)) ∧
    (pushRegs extra low8).Pairwise (fun a b => a.val < b.val) ∧
    (r ∈ popRegs extra low8 ↔ low8.getLsbD r.val = true ∨ (extra = true ∧ r = 15)) ∧
    (popRegs extra low8).Pairwise (fun a b => a.val < b.val)) ∧
  (∀ (s : State) (ro rb : LowReg) (imm5 : BitVec 5) (imm8 : BitVec 8) (regs : List Reg),
    (regAddr s ro rb).toNat = ((s.get (low rb)).toNat + (s.get (low ro)).toNat) % 2 ^ 32 ∧
    (immAddr s imm5 0 rb).toNat = ((s.get (low rb)).toNat + imm5.toNat) % 2 ^ 32 ∧
    (immAddr s imm5 1 rb).toNat = ((s.get (low rb)).toNat + 2 * imm5.toNat) % 2 ^ 32 ∧
    (immAddr s imm5 2 rb).toNat = ((s.get (low rb)).toNat + 4 * imm5.toNat) % 2 ^ 32 ∧
    (spAddr s imm8).toNat = ((s.get 13).toNat + 4 * imm8.toNat) % 2 ^ 32 ∧
    (pcAddr s imm8).toNat =
      ((s.get 15).toNat - 2 * ((s.get 15).toNat / 2 % 2) + 4 * imm8.toNat) % 2 ^ 32 ∧
    ((pushStart s regs).toNat : Int) = ((s.get 13).toNat - 4 * regs.length) % 2 ^ 32)

/-! ## Single transfers -/

/-- 44 R310, R312, R313, R316 to R318, R320, R321: LDR, LDRB, LDRT, LDRBT, LDRH, LDRSB and LDRSH to a register other
than r15. -/
def Obligations.LoadsWriteTheirRegister : Prop :=
  (∀ (c : Cond) (ix : Index) (up : Bool) (rn rd : Reg) (off : Offset) (s : State), s.passes c = true →
    s.MayTouch (rn :: rd :: offsetRegs off) → TransferAllowed ix rn rd (offsetByPc off) → rd ≠ regPc →
    (∃ t : State, exec (.ldr c ix up rn rd off) s = .next t ∧ Loaded ix up rn rd (offsetValue s off) .word
      (Memory.readWordRotate s.heard (transferAddr s ix up rn (offsetValue s off))) s t) ∧
    (∃ t : State, exec (.ldrb c ix up rn rd off) s = .next t ∧ Loaded ix up rn rd (offsetValue s off) .byte
      ((Memory.readByte s.heard (transferAddr s ix up rn (offsetValue s off))).setWidth 32) s t) ∧
    (ix = .post →
      (∃ t : State, exec (.ldrt c up rn rd off) s = .next t ∧ Loaded ix up rn rd (offsetValue s off) .word
        (Memory.readWordRotate s.heard (s.get rn)) s t) ∧
      (∃ t : State, exec (.ldrbt c up rn rd off) s = .next t ∧ Loaded ix up rn rd (offsetValue s off) .byte
        ((Memory.readByte s.heard (s.get rn)).setWidth 32) s t))) ∧
  (∀ (c : Cond) (ix : Index) (up : Bool) (rn rd : Reg) (off : HalfOffset) (s : State), s.passes c = true →
    s.MayTouch (rn :: rd :: halfOffsetRegs off) → TransferAllowed ix rn rd (halfOffsetByPc off) → rd ≠ regPc →
    (∃ t : State, exec (.ldrh c ix up rn rd off) s = .next t ∧ Loaded ix up rn rd (halfOffsetValue s off) .half
      (Memory.readHalfRotate s.heard (transferAddr s ix up rn (halfOffsetValue s off))) s t) ∧
    (∃ t : State, exec (.ldrsb c ix up rn rd off) s = .next t ∧ Loaded ix up rn rd (halfOffsetValue s off) .byte
      ((Memory.readByte s.heard (transferAddr s ix up rn (halfOffsetValue s off))).signExtend 32) s t) ∧
    (∃ t : State, exec (.ldrsh c ix up rn rd off) s = .next t ∧ Loaded ix up rn rd (halfOffsetValue s off)
      (if (transferAddr s ix up rn (halfOffsetValue s off)).getLsbD 0 then .byte else .half)
      (Memory.readHalfSigned s.heard (transferAddr s ix up rn (halfOffsetValue s off))) s t))

/-- 44 R312, R316: LDR and LDRT with Rd = 15 branch to the loaded word; the set does not change. -/
def Obligations.LoadsToR15Branch : Prop :=
  ∀ (c : Cond) (ix : Index) (up : Bool) (rn : Reg) (off : Offset) (s : State), s.passes c = true →
    s.MayTouch (rn :: offsetRegs off) → TransferAllowed ix rn regPc (offsetByPc off) →
    ∀ i ∈ Instr.ldr c ix up rn regPc off :: (if ix = .post then [Instr.ldrt c up rn regPc off] else []),
      ∃ t : State, exec i s = .next t ∧ WroteBack ix up rn (offsetValue s off) s t ∧
        Branches s.thumb (Memory.readWordRotate s.heard (transferAddr s ix up rn (offsetValue s off)))
          { dst := backDst ix rn, flags := s.flags,
            calls := [.read .word (transferAddr s ix up rn (offsetValue s off)) (dataAcc .n), .idle] } s t ∧
        t.cpsr = s.cpsr ∧ KeepsMemory s t

/-- 44 R310, R311, R314, R315, R316, R319: STR, STRB, STRT, STRBT and STRH; a stored r15 is A + 12. -/
def Obligations.StoresWriteTheirBytes : Prop :=
  (∀ (c : Cond) (ix : Index) (up : Bool) (rn rd : Reg) (off : Offset) (s : State), s.passes c = true →
    s.MayTouch (rn :: rd :: offsetRegs off) → TransferAllowed ix rn rd (offsetByPc off) →
    (∃ t : State, exec (.str c ix up rn rd off) s = .next t ∧ Stored ix up rn (offsetValue s off) .word
      (if rd = regPc then s.get regPc + 4 else s.get rd) s t) ∧
    (rd ≠ regPc → ∃ t : State, exec (.strb c ix up rn rd off) s = .next t ∧
      Stored ix up rn (offsetValue s off) .byte (s.get rd) s t) ∧
    (ix = .post →
      (∃ t : State, exec (.strt c up rn rd off) s = .next t ∧ Stored ix up rn (offsetValue s off) .word
        (if rd = regPc then s.get regPc + 4 else s.get rd) s t) ∧
      (rd ≠ regPc → ∃ t : State, exec (.strbt c up rn rd off) s = .next t ∧
        Stored ix up rn (offsetValue s off) .byte (s.get rd) s t))) ∧
  (∀ (c : Cond) (ix : Index) (up : Bool) (rn rd : Reg) (off : HalfOffset) (s : State), s.passes c = true →
    s.MayTouch (rn :: rd :: halfOffsetRegs off) → TransferAllowed ix rn rd (halfOffsetByPc off) → rd ≠ regPc →
    ∃ t : State, exec (.strh c ix up rn rd off) s = .next t ∧
      Stored ix up rn (halfOffsetValue s off) .half (s.get rd) s t)

/-! ## Block transfers and swap -/

/-- 45 R350, R351: LDM of the current bank without r15: ascending registers from ascending words, the base written back
where W is set. -/
def Obligations.BlockLoadFillsItsList : Prop :=
  ∀ (c : Cond) (m : BlockMode) (wb : Bool) (rn : Reg) (list : BitVec 16) (s : State), s.passes c = true →
    s.MayTouch (rn :: regList list) → rn ≠ regPc → list ≠ 0 → list.getLsbD 15 = false →
    (wb = true → list.getLsbD rn.val = false) →
    ∃ t : State, exec (.ldm c m false wb rn list) s = .next t ∧
      LoadedBlock (blockStart m (s.get rn) (regList list)) (regList list) s t ∧
      (wb = true → t.get rn = blockNewBase m (s.get rn) (regList list)) ∧
      Retires false
        { dst := (if wb then [rn] else []) ++ regList list, flags := s.flags, kind := .n,
          calls := readCalls (blockStart m (s.get rn) (regList list)) (regList list).length ++ [.idle] } s t ∧
      KeepsMemory s t

/-- 45 R350, R351, R354: LDM with r15: with S = 0 a branch to the last word read, with S = 1 the exception return with
it, whose registers go to the current mode's bank; an unrecognised mode number in SPSR is the fault of 10 R38, unless the
environment raised a stop inside a read or the `Idle()`, which come first (00 R10, log entry 20). -/
def Obligations.BlockLoadOfR15BranchesOrReturns : Prop :=
  ∀ (c : Cond) (m : BlockMode) (wb : Bool) (rn : Reg) (list : BitVec 16) (s : State), s.passes c = true →
    s.MayTouch (rn :: regList list) → rn ≠ regPc → list.getLsbD 15 = true →
    (wb = true → list.getLsbD rn.val = false) →
    (∃ t : State, exec (.ldm c m false wb rn list) s = .next t ∧
      LoadedBlock (blockStart m (s.get rn) (regList list)) (regList list) s t ∧
      (wb = true → t.get rn = blockNewBase m (s.get rn) (regList list)) ∧
      Branches s.thumb
        (blockWord s (blockStart m (s.get rn) (regList list)) ((regList list).length - 1))
        { dst := (if wb then [rn] else []) ++ regList list, flags := s.flags,
          calls := readCalls (blockStart m (s.get rn) (regList list)) (regList list).length ++ [.idle] } s t ∧
      t.cpsr = s.cpsr ∧ KeepsMemory s t) ∧
    (s.bank ≠ .shared → s.bankConflict = false → (Mode.ofBits (modeField (s.spsrOf s.bank))).isSome = true →
      ∃ t : State, exec (.ldm c m true wb rn list) s = .next t ∧
        (∀ k : Nat, k < (regList list).length → nthReg (regList list) k ≠ regPc →
          t.seenBy s.mode (nthReg (regList list) k) =
            blockWord s (blockStart m (s.get rn) (regList list)) k) ∧
        (wb = true → t.seenBy s.mode rn = blockNewBase m (s.get rn) (regList list)) ∧
        Returns (s.spsrOf s.bank)
          (blockWord s (blockStart m (s.get rn) (regList list)) ((regList list).length - 1))
          ((if wb then [rn] else []) ++ regList list)
          (readCalls (blockStart m (s.get rn) (regList list)) (regList list).length ++ [.idle]) s t) ∧
    (s.bank ≠ .shared → s.bankConflict = false → Mode.ofBits (modeField (s.spsrOf s.bank)) = none →
      exec (.ldm c m true wb rn list) s =
        (s.world.play (readCalls (blockStart m (s.get rn) (regList list)) (regList list).length ++ [.idle])).stopOr
          (.fault .invalidMode))

/-- 45 R350, R352: STM of the current bank: ascending registers to ascending words, r15 as A + 12, the base written back
where W is set; a base that is lowest in the list is stored as it was. -/
def Obligations.BlockStoreWritesItsList : Prop :=
  ∀ (c : Cond) (m : BlockMode) (wb : Bool) (rn : Reg) (list : BitVec 16) (s : State), s.passes c = true →
    s.MayTouch (rn :: regList list) → rn ≠ regPc → list ≠ 0 →
    (wb = true → list.getLsbD rn.val = true → nthReg (regList list) 0 = rn) →
    ∃ t : State, exec (.stm c m false wb rn list) s = .next t ∧
      StoredBlock (blockStart m (s.get rn) (regList list)) (regList list).length (blockValue s (regList list)) s t ∧
      (wb = true → t.get rn = blockNewBase m (s.get rn) (regList list)) ∧
      Retires false
        { dst := if wb then [rn] else [], flags := s.flags, kind := .n,
          calls := writeCalls (blockStart m (s.get rn) (regList list)) (regList list).length
            (blockValue s (regList list)) } s t

/-- 45 R351, R352, R353, R355: the User-bank transfers: the registers User mode sees are loaded or stored, the current
mode's own are untouched, and the load opens the bank-conflict window. -/
def Obligations.UserBankTransfers : Prop :=
  ∀ (c : Cond) (m : BlockMode) (rn : Reg) (list : BitVec 16) (s : State), s.passes c = true →
    rn ≠ regPc → list ≠ 0 → s.bank ≠ .shared → s.bankConflict = false →
    (list.getLsbD 15 = false →
      ∃ t : State, exec (.ldm c m true false rn list) s = .next t ∧
        (∀ k : Nat, k < (regList list).length →
          t.seenBy .usr (nthReg (regList list) k) =
            blockWord s (blockStart m (s.get rn) (regList list)) k) ∧
        UserBank (regList list)
          (readCalls (blockStart m (s.get rn) (regList list)) (regList list).length ++ [.idle]) true s t ∧
        KeepsMemory s t) ∧
    (∃ t : State, exec (.stm c m true false rn list) s = .next t ∧
      StoredBlock (blockStart m (s.get rn) (regList list)) (regList list).length
        (fun k => if nthReg (regList list) k = regPc then s.get regPc + 4
                  else s.seenBy .usr (nthReg (regList list) k)) s t ∧
      UserBank []
        (writeCalls (blockStart m (s.get rn) (regList list)) (regList list).length
          (fun k => if nthReg (regList list) k = regPc then s.get regPc + 4
                    else s.seenBy .usr (nthReg (regList list) k))) false s t)

/-- 45 R360, R361: SWP and SWPB read, then write, at the address in Rn, both accesses locked. -/
def Obligations.SwapExchangesRegisterAndMemory : Prop :=
  ∀ (c : Cond) (rn rd rm : Reg) (s : State), s.passes c = true → s.MayTouch [rn, rd, rm] →
    rn ≠ regPc → rd ≠ regPc → rm ≠ regPc → rn ≠ rm → rn ≠ rd →
    (∃ t : State, exec (.swp c rn rd rm) s = .next t ∧ t.get rd = Memory.readWordRotate s.heard (s.get rn) ∧
      StoredAt .word (s.get rn) (s.get rm) s t ∧
      Retires false
        { dst := [rd], flags := s.flags, kind := .n,
          calls := [.read .word (s.get rn) lockAcc, .write .word (s.get rn) (s.get rm) lockAcc, .idle] } s t) ∧
    (∃ t : State, exec (.swpb c rn rd rm) s = .next t ∧
      t.get rd = (Memory.readByte s.heard (s.get rn)).setWidth 32 ∧ StoredAt .byte (s.get rn) (s.get rm) s t ∧
      Retires false
        { dst := [rd], flags := s.flags, kind := .n,
          calls := [.read .byte (s.get rn) lockAcc,
                    .write .byte (s.get rn) (((s.get rm).extractLsb' 0 8).setWidth 32) lockAcc, .idle] } s t)

/-! ## Refused operands -/

/-- 42 R243, R245, 43 R285 to R287, 47 R424, R428: the refused operands of data processing and multiplies. -/
def Obligations.DataOperandRefusals : Prop :=
  (∀ op ∈ arithmeticOps ++ logicalOps, ∀ (c : Cond) (sf : Bool) (rn rd : Reg) (ty : ShiftType) (rm : Reg) (s : State),
    s.passes c = true → s.MayTouch (instrRegs (op.instr c sf rn rd (.shiftReg regPc ty rm))) →
    exec (op.instr c sf rn rd (.shiftReg regPc ty rm)) s = .refused .shiftByPc) ∧
  (∀ (c : Cond) (rn rd : Reg) (ty : ShiftType) (rm : Reg) (s : State), s.passes c = true →
    s.MayTouch (rn :: op2Regs (.shiftReg regPc ty rm)) →
    ∀ i ∈ [Instr.tst c rn rd (.shiftReg regPc ty rm), .teq c rn rd (.shiftReg regPc ty rm),
           .cmp c rn rd (.shiftReg regPc ty rm), .cmn c rn rd (.shiftReg regPc ty rm)],
      exec i s = .refused .shiftByPc) ∧
  (∀ (c : Cond) (rn : Reg) (op2 : Operand2) (s : State), s.passes c = true → s.MayTouch (rn :: op2Regs op2) →
    op2ShiftByPc op2 = false →
    exec (.tst c rn regPc op2) s = .refused .comparePc ∧ exec (.teq c rn regPc op2) s = .refused .comparePc ∧
    exec (.cmp c rn regPc op2) s = .refused .comparePc ∧ exec (.cmn c rn regPc op2) s = .refused .comparePc) ∧
  (∀ (c : Cond) (sf : Bool) (rd rs rm : Reg) (s : State), s.passes c = true → s.MayTouch [rd, rs, rm] →
    rd = regPc ∨ rm = regPc ∨ rs = regPc ∨ rd = rm → exec (.mul c sf rd rs rm) s = .refused .mulOperands) ∧
  (∀ (c : Cond) (sf : Bool) (rd rn rs rm : Reg) (s : State), s.passes c = true → s.MayTouch [rd, rn, rs, rm] →
    rd = regPc ∨ rm = regPc ∨ rs = regPc ∨ rn = regPc ∨ rd = rm →
    exec (.mla c sf rd rn rs rm) s = .refused .mulOperands) ∧
  (∀ (c : Cond) (sf : Bool) (rdHi rdLo rs rm : Reg) (s : State), s.passes c = true →
    s.MayTouch [rdHi, rdLo, rs, rm] →
    rdHi = regPc ∨ rdLo = regPc ∨ rm = regPc ∨ rs = regPc ∨ rdHi = rdLo ∨ rdHi = rm ∨ rdLo = rm →
    exec (.umull c sf rdHi rdLo rs rm) s = .refused .mullOperands ∧
    exec (.umlal c sf rdHi rdLo rs rm) s = .refused .mullOperands ∧
    exec (.smull c sf rdHi rdLo rs rm) s = .refused .mullOperands ∧
    exec (.smlal c sf rdHi rdLo rs rm) s = .refused .mullOperands) ∧
  (∀ (r : LowReg) (s : State), exec (.tMul r r) s = .refused .thumbMulSameReg) ∧
  (∀ (rs : Reg) (s : State), s.MayTouch [rs] → exec (.tCmpHi regPc rs) s = .refused .thumbCmpPc)

/-- 44 R310, R311, R313, R315 to R317, 45 R350 to R352, R360, 48 R467 to R470: the refused operands of transfers: each
such form stops, whatever the state. -/
def Obligations.TransferOperandRefusals : Prop :=
  (∀ (c : Cond) (ix : Index) (up : Bool) (rn rd : Reg) (off : Offset) (s : State), s.passes c = true →
    ¬TransferAllowed ix rn rd (offsetByPc off) →
    ∀ i ∈ [Instr.ldr c ix up rn rd off, .ldrb c ix up rn rd off, .str c ix up rn rd off, .strb c ix up rn rd off],
      ∃ why : Refusal, exec i s = .refused why) ∧
  (∀ (c : Cond) (ix : Index) (up : Bool) (rn : Reg) (off : Offset) (s : State), s.passes c = true →
    s.MayTouch (rn :: offsetRegs off) → TransferAllowed ix rn regPc (offsetByPc off) →
    exec (.ldrb c ix up rn regPc off) s = .refused .bytePc ∧ exec (.strb c ix up rn regPc off) s = .refused .bytePc) ∧
  (∀ (c : Cond) (up : Bool) (rn : Reg) (off : Offset) (s : State), s.passes c = true →
    s.MayTouch (rn :: offsetRegs off) → TransferAllowed .post rn regPc (offsetByPc off) →
    exec (.ldrbt c up rn regPc off) s = .refused .bytePc ∧ exec (.strbt c up rn regPc off) s = .refused .bytePc) ∧
  (∀ (c : Cond) (up : Bool) (rn rd : Reg) (off : Offset) (s : State), s.passes c = true →
    ¬TransferAllowed .post rn rd (offsetByPc off) →
    ∀ i ∈ [Instr.ldrt c up rn rd off, .ldrbt c up rn rd off, .strt c up rn rd off, .strbt c up rn rd off],
      ∃ why : Refusal, exec i s = .refused why) ∧
  (∀ (c : Cond) (ix : Index) (up : Bool) (rn rd : Reg) (off : HalfOffset) (s : State), s.passes c = true →
    ¬TransferAllowed ix rn rd (halfOffsetByPc off) ∨ rd = regPc →
    ∀ i ∈ [Instr.ldrh c ix up rn rd off, .strh c ix up rn rd off, .ldrsb c ix up rn rd off, .ldrsh c ix up rn rd off],
      ∃ why : Refusal, exec i s = .refused why) ∧
  (∀ (c : Cond) (m : BlockMode) (sb wb : Bool) (rn : Reg) (list : BitVec 16) (s : State), s.passes c = true →
    (rn = regPc ∨ list = 0 ∨ (sb = true ∧ s.bank = .shared) ∨ (sb = true ∧ list.getLsbD 15 = false ∧ wb = true) ∨
      (wb = true ∧ list.getLsbD rn.val = true) →
      ∃ why : Refusal, exec (.ldm c m sb wb rn list) s = .refused why) ∧
    (rn = regPc ∨ list = 0 ∨ (sb = true ∧ s.bank = .shared) ∨ (sb = true ∧ wb = true) ∨
      (wb = true ∧ list.getLsbD rn.val = true ∧ nthReg (regList list) 0 ≠ rn) →
      ∃ why : Refusal, exec (.stm c m sb wb rn list) s = .refused why)) ∧
  (∀ (c : Cond) (rn rd rm : Reg) (s : State), s.passes c = true → s.MayTouch [rn, rd, rm] →
    rn = regPc ∨ rd = regPc ∨ rm = regPc ∨ rn = rm ∨ rn = rd →
    exec (.swp c rn rd rm) s = .refused .swpOperands ∧ exec (.swpb c rn rd rm) s = .refused .swpOperands) ∧
  (∀ s : State, s.bankConflict = false →
    exec (.tPush false 0) s = .refused .blockEmptyList ∧ exec (.tPop false 0) s = .refused .blockEmptyList) ∧
  (∀ (rb : LowReg) (list : BitVec 8) (s : State),
    exec (.tStmia rb 0) s = .refused .blockEmptyList ∧ exec (.tLdmia rb 0) s = .refused .blockEmptyList ∧
    (list.getLsbD rb.val = true → nthReg (lowList list) 0 ≠ low rb →
      exec (.tStmia rb list) s = .refused .stmBaseNotLowest))

/-- 43 R283, R291, 44 R322, 45 R362, 49 R497: the reserved indices are refused, in the 32-bit set when the condition
passes. -/
def Obligations.ReservedEncodingsAreRefused : Prop :=
  (∀ (c : Cond) (raw : BitVec 28) (s : State), s.passes c = true →
    exec (.reservedPsrImm c raw) s = .refused .reservedPsrImm ∧
    exec (.reservedPsrReg c raw) s = .refused .reservedPsrReg ∧
    exec (.reservedMul c raw) s = .refused .reservedMul ∧ exec (.reservedSwp c raw) s = .refused .reservedSwp ∧
    exec (.reservedHalfPostw c raw) s = .refused .reservedHalfPostw ∧
    exec (.reservedHalfStore c raw) s = .refused .reservedHalfStore) ∧
  (∀ (raw : BitVec 16) (s : State),
    exec (.tReservedHiLoLo raw) s = .refused .reservedHiLoLo ∧ exec (.tReservedBxH1 raw) s = .refused .reservedBxH1 ∧
    exec (.tReservedBcondAl raw) s = .refused .reservedBcondAl)

/-! ## Branches and exceptions -/

/-- 46 R380, R381, R382: B, BL and BX of the 32-bit set. -/
def Obligations.BranchesOfThe32BitSet : Prop :=
  (∀ (c : Cond) (imm : BitVec 24) (s : State), s.passes c = true →
    ∃ t : State, exec (.b c imm) s = .next t ∧
      Branches s.thumb (s.get regPc + BitVec.ofInt 32 (4 * imm.toInt)) { flags := s.flags } s t ∧
      t.cpsr = s.cpsr ∧ KeepsMemory s t) ∧
  (∀ (c : Cond) (imm : BitVec 24) (s : State), s.passes c = true → s.bankConflict = false →
    ∃ t : State, exec (.bl c imm) s = .next t ∧ t.get regLr = s.get regPc - 4 ∧
      Branches s.thumb (s.get regPc + BitVec.ofInt 32 (4 * imm.toInt)) { dst := [regLr], flags := s.flags } s t ∧
      t.cpsr = s.cpsr ∧ KeepsMemory s t) ∧
  (∀ (c : Cond) (rm : Reg) (s : State), s.passes c = true → s.MayTouch [rm] →
    ((s.get rm).getLsbD 0 = true ∨ (s.get rm).getLsbD 1 = false →
      ∃ t : State, exec (.bx c rm) s = .next t ∧
        Branches ((s.get rm).getLsbD 0) (s.get rm) { flags := s.flags } s t ∧ KeepsMemory s t) ∧
    ((s.get rm).getLsbD 0 = false → (s.get rm).getLsbD 1 = true → exec (.bx c rm) s = .refused .bxUnaligned))

/-- 46 R383 to R385, 49 R495, R496, 60 R524, R527, R528: SWI, the undefined spaces and the coprocessor space enter their
exception, with the link to the following instruction. For an entry from FIQ mode `Enters` says that r8 to r12 are
exchanged, as 10 R36 has it, where R524 says that r0 to r12 do not change: the model's choice (log entry 24). 60 R540: with
interception configured, SWI hands the call number to the host's callback and does `next`; no other state of the CPU
changes; that the environment takes a turn in the callback is the model's choice (log entry 12). -/
def Obligations.SoftwareExceptionsEnterOrCallTheHost : Prop :=
  (∀ s : State, s.bankConflict = false →
    (∀ (c : Cond) (imm : BitVec 24), s.passes c = true → s.world.cfg.swiIntercept = false →
      ∃ t : State, exec (.swi c imm) s = .next t ∧ t.irqMaskLatch = s.irqMaskLatch ∧
        Enters .svc 0x00000008#32 (s.get regPc - 4) s t) ∧
    (∀ (c : Cond) (raw : BitVec 28), s.passes c = true →
      (∃ t : State, exec (.undefined c raw) s = .next t ∧ t.irqMaskLatch = s.irqMaskLatch ∧
        Enters .und 0x00000004#32 (s.get regPc - 4) s t) ∧
      (∃ t : State, exec (.coprocessor c raw) s = .next t ∧ t.irqMaskLatch = s.irqMaskLatch ∧
        Enters .und 0x00000004#32 (s.get regPc - 4) s t)) ∧
    (∀ imm : BitVec 8, s.world.cfg.swiIntercept = false →
      ∃ t : State, exec (.tSwi imm) s = .next t ∧ t.irqMaskLatch = s.irqMaskLatch ∧
        Enters .svc 0x00000008#32 (s.get regPc - 2) s t) ∧
    (∀ raw : BitVec 16,
      ∃ t : State, exec (.tUndefined raw) s = .next t ∧ t.irqMaskLatch = s.irqMaskLatch ∧
        Enters .und 0x00000004#32 (s.get regPc - 2) s t)) ∧
  (∀ s : State, s.world.cfg.swiIntercept = true →
    (∀ (c : Cond) (imm : BitVec 24), s.passes c = true →
      ∃ t : State, exec (.swi c imm) s = .next t ∧ t.cpsr = s.cpsr ∧ KeepsMemory s t ∧
        Retires false
          { flags := s.flags, kind := s.fetchKind, notes := [.swiCallback (BitVec.ofNat 32 imm.toNat)] } s t) ∧
    (∀ imm : BitVec 8,
      ∃ t : State, exec (.tSwi imm) s = .next t ∧ t.cpsr = s.cpsr ∧ KeepsMemory s t ∧
        Retires true
          { flags := s.flags, kind := s.fetchKind, notes := [.swiCallback (BitVec.ofNat 32 imm.toNat)] } s t))

/-! ## The 16-bit set -/

/-- 47 R400 to R402, R413 to R415, R418: the shifts of the 16-bit set. -/
def Obligations.ThumbShifts : Prop :=
  (∀ (imm : BitVec 5) (rs rd : LowReg) (s : State),
    (∃ t : State, exec (.tLslImm imm rs rd) s = .next t ∧
      ThumbResult s t rd (shiftImm .lsl (s.get (low rs)) imm s.flags.c).1
        (thumbShiftFlags s (shiftImm .lsl (s.get (low rs)) imm s.flags.c))) ∧
    (∃ t : State, exec (.tLsrImm imm rs rd) s = .next t ∧
      ThumbResult s t rd (shiftImm .lsr (s.get (low rs)) imm s.flags.c).1
        (thumbShiftFlags s (shiftImm .lsr (s.get (low rs)) imm s.flags.c))) ∧
    (∃ t : State, exec (.tAsrImm imm rs rd) s = .next t ∧
      ThumbResult s t rd (shiftImm .asr (s.get (low rs)) imm s.flags.c).1
        (thumbShiftFlags s (shiftImm .asr (s.get (low rs)) imm s.flags.c)))) ∧
  (∀ (rs rd : LowReg) (s : State),
    (∃ t : State, exec (.tLsl rs rd) s = .next t ∧
      ThumbShift s t rd (shiftLsl (s.get (low rd)) ((s.get (low rs)).toNat % 256) s.flags.c)) ∧
    (∃ t : State, exec (.tLsr rs rd) s = .next t ∧
      ThumbShift s t rd (shiftLsr (s.get (low rd)) ((s.get (low rs)).toNat % 256) s.flags.c)) ∧
    (∃ t : State, exec (.tAsr rs rd) s = .next t ∧
      ThumbShift s t rd (shiftAsr (s.get (low rd)) ((s.get (low rs)).toNat % 256) s.flags.c)) ∧
    (∃ t : State, exec (.tRor rs rd) s = .next t ∧
      ThumbShift s t rd (shiftRor (s.get (low rd)) ((s.get (low rs)).toNat % 256) s.flags.c)))

/-- 47 R403 to R407, R409 to R412, R416, R417, R420, R423, R425, R426: the additions, subtractions, moves and logic of the
16-bit set on low registers; logic sets N and Z from the result and keeps C and V. -/
def Obligations.ThumbArithmeticAndLogic : Prop :=
  (∀ (rn rs rd : LowReg) (imm3 : BitVec 3) (imm8 : BitVec 8) (s : State),
    ∀ row ∈ [(Instr.tAddReg rn rs rd, addWithCarry (s.get (low rs)) (s.get (low rn)) false),
             (Instr.tSubReg rn rs rd, subWithCarry (s.get (low rs)) (s.get (low rn)) true),
             (Instr.tAddImm3 imm3 rs rd, addWithCarry (s.get (low rs)) (BitVec.ofNat 32 imm3.toNat) false),
             (Instr.tSubImm3 imm3 rs rd, subWithCarry (s.get (low rs)) (BitVec.ofNat 32 imm3.toNat) true),
             (Instr.tAddImm8 rd imm8, addWithCarry (s.get (low rd)) (BitVec.ofNat 32 imm8.toNat) false),
             (Instr.tSubImm8 rd imm8, subWithCarry (s.get (low rd)) (BitVec.ofNat 32 imm8.toNat) true),
             (Instr.tAdc rs rd, addWithCarry (s.get (low rd)) (s.get (low rs)) s.flags.c),
             (Instr.tSbc rs rd, subWithCarry (s.get (low rd)) (s.get (low rs)) s.flags.c),
             (Instr.tNeg rs rd, subWithCarry 0 (s.get (low rs)) true)],
      ∃ t : State, exec row.1 s = .next t ∧ ThumbResult s t rd row.2.value row.2.flags) ∧
  (∀ (rs rd : LowReg) (imm8 : BitVec 8) (s : State),
    ∀ row ∈ [(Instr.tMovImm rd imm8, BitVec.ofNat 32 imm8.toNat),
             (Instr.tAnd rs rd, s.get (low rd) &&& s.get (low rs)),
             (Instr.tEor rs rd, s.get (low rd) ^^^ s.get (low rs)),
             (Instr.tOrr rs rd, s.get (low rd) ||| s.get (low rs)),
             (Instr.tBic rs rd, s.get (low rd) &&& ~~~(s.get (low rs))),
             (Instr.tMvn rs rd, ~~~(s.get (low rs)))],
      ∃ t : State, exec row.1 s = .next t ∧ ThumbResult s t rd row.2 (thumbLogicalFlags s row.2))

/-- 47 R408, R419, R421, R422, R428: CMP, TST and CMN of the 16-bit set write the flags and no register. -/
def Obligations.ThumbComparisons : Prop :=
  (∀ (rs rd : LowReg) (imm8 : BitVec 8) (s : State),
    ∀ row ∈ [(Instr.tCmpImm rd imm8, (subWithCarry (s.get (low rd)) (BitVec.ofNat 32 imm8.toNat) true).flags),
             (Instr.tCmp rs rd, (subWithCarry (s.get (low rd)) (s.get (low rs)) true).flags),
             (Instr.tCmn rs rd, (addWithCarry (s.get (low rd)) (s.get (low rs)) false).flags),
             (Instr.tTst rs rd, thumbLogicalFlags s (s.get (low rd) &&& s.get (low rs)))],
      ∃ t : State, exec row.1 s = .next t ∧ Retires true { flags := row.2, kind := s.fetchKind } s t ∧
        KeepsMemory s t) ∧
  (∀ (rd rs : Reg) (s : State), s.MayTouch [rd, rs] → rd ≠ regPc →
    ∃ t : State, exec (.tCmpHi rd rs) s = .next t ∧
      Retires true { flags := (subWithCarry (s.get rd) (s.get rs) true).flags, kind := s.fetchKind } s t ∧
      KeepsMemory s t)

/-- 47 R427, R429, R430 to R433: the hi-register ADD and MOV, a branch where Rd = 15, and the address and stack-pointer
additions; none writes a flag. -/
def Obligations.ThumbHighRegistersAndAddresses : Prop :=
  (∀ (rd rs : Reg) (s : State), s.MayTouch [rd, rs] →
    ∀ row ∈ [(Instr.tAddHi rd rs, s.get rd + s.get rs), (Instr.tMovHi rd rs, s.get rs)],
      ∃ t : State, exec row.1 s = .next t ∧ KeepsMemory s t ∧
        (rd ≠ regPc → t.get rd = row.2 ∧
          Retires true { dst := [rd], flags := s.flags, kind := s.fetchKind } s t) ∧
        (rd = regPc → t.cpsr = s.cpsr ∧ Branches s.thumb row.2 { flags := s.flags } s t)) ∧
  (∀ (rd : LowReg) (imm : BitVec 8) (s : State),
    (∃ t : State, exec (.tAddPc rd imm) s = .next t ∧
      ThumbResult s t rd ((s.get regPc &&& ~~~2#32) + BitVec.ofNat 32 (4 * imm.toNat)) s.flags) ∧
    (s.bankConflict = false → ∃ t : State, exec (.tAddSp rd imm) s = .next t ∧
      ThumbResult s t rd (s.get regSp + BitVec.ofNat 32 (4 * imm.toNat)) s.flags)) ∧
  (∀ (imm : BitVec 7) (s : State), s.bankConflict = false →
    ∀ row ∈ [(Instr.tSpAdd imm, s.get regSp + BitVec.ofNat 32 (4 * imm.toNat)),
             (Instr.tSpSub imm, s.get regSp - BitVec.ofNat 32 (4 * imm.toNat))],
      ∃ t : State, exec row.1 s = .next t ∧ t.get regSp = row.2 ∧ KeepsMemory s t ∧
        Retires true { dst := [regSp], flags := s.flags, kind := s.fetchKind } s t)

/-- 48 R450, R453, R454, R456 to R458, R460, R462, R464, R466, R471: the loads of the 16-bit set. -/
def Obligations.ThumbLoads : Prop :=
  ∀ (rd rb ro : LowReg) (imm8 : BitVec 8) (imm5 : BitVec 5) (s : State),
    (∃ t : State, exec (.tLdrPc rd imm8) s = .next t ∧
      ThumbLoaded rd .word (pcAddr s imm8) (Memory.readWordRotate s.heard (pcAddr s imm8)) s t) ∧
    (∃ t : State, exec (.tLdrReg ro rb rd) s = .next t ∧
      ThumbLoaded rd .word (regAddr s ro rb) (Memory.readWordRotate s.heard (regAddr s ro rb)) s t) ∧
    (∃ t : State, exec (.tLdrbReg ro rb rd) s = .next t ∧
      ThumbLoaded rd .byte (regAddr s ro rb) ((Memory.readByte s.heard (regAddr s ro rb)).setWidth 32) s t) ∧
    (∃ t : State, exec (.tLdsbReg ro rb rd) s = .next t ∧
      ThumbLoaded rd .byte (regAddr s ro rb) ((Memory.readByte s.heard (regAddr s ro rb)).signExtend 32) s t) ∧
    (∃ t : State, exec (.tLdrhReg ro rb rd) s = .next t ∧
      ThumbLoaded rd .half (regAddr s ro rb) (Memory.readHalfRotate s.heard (regAddr s ro rb)) s t) ∧
    (∃ t : State, exec (.tLdshReg ro rb rd) s = .next t ∧
      ThumbLoaded rd (if (regAddr s ro rb).getLsbD 0 then .byte else .half) (regAddr s ro rb)
        (Memory.readHalfSigned s.heard (regAddr s ro rb)) s t) ∧
    (∃ t : State, exec (.tLdrImm imm5 rb rd) s = .next t ∧
      ThumbLoaded rd .word (immAddr s imm5 2 rb) (Memory.readWordRotate s.heard (immAddr s imm5 2 rb)) s t) ∧
    (∃ t : State, exec (.tLdrbImm imm5 rb rd) s = .next t ∧
      ThumbLoaded rd .byte (immAddr s imm5 0 rb) ((Memory.readByte s.heard (immAddr s imm5 0 rb)).setWidth 32) s t) ∧
    (∃ t : State, exec (.tLdrhImm imm5 rb rd) s = .next t ∧
      ThumbLoaded rd .half (immAddr s imm5 1 rb) (Memory.readHalfRotate s.heard (immAddr s imm5 1 rb)) s t) ∧
    (s.bankConflict = false → ∃ t : State, exec (.tLdrSp rd imm8) s = .next t ∧
      ThumbLoaded rd .word (spAddr s imm8) (Memory.readWordRotate s.heard (spAddr s imm8)) s t)

/-- 48 R451, R452, R455, R459, R461, R463, R465, R471: the stores of the 16-bit set. -/
def Obligations.ThumbStores : Prop :=
  ∀ (rd rb ro : LowReg) (imm8 : BitVec 8) (imm5 : BitVec 5) (s : State),
    (∃ t : State, exec (.tStrReg ro rb rd) s = .next t ∧ ThumbStored rd .word (regAddr s ro rb) s t) ∧
    (∃ t : State, exec (.tStrbReg ro rb rd) s = .next t ∧ ThumbStored rd .byte (regAddr s ro rb) s t) ∧
    (∃ t : State, exec (.tStrhReg ro rb rd) s = .next t ∧ ThumbStored rd .half (regAddr s ro rb) s t) ∧
    (∃ t : State, exec (.tStrImm imm5 rb rd) s = .next t ∧ ThumbStored rd .word (immAddr s imm5 2 rb) s t) ∧
    (∃ t : State, exec (.tStrbImm imm5 rb rd) s = .next t ∧ ThumbStored rd .byte (immAddr s imm5 0 rb) s t) ∧
    (∃ t : State, exec (.tStrhImm imm5 rb rd) s = .next t ∧ ThumbStored rd .half (immAddr s imm5 1 rb) s t) ∧
    (s.bankConflict = false →
      ∃ t : State, exec (.tStrSp rd imm8) s = .next t ∧ ThumbStored rd .word (spAddr s imm8) s t)

/-- 48 R467 to R470: PUSH, STMIA, POP, with r15 a branch within the set, and LDMIA, whose loaded base keeps the loaded
value. -/
def Obligations.ThumbBlockTransfers : Prop :=
  (∀ (lr : Bool) (list : BitVec 8) (s : State), s.bankConflict = false → list ≠ 0 ∨ lr = true →
    ∃ t : State, exec (.tPush lr list) s = .next t ∧
      StoredBlock (pushStart s (pushRegs lr list)) (pushRegs lr list).length
        (fun k => s.get (nthReg (pushRegs lr list) k)) s t ∧
      t.get regSp = pushStart s (pushRegs lr list) ∧
      Retires true
        { dst := [regSp], flags := s.flags, kind := .n,
          calls := writeCalls (pushStart s (pushRegs lr list)) (pushRegs lr list).length
            (fun k => s.get (nthReg (pushRegs lr list) k)) } s t) ∧
  (∀ (rb : LowReg) (list : BitVec 8) (s : State), list ≠ 0 →
    (list.getLsbD rb.val = true → nthReg (lowList list) 0 = low rb) →
    ∃ t : State, exec (.tStmia rb list) s = .next t ∧
      StoredBlock (s.get (low rb)) (lowList list).length (fun k => s.get (nthReg (lowList list) k)) s t ∧
      t.get (low rb) = s.get (low rb) + BitVec.ofNat 32 (4 * (lowList list).length) ∧
      Retires true
        { dst := [low rb], flags := s.flags, kind := .n,
          calls := writeCalls (s.get (low rb)) (lowList list).length
            (fun k => s.get (nthReg (lowList list) k)) } s t) ∧
  (∀ (pc : Bool) (list : BitVec 8) (s : State), s.bankConflict = false → list ≠ 0 ∨ pc = true →
    ∃ t : State, exec (.tPop pc list) s = .next t ∧
      LoadedBlock (s.get regSp) (popRegs pc list) s t ∧
      t.get regSp = s.get regSp + BitVec.ofNat 32 (4 * (popRegs pc list).length) ∧ KeepsMemory s t ∧
      (pc = false → Retires true
        { dst := regSp :: popRegs pc list, flags := s.flags, kind := .n,
          calls := readCalls (s.get regSp) (popRegs pc list).length ++ [.idle] } s t) ∧
      (pc = true → t.cpsr = s.cpsr ∧ Branches s.thumb
        (blockWord s (s.get regSp) ((popRegs pc list).length - 1))
        { dst := regSp :: popRegs pc list, flags := s.flags,
          calls := readCalls (s.get regSp) (popRegs pc list).length ++ [.idle] } s t)) ∧
  (∀ (rb : LowReg) (list : BitVec 8) (s : State), list ≠ 0 →
    ∃ t : State, exec (.tLdmia rb list) s = .next t ∧
      LoadedBlock (s.get (low rb)) (lowList list) s t ∧
      (list.getLsbD rb.val = false →
        t.get (low rb) = s.get (low rb) + BitVec.ofNat 32 (4 * (lowList list).length)) ∧
      KeepsMemory s t ∧
      Retires true
        { dst := low rb :: lowList list, flags := s.flags, kind := .n,
          calls := readCalls (s.get (low rb)) (lowList list).length ++ [.idle] } s t)

/-- 49 R490 to R494: the branches of the 16-bit set; the two halves of BL; BX selects the set by bit 0. -/
def Obligations.BranchesOfThe16BitSet : Prop :=
  (∀ (c : Cond) (imm : BitVec 8) (s : State),
    ∃ t : State, exec (.tBcond c imm) s = .next t ∧ t.cpsr = s.cpsr ∧ KeepsMemory s t ∧
      (s.passes c = true →
        Branches s.thumb (s.get regPc + BitVec.ofInt 32 (2 * imm.toInt)) { flags := s.flags } s t) ∧
      (s.passes c = false → Retires true { flags := s.flags, kind := s.fetchKind } s t)) ∧
  (∀ (imm : BitVec 11) (s : State),
    ∃ t : State, exec (.tB imm) s = .next t ∧ t.cpsr = s.cpsr ∧ KeepsMemory s t ∧
      Branches s.thumb (s.get regPc + BitVec.ofInt 32 (2 * imm.toInt)) { flags := s.flags } s t) ∧
  (∀ (imm : BitVec 11) (s : State), s.bankConflict = false →
    (∃ t : State, exec (.tBlFirst imm) s = .next t ∧
      t.get regLr = s.get regPc + BitVec.ofInt 32 (4096 * imm.toInt) ∧ KeepsMemory s t ∧
      Retires true { dst := [regLr], flags := s.flags, kind := s.fetchKind } s t) ∧
    (∃ t : State, exec (.tBlSecond imm) s = .next t ∧
      t.get regLr = (s.get regPc - 2) ||| 1 ∧ t.cpsr = s.cpsr ∧ KeepsMemory s t ∧
      Branches s.thumb (s.get regLr + BitVec.ofNat 32 (2 * imm.toNat)) { dst := [regLr], flags := s.flags } s t)) ∧
  (∀ (rs : Reg) (s : State), s.MayTouch [rs] →
    ((s.get rs).getLsbD 0 = true ∨ (s.get rs).getLsbD 1 = false →
      ∃ t : State, exec (.tBx rs) s = .next t ∧
        Branches ((s.get rs).getLsbD 0) (s.get rs) { flags := s.flags } s t ∧ KeepsMemory s t) ∧
    ((s.get rs).getLsbD 0 = false → (s.get rs).getLsbD 1 = true → exec (.tBx rs) s = .refused .bxUnaligned))

/-! ## The scheduler -/

/-- 65 R580, R581: `AddCycles(n)` with callbacks that do nothing more: `now` advances by exactly n, the due events fire
in key order, each callback sees the advanced `now`, and the others stay pending. -/
def Obligations.AddCyclesFiresDueEventsInOrder : Prop :=
  ∀ (w : World) (n : Nat), Sched.wf w.sched = true →
    ∃ v : World, w.addCycles n [] = .next v ∧
      v.sched = { now := w.sched.now + n, pending := w.sched.later n, seq := w.sched.seq } ∧
      v.host = w.host ++ (w.sched.due n).map (fun e => .fired e (w.sched.now + n)) ∧
      Sched.sorted (w.sched.due n) = true ∧
      { v with sched := w.sched, host := w.host } = w

/-- 65 R580, R582, R583, 20 R75, 70 R621: `AddCycles(n)` with callbacks that act. The first due event by key fires, its
callback runs to completion, and the loop looks at the pending events afresh; the firing event is no longer pending in its
own callback, its handle is dead and its place free; a due event that a callback cancels is gone; a nested `AddCycles`,
`Reset()`, `Run()` and access to CPU state are refused. The three queries answer and change nothing else. A script says
what each callback does (the model's form, log entry 14). -/
def Obligations.SchedulerCallbacksAndQueries : Prop :=
  (∀ (w : World) (n : Nat) (script : List CallbackAct) (scripts : List (List CallbackAct)), Sched.wf w.sched = true →
    ((∀ e ∈ w.sched.pending, w.sched.now + n < e.timestamp) →
      w.addCycles n (script :: scripts) = .next { w with sched := { w.sched with now := w.sched.now + n } }) ∧
    (∀ e ∈ w.sched.pending, e.timestamp ≤ w.sched.now + n →
      (∀ d ∈ w.sched.pending, d ≠ e → e.before d = true) →
      w.addCycles n (script :: scripts) =
        andThen (World.runCallback script (w.inCallback n e)) fun v => v.addCycles 0 scripts)) ∧
  (∀ (w : World) (n : Nat) (a : CommonAct) (acts : List CallbackAct),
    World.runCallback [] w = .next w ∧
    World.runCallback (.common a :: acts) w = andThen (w.applyCommon a) (World.runCallback acts) ∧
    World.runCallback (.addCycles n :: acts) w = .refused .nestedAddCycles ∧
    World.runCallback (.reset :: acts) w = .refused .resetInsideCall ∧
    World.runCallback (.run :: acts) w = .refused .runInsideCall ∧
    World.runCallback (.touchCpu :: acts) w = .refused .cpuAccessInsideCall) ∧
  (∀ (w : World) (n : Nat), Sched.wf w.sched = true → ∀ e ∈ w.sched.pending,
    (w.inCallback n e).applyCommon (.cancel e.handle) = .refused .deadHandle ∧
    (∀ delay : Nat, w.sched.pending.length < w.cfg.schedCapacity → e.cls ∈ w.cfg.classes →
      e.priority ≤ w.cfg.schedPrioMax →
      ∃ v : World, (w.inCallback n e).applyCommon (.add delay e.cls e.priority) = .next v ∧ Sched.wf v.sched = true ∧
        v.sched.pending.length = w.sched.pending.length ∧ v.sched.now = w.sched.now + n ∧
        ∃ d ∈ v.sched.pending, d.cls = e.cls ∧ d.priority = e.priority ∧
          d.timestamp = w.sched.now + n + delay ∧ d ∉ w.sched.pending) ∧
    (∀ d ∈ w.sched.pending, d ≠ e →
      ∃ v : World, (w.inCallback n e).applyCommon (.cancel d.handle) = .next v ∧ Sched.wf v.sched = true ∧
        (∀ x : Event, x ∈ v.sched.pending ↔ x ∈ w.sched.pending ∧ x ≠ e ∧ x ≠ d))) ∧
  (∀ w : World,
    w.applyCommon .getNow = .next { w with host := w.host ++ [.answer w.sched.now] } ∧
    (w.sched.pending = [] → w.applyCommon .getTarget = .refused .noPendingEvent ∧
      w.applyCommon .getRemaining = .refused .noPendingEvent) ∧
    (Sched.wf w.sched = true → ∀ e ∈ w.sched.pending, (∀ d ∈ w.sched.pending, e.timestamp ≤ d.timestamp) →
      w.applyCommon .getTarget = .next { w with host := w.host ++ [.answer e.timestamp] } ∧
      w.applyCommon .getRemaining =
        .next { w with host := w.host ++ [.answer ((e.timestamp : Int) - (w.sched.now : Int))] }))

/-- 65 R575, R576, R577: `Add` puts one new event, relative to `now`, in key order; reaching the capacity is fatal, an
unregistered class or a priority out of range is refused; `Cancel` removes the event of a live handle and refuses a dead
one. That a handle is the event's submission number, which `Sched.wf` says of every pending event, is the model's choice
(log entry 13): R576 leaves open what a handle is. -/
def Obligations.SchedulerAddAndCancel : Prop :=
  (∀ (cfg : Config) (sc : Sched) (delay cls priority : Nat), Sched.wf sc = true →
    (cfg.schedCapacity ≤ sc.pending.length + 1 → sc.add cfg delay cls priority = .fault .schedulerCapacity) ∧
    (sc.pending.length + 1 < cfg.schedCapacity → cls ∉ cfg.classes →
      sc.add cfg delay cls priority = .refused .unregisteredClass) ∧
    (sc.pending.length + 1 < cfg.schedCapacity → cls ∈ cfg.classes → cfg.schedPrioMax < priority →
      sc.add cfg delay cls priority = .refused .priorityOutOfRange) ∧
    (sc.pending.length + 1 < cfg.schedCapacity → cls ∈ cfg.classes → priority ≤ cfg.schedPrioMax →
      ∃ (sc' : Sched) (h : Nat), sc.add cfg delay cls priority = .next (sc', h) ∧ Sched.wf sc' = true ∧
        sc'.now = sc.now ∧ sc'.seq = sc.seq + 1 ∧ (∀ e ∈ sc.pending, e.handle ≠ h) ∧
        sc'.pending.length = sc.pending.length + 1 ∧
        (∀ e : Event, e ∈ sc'.pending ↔ e ∈ sc.pending ∨
          e = { cls := cls, timestamp := sc.now + delay, priority := priority, seq := sc.seq, handle := h }))) ∧
  (∀ (sc : Sched) (h : Nat), Sched.wf sc = true →
    ((∃ e ∈ sc.pending, e.handle = h) →
      ∃ sc' : Sched, sc.cancel h = .next sc' ∧ Sched.wf sc' = true ∧ sc'.now = sc.now ∧ sc'.seq = sc.seq ∧
        sc'.pending.length + 1 = sc.pending.length ∧
        (∀ e : Event, e ∈ sc'.pending ↔ e ∈ sc.pending ∧ e.handle ≠ h)) ∧
    ((∀ e ∈ sc.pending, e.handle ≠ h) → sc.cancel h = .refused .deadHandle))

/-! ## The bus, the environment and the host -/

/-- 20 R70 to R75, R91, R92, 65 R591, 70 R650: bus calls take effect one after the other and stand in the trace in order;
inside each the environment performs its acts, memory, wire, `HALTED` and scheduler with its callbacks, before the bus
answers (the model's convention, log entry 4); two reads of one address may differ; a call that writes nothing, inside
which no one pokes, leaves memory alone, and a write stores its bytes. A forbidden act, or an act that faults, goes on
record, stays there, and is what the step answers: an outcome that comes after it does not replace it (00 R10). -/
def Obligations.BusCallsAndTheEnvironmentInside : Prop :=
  (∀ (w : World) (cs ds : List BusCall),
    w.play (cs ++ ds) = (w.play cs).play ds ∧ (w.play cs).bus = w.bus ++ cs ∧ (w.play cs).env = w.env ∧
    (w.play cs).cfg = w.cfg ∧
    (w.inside = [] → (∀ c ∈ cs, ∀ z a v f, c ≠ .write z a v f) → { w.play cs with bus := w.bus } = w)) ∧
  (∀ (w : World) (acts : List InsideAct) (rest : List (List InsideAct)) (c : BusCall), w.inside = acts :: rest →
    w.stop = none →
    ((∀ z a v f, c ≠ .write z a v f) → ∀ v : World, World.insideActs acts { w with inside := rest } = .next v →
      w.play [c] = { v with bus := w.bus ++ [c] }) ∧
    (∀ (z : Size) (a x : Word) (f : Access), c = .write z a x f →
      ∀ v : World, World.insideActs acts { w with inside := rest } = .next v →
      w.play [c] = { v with mem := Memory.write v.mem z a x, bus := w.bus ++ [c] }) ∧
    (∀ f : Fault, World.insideActs acts { w with inside := rest } = .fault f →
      (w.play [c]).stop = some (.fault f)) ∧
    (∀ why : Refusal, World.insideActs acts { w with inside := rest } = .refused why →
      (w.play [c]).stop = some (.refused why))) ∧
  (∀ (w : World) (a : CommonAct) (n : Nat) (scripts : List (List CallbackAct)) (acts : List InsideAct),
    World.insideActs [] w = .next w ∧
    World.insideActs (.common a :: acts) w = andThen (w.applyCommon a) (World.insideActs acts) ∧
    World.insideActs (.addCycles n scripts :: acts) w = andThen (w.addCycles n scripts) (World.insideActs acts) ∧
    (∀ p ∈ forbiddenInside, World.insideActs (p.1 :: acts) w = .refused p.2)) ∧
  (∀ (w : World) (a : Word) (v : Byte) (level : Bool),
    w.applyCommon (.setIrq level) = .next { w with irqLine := level } ∧
    w.applyCommon (.setHalted level) = .next { w with halted := level } ∧
    ∃ m : List Host.Cell, w.applyCommon (.poke a v) = .next { w with mem := m } ∧
      ∀ b : Word, Memory.readByte m b = if b = a then v else Memory.readByte w.mem b) ∧
  (∀ (w : World) (k : Stop) (cs : List BusCall), w.stop = some k → (w.play cs).stop = some k) ∧
  (∀ s : State,
    s.heard = s.memAfter [] ∧
    (s.world.stop = none → s.settle = .next s) ∧
    (∀ f : Fault, s.world.stop = some (.fault f) → s.settle = .fault f) ∧
    (∀ why : Refusal, s.world.stop = some (.refused why) → s.settle = .refused why)) ∧
  (∀ (w : World) (own : Res State),
    (w.stop = none → w.stopOr own = own) ∧ (∀ f : Fault, w.stop = some (.fault f) → w.stopOr own = .fault f) ∧
    (∀ why : Refusal, w.stop = some (.refused why) → w.stopOr own = .refused why)) ∧
  (∀ (s : State) (cs : List BusCall), s.world.noPokes = true →
    ((∀ c ∈ cs, ∀ z a v f, c ≠ .write z a v f) →
      (s.world.play cs).mem = s.world.mem ∧ s.memAfter cs = s.world.mem) ∧
    (∀ (z : Size) (a v : Word) (f : Access) (b : Word),
      Memory.readByte (s.world.play [.write z a (busValue z v) f]).mem b =
        if Memory.inStore z a b then v.extractLsb' (8 * (b - Memory.storeBase z a).toNat) 8
        else Memory.readByte s.world.mem b)) ∧
  (∀ (s : State) (a : Word) (v0 v1 : Byte) (f : Access), s.world.stop = none →
    ∃ inside : List (List InsideAct), ∀ t : State, t = { s with world := { s.world with inside := inside } } →
      Memory.read t.heard .byte a = v0.setWidth 32 ∧
      Memory.read (t.memAfter [.read .byte a f]) .byte a = v1.setWidth 32)

/-- 10 R48, 20 R75, 70 R620 to R623: the CPU's state belongs to the CPU: between two steps only `Reset()` and the
replacement of all of S1 to S11 change it; no other act of the environment does, and inside a bus call not even those: they
are refused, whichever step makes the call. `Run()` before the first `Reset()` is refused unless a snapshot has been loaded
instead. Which snapshots are accepted is the model's choice (log entry 18). -/
def Obligations.TheEnvironmentOwnsNoCpuState : Prop :=
  (∀ s e : State, s.environment = .next e → e.started = false → step s = .refused .runBeforeReset) ∧
  (∀ (s t : State) (a : EnvAct), s.applyEnvAct a = .next t → a ≠ .reset → (∀ p, a ≠ .restore p) →
    { t with world := s.world } = s) ∧
  (∀ (s : State) (w : World) (n : Nat) (scripts : List (List CallbackAct)), s.world.addCycles n scripts = .next w →
    s.applyEnvAct (.addCycles n scripts) = .next { s with world := w }) ∧
  (∀ s t : State, s.applyEnvAct .reset = .next t → t = s.doReset ∧ t.started = true ∧ t.world.stop = none) ∧
  (∀ (s : State) (p : Snapshot),
    (p.valid = true →
      s.applyEnvAct (.restore p) = .next
        { x := p.x, bankLo := p.bankLo, bankHi := p.bankHi, cpsr := p.cpsr, spsr := p.spsr, slot0 := p.slot0,
          slot1 := p.slot1, fetchKind := p.fetchKind, irqMaskLatch := p.irqMaskLatch, invalidMode := p.invalidMode,
          bankConflict := p.bankConflict, started := true, draws := s.draws,
          world := { s.world with irqLine := p.irqLine } }) ∧
    (p.valid = false → s.applyEnvAct (.restore p) = .refused .invalidSnapshot) ∧
    (∀ t : State, s.applyEnvAct (.restore p) = .next t → t.snapshot = p)) ∧
  (∀ s : State, s.Inv → s.snapshot.valid = true ∧
    s.applyEnvAct .save =
      .next { s with world := { s.world with host := s.world.host ++ [.snapshot s.snapshot] } }) ∧
  (∀ (i : Instr) (s t : State), exec i s = .next t → t.started = s.started) ∧
  (∀ (s e : State) (acts : List InsideAct) (rest : List (List InsideAct)), s.environment = .next e →
    e.started = true → e.modeOk = true → e.bankConflict = false → e.world.stop = none →
    ∀ p ∈ forbiddenInside, e.world.inside = (p.1 :: acts) :: rest → step s = .refused p.2)
end

