-- ==== Sys2Proof/Laws/Memory.lean ====
section
/-! SUPPORT. The laws of memory: every operation keeps the canonical form, and a store changes the bytes it names
and no others (spec/20_memory.md R79, R81). -/

namespace Sys2Proof.Machine.Memory

open Sys2Proof

/-! ## The canonical form -/

theorem wfFrom_mono {lo lo' : Nat} (h : lo' ≤ lo) : ∀ {m : List Host.Cell}, wfFrom lo m = true → wfFrom lo' m = true
  | [], _ => rfl
  | c :: m, hw => by
    simp only [wfFrom, Bool.and_eq_true, decide_eq_true_eq] at hw ⊢
    exact ⟨⟨⟨Nat.le_trans h hw.1.1.1, hw.1.1.2⟩, hw.1.2⟩, hw.2⟩

theorem wfFrom_erase (k : Nat) : ∀ {lo : Nat} {m : List Host.Cell}, wfFrom lo m = true → wfFrom lo (erase m k) = true
  | _, [], _ => rfl
  | lo, c :: m, hw => by
    simp only [wfFrom, Bool.and_eq_true, decide_eq_true_eq] at hw
    have ih := wfFrom_erase k hw.2
    by_cases h : c.1 = k
    · simp only [erase, h, if_true]
      exact wfFrom_mono (by omega) (h ▸ ih)
    · simp only [erase, h, if_false, wfFrom, Bool.and_eq_true, decide_eq_true_eq]
      exact ⟨hw.1, ih⟩

theorem erase_ne (k : Nat) : ∀ {m : List Host.Cell} {c : Host.Cell}, c ∈ erase m k → c.1 ≠ k
  | [], _, h => by simp [erase] at h
  | d :: m, c, h => by
    by_cases hd : d.1 = k
    · simp only [erase, hd, if_true] at h
      exact erase_ne k h
    · simp only [erase, hd, if_false, List.mem_cons] at h
      rcases h with rfl | h
      · exact hd
      · exact erase_ne k h

theorem wfFrom_insert {k : Nat} {v : Byte} (hv : v ≠ 0) (hk : k < 4294967296) :
    ∀ {lo : Nat} {m : List Host.Cell}, lo ≤ k → wfFrom lo m = true → (∀ c ∈ m, c.1 ≠ k) →
      wfFrom lo (insert m k v) = true
  | lo, [], hl, _, _ => by
    simp only [insert, wfFrom, Bool.and_eq_true, decide_eq_true_eq, bne_iff_ne]
    exact ⟨⟨⟨hl, hk⟩, hv⟩, trivial⟩
  | lo, c :: m, hl, hw, hne => by
    simp only [wfFrom, Bool.and_eq_true, decide_eq_true_eq] at hw
    have hc : c.1 ≠ k := hne c (by simp)
    by_cases h : k < c.1
    · simp only [insert, h, if_true, wfFrom, Bool.and_eq_true, decide_eq_true_eq]
      refine ⟨⟨⟨hl, hk⟩, by simpa using hv⟩, ⟨⟨by omega, hw.1.1.2⟩, hw.1.2⟩, hw.2⟩
    · simp only [insert, h, if_false, wfFrom, Bool.and_eq_true, decide_eq_true_eq]
      exact ⟨hw.1, wfFrom_insert hv hk (by omega) hw.2 (fun d hd => hne d (by simp [hd]))⟩

/-- A byte store keeps the canonical form. -/
theorem wf_store {m : List Host.Cell} {k : Nat} (v : Byte) (hk : k < 4294967296) (h : wf m = true) :
    wf (store m k v) = true := by
  unfold store
  split
  · exact wfFrom_erase k h
  · next hv => exact wfFrom_insert hv hk (Nat.zero_le k) (wfFrom_erase k h) (fun c hc => erase_ne k hc)

/-- A write of any size keeps the canonical form. -/
theorem wf_write {m : List Host.Cell} (size : Size) (a v : Word) (h : wf m = true) : wf (write m size a v) = true := by
  cases size
  · exact wf_store _ a.isLt h
  · exact wf_store _ (BitVec.isLt _) (wf_store _ (BitVec.isLt _) h)
  · exact wf_store _ (BitVec.isLt _) (wf_store _ (BitVec.isLt _) (wf_store _ (BitVec.isLt _)
      (wf_store _ (BitVec.isLt _) h)))

/-! ## Reading back -/

theorem lookup_erase (k j : Nat) : ∀ m : List Host.Cell, lookup (erase m k) j = if j = k then 0 else lookup m j
  | [] => by simp [erase, lookup]
  | c :: m => by
    by_cases h : c.1 = k
    · simp only [erase, h, if_true, lookup_erase k j m, lookup]
      by_cases hj : j = k
      · simp [hj]
      · simp [hj, Ne.symm hj]
    · by_cases hc : c.1 = j
      · rw [erase, if_neg h, lookup, lookup, if_pos hc, if_pos hc, if_neg (by omega)]
      · rw [erase, if_neg h, lookup, lookup, if_neg hc, if_neg hc, lookup_erase k j m]

theorem lookup_insert {k : Nat} (v : Byte) (j : Nat) : ∀ {m : List Host.Cell}, (∀ c ∈ m, c.1 ≠ k) →
    lookup (insert m k v) j = if j = k then v else lookup m j
  | [], _ => by simp [insert, lookup, eq_comm]
  | c :: m, hne => by
    have hc : c.1 ≠ k := hne c (by simp)
    by_cases h : k < c.1
    · simp only [insert, h, if_true, lookup]
      by_cases hj : k = j
      · simp [hj]
      · simp [hj, Ne.symm hj]
    · have ih := lookup_insert v j (m := m) (fun d hd => hne d (List.mem_cons_of_mem c hd))
      rw [insert, if_neg h, lookup, lookup, ih]
      by_cases hj : c.1 = j
      · rw [if_pos hj, if_pos hj, if_neg (by omega)]
      · rw [if_neg hj, if_neg hj]

/-- The byte at an address after a byte store: the stored byte there, the old byte elsewhere. -/
theorem lookup_store (m : List Host.Cell) (k : Nat) (v : Byte) (j : Nat) :
    lookup (store m k v) j = if j = k then v else lookup m j := by
  unfold store
  split
  · next hv => rw [lookup_erase, hv]
  · rw [lookup_insert v j (fun c hc => erase_ne k hc), lookup_erase]
    split <;> simp_all

/-! ## Alignment, and a byte after a write -/

/-- Word alignment drops two bits. -/
theorem alignWord_eq (a : Word) : alignWord a = (a >>> 2) <<< 2 := by
  apply BitVec.eq_of_getLsbD_eq
  intro k hk
  simp only [alignWord, BitVec.getLsbD_and, BitVec.getLsbD_shiftLeft, BitVec.getLsbD_ushiftRight, hk, decide_true, Bool.true_and]
  have : (0xFFFFFFFC#32).getLsbD k = !decide (k < 2) := by
    revert k; decide
  rw [this]
  by_cases h : k < 2
  · simp [h]
  · simp [h, show 2 + (k - 2) = k by omega]

/-- Halfword alignment drops one bit. -/
theorem alignHalf_eq (a : Word) : alignHalf a = (a >>> 1) <<< 1 := by
  apply BitVec.eq_of_getLsbD_eq
  intro k hk
  simp only [alignHalf, BitVec.getLsbD_and, BitVec.getLsbD_shiftLeft, BitVec.getLsbD_ushiftRight, hk, decide_true, Bool.true_and]
  have : (0xFFFFFFFE#32).getLsbD k = !decide (k < 1) := by
    revert k; decide
  rw [this]
  by_cases h : k < 1
  · simp [h]
  · simp [h, show 1 + (k - 1) = k by omega]

theorem toNat_alignWord (a : Word) : (alignWord a).toNat = a.toNat / 4 * 4 := by
  rw [alignWord_eq, BitVec.toNat_shiftLeft, BitVec.toNat_ushiftRight, Nat.shiftLeft_eq, Nat.shiftRight_eq_div_pow]
  have := a.isLt
  omega

theorem toNat_alignHalf (a : Word) : (alignHalf a).toNat = a.toNat / 2 * 2 := by
  rw [alignHalf_eq, BitVec.toNat_shiftLeft, BitVec.toNat_ushiftRight, Nat.shiftLeft_eq, Nat.shiftRight_eq_div_pow]
  have := a.isLt
  omega

/-- Which of the four bytes from an aligned address another address is. -/
theorem toNat_eq_add_iff (b c : Word) (j : Nat) (h : c.toNat + j < 4294967296) :
    b.toNat = (c + BitVec.ofNat 32 j).toNat ↔ (b - c).toNat = j := by
  rw [BitVec.toNat_add, BitVec.toNat_sub, BitVec.toNat_ofNat]
  have := c.isLt
  have := b.isLt
  omega

theorem inStore_byte (a b : Word) : inStore .byte a b = decide ((b - a).toNat < 1) := rfl
theorem inStore_half (a b : Word) : inStore .half a b = decide ((b - alignHalf a).toNat < 2) := rfl
theorem inStore_word (a b : Word) : inStore .word a b = decide ((b - alignWord a).toNat < 4) := rfl

/-- A byte after a write of any size: the byte of the value stored there, or the old byte. -/
theorem readByte_write (m : List Host.Cell) (size : Size) (a v b : Word) :
    readByte (write m size a v) b =
      if inStore size a b then v.extractLsb' (8 * (b - storeBase size a).toNat) 8 else readByte m b := by
  cases size
  · have h0 := toNat_eq_add_iff b a 0 a.isLt
    simp only [BitVec.add_zero] at h0
    simp only [write, writeByte, readByte, lookup_store, inStore_byte, storeBase, decide_eq_true_eq, h0]
    generalize (b - a).toNat = d
    by_cases hd : d = 0
    · simp [hd]
    · rw [if_neg hd, if_neg (by omega)]
  · have e := toNat_alignHalf a
    have l := a.isLt
    have h0 := toNat_eq_add_iff b (alignHalf a) 0 (by omega)
    have h1 := toNat_eq_add_iff b (alignHalf a) 1 (by omega)
    simp only [BitVec.add_zero] at h0
    simp only [write, writeHalf, readByte, lookup_store, inStore_half, storeBase, decide_eq_true_eq, BitVec.ofNat_eq_ofNat, h0, h1]
    generalize (b - alignHalf a).toNat = d
    by_cases hd : d < 2
    · obtain rfl | rfl : d = 0 ∨ d = 1 := by omega
      all_goals simp
    · rw [if_neg (by omega), if_neg (by omega), if_neg hd]
  · have e := toNat_alignWord a
    have l := a.isLt
    have h0 := toNat_eq_add_iff b (alignWord a) 0 (by omega)
    have h1 := toNat_eq_add_iff b (alignWord a) 1 (by omega)
    have h2 := toNat_eq_add_iff b (alignWord a) 2 (by omega)
    have h3 := toNat_eq_add_iff b (alignWord a) 3 (by omega)
    simp only [BitVec.add_zero] at h0
    simp only [write, writeWord, readByte, lookup_store, inStore_word, storeBase, decide_eq_true_eq, BitVec.ofNat_eq_ofNat, h0, h1, h2, h3]
    generalize (b - alignWord a).toNat = d
    by_cases hd : d < 4
    · obtain rfl | rfl | rfl | rfl : d = 0 ∨ d = 1 ∨ d = 2 ∨ d = 3 := by omega
      all_goals simp
    · rw [if_neg (by omega), if_neg (by omega), if_neg (by omega), if_neg (by omega), if_neg hd]

/-! ## Rotated loads -/

/-- A rotation to the right, bit by bit. -/
theorem getLsbD_rotateRight (w : Word) (n k : Nat) (hk : k < 32) :
    (w.rotateRight n).getLsbD k = w.getLsbD ((k + n) % 32) := by
  rw [BitVec.getLsbD_rotateRight]
  by_cases h : k < 32 - n % 32
  · simp only [h, decide_true, cond_true]; congr 1; omega
  · simp only [h, decide_false, cond_false, hk, decide_true, Bool.true_and]; congr 1; omega

/-- The rotated load of R82, bit by bit. -/
theorem getLsbD_readWordRotate (m : List Host.Cell) (a : Word) (k : Nat) (hk : k < 32) :
    (readWordRotate m a).getLsbD k = (read m .word a).getLsbD ((k + 8 * (a.toNat % 4)) % 32) := by
  have e : (a.extractLsb' 0 2).toNat = a.toNat % 4 := by simp [BitVec.extractLsb'_toNat]
  rw [readWordRotate, e, getLsbD_rotateRight _ _ _ hk]
/-- Every byte of an aligned word. -/
theorem extract_readWord (m : List Host.Cell) (a : Word) (j : Nat) (hj : j < 4) :
    (readWord m a).extractLsb' (8 * j) 8 = readByte m (alignWord a + BitVec.ofNat 32 j) := by
  apply BitVec.eq_of_getLsbD_eq
  intro k hk
  simp only [BitVec.getLsbD_extractLsb', hk, decide_true, Bool.true_and, readWord, BitVec.getLsbD_append]
  obtain rfl | rfl | rfl | rfl : j = 0 ∨ j = 1 ∨ j = 2 ∨ j = 3 := by omega
  · simp [hk]
  · simp [hk]
  · rw [if_neg (by omega), if_neg (by omega), if_pos (by omega)]; simp; congr 1; omega
  · rw [if_neg (by omega), if_neg (by omega), if_neg (by omega)]; simp; congr 1; omega

end Sys2Proof.Machine.Memory
end

