-- ==== Sys2Proof/Laws/Outcome.lean ====
section
/-! SUPPORT. Outcomes in sequence: a step that went on went on at every place (spec/00 R10). -/

namespace Sys2Proof.Machine

open Sys2Proof

@[simp] theorem refuseIf_false {α : Type} (why : Refusal) (k : Res α) : refuseIf false why k = k := rfl

@[simp] theorem refuseIf_true {α : Type} (why : Refusal) (k : Res α) : refuseIf true why k = .refused why := rfl

@[simp] theorem andThen_next {α β : Type} (a : α) (k : α → Res β) : andThen (.next a) k = k a := rfl

@[simp] theorem andThen_fault {α β : Type} (f : Fault) (k : α → Res β) : andThen (.fault f) k = .fault f := rfl

@[simp] theorem andThen_refused {α β : Type} (w : Refusal) (k : α → Res β) : andThen (.refused w) k = .refused w := rfl

/-- A check that went on did not hold. -/
theorem refuseIf_next {α : Type} {b : Bool} {why : Refusal} {k : Res α} {a : α} (h : refuseIf b why k = .next a) :
    b = false ∧ k = .next a := by
  cases b
  · exact ⟨rfl, h⟩
  · exact absurd h (by simp)

/-- A sequence that went on went on at both places. -/
theorem andThen_eq_next {α β : Type} {r : Res α} {k : α → Res β} {b : β} (h : andThen r k = .next b) :
    ∃ a, r = .next a ∧ k a = .next b := by
  cases r with
  | next a => exact ⟨a, rfl, h⟩
  | fault f => exact absurd h (by simp)
  | refused w => exact absurd h (by simp)

end Sys2Proof.Machine
end

