-- ==== Sys2Proof/Laws/World.lean ====
section
/-! SUPPORT. Bus calls and the environment inside them: what one call and many can do to the world (spec/20 R70 to R75,
R91, 65 R591). -/

namespace Sys2Proof.Machine

open Sys2Proof

namespace World

/-! ## Calls in sequence -/

@[simp] theorem play_nil (w : World) : w.play [] = w := rfl

theorem play_cons (w : World) (c : BusCall) (cs : List BusCall) : w.play (c :: cs) = (w.call c).play cs := rfl

/-- One after the other, or all together (20 R92). -/
theorem play_append : ∀ (cs ds : List BusCall) (w : World), w.play (cs ++ ds) = (w.play cs).play ds
  | [], _, _ => rfl
  | _ :: cs, ds, w => play_append cs ds (w.call _)

@[simp] theorem play_play (w : World) (cs ds : List BusCall) : (w.play cs).play ds = w.play (cs ++ ds) :=
  (play_append cs ds w).symm

@[simp] theorem tell_nil (w : World) : w.tell [] = w := rfl

/-! ## What the environment keeps -/

/-- The acts inside one call that a callback or the call itself performs on the world. -/
def InsideOk (ok : CommonAct → Prop) : InsideAct → Prop
  | .common a => ok a
  | .addCycles _ scripts => ∀ script ∈ scripts, ∀ a, CallbackAct.common a ∈ script → ok a
  | _ => True

/-- `P` is kept by every act the environment can perform, if it is among `ok` (20 R75, 65 R580). -/
structure Kept (ok : CommonAct → Prop) (P : World → Prop) : Prop where
  common : ∀ {a : CommonAct} {w v : World}, ok a → w.applyCommon a = .next v → P w → P v
  fire : ∀ {w : World} {e : Event} {es : List Event}, w.sched.pending = e :: es → P w → P (w.fire e es)
  time : ∀ {w : World} (n : Nat), P w → P { w with sched := { w.sched with now := w.sched.now + n } }

/-- And by what the model does around the acts of a call. -/
structure KeptCall (ok : CommonAct → Prop) (P : World → Prop) : Prop extends Kept ok P where
  pop : ∀ {w : World}, P w → P { w with inside := w.inside.tail }
  record : ∀ {w : World} (k : Stop), P w → P { w with stop := some k }

section Kept

variable {ok : CommonAct → Prop} {P : World → Prop} (K : Kept ok P)
include K

theorem Kept.callback : ∀ {l : List CallbackAct} {w v : World}, (∀ a, CallbackAct.common a ∈ l → ok a) →
    runCallback l w = .next v → P w → P v
  | [], w, v, _, h, hp => by rw [runCallback] at h; injection h with h; subst h; exact hp
  | a :: l, w, v, ho, h, hp => by
    rw [runCallback] at h
    obtain ⟨u, hu, h2⟩ := andThen_eq_next h
    clear h
    have ho' : ∀ a, CallbackAct.common a ∈ l → ok a := fun b hb => ho b (List.mem_cons_of_mem _ hb)
    cases a <;>
      first
      | exact Kept.callback ho' h2 (K.common (ho _ List.mem_cons_self) hu hp)
      | exact absurd hu (by simp [applyCallbackAct])

theorem Kept.quiet : ∀ {es : List Event} {w : World}, w.sched.pending = es → P w → P (fireQuiet es w)
  | [], w, _, h => h
  | e :: es, w, hp, h => by
    rw [fireQuiet]
    split
    · exact Kept.quiet rfl (K.fire hp h)
    · exact h

theorem Kept.loop : ∀ {l : List (List CallbackAct)} {w v : World},
    (∀ script ∈ l, ∀ a, CallbackAct.common a ∈ script → ok a) → fireLoop l w = .next v → P w → P v
  | [], w, v, _, h, hp => by rw [fireLoop] at h; injection h with h; subst h; exact K.quiet rfl hp
  | k :: l, w, v, ho, h, hp => by
    rw [fireLoop] at h
    split at h
    · injection h with h; subst h; exact hp
    · next e es hq =>
      split at h
      · obtain ⟨u, hu, h⟩ := andThen_eq_next h
        exact Kept.loop (fun s hs => ho s (List.mem_cons_of_mem _ hs)) h
          (K.callback (ho k List.mem_cons_self) hu (K.fire hq hp))
      · injection h with h; subst h; exact hp

theorem Kept.addCycles {n : Nat} {l : List (List CallbackAct)} {w v : World}
    (ho : ∀ script ∈ l, ∀ a, CallbackAct.common a ∈ script → ok a) (h : w.addCycles n l = .next v) (hp : P w) : P v :=
  K.loop ho h (K.time n hp)

theorem Kept.acts : ∀ {l : List InsideAct} {w v : World}, (∀ a ∈ l, InsideOk ok a) → insideActs l w = .next v →
    P w → P v
  | [], w, v, _, h, hp => by rw [insideActs] at h; injection h with h; subst h; exact hp
  | a :: l, w, v, ho, h, hp => by
    rw [insideActs] at h
    obtain ⟨u, hu, h2⟩ := andThen_eq_next h
    clear h
    have ha := ho a List.mem_cons_self
    have ho' : ∀ a ∈ l, InsideOk ok a := fun b hb => ho b (List.mem_cons_of_mem _ hb)
    cases a <;>
      first
      | exact Kept.acts ho' h2 (K.common ha hu hp)
      | exact Kept.acts ho' h2 (K.addCycles ha hu hp)
      | exact absurd hu (by simp [applyInside])

omit K in
/-- What everything inside a call keeps, the environment's turn keeps. -/
theorem KeptCall.turn (K : KeptCall ok P) {w : World} (ho : ∀ acts ∈ w.inside, ∀ a ∈ acts, InsideOk ok a)
    (hp : P w) : P w.turn := by
  have hh : ∀ a ∈ w.inside.headD [], InsideOk ok a := by
    intro a ha
    cases hi : w.inside with
    | nil => rw [hi] at ha; simp at ha
    | cons l ls => rw [hi] at ha; exact ho l (by simp [hi]) a ha
  unfold World.turn
  split
  · exact hp
  · split
    · next h => exact K.toKept.acts hh h (K.pop hp)
    · exact K.record _ (K.pop hp)
    · exact K.record _ (K.pop hp)

end Kept

/-- With no condition on the acts. -/
theorem KeptCall.turn' {P : World → Prop} (K : KeptCall (fun _ => True) P) {w : World} (hp : P w) : P w.turn :=
  K.turn (fun _ _ a _ => by cases a <;> simp [InsideOk]) hp

/-- The fields that no common act changes, memory among them where the act is no poke. -/
theorem applyCommon_next {a : CommonAct} {w v : World} (h : w.applyCommon a = .next v) :
    v.inside = w.inside ∧ v.stop = w.stop ∧ v.bus = w.bus ∧ v.env = w.env ∧ v.cfg = w.cfg ∧
      (a.pokes = false → v.mem = w.mem) := by
  cases a <;> simp only [applyCommon] at h
  case add d c p =>
    unfold schedAdd at h
    obtain ⟨r, hr, h⟩ := andThen_eq_next h
    injection h with h; subst h; simp [note]
  case cancel k => obtain ⟨r, hr, h⟩ := andThen_eq_next h; injection h with h; subst h; simp
  case getTarget => obtain ⟨r, hr, h⟩ := andThen_eq_next h; injection h with h; subst h; simp [note]
  case getRemaining => obtain ⟨r, hr, h⟩ := andThen_eq_next h; injection h with h; subst h; simp [note]
  all_goals injection h with h; subst h; simp [note, CommonAct.pokes]

/-- The environment leaves the trace of the bus, the list of acts between steps and the parameters alone. -/
theorem turn_keeps (w : World) : w.turn.bus = w.bus ∧ w.turn.env = w.env ∧ w.turn.cfg = w.cfg := by
  refine KeptCall.turn' (P := fun v => v.bus = w.bus ∧ v.env = w.env ∧ v.cfg = w.cfg)
    ⟨⟨?_, fun _ h => h, fun _ h => h⟩, fun h => h, fun _ h => h⟩ ⟨rfl, rfl, rfl⟩
  intro a u v _ h ⟨h1, h2, h3⟩
  obtain ⟨_, _, b1, b2, b3, _⟩ := applyCommon_next h
  exact ⟨b1.trans h1, b2.trans h2, b3.trans h3⟩

@[simp] theorem turn_bus (w : World) : w.turn.bus = w.bus := (turn_keeps w).1
@[simp] theorem turn_env (w : World) : w.turn.env = w.env := (turn_keeps w).2.1
@[simp] theorem turn_cfg (w : World) : w.turn.cfg = w.cfg := (turn_keeps w).2.2

/-! ## Memory where no one else changes it -/

theorem noPokes_iff {w : World} : w.noPokes = true ↔ ∀ acts ∈ w.inside, ∀ a ∈ acts, a.pokes = false := by
  simp [noPokes]

theorem insideOk_of_pokes {a : InsideAct} (h : a.pokes = false) : InsideOk (fun c => c.pokes = false) a := by
  cases a <;> simp only [InsideOk, InsideAct.pokes] at *
  · exact h
  · intro s hs c hc
    simp only [List.any_eq_false] at h
    have := h s hs
    simp only [List.any_eq_true, not_exists, not_and] at this
    exact Bool.eq_false_iff.mpr (this _ hc)

theorem turn_noPokes {w : World} (h : w.noPokes = true) : w.turn.noPokes = true ∧ w.turn.mem = w.mem := by
  rw [noPokes_iff] at h
  refine KeptCall.turn (ok := fun c => c.pokes = false) (P := fun v => v.noPokes = true ∧ v.mem = w.mem)
    ⟨⟨?_, fun _ h => h, fun _ h => h⟩, ?_, fun _ h => h⟩ (fun l hl a ha => insideOk_of_pokes (h l hl a ha))
    ⟨noPokes_iff.mpr h, rfl⟩
  · intro a u v hp hv ⟨h1, h2⟩
    obtain ⟨b1, _, _, _, _, b2⟩ := applyCommon_next hv
    exact ⟨by rw [noPokes, b1]; exact h1, (b2 hp).trans h2⟩
  · intro u ⟨h1, h2⟩
    exact ⟨noPokes_iff.mpr fun l hl => (noPokes_iff.mp h1) l (List.mem_of_mem_tail hl), h2⟩

/-- The call is a write. -/
def isWrite : BusCall → Bool
  | .write _ _ _ _ => true
  | _ => false

theorem call_noPokes {w : World} (c : BusCall) (h : w.noPokes = true) :
    (w.call c).noPokes = true ∧ (w.call c).mem = (w.answer c).mem := by
  obtain ⟨h1, h2⟩ := turn_noPokes h
  cases c <;> exact ⟨h1, by simp [call, answer, h2]⟩

theorem play_noPokes : ∀ (cs : List BusCall) {w : World}, w.noPokes = true → (w.play cs).noPokes = true
  | [], _, h => h
  | c :: cs, _, h => play_noPokes cs (call_noPokes c h).1

/-- Calls that write nothing leave memory alone, where no one else changes it. -/
theorem play_mem : ∀ {cs : List BusCall} {w : World}, w.noPokes = true → (∀ c ∈ cs, isWrite c = false) →
    (w.play cs).mem = w.mem
  | [], _, _, _ => rfl
  | c :: cs, w, h, hc => by
    obtain ⟨h1, h2⟩ := call_noPokes c h
    rw [play_cons, play_mem h1 fun d hd => hc d (List.mem_cons_of_mem _ hd), h2]
    have := hc c List.mem_cons_self
    cases c <;> first | rfl | exact absurd this (by simp [isWrite])

theorem tell_noPokes : ∀ (ns : List HostNote) {w : World}, w.noPokes = true → (w.tell ns).mem = w.mem
  | [], _, _ => rfl
  | n :: ns, w, h => by
    obtain ⟨h1, h2⟩ := turn_noPokes (w := w.note n) h
    show ((w.note n).turn.tell ns).mem = _
    rw [tell_noPokes ns h1, h2]; rfl

/-! ## The environment that does nothing -/

theorem turn_quiet {w : World} (h : w.inside = []) : w.turn = w := by
  unfold turn
  split
  · rfl
  · rw [h]
    show { w with inside := [] } = w
    rw [← h]

/-! ## The environment that acts, and the stop it may raise -/

/-- What the environment's turn does with the acts of the next call. -/
theorem turn_cons {w : World} {acts : List InsideAct} {rest : List (List InsideAct)} (h : w.inside = acts :: rest)
    (hs : w.stop = none) :
    w.turn =
      match insideActs acts { w with inside := rest } with
      | .next v => v
      | .fault f => { w with inside := rest, stop := some (.fault f) }
      | .refused why => { w with inside := rest, stop := some (.refused why) } := by
  unfold turn
  rw [hs, h, List.headD_cons, List.tail_cons] <;> cases insideActs acts _ <;> rfl

/-- Once a stop is on record the environment does nothing more. -/
theorem turn_stop {w : World} {k : Stop} (h : w.stop = some k) : w.turn = w := by
  unfold turn; rw [h]

theorem call_stop {w : World} {k : Stop} (h : w.stop = some k) (c : BusCall) : (w.call c).stop = some k := by
  cases c <;> simp [call, answer, turn_stop h, h]

/-- A stop stays on record. -/
theorem play_stop {k : Stop} : ∀ (cs : List BusCall) {w : World}, w.stop = some k → (w.play cs).stop = some k
  | [], _, h => h
  | c :: cs, _, h => play_stop cs (call_stop h c)

/-! ## The first stop -/

theorem stopOr_none {α : Type} {w : World} (h : w.stop = none) (r : Res α) : w.stopOr r = r := by simp [stopOr, h]

theorem stopOr_fault {α : Type} {w : World} {f : Fault} (h : w.stop = some (.fault f)) (r : Res α) :
    w.stopOr r = .fault f := by simp [stopOr, h]

theorem stopOr_refused {α : Type} {w : World} {why : Refusal} (h : w.stop = some (.refused why)) (r : Res α) :
    w.stopOr r = .refused why := by simp [stopOr, h]

/-- What goes on had no stop before it. -/
theorem stopOr_next {α : Type} {w : World} {r : Res α} {a : α} (h : w.stopOr r = .next a) :
    w.stop = none ∧ r = .next a := by
  unfold stopOr at h
  split at h
  · next hs => exact ⟨hs, h⟩
  · exact absurd h (by simp)
  · exact absurd h (by simp)

/-! ## The trace -/

@[simp] theorem call_bus (w : World) (c : BusCall) : (w.call c).bus = w.bus ++ [c] := by simp [call]

theorem call_keeps (w : World) (c : BusCall) : (w.call c).env = w.env ∧ (w.call c).cfg = w.cfg := by
  cases c <;> exact ⟨turn_env w, turn_cfg w⟩

/-- The trace holds the calls in order (70 R650). -/
theorem play_bus : ∀ (cs : List BusCall) (w : World), (w.play cs).bus = w.bus ++ cs
  | [], _ => by simp
  | c :: cs, w => by rw [play_cons, play_bus cs, call_bus, List.append_assoc]; rfl

@[simp] theorem play_env : ∀ (cs : List BusCall) (w : World), (w.play cs).env = w.env
  | [], _ => rfl
  | c :: cs, w => by rw [play_cons, play_env cs, (call_keeps w c).1]

@[simp] theorem play_cfg : ∀ (cs : List BusCall) (w : World), (w.play cs).cfg = w.cfg
  | [], _ => rfl
  | c :: cs, w => by rw [play_cons, play_cfg cs, (call_keeps w c).2]

end World

/-- An instruction that went on went on by itself. -/
theorem State.stopFirst_next {s t : State} {r : Res State} (h : s.stopFirst r = .next t) : r = .next t := by
  cases r with
  | next u => exact h
  | fault f => exact (World.stopOr_next h).2
  | refused why => exact (World.stopOr_next h).2

/-! ## The value on the bus -/

/-- Memory takes of a value what the access width passes (20 R73). -/
theorem Memory.write_busValue (m : List Host.Cell) (size : Size) (a v : Word) :
    Memory.write m size a (busValue size v) = Memory.write m size a v := by
  have h8 : (busValue .byte v).extractLsb' 0 8 = v.extractLsb' 0 8 := by
    apply BitVec.eq_of_getLsbD_eq
    intro k hk
    simp only [busValue, BitVec.getLsbD_extractLsb', BitVec.getLsbD_setWidth]
    simp [hk, show k < 32 by omega]
  have h16 : ∀ j, j ≤ 8 → (busValue .half v).extractLsb' j 8 = v.extractLsb' j 8 := by
    intro j hj
    apply BitVec.eq_of_getLsbD_eq
    intro k hk
    simp only [busValue, BitVec.getLsbD_extractLsb', BitVec.getLsbD_setWidth]
    simp [hk, show j + k < 32 by omega, show j + k < 16 by omega]
  cases size
  · show Memory.writeByte m a _ = Memory.writeByte m a _
    rw [Memory.writeByte, Memory.writeByte, h8]
  · show Memory.writeHalf m a _ = Memory.writeHalf m a _
    rw [Memory.writeHalf, Memory.writeHalf, h16 0 (by omega), h16 8 (by omega)]
  · rfl

/-! ## Frames of memory -/

/-- Calls that write nothing keep memory as a reader sees it. -/
theorem keepsMemory_of_play {s t : State} {cs : List BusCall} (h : t.world = s.world.play cs)
    (hc : ∀ c ∈ cs, World.isWrite c = false) : KeepsMemory s t := by
  intro hp a
  rw [h, World.play_mem hp hc]

/-- Memory that reads the same byte by byte reads the same in every size. -/
theorem KeepsMemory.read {s t : State} (h : KeepsMemory s t) (hp : s.world.noPokes = true) (size : Size) (a : Word) :
    Memory.read t.world.mem size a = Memory.read s.world.mem size a := by
  cases size <;> simp only [Memory.read, Memory.readHalf, Memory.readWord, h hp _]

/-- A write and calls that write nothing store what `StoredAt` says (20 R73, R79, R81). -/
theorem storedAt_of_play {s t : State} {cs ds : List BusCall} {size : Size} {a v : Word} {acc : Access}
    (h : t.world = s.world.play (cs ++ .write size a (busValue size v) acc :: ds))
    (hc : ∀ c ∈ cs, World.isWrite c = false) (hd : ∀ c ∈ ds, World.isWrite c = false) : StoredAt size a v s t := by
  intro hp b
  have h1 := World.play_noPokes cs hp
  obtain ⟨h2, h3⟩ := World.call_noPokes (.write size a (busValue size v) acc) h1
  rw [h, World.play_append, World.play_cons, World.play_mem h2 hd, h3]
  show Memory.readByte (Memory.write _ size a (busValue size v)) b = _
  rw [World.play_mem hp hc, Memory.write_busValue, Memory.readByte_write]

end Sys2Proof.Machine
end

