-- ==== Sys2Proof/Laws/State.lean ====
section
/-! SUPPORT. What each update of the state leaves alone and what it writes, so that no proof unfolds a record
update. -/

namespace Sys2Proof.Machine

open Sys2Proof

namespace State

variable (s : State)

/-! ## Fields an update leaves alone -/

@[simp] theorem set_bankLo (r : Reg) (v : Word) : (s.set r v).bankLo = s.bankLo := rfl
@[simp] theorem set_bankHi (r : Reg) (v : Word) : (s.set r v).bankHi = s.bankHi := rfl
@[simp] theorem set_cpsr (r : Reg) (v : Word) : (s.set r v).cpsr = s.cpsr := rfl
@[simp] theorem set_spsr (r : Reg) (v : Word) : (s.set r v).spsr = s.spsr := rfl
@[simp] theorem set_slot0 (r : Reg) (v : Word) : (s.set r v).slot0 = s.slot0 := rfl
@[simp] theorem set_slot1 (r : Reg) (v : Word) : (s.set r v).slot1 = s.slot1 := rfl
@[simp] theorem set_fetchKind (r : Reg) (v : Word) : (s.set r v).fetchKind = s.fetchKind := rfl
@[simp] theorem set_irqMaskLatch (r : Reg) (v : Word) : (s.set r v).irqMaskLatch = s.irqMaskLatch := rfl
@[simp] theorem set_invalidMode (r : Reg) (v : Word) : (s.set r v).invalidMode = s.invalidMode := rfl
@[simp] theorem set_bankConflict (r : Reg) (v : Word) : (s.set r v).bankConflict = s.bankConflict := rfl
@[simp] theorem set_started (r : Reg) (v : Word) : (s.set r v).started = s.started := rfl
@[simp] theorem set_draws (r : Reg) (v : Word) : (s.set r v).draws = s.draws := rfl
@[simp] theorem set_world (r : Reg) (v : Word) : (s.set r v).world = s.world := rfl

@[simp] theorem setCpsr_x (w : Word) : (s.setCpsr w).x = s.x := rfl
@[simp] theorem setCpsr_bankLo (w : Word) : (s.setCpsr w).bankLo = s.bankLo := rfl
@[simp] theorem setCpsr_bankHi (w : Word) : (s.setCpsr w).bankHi = s.bankHi := rfl
@[simp] theorem setCpsr_spsr (w : Word) : (s.setCpsr w).spsr = s.spsr := rfl
@[simp] theorem setCpsr_slot0 (w : Word) : (s.setCpsr w).slot0 = s.slot0 := rfl
@[simp] theorem setCpsr_slot1 (w : Word) : (s.setCpsr w).slot1 = s.slot1 := rfl
@[simp] theorem setCpsr_fetchKind (w : Word) : (s.setCpsr w).fetchKind = s.fetchKind := rfl
@[simp] theorem setCpsr_irqMaskLatch (w : Word) : (s.setCpsr w).irqMaskLatch = s.irqMaskLatch := rfl
@[simp] theorem setCpsr_invalidMode (w : Word) : (s.setCpsr w).invalidMode = s.invalidMode := rfl
@[simp] theorem setCpsr_bankConflict (w : Word) : (s.setCpsr w).bankConflict = s.bankConflict := rfl
@[simp] theorem setCpsr_started (w : Word) : (s.setCpsr w).started = s.started := rfl
@[simp] theorem setCpsr_draws (w : Word) : (s.setCpsr w).draws = s.draws := rfl
@[simp] theorem setCpsr_world (w : Word) : (s.setCpsr w).world = s.world := rfl

@[simp] theorem setFlags_x (f : Flags) : (s.setFlags f).x = s.x := rfl
@[simp] theorem setFlags_bankLo (f : Flags) : (s.setFlags f).bankLo = s.bankLo := rfl
@[simp] theorem setFlags_bankHi (f : Flags) : (s.setFlags f).bankHi = s.bankHi := rfl
@[simp] theorem setFlags_spsr (f : Flags) : (s.setFlags f).spsr = s.spsr := rfl
@[simp] theorem setFlags_slot0 (f : Flags) : (s.setFlags f).slot0 = s.slot0 := rfl
@[simp] theorem setFlags_slot1 (f : Flags) : (s.setFlags f).slot1 = s.slot1 := rfl
@[simp] theorem setFlags_fetchKind (f : Flags) : (s.setFlags f).fetchKind = s.fetchKind := rfl
@[simp] theorem setFlags_irqMaskLatch (f : Flags) : (s.setFlags f).irqMaskLatch = s.irqMaskLatch := rfl
@[simp] theorem setFlags_invalidMode (f : Flags) : (s.setFlags f).invalidMode = s.invalidMode := rfl
@[simp] theorem setFlags_bankConflict (f : Flags) : (s.setFlags f).bankConflict = s.bankConflict := rfl
@[simp] theorem setFlags_started (f : Flags) : (s.setFlags f).started = s.started := rfl
@[simp] theorem setFlags_draws (f : Flags) : (s.setFlags f).draws = s.draws := rfl
@[simp] theorem setFlags_world (f : Flags) : (s.setFlags f).world = s.world := rfl

@[simp] theorem setFetchKind_x (a : AccessKind) : (s.setFetchKind a).x = s.x := rfl
@[simp] theorem setFetchKind_bankLo (a : AccessKind) : (s.setFetchKind a).bankLo = s.bankLo := rfl
@[simp] theorem setFetchKind_bankHi (a : AccessKind) : (s.setFetchKind a).bankHi = s.bankHi := rfl
@[simp] theorem setFetchKind_cpsr (a : AccessKind) : (s.setFetchKind a).cpsr = s.cpsr := rfl
@[simp] theorem setFetchKind_spsr (a : AccessKind) : (s.setFetchKind a).spsr = s.spsr := rfl
@[simp] theorem setFetchKind_slot0 (a : AccessKind) : (s.setFetchKind a).slot0 = s.slot0 := rfl
@[simp] theorem setFetchKind_slot1 (a : AccessKind) : (s.setFetchKind a).slot1 = s.slot1 := rfl
@[simp] theorem setFetchKind_irqMaskLatch (a : AccessKind) : (s.setFetchKind a).irqMaskLatch = s.irqMaskLatch := rfl
@[simp] theorem setFetchKind_invalidMode (a : AccessKind) : (s.setFetchKind a).invalidMode = s.invalidMode := rfl
@[simp] theorem setFetchKind_bankConflict (a : AccessKind) : (s.setFetchKind a).bankConflict = s.bankConflict := rfl
@[simp] theorem setFetchKind_started (a : AccessKind) : (s.setFetchKind a).started = s.started := rfl
@[simp] theorem setFetchKind_draws (a : AccessKind) : (s.setFetchKind a).draws = s.draws := rfl
@[simp] theorem setFetchKind_world (a : AccessKind) : (s.setFetchKind a).world = s.world := rfl

@[simp] theorem setLoBank_x (b : Bank) (p : Pair) : (s.setLoBank b p).x = s.x := by cases b <;> rfl
@[simp] theorem setLoBank_bankHi (b : Bank) (p : Pair) : (s.setLoBank b p).bankHi = s.bankHi := by cases b <;> rfl
@[simp] theorem setLoBank_cpsr (b : Bank) (p : Pair) : (s.setLoBank b p).cpsr = s.cpsr := by cases b <;> rfl
@[simp] theorem setLoBank_spsr (b : Bank) (p : Pair) : (s.setLoBank b p).spsr = s.spsr := by cases b <;> rfl
@[simp] theorem setLoBank_slot0 (b : Bank) (p : Pair) : (s.setLoBank b p).slot0 = s.slot0 := by cases b <;> rfl
@[simp] theorem setLoBank_slot1 (b : Bank) (p : Pair) : (s.setLoBank b p).slot1 = s.slot1 := by cases b <;> rfl
@[simp] theorem setLoBank_fetchKind (b : Bank) (p : Pair) : (s.setLoBank b p).fetchKind = s.fetchKind := by cases b <;> rfl
@[simp] theorem setLoBank_irqMaskLatch (b : Bank) (p : Pair) : (s.setLoBank b p).irqMaskLatch = s.irqMaskLatch := by cases b <;> rfl
@[simp] theorem setLoBank_invalidMode (b : Bank) (p : Pair) : (s.setLoBank b p).invalidMode = s.invalidMode := by cases b <;> rfl
@[simp] theorem setLoBank_bankConflict (b : Bank) (p : Pair) : (s.setLoBank b p).bankConflict = s.bankConflict := by cases b <;> rfl
@[simp] theorem setLoBank_started (b : Bank) (p : Pair) : (s.setLoBank b p).started = s.started := by cases b <;> rfl
@[simp] theorem setLoBank_draws (b : Bank) (p : Pair) : (s.setLoBank b p).draws = s.draws := by cases b <;> rfl
@[simp] theorem setLoBank_world (b : Bank) (p : Pair) : (s.setLoBank b p).world = s.world := by cases b <;> rfl

@[simp] theorem setHiBank_x (b : Bool) (v : Vector Word 5) : (s.setHiBank b v).x = s.x := by cases b <;> rfl
@[simp] theorem setHiBank_bankLo (b : Bool) (v : Vector Word 5) : (s.setHiBank b v).bankLo = s.bankLo := by cases b <;> rfl
@[simp] theorem setHiBank_cpsr (b : Bool) (v : Vector Word 5) : (s.setHiBank b v).cpsr = s.cpsr := by cases b <;> rfl
@[simp] theorem setHiBank_spsr (b : Bool) (v : Vector Word 5) : (s.setHiBank b v).spsr = s.spsr := by cases b <;> rfl
@[simp] theorem setHiBank_slot0 (b : Bool) (v : Vector Word 5) : (s.setHiBank b v).slot0 = s.slot0 := by cases b <;> rfl
@[simp] theorem setHiBank_slot1 (b : Bool) (v : Vector Word 5) : (s.setHiBank b v).slot1 = s.slot1 := by cases b <;> rfl
@[simp] theorem setHiBank_fetchKind (b : Bool) (v : Vector Word 5) : (s.setHiBank b v).fetchKind = s.fetchKind := by cases b <;> rfl
@[simp] theorem setHiBank_irqMaskLatch (b : Bool) (v : Vector Word 5) : (s.setHiBank b v).irqMaskLatch = s.irqMaskLatch := by cases b <;> rfl
@[simp] theorem setHiBank_invalidMode (b : Bool) (v : Vector Word 5) : (s.setHiBank b v).invalidMode = s.invalidMode := by cases b <;> rfl
@[simp] theorem setHiBank_bankConflict (b : Bool) (v : Vector Word 5) : (s.setHiBank b v).bankConflict = s.bankConflict := by cases b <;> rfl
@[simp] theorem setHiBank_started (b : Bool) (v : Vector Word 5) : (s.setHiBank b v).started = s.started := by cases b <;> rfl
@[simp] theorem setHiBank_draws (b : Bool) (v : Vector Word 5) : (s.setHiBank b v).draws = s.draws := by cases b <;> rfl
@[simp] theorem setHiBank_world (b : Bool) (v : Vector Word 5) : (s.setHiBank b v).world = s.world := by cases b <;> rfl

@[simp] theorem swapHigh_bankLo (a b : Bool) : (s.swapHigh a b).bankLo = s.bankLo := by cases a <;> cases b <;> rfl
@[simp] theorem swapHigh_cpsr (a b : Bool) : (s.swapHigh a b).cpsr = s.cpsr := by cases a <;> cases b <;> rfl
@[simp] theorem swapHigh_spsr (a b : Bool) : (s.swapHigh a b).spsr = s.spsr := by cases a <;> cases b <;> rfl
@[simp] theorem swapHigh_slot0 (a b : Bool) : (s.swapHigh a b).slot0 = s.slot0 := by cases a <;> cases b <;> rfl
@[simp] theorem swapHigh_slot1 (a b : Bool) : (s.swapHigh a b).slot1 = s.slot1 := by cases a <;> cases b <;> rfl
@[simp] theorem swapHigh_fetchKind (a b : Bool) : (s.swapHigh a b).fetchKind = s.fetchKind := by cases a <;> cases b <;> rfl
@[simp] theorem swapHigh_irqMaskLatch (a b : Bool) : (s.swapHigh a b).irqMaskLatch = s.irqMaskLatch := by cases a <;> cases b <;> rfl
@[simp] theorem swapHigh_invalidMode (a b : Bool) : (s.swapHigh a b).invalidMode = s.invalidMode := by cases a <;> cases b <;> rfl
@[simp] theorem swapHigh_bankConflict (a b : Bool) : (s.swapHigh a b).bankConflict = s.bankConflict := by cases a <;> cases b <;> rfl
@[simp] theorem swapHigh_started (a b : Bool) : (s.swapHigh a b).started = s.started := by cases a <;> cases b <;> rfl
@[simp] theorem swapHigh_draws (a b : Bool) : (s.swapHigh a b).draws = s.draws := by cases a <;> cases b <;> rfl
@[simp] theorem swapHigh_world (a b : Bool) : (s.swapHigh a b).world = s.world := by cases a <;> cases b <;> rfl

@[simp] theorem swapLow_bankHi (a b : Bank) : (s.swapLow a b).bankHi = s.bankHi := by cases a <;> rfl
@[simp] theorem swapLow_cpsr (a b : Bank) : (s.swapLow a b).cpsr = s.cpsr := by cases a <;> rfl
@[simp] theorem swapLow_spsr (a b : Bank) : (s.swapLow a b).spsr = s.spsr := by cases a <;> rfl
@[simp] theorem swapLow_slot0 (a b : Bank) : (s.swapLow a b).slot0 = s.slot0 := by cases a <;> rfl
@[simp] theorem swapLow_slot1 (a b : Bank) : (s.swapLow a b).slot1 = s.slot1 := by cases a <;> rfl
@[simp] theorem swapLow_fetchKind (a b : Bank) : (s.swapLow a b).fetchKind = s.fetchKind := by cases a <;> rfl
@[simp] theorem swapLow_irqMaskLatch (a b : Bank) : (s.swapLow a b).irqMaskLatch = s.irqMaskLatch := by cases a <;> rfl
@[simp] theorem swapLow_invalidMode (a b : Bank) : (s.swapLow a b).invalidMode = s.invalidMode := by cases a <;> rfl
@[simp] theorem swapLow_bankConflict (a b : Bank) : (s.swapLow a b).bankConflict = s.bankConflict := by cases a <;> rfl
@[simp] theorem swapLow_started (a b : Bank) : (s.swapLow a b).started = s.started := by cases a <;> rfl
@[simp] theorem swapLow_draws (a b : Bank) : (s.swapLow a b).draws = s.draws := by cases a <;> rfl
@[simp] theorem swapLow_world (a b : Bank) : (s.swapLow a b).world = s.world := by cases a <;> rfl

@[simp] theorem switchTo_spsr (m : Mode) : (s.switchTo m).spsr = s.spsr := by simp only [State.switchTo]; (repeat' split) <;> simp
@[simp] theorem switchTo_slot0 (m : Mode) : (s.switchTo m).slot0 = s.slot0 := by simp only [State.switchTo]; (repeat' split) <;> simp
@[simp] theorem switchTo_slot1 (m : Mode) : (s.switchTo m).slot1 = s.slot1 := by simp only [State.switchTo]; (repeat' split) <;> simp
@[simp] theorem switchTo_fetchKind (m : Mode) : (s.switchTo m).fetchKind = s.fetchKind := by simp only [State.switchTo]; (repeat' split) <;> simp
@[simp] theorem switchTo_irqMaskLatch (m : Mode) : (s.switchTo m).irqMaskLatch = s.irqMaskLatch := by simp only [State.switchTo]; (repeat' split) <;> simp
@[simp] theorem switchTo_invalidMode (m : Mode) : (s.switchTo m).invalidMode = s.invalidMode := by simp only [State.switchTo]; (repeat' split) <;> simp
@[simp] theorem switchTo_bankConflict (m : Mode) : (s.switchTo m).bankConflict = s.bankConflict := by simp only [State.switchTo]; (repeat' split) <;> simp
@[simp] theorem switchTo_started (m : Mode) : (s.switchTo m).started = s.started := by simp only [State.switchTo]; (repeat' split) <;> simp
@[simp] theorem switchTo_draws (m : Mode) : (s.switchTo m).draws = s.draws := by simp only [State.switchTo]; (repeat' split) <;> simp
@[simp] theorem switchTo_world (m : Mode) : (s.switchTo m).world = s.world := by simp only [State.switchTo]; (repeat' split) <;> simp

@[simp] theorem setSpsr_x (b : Bank) (w : Word) : (s.setSpsr b w).x = s.x := by cases b <;> rfl
@[simp] theorem setSpsr_bankLo (b : Bank) (w : Word) : (s.setSpsr b w).bankLo = s.bankLo := by cases b <;> rfl
@[simp] theorem setSpsr_bankHi (b : Bank) (w : Word) : (s.setSpsr b w).bankHi = s.bankHi := by cases b <;> rfl
@[simp] theorem setSpsr_cpsr (b : Bank) (w : Word) : (s.setSpsr b w).cpsr = s.cpsr := by cases b <;> rfl
@[simp] theorem setSpsr_slot0 (b : Bank) (w : Word) : (s.setSpsr b w).slot0 = s.slot0 := by cases b <;> rfl
@[simp] theorem setSpsr_slot1 (b : Bank) (w : Word) : (s.setSpsr b w).slot1 = s.slot1 := by cases b <;> rfl
@[simp] theorem setSpsr_fetchKind (b : Bank) (w : Word) : (s.setSpsr b w).fetchKind = s.fetchKind := by cases b <;> rfl
@[simp] theorem setSpsr_irqMaskLatch (b : Bank) (w : Word) : (s.setSpsr b w).irqMaskLatch = s.irqMaskLatch := by cases b <;> rfl
@[simp] theorem setSpsr_invalidMode (b : Bank) (w : Word) : (s.setSpsr b w).invalidMode = s.invalidMode := by cases b <;> rfl
@[simp] theorem setSpsr_bankConflict (b : Bank) (w : Word) : (s.setSpsr b w).bankConflict = s.bankConflict := by cases b <;> rfl
@[simp] theorem setSpsr_started (b : Bank) (w : Word) : (s.setSpsr b w).started = s.started := by cases b <;> rfl
@[simp] theorem setSpsr_draws (b : Bank) (w : Word) : (s.setSpsr b w).draws = s.draws := by cases b <;> rfl
@[simp] theorem setSpsr_world (b : Bank) (w : Word) : (s.setSpsr b w).world = s.world := by cases b <;> rfl

@[simp] theorem call_x (c : BusCall) : (s.call c).x = s.x := rfl
@[simp] theorem call_bankLo (c : BusCall) : (s.call c).bankLo = s.bankLo := rfl
@[simp] theorem call_bankHi (c : BusCall) : (s.call c).bankHi = s.bankHi := rfl
@[simp] theorem call_cpsr (c : BusCall) : (s.call c).cpsr = s.cpsr := rfl
@[simp] theorem call_spsr (c : BusCall) : (s.call c).spsr = s.spsr := rfl
@[simp] theorem call_slot0 (c : BusCall) : (s.call c).slot0 = s.slot0 := rfl
@[simp] theorem call_slot1 (c : BusCall) : (s.call c).slot1 = s.slot1 := rfl
@[simp] theorem call_fetchKind (c : BusCall) : (s.call c).fetchKind = s.fetchKind := rfl
@[simp] theorem call_irqMaskLatch (c : BusCall) : (s.call c).irqMaskLatch = s.irqMaskLatch := rfl
@[simp] theorem call_invalidMode (c : BusCall) : (s.call c).invalidMode = s.invalidMode := rfl
@[simp] theorem call_bankConflict (c : BusCall) : (s.call c).bankConflict = s.bankConflict := rfl
@[simp] theorem call_started (c : BusCall) : (s.call c).started = s.started := rfl
@[simp] theorem call_draws (c : BusCall) : (s.call c).draws = s.draws := rfl

@[simp] theorem calls_x (cs : List BusCall) : (s.calls cs).x = s.x := rfl
@[simp] theorem calls_bankLo (cs : List BusCall) : (s.calls cs).bankLo = s.bankLo := rfl
@[simp] theorem calls_bankHi (cs : List BusCall) : (s.calls cs).bankHi = s.bankHi := rfl
@[simp] theorem calls_cpsr (cs : List BusCall) : (s.calls cs).cpsr = s.cpsr := rfl
@[simp] theorem calls_spsr (cs : List BusCall) : (s.calls cs).spsr = s.spsr := rfl
@[simp] theorem calls_slot0 (cs : List BusCall) : (s.calls cs).slot0 = s.slot0 := rfl
@[simp] theorem calls_slot1 (cs : List BusCall) : (s.calls cs).slot1 = s.slot1 := rfl
@[simp] theorem calls_fetchKind (cs : List BusCall) : (s.calls cs).fetchKind = s.fetchKind := rfl
@[simp] theorem calls_irqMaskLatch (cs : List BusCall) : (s.calls cs).irqMaskLatch = s.irqMaskLatch := rfl
@[simp] theorem calls_invalidMode (cs : List BusCall) : (s.calls cs).invalidMode = s.invalidMode := rfl
@[simp] theorem calls_bankConflict (cs : List BusCall) : (s.calls cs).bankConflict = s.bankConflict := rfl
@[simp] theorem calls_started (cs : List BusCall) : (s.calls cs).started = s.started := rfl
@[simp] theorem calls_draws (cs : List BusCall) : (s.calls cs).draws = s.draws := rfl

@[simp] theorem busRead_x (z : Size) (a : Word) (f : Access) : (s.busRead z a f).x = s.x := rfl
@[simp] theorem busRead_bankLo (z : Size) (a : Word) (f : Access) : (s.busRead z a f).bankLo = s.bankLo := rfl
@[simp] theorem busRead_bankHi (z : Size) (a : Word) (f : Access) : (s.busRead z a f).bankHi = s.bankHi := rfl
@[simp] theorem busRead_cpsr (z : Size) (a : Word) (f : Access) : (s.busRead z a f).cpsr = s.cpsr := rfl
@[simp] theorem busRead_spsr (z : Size) (a : Word) (f : Access) : (s.busRead z a f).spsr = s.spsr := rfl
@[simp] theorem busRead_slot0 (z : Size) (a : Word) (f : Access) : (s.busRead z a f).slot0 = s.slot0 := rfl
@[simp] theorem busRead_slot1 (z : Size) (a : Word) (f : Access) : (s.busRead z a f).slot1 = s.slot1 := rfl
@[simp] theorem busRead_fetchKind (z : Size) (a : Word) (f : Access) : (s.busRead z a f).fetchKind = s.fetchKind := rfl
@[simp] theorem busRead_irqMaskLatch (z : Size) (a : Word) (f : Access) : (s.busRead z a f).irqMaskLatch = s.irqMaskLatch := rfl
@[simp] theorem busRead_invalidMode (z : Size) (a : Word) (f : Access) : (s.busRead z a f).invalidMode = s.invalidMode := rfl
@[simp] theorem busRead_bankConflict (z : Size) (a : Word) (f : Access) : (s.busRead z a f).bankConflict = s.bankConflict := rfl
@[simp] theorem busRead_started (z : Size) (a : Word) (f : Access) : (s.busRead z a f).started = s.started := rfl
@[simp] theorem busRead_draws (z : Size) (a : Word) (f : Access) : (s.busRead z a f).draws = s.draws := rfl

@[simp] theorem busWrite_x (z : Size) (a v : Word) (f : Access) : (s.busWrite z a v f).x = s.x := rfl
@[simp] theorem busWrite_bankLo (z : Size) (a v : Word) (f : Access) : (s.busWrite z a v f).bankLo = s.bankLo := rfl
@[simp] theorem busWrite_bankHi (z : Size) (a v : Word) (f : Access) : (s.busWrite z a v f).bankHi = s.bankHi := rfl
@[simp] theorem busWrite_cpsr (z : Size) (a v : Word) (f : Access) : (s.busWrite z a v f).cpsr = s.cpsr := rfl
@[simp] theorem busWrite_spsr (z : Size) (a v : Word) (f : Access) : (s.busWrite z a v f).spsr = s.spsr := rfl
@[simp] theorem busWrite_slot0 (z : Size) (a v : Word) (f : Access) : (s.busWrite z a v f).slot0 = s.slot0 := rfl
@[simp] theorem busWrite_slot1 (z : Size) (a v : Word) (f : Access) : (s.busWrite z a v f).slot1 = s.slot1 := rfl
@[simp] theorem busWrite_fetchKind (z : Size) (a v : Word) (f : Access) : (s.busWrite z a v f).fetchKind = s.fetchKind := rfl
@[simp] theorem busWrite_irqMaskLatch (z : Size) (a v : Word) (f : Access) : (s.busWrite z a v f).irqMaskLatch = s.irqMaskLatch := rfl
@[simp] theorem busWrite_invalidMode (z : Size) (a v : Word) (f : Access) : (s.busWrite z a v f).invalidMode = s.invalidMode := rfl
@[simp] theorem busWrite_bankConflict (z : Size) (a v : Word) (f : Access) : (s.busWrite z a v f).bankConflict = s.bankConflict := rfl
@[simp] theorem busWrite_started (z : Size) (a v : Word) (f : Access) : (s.busWrite z a v f).started = s.started := rfl
@[simp] theorem busWrite_draws (z : Size) (a v : Word) (f : Access) : (s.busWrite z a v f).draws = s.draws := rfl

@[simp] theorem idle_x (n : Nat) : (s.idle n).x = s.x := rfl
@[simp] theorem idle_bankLo (n : Nat) : (s.idle n).bankLo = s.bankLo := rfl
@[simp] theorem idle_bankHi (n : Nat) : (s.idle n).bankHi = s.bankHi := rfl
@[simp] theorem idle_cpsr (n : Nat) : (s.idle n).cpsr = s.cpsr := rfl
@[simp] theorem idle_spsr (n : Nat) : (s.idle n).spsr = s.spsr := rfl
@[simp] theorem idle_slot0 (n : Nat) : (s.idle n).slot0 = s.slot0 := rfl
@[simp] theorem idle_slot1 (n : Nat) : (s.idle n).slot1 = s.slot1 := rfl
@[simp] theorem idle_fetchKind (n : Nat) : (s.idle n).fetchKind = s.fetchKind := rfl
@[simp] theorem idle_irqMaskLatch (n : Nat) : (s.idle n).irqMaskLatch = s.irqMaskLatch := rfl
@[simp] theorem idle_invalidMode (n : Nat) : (s.idle n).invalidMode = s.invalidMode := rfl
@[simp] theorem idle_bankConflict (n : Nat) : (s.idle n).bankConflict = s.bankConflict := rfl
@[simp] theorem idle_started (n : Nat) : (s.idle n).started = s.started := rfl
@[simp] theorem idle_draws (n : Nat) : (s.idle n).draws = s.draws := rfl

@[simp] theorem next_bankLo (t : Bool) : (s.next t).bankLo = s.bankLo := rfl
@[simp] theorem next_bankHi (t : Bool) : (s.next t).bankHi = s.bankHi := rfl
@[simp] theorem next_cpsr (t : Bool) : (s.next t).cpsr = s.cpsr := rfl
@[simp] theorem next_spsr (t : Bool) : (s.next t).spsr = s.spsr := rfl
@[simp] theorem next_slot0 (t : Bool) : (s.next t).slot0 = s.slot0 := rfl
@[simp] theorem next_slot1 (t : Bool) : (s.next t).slot1 = s.slot1 := rfl
@[simp] theorem next_fetchKind (t : Bool) : (s.next t).fetchKind = s.fetchKind := rfl
@[simp] theorem next_irqMaskLatch (t : Bool) : (s.next t).irqMaskLatch = s.irqMaskLatch := rfl
@[simp] theorem next_invalidMode (t : Bool) : (s.next t).invalidMode = s.invalidMode := rfl
@[simp] theorem next_started (t : Bool) : (s.next t).started = s.started := rfl
@[simp] theorem next_draws (t : Bool) : (s.next t).draws = s.draws := rfl
@[simp] theorem next_world (t : Bool) : (s.next t).world = s.world := rfl

@[simp] theorem reload_bankLo (a : Word) : (s.reload a).bankLo = s.bankLo := rfl
@[simp] theorem reload_bankHi (a : Word) : (s.reload a).bankHi = s.bankHi := rfl
@[simp] theorem reload_cpsr (a : Word) : (s.reload a).cpsr = s.cpsr := rfl
@[simp] theorem reload_spsr (a : Word) : (s.reload a).spsr = s.spsr := rfl
@[simp] theorem reload_irqMaskLatch (a : Word) : (s.reload a).irqMaskLatch = s.irqMaskLatch := rfl
@[simp] theorem reload_invalidMode (a : Word) : (s.reload a).invalidMode = s.invalidMode := rfl
@[simp] theorem reload_bankConflict (a : Word) : (s.reload a).bankConflict = s.bankConflict := rfl
@[simp] theorem reload_started (a : Word) : (s.reload a).started = s.started := rfl
@[simp] theorem reload_draws (a : Word) : (s.reload a).draws = s.draws := rfl

@[simp] theorem branchTo_bankLo (a : Word) : (s.branchTo a).bankLo = s.bankLo := rfl
@[simp] theorem branchTo_bankHi (a : Word) : (s.branchTo a).bankHi = s.bankHi := rfl
@[simp] theorem branchTo_cpsr (a : Word) : (s.branchTo a).cpsr = s.cpsr := rfl
@[simp] theorem branchTo_spsr (a : Word) : (s.branchTo a).spsr = s.spsr := rfl
@[simp] theorem branchTo_irqMaskLatch (a : Word) : (s.branchTo a).irqMaskLatch = s.irqMaskLatch := rfl
@[simp] theorem branchTo_invalidMode (a : Word) : (s.branchTo a).invalidMode = s.invalidMode := rfl
@[simp] theorem branchTo_started (a : Word) : (s.branchTo a).started = s.started := rfl
@[simp] theorem branchTo_draws (a : Word) : (s.branchTo a).draws = s.draws := rfl

@[simp] theorem enter_irqMaskLatch (m : Mode) (v l : Word) : (s.enter m v l).irqMaskLatch = s.irqMaskLatch := by simp [State.enter]
@[simp] theorem enter_invalidMode (m : Mode) (v l : Word) : (s.enter m v l).invalidMode = s.invalidMode := by simp [State.enter]
@[simp] theorem enter_started (m : Mode) (v l : Word) : (s.enter m v l).started = s.started := by simp [State.enter]
@[simp] theorem enter_draws (m : Mode) (v l : Word) : (s.enter m v l).draws = s.draws := by simp [State.enter]

@[simp] theorem latchIrqMask_x : (s.latchIrqMask).x = s.x := rfl
@[simp] theorem latchIrqMask_bankLo : (s.latchIrqMask).bankLo = s.bankLo := rfl
@[simp] theorem latchIrqMask_bankHi : (s.latchIrqMask).bankHi = s.bankHi := rfl
@[simp] theorem latchIrqMask_cpsr : (s.latchIrqMask).cpsr = s.cpsr := rfl
@[simp] theorem latchIrqMask_spsr : (s.latchIrqMask).spsr = s.spsr := rfl
@[simp] theorem latchIrqMask_slot0 : (s.latchIrqMask).slot0 = s.slot0 := rfl
@[simp] theorem latchIrqMask_slot1 : (s.latchIrqMask).slot1 = s.slot1 := rfl
@[simp] theorem latchIrqMask_fetchKind : (s.latchIrqMask).fetchKind = s.fetchKind := rfl
@[simp] theorem latchIrqMask_invalidMode : (s.latchIrqMask).invalidMode = s.invalidMode := rfl
@[simp] theorem latchIrqMask_bankConflict : (s.latchIrqMask).bankConflict = s.bankConflict := rfl
@[simp] theorem latchIrqMask_started : (s.latchIrqMask).started = s.started := rfl
@[simp] theorem latchIrqMask_draws : (s.latchIrqMask).draws = s.draws := rfl
@[simp] theorem latchIrqMask_world : (s.latchIrqMask).world = s.world := rfl

@[simp] theorem alignStep_bankLo : (s.alignStep).bankLo = s.bankLo := rfl
@[simp] theorem alignStep_bankHi : (s.alignStep).bankHi = s.bankHi := rfl
@[simp] theorem alignStep_cpsr : (s.alignStep).cpsr = s.cpsr := rfl
@[simp] theorem alignStep_spsr : (s.alignStep).spsr = s.spsr := rfl
@[simp] theorem alignStep_slot0 : (s.alignStep).slot0 = s.slot0 := rfl
@[simp] theorem alignStep_slot1 : (s.alignStep).slot1 = s.slot1 := rfl
@[simp] theorem alignStep_fetchKind : (s.alignStep).fetchKind = s.fetchKind := rfl
@[simp] theorem alignStep_irqMaskLatch : (s.alignStep).irqMaskLatch = s.irqMaskLatch := rfl
@[simp] theorem alignStep_invalidMode : (s.alignStep).invalidMode = s.invalidMode := rfl
@[simp] theorem alignStep_bankConflict : (s.alignStep).bankConflict = s.bankConflict := rfl
@[simp] theorem alignStep_started : (s.alignStep).started = s.started := rfl
@[simp] theorem alignStep_draws : (s.alignStep).draws = s.draws := rfl
@[simp] theorem alignStep_world : (s.alignStep).world = s.world := rfl

@[simp] theorem fetch_x : (s.fetch).x = s.x := rfl
@[simp] theorem fetch_bankLo : (s.fetch).bankLo = s.bankLo := rfl
@[simp] theorem fetch_bankHi : (s.fetch).bankHi = s.bankHi := rfl
@[simp] theorem fetch_cpsr : (s.fetch).cpsr = s.cpsr := rfl
@[simp] theorem fetch_spsr : (s.fetch).spsr = s.spsr := rfl
@[simp] theorem fetch_irqMaskLatch : (s.fetch).irqMaskLatch = s.irqMaskLatch := rfl
@[simp] theorem fetch_invalidMode : (s.fetch).invalidMode = s.invalidMode := rfl
@[simp] theorem fetch_bankConflict : (s.fetch).bankConflict = s.bankConflict := rfl
@[simp] theorem fetch_started : (s.fetch).started = s.started := rfl
@[simp] theorem fetch_draws : (s.fetch).draws = s.draws := rfl

@[simp] theorem prepare_bankLo : (s.prepare).bankLo = s.bankLo := rfl
@[simp] theorem prepare_bankHi : (s.prepare).bankHi = s.bankHi := rfl
@[simp] theorem prepare_cpsr : (s.prepare).cpsr = s.cpsr := rfl
@[simp] theorem prepare_spsr : (s.prepare).spsr = s.spsr := rfl
@[simp] theorem prepare_invalidMode : (s.prepare).invalidMode = s.invalidMode := rfl
@[simp] theorem prepare_bankConflict : (s.prepare).bankConflict = s.bankConflict := rfl
@[simp] theorem prepare_started : (s.prepare).started = s.started := rfl
@[simp] theorem prepare_draws : (s.prepare).draws = s.draws := rfl

@[simp] theorem beginStep_x : (s.beginStep).x = s.x := rfl
@[simp] theorem beginStep_bankLo : (s.beginStep).bankLo = s.bankLo := rfl
@[simp] theorem beginStep_bankHi : (s.beginStep).bankHi = s.bankHi := rfl
@[simp] theorem beginStep_cpsr : (s.beginStep).cpsr = s.cpsr := rfl
@[simp] theorem beginStep_spsr : (s.beginStep).spsr = s.spsr := rfl
@[simp] theorem beginStep_slot0 : (s.beginStep).slot0 = s.slot0 := rfl
@[simp] theorem beginStep_slot1 : (s.beginStep).slot1 = s.slot1 := rfl
@[simp] theorem beginStep_fetchKind : (s.beginStep).fetchKind = s.fetchKind := rfl
@[simp] theorem beginStep_irqMaskLatch : (s.beginStep).irqMaskLatch = s.irqMaskLatch := rfl
@[simp] theorem beginStep_invalidMode : (s.beginStep).invalidMode = s.invalidMode := rfl
@[simp] theorem beginStep_bankConflict : (s.beginStep).bankConflict = s.bankConflict := rfl
@[simp] theorem beginStep_started : (s.beginStep).started = s.started := rfl
@[simp] theorem beginStep_draws : (s.beginStep).draws = s.draws := rfl

/-! ## Observers of fields an update leaves alone -/

@[simp] theorem set_flags (r : Reg) (v : Word) : (s.set r v).flags = s.flags := rfl
@[simp] theorem set_thumb (r : Reg) (v : Word) : (s.set r v).thumb = s.thumb := rfl
@[simp] theorem set_irqDisable (r : Reg) (v : Word) : (s.set r v).irqDisable = s.irqDisable := rfl
@[simp] theorem set_mode (r : Reg) (v : Word) : (s.set r v).mode = s.mode := rfl
@[simp] theorem set_bank (r : Reg) (v : Word) : (s.set r v).bank = s.bank := rfl
@[simp] theorem set_passes (r : Reg) (v : Word) (k : Cond) : (s.set r v).passes k = s.passes k := rfl
@[simp] theorem set_spsrOf (r : Reg) (v : Word) (b' : Bank) : (s.set r v).spsrOf b' = s.spsrOf b' := by cases b' <;> rfl

@[simp] theorem setCpsr_get (w : Word) (r : Reg) : (s.setCpsr w).get r = s.get r := rfl

@[simp] theorem setFlags_get (f : Flags) (r : Reg) : (s.setFlags f).get r = s.get r := rfl

@[simp] theorem setFetchKind_get (a : AccessKind) (r : Reg) : (s.setFetchKind a).get r = s.get r := rfl
@[simp] theorem setFetchKind_flags (a : AccessKind) : (s.setFetchKind a).flags = s.flags := rfl
@[simp] theorem setFetchKind_thumb (a : AccessKind) : (s.setFetchKind a).thumb = s.thumb := rfl
@[simp] theorem setFetchKind_irqDisable (a : AccessKind) : (s.setFetchKind a).irqDisable = s.irqDisable := rfl
@[simp] theorem setFetchKind_mode (a : AccessKind) : (s.setFetchKind a).mode = s.mode := rfl
@[simp] theorem setFetchKind_bank (a : AccessKind) : (s.setFetchKind a).bank = s.bank := rfl
@[simp] theorem setFetchKind_passes (a : AccessKind) (k : Cond) : (s.setFetchKind a).passes k = s.passes k := rfl
@[simp] theorem setFetchKind_spsrOf (a : AccessKind) (b' : Bank) : (s.setFetchKind a).spsrOf b' = s.spsrOf b' := by cases b' <;> rfl

@[simp] theorem setLoBank_get (b : Bank) (p : Pair) (r : Reg) : (s.setLoBank b p).get r = s.get r := by simp only [State.get, setLoBank_x]
@[simp] theorem setLoBank_flags (b : Bank) (p : Pair) : (s.setLoBank b p).flags = s.flags := by simp only [State.flags, setLoBank_cpsr]
@[simp] theorem setLoBank_thumb (b : Bank) (p : Pair) : (s.setLoBank b p).thumb = s.thumb := by simp only [State.thumb, setLoBank_cpsr]
@[simp] theorem setLoBank_irqDisable (b : Bank) (p : Pair) : (s.setLoBank b p).irqDisable = s.irqDisable := by simp only [State.irqDisable, setLoBank_cpsr]
@[simp] theorem setLoBank_mode (b : Bank) (p : Pair) : (s.setLoBank b p).mode = s.mode := by simp only [State.mode, setLoBank_cpsr]
@[simp] theorem setLoBank_bank (b : Bank) (p : Pair) : (s.setLoBank b p).bank = s.bank := by simp only [State.bank, State.mode, setLoBank_cpsr]
@[simp] theorem setLoBank_passes (b : Bank) (p : Pair) (k : Cond) : (s.setLoBank b p).passes k = s.passes k := by simp only [State.passes, State.flags, setLoBank_cpsr]
@[simp] theorem setLoBank_spsrOf (b : Bank) (p : Pair) (b' : Bank) : (s.setLoBank b p).spsrOf b' = s.spsrOf b' := by cases b' <;> simp [State.spsrOf]

@[simp] theorem setHiBank_get (b : Bool) (v : Vector Word 5) (r : Reg) : (s.setHiBank b v).get r = s.get r := by simp only [State.get, setHiBank_x]
@[simp] theorem setHiBank_flags (b : Bool) (v : Vector Word 5) : (s.setHiBank b v).flags = s.flags := by simp only [State.flags, setHiBank_cpsr]
@[simp] theorem setHiBank_thumb (b : Bool) (v : Vector Word 5) : (s.setHiBank b v).thumb = s.thumb := by simp only [State.thumb, setHiBank_cpsr]
@[simp] theorem setHiBank_irqDisable (b : Bool) (v : Vector Word 5) : (s.setHiBank b v).irqDisable = s.irqDisable := by simp only [State.irqDisable, setHiBank_cpsr]
@[simp] theorem setHiBank_mode (b : Bool) (v : Vector Word 5) : (s.setHiBank b v).mode = s.mode := by simp only [State.mode, setHiBank_cpsr]
@[simp] theorem setHiBank_bank (b : Bool) (v : Vector Word 5) : (s.setHiBank b v).bank = s.bank := by simp only [State.bank, State.mode, setHiBank_cpsr]
@[simp] theorem setHiBank_passes (b : Bool) (v : Vector Word 5) (k : Cond) : (s.setHiBank b v).passes k = s.passes k := by simp only [State.passes, State.flags, setHiBank_cpsr]
@[simp] theorem setHiBank_spsrOf (b : Bool) (v : Vector Word 5) (b' : Bank) : (s.setHiBank b v).spsrOf b' = s.spsrOf b' := by cases b' <;> simp [State.spsrOf]

@[simp] theorem swapHigh_flags (a b : Bool) : (s.swapHigh a b).flags = s.flags := by simp only [State.flags, swapHigh_cpsr]
@[simp] theorem swapHigh_thumb (a b : Bool) : (s.swapHigh a b).thumb = s.thumb := by simp only [State.thumb, swapHigh_cpsr]
@[simp] theorem swapHigh_irqDisable (a b : Bool) : (s.swapHigh a b).irqDisable = s.irqDisable := by simp only [State.irqDisable, swapHigh_cpsr]
@[simp] theorem swapHigh_mode (a b : Bool) : (s.swapHigh a b).mode = s.mode := by simp only [State.mode, swapHigh_cpsr]
@[simp] theorem swapHigh_bank (a b : Bool) : (s.swapHigh a b).bank = s.bank := by simp only [State.bank, State.mode, swapHigh_cpsr]
@[simp] theorem swapHigh_passes (a b : Bool) (k : Cond) : (s.swapHigh a b).passes k = s.passes k := by simp only [State.passes, State.flags, swapHigh_cpsr]
@[simp] theorem swapHigh_spsrOf (a b : Bool) (b' : Bank) : (s.swapHigh a b).spsrOf b' = s.spsrOf b' := by cases b' <;> simp [State.spsrOf]

@[simp] theorem swapLow_flags (a b : Bank) : (s.swapLow a b).flags = s.flags := by simp only [State.flags, swapLow_cpsr]
@[simp] theorem swapLow_thumb (a b : Bank) : (s.swapLow a b).thumb = s.thumb := by simp only [State.thumb, swapLow_cpsr]
@[simp] theorem swapLow_irqDisable (a b : Bank) : (s.swapLow a b).irqDisable = s.irqDisable := by simp only [State.irqDisable, swapLow_cpsr]
@[simp] theorem swapLow_mode (a b : Bank) : (s.swapLow a b).mode = s.mode := by simp only [State.mode, swapLow_cpsr]
@[simp] theorem swapLow_bank (a b : Bank) : (s.swapLow a b).bank = s.bank := by simp only [State.bank, State.mode, swapLow_cpsr]
@[simp] theorem swapLow_passes (a b : Bank) (k : Cond) : (s.swapLow a b).passes k = s.passes k := by simp only [State.passes, State.flags, swapLow_cpsr]
@[simp] theorem swapLow_spsrOf (a b : Bank) (b' : Bank) : (s.swapLow a b).spsrOf b' = s.spsrOf b' := by cases b' <;> simp [State.spsrOf]


@[simp] theorem setSpsr_get (b : Bank) (w : Word) (r : Reg) : (s.setSpsr b w).get r = s.get r := by simp only [State.get, setSpsr_x]
@[simp] theorem setSpsr_flags (b : Bank) (w : Word) : (s.setSpsr b w).flags = s.flags := by simp only [State.flags, setSpsr_cpsr]
@[simp] theorem setSpsr_thumb (b : Bank) (w : Word) : (s.setSpsr b w).thumb = s.thumb := by simp only [State.thumb, setSpsr_cpsr]
@[simp] theorem setSpsr_irqDisable (b : Bank) (w : Word) : (s.setSpsr b w).irqDisable = s.irqDisable := by simp only [State.irqDisable, setSpsr_cpsr]
@[simp] theorem setSpsr_mode (b : Bank) (w : Word) : (s.setSpsr b w).mode = s.mode := by simp only [State.mode, setSpsr_cpsr]
@[simp] theorem setSpsr_bank (b : Bank) (w : Word) : (s.setSpsr b w).bank = s.bank := by simp only [State.bank, State.mode, setSpsr_cpsr]
@[simp] theorem setSpsr_passes (b : Bank) (w : Word) (k : Cond) : (s.setSpsr b w).passes k = s.passes k := by simp only [State.passes, State.flags, setSpsr_cpsr]

@[simp] theorem call_get (c : BusCall) (r : Reg) : (s.call c).get r = s.get r := rfl
@[simp] theorem call_flags (c : BusCall) : (s.call c).flags = s.flags := rfl
@[simp] theorem call_thumb (c : BusCall) : (s.call c).thumb = s.thumb := rfl
@[simp] theorem call_irqDisable (c : BusCall) : (s.call c).irqDisable = s.irqDisable := rfl
@[simp] theorem call_mode (c : BusCall) : (s.call c).mode = s.mode := rfl
@[simp] theorem call_bank (c : BusCall) : (s.call c).bank = s.bank := rfl
@[simp] theorem call_passes (c : BusCall) (k : Cond) : (s.call c).passes k = s.passes k := rfl
@[simp] theorem call_spsrOf (c : BusCall) (b' : Bank) : (s.call c).spsrOf b' = s.spsrOf b' := by cases b' <;> rfl

@[simp] theorem calls_get (cs : List BusCall) (r : Reg) : (s.calls cs).get r = s.get r := rfl
@[simp] theorem calls_flags (cs : List BusCall) : (s.calls cs).flags = s.flags := rfl
@[simp] theorem calls_thumb (cs : List BusCall) : (s.calls cs).thumb = s.thumb := rfl
@[simp] theorem calls_irqDisable (cs : List BusCall) : (s.calls cs).irqDisable = s.irqDisable := rfl
@[simp] theorem calls_mode (cs : List BusCall) : (s.calls cs).mode = s.mode := rfl
@[simp] theorem calls_bank (cs : List BusCall) : (s.calls cs).bank = s.bank := rfl
@[simp] theorem calls_passes (cs : List BusCall) (k : Cond) : (s.calls cs).passes k = s.passes k := rfl
@[simp] theorem calls_spsrOf (cs : List BusCall) (b' : Bank) : (s.calls cs).spsrOf b' = s.spsrOf b' := by cases b' <;> rfl

@[simp] theorem busRead_get (z : Size) (a : Word) (f : Access) (r : Reg) : (s.busRead z a f).get r = s.get r := rfl
@[simp] theorem busRead_flags (z : Size) (a : Word) (f : Access) : (s.busRead z a f).flags = s.flags := rfl
@[simp] theorem busRead_thumb (z : Size) (a : Word) (f : Access) : (s.busRead z a f).thumb = s.thumb := rfl
@[simp] theorem busRead_irqDisable (z : Size) (a : Word) (f : Access) : (s.busRead z a f).irqDisable = s.irqDisable := rfl
@[simp] theorem busRead_mode (z : Size) (a : Word) (f : Access) : (s.busRead z a f).mode = s.mode := rfl
@[simp] theorem busRead_bank (z : Size) (a : Word) (f : Access) : (s.busRead z a f).bank = s.bank := rfl
@[simp] theorem busRead_passes (z : Size) (a : Word) (f : Access) (k : Cond) : (s.busRead z a f).passes k = s.passes k := rfl
@[simp] theorem busRead_spsrOf (z : Size) (a : Word) (f : Access) (b' : Bank) : (s.busRead z a f).spsrOf b' = s.spsrOf b' := by cases b' <;> rfl

@[simp] theorem busWrite_get (z : Size) (a v : Word) (f : Access) (r : Reg) : (s.busWrite z a v f).get r = s.get r := rfl
@[simp] theorem busWrite_flags (z : Size) (a v : Word) (f : Access) : (s.busWrite z a v f).flags = s.flags := rfl
@[simp] theorem busWrite_thumb (z : Size) (a v : Word) (f : Access) : (s.busWrite z a v f).thumb = s.thumb := rfl
@[simp] theorem busWrite_irqDisable (z : Size) (a v : Word) (f : Access) : (s.busWrite z a v f).irqDisable = s.irqDisable := rfl
@[simp] theorem busWrite_mode (z : Size) (a v : Word) (f : Access) : (s.busWrite z a v f).mode = s.mode := rfl
@[simp] theorem busWrite_bank (z : Size) (a v : Word) (f : Access) : (s.busWrite z a v f).bank = s.bank := rfl
@[simp] theorem busWrite_passes (z : Size) (a v : Word) (f : Access) (k : Cond) : (s.busWrite z a v f).passes k = s.passes k := rfl
@[simp] theorem busWrite_spsrOf (z : Size) (a v : Word) (f : Access) (b' : Bank) : (s.busWrite z a v f).spsrOf b' = s.spsrOf b' := by cases b' <;> rfl

@[simp] theorem idle_get (n : Nat) (r : Reg) : (s.idle n).get r = s.get r := rfl
@[simp] theorem idle_flags (n : Nat) : (s.idle n).flags = s.flags := rfl
@[simp] theorem idle_thumb (n : Nat) : (s.idle n).thumb = s.thumb := rfl
@[simp] theorem idle_irqDisable (n : Nat) : (s.idle n).irqDisable = s.irqDisable := rfl
@[simp] theorem idle_mode (n : Nat) : (s.idle n).mode = s.mode := rfl
@[simp] theorem idle_bank (n : Nat) : (s.idle n).bank = s.bank := rfl
@[simp] theorem idle_passes (n : Nat) (k : Cond) : (s.idle n).passes k = s.passes k := rfl
@[simp] theorem idle_spsrOf (n : Nat) (b' : Bank) : (s.idle n).spsrOf b' = s.spsrOf b' := by cases b' <;> rfl

@[simp] theorem next_flags (t : Bool) : (s.next t).flags = s.flags := rfl
@[simp] theorem next_thumb (t : Bool) : (s.next t).thumb = s.thumb := rfl
@[simp] theorem next_irqDisable (t : Bool) : (s.next t).irqDisable = s.irqDisable := rfl
@[simp] theorem next_mode (t : Bool) : (s.next t).mode = s.mode := rfl
@[simp] theorem next_bank (t : Bool) : (s.next t).bank = s.bank := rfl
@[simp] theorem next_passes (t : Bool) (k : Cond) : (s.next t).passes k = s.passes k := rfl
@[simp] theorem next_spsrOf (t : Bool) (b' : Bank) : (s.next t).spsrOf b' = s.spsrOf b' := by cases b' <;> rfl

@[simp] theorem reload_flags (a : Word) : (s.reload a).flags = s.flags := rfl
@[simp] theorem reload_thumb (a : Word) : (s.reload a).thumb = s.thumb := rfl
@[simp] theorem reload_irqDisable (a : Word) : (s.reload a).irqDisable = s.irqDisable := rfl
@[simp] theorem reload_mode (a : Word) : (s.reload a).mode = s.mode := rfl
@[simp] theorem reload_bank (a : Word) : (s.reload a).bank = s.bank := rfl
@[simp] theorem reload_passes (a : Word) (k : Cond) : (s.reload a).passes k = s.passes k := rfl
@[simp] theorem reload_spsrOf (a : Word) (b' : Bank) : (s.reload a).spsrOf b' = s.spsrOf b' := by cases b' <;> rfl

@[simp] theorem branchTo_flags (a : Word) : (s.branchTo a).flags = s.flags := rfl
@[simp] theorem branchTo_thumb (a : Word) : (s.branchTo a).thumb = s.thumb := rfl
@[simp] theorem branchTo_irqDisable (a : Word) : (s.branchTo a).irqDisable = s.irqDisable := rfl
@[simp] theorem branchTo_mode (a : Word) : (s.branchTo a).mode = s.mode := rfl
@[simp] theorem branchTo_bank (a : Word) : (s.branchTo a).bank = s.bank := rfl
@[simp] theorem branchTo_passes (a : Word) (k : Cond) : (s.branchTo a).passes k = s.passes k := rfl
@[simp] theorem branchTo_spsrOf (a : Word) (b' : Bank) : (s.branchTo a).spsrOf b' = s.spsrOf b' := by cases b' <;> rfl


@[simp] theorem latchIrqMask_get (r : Reg) : (s.latchIrqMask).get r = s.get r := rfl
@[simp] theorem latchIrqMask_flags : (s.latchIrqMask).flags = s.flags := rfl
@[simp] theorem latchIrqMask_thumb : (s.latchIrqMask).thumb = s.thumb := rfl
@[simp] theorem latchIrqMask_irqDisable : (s.latchIrqMask).irqDisable = s.irqDisable := rfl
@[simp] theorem latchIrqMask_mode : (s.latchIrqMask).mode = s.mode := rfl
@[simp] theorem latchIrqMask_bank : (s.latchIrqMask).bank = s.bank := rfl
@[simp] theorem latchIrqMask_passes (k : Cond) : (s.latchIrqMask).passes k = s.passes k := rfl
@[simp] theorem latchIrqMask_spsrOf (b' : Bank) : (s.latchIrqMask).spsrOf b' = s.spsrOf b' := by cases b' <;> rfl

@[simp] theorem alignStep_flags : (s.alignStep).flags = s.flags := rfl
@[simp] theorem alignStep_thumb : (s.alignStep).thumb = s.thumb := rfl
@[simp] theorem alignStep_irqDisable : (s.alignStep).irqDisable = s.irqDisable := rfl
@[simp] theorem alignStep_mode : (s.alignStep).mode = s.mode := rfl
@[simp] theorem alignStep_bank : (s.alignStep).bank = s.bank := rfl
@[simp] theorem alignStep_passes (k : Cond) : (s.alignStep).passes k = s.passes k := rfl
@[simp] theorem alignStep_spsrOf (b' : Bank) : (s.alignStep).spsrOf b' = s.spsrOf b' := by cases b' <;> rfl

@[simp] theorem fetch_get (r : Reg) : (s.fetch).get r = s.get r := rfl
@[simp] theorem fetch_flags : (s.fetch).flags = s.flags := rfl
@[simp] theorem fetch_thumb : (s.fetch).thumb = s.thumb := rfl
@[simp] theorem fetch_irqDisable : (s.fetch).irqDisable = s.irqDisable := rfl
@[simp] theorem fetch_mode : (s.fetch).mode = s.mode := rfl
@[simp] theorem fetch_bank : (s.fetch).bank = s.bank := rfl
@[simp] theorem fetch_passes (k : Cond) : (s.fetch).passes k = s.passes k := rfl
@[simp] theorem fetch_spsrOf (b' : Bank) : (s.fetch).spsrOf b' = s.spsrOf b' := by cases b' <;> rfl

@[simp] theorem prepare_flags : (s.prepare).flags = s.flags := rfl
@[simp] theorem prepare_thumb : (s.prepare).thumb = s.thumb := rfl
@[simp] theorem prepare_irqDisable : (s.prepare).irqDisable = s.irqDisable := rfl
@[simp] theorem prepare_mode : (s.prepare).mode = s.mode := rfl
@[simp] theorem prepare_bank : (s.prepare).bank = s.bank := rfl
@[simp] theorem prepare_passes (k : Cond) : (s.prepare).passes k = s.passes k := rfl
@[simp] theorem prepare_spsrOf (b' : Bank) : (s.prepare).spsrOf b' = s.spsrOf b' := by cases b' <;> rfl

@[simp] theorem beginStep_get (r : Reg) : (s.beginStep).get r = s.get r := rfl
@[simp] theorem beginStep_flags : (s.beginStep).flags = s.flags := rfl
@[simp] theorem beginStep_thumb : (s.beginStep).thumb = s.thumb := rfl
@[simp] theorem beginStep_irqDisable : (s.beginStep).irqDisable = s.irqDisable := rfl
@[simp] theorem beginStep_mode : (s.beginStep).mode = s.mode := rfl
@[simp] theorem beginStep_bank : (s.beginStep).bank = s.bank := rfl
@[simp] theorem beginStep_passes (k : Cond) : (s.beginStep).passes k = s.passes k := rfl
@[simp] theorem beginStep_spsrOf (b' : Bank) : (s.beginStep).spsrOf b' = s.spsrOf b' := by cases b' <;> rfl

/-! ## What an update writes -/

@[simp] theorem set_x (r : Reg) (v : Word) : (s.set r v).x = s.x.set r.val v := rfl
@[simp] theorem setCpsr_cpsr (w : Word) : (s.setCpsr w).cpsr = w := rfl
@[simp] theorem setFlags_cpsr (f : Flags) : (s.setFlags f).cpsr = withFlags s.cpsr f := rfl
@[simp] theorem setFetchKind_fetchKind (k : AccessKind) : (s.setFetchKind k).fetchKind = k := rfl
@[simp] theorem call_world (c : BusCall) : (s.call c).world = s.world.play [c] := rfl
@[simp] theorem calls_world (cs : List BusCall) : (s.calls cs).world = s.world.play cs := rfl
@[simp] theorem busRead_world (z : Size) (a : Word) (f : Access) :
    (s.busRead z a f).world = s.world.play [.read z a f] := rfl
@[simp] theorem busWrite_world (z : Size) (a v : Word) (f : Access) :
    (s.busWrite z a v f).world = s.world.play [.write z a (busValue z v) f] := rfl
@[simp] theorem idle_world (n : Nat) : (s.idle n).world = s.world.play (List.replicate n .idle) := rfl
@[simp] theorem fetch_world :
    s.fetch.world = s.world.play [.read (opSize s.thumb) (s.get regPc) (codeAcc s.fetchKind)] := rfl
@[simp] theorem prepare_world :
    s.prepare.world =
      s.world.play [.read (opSize s.thumb) (s.alignStep.get regPc) (codeAcc s.fetchKind)] := rfl
@[simp] theorem next_bankConflict (t : Bool) : (s.next t).bankConflict = false := rfl
@[simp] theorem branchTo_bankConflict (a : Word) : (s.branchTo a).bankConflict = false := rfl
@[simp] theorem branchTo_fetchKind (a : Word) : (s.branchTo a).fetchKind = .s := rfl
@[simp] theorem branchTo_slot0 (a : Word) :
    (s.branchTo a).slot0 = Memory.read (s.memAfter []) (opSize s.thumb) (alignPc s.thumb a) := rfl
@[simp] theorem branchTo_slot1 (a : Word) :
    (s.branchTo a).slot1 =
      Memory.read (s.memAfter [fetch0 s.thumb a]) (opSize s.thumb) (alignPc s.thumb a + opWidth s.thumb) := rfl
@[simp] theorem branchTo_world (a : Word) :
    (s.branchTo a).world = s.world.play [fetch0 s.thumb a, fetch1 s.thumb a] := rfl
/-- What the next call reads. -/
theorem heard_eq : s.heard = s.memAfter [] := rfl
/-- What a later call reads depends on the world alone. -/
theorem memAfter_congr {u : State} {cs ds : List BusCall} (h : u.world = s.world.play cs) :
    u.memAfter ds = s.memAfter (cs ++ ds) := by rw [memAfter, memAfter, h, World.play_append]
@[simp] theorem latchIrqMask_irqMaskLatch : s.latchIrqMask.irqMaskLatch = s.irqDisable := rfl

/-! ## Reading a register after writing one -/

/-- A register reads what was last written to it, and a write leaves the others alone. -/
theorem get_set (r q : Reg) (v : Word) : (s.set r v).get q = if q = r then v else s.get q := by
  simp only [State.get, State.set, Vector.getElem_set]
  by_cases h : q = r
  · simp [h]
  · have : r.val ≠ q.val := fun e => h (Fin.ext e.symm)
    simp [h, this]

@[simp] theorem get_set_self (r : Reg) (v : Word) : (s.set r v).get r = v := by simp [get_set]

theorem get_set_ne {r q : Reg} (h : q ≠ r) (v : Word) : (s.set r v).get q = s.get q := by simp [get_set, h]

/-- `next` moves r15 alone. -/
theorem get_next (t : Bool) (q : Reg) :
    (s.next t).get q = if q = regPc then s.get regPc + opWidth t else s.get q := by
  show (s.set regPc _).get q = _
  rw [get_set]

/-- A branch moves r15 alone. -/
theorem get_branchTo (a : Word) (q : Reg) :
    (s.branchTo a).get q =
      if q = regPc then alignPc s.thumb a + opWidth s.thumb + opWidth s.thumb else s.get q := by
  show (State.set _ regPc _).get q = _
  rw [get_set]
  simp [State.get]

end State

end Sys2Proof.Machine
end

