-- ==== Sys2Proof/Laws/Status.lean ====
section
/-! SUPPORT. The fields of a status register: what each update writes and what it leaves. -/

namespace Sys2Proof.Machine

open Sys2Proof

/-- `setBit` replaces one bit and no other. -/
theorem getLsbD_setBit (w : Word) (i : Nat) (b : Bool) (k : Nat) (hk : k < 32) :
    (setBit w i b).getLsbD k = if k = i then b else w.getLsbD k := by
  unfold setBit
  by_cases h : k = i
  · subst h; cases b <;> simp [hk]
  · cases b <;> simp [h, hk] <;> omega

/-- `setMode` replaces bits 4:0 and no other. -/
theorem getLsbD_setMode (w : Word) (m : BitVec 5) (k : Nat) (hk : k < 32) :
    (setMode w m).getLsbD k = if k < 5 then m.getLsbD k else w.getLsbD k := by
  have h : (0xFFFFFFE0#32).getLsbD k = decide (5 ≤ k) := by
    have : ∀ j : Fin 32, (0xFFFFFFE0#32).getLsbD j.val = decide (5 ≤ j.val) := by decide
    exact this ⟨k, hk⟩
  simp only [setMode, BitVec.getLsbD_or, BitVec.getLsbD_and, h, BitVec.getLsbD_setWidth, hk, decide_true,
    Bool.true_and]
  by_cases h5 : k < 5
  · simp [h5, show ¬5 ≤ k by omega]
  · simp [h5, show 5 ≤ k by omega]

/-- A status register keeps bits 27:0 when its flags are replaced. -/
theorem getLsbD_withFlags (w : Word) (f : Flags) (k : Nat) (hk : k < 28) :
    (withFlags w f).getLsbD k = w.getLsbD k := by
  unfold withFlags
  simp only [getLsbD_setBit _ _ _ k (by omega)]
  simp [show k ≠ 28 by omega, show k ≠ 29 by omega, show k ≠ 30 by omega, show k ≠ 31 by omega]

/-- The flags written are the flags read. -/
@[simp] theorem flagsOf_withFlags (w : Word) (f : Flags) : flagsOf (withFlags w f) = f := by
  simp only [flagsOf, withFlags, getLsbD_setBit _ _ _ 31 (by decide), getLsbD_setBit _ _ _ 30 (by decide),
    getLsbD_setBit _ _ _ 29 (by decide), getLsbD_setBit _ _ _ 28 (by decide)]
  simp

/-- The mode field written is the mode field read. -/
@[simp] theorem modeField_setMode (w : Word) (m : BitVec 5) : modeField (setMode w m) = m := by
  apply BitVec.eq_of_getLsbD_eq
  intro i hi
  simp [modeField, getLsbD_setMode _ _ i (by omega), hi]

/-- Replacing the flags leaves the mode field. -/
@[simp] theorem modeField_withFlags (w : Word) (f : Flags) : modeField (withFlags w f) = modeField w := by
  apply BitVec.eq_of_getLsbD_eq
  intro i hi
  simp [modeField, hi, getLsbD_withFlags w f i (by omega)]

/-- Replacing a bit above the mode field leaves the mode field. -/
theorem modeField_setBit (w : Word) (i : Nat) (b : Bool) (h : 5 ≤ i) : modeField (setBit w i b) = modeField w := by
  apply BitVec.eq_of_getLsbD_eq
  intro k hk
  simp [modeField, hk, getLsbD_setBit w i b k (by omega), show k ≠ i by omega]

/-- Replacing the mode leaves the flags. -/
@[simp] theorem flagsOf_setMode (w : Word) (m : BitVec 5) : flagsOf (setMode w m) = flagsOf w := by
  simp only [flagsOf, getLsbD_setMode _ _ 31 (by decide), getLsbD_setMode _ _ 30 (by decide),
    getLsbD_setMode _ _ 29 (by decide), getLsbD_setMode _ _ 28 (by decide)]
  simp

/-- Replacing a bit below the flags leaves the flags. -/
theorem flagsOf_setBit (w : Word) (i : Nat) (b : Bool) (h : i < 28) : flagsOf (setBit w i b) = flagsOf w := by
  simp only [flagsOf, getLsbD_setBit _ _ _ 31 (by decide), getLsbD_setBit _ _ _ 30 (by decide),
    getLsbD_setBit _ _ _ 29 (by decide), getLsbD_setBit _ _ _ 28 (by decide), show (31 : Nat) ≠ i by omega,
    show (30 : Nat) ≠ i by omega, show (29 : Nat) ≠ i by omega, show (28 : Nat) ≠ i by omega, if_false]

/-- Writing back the mode that is there changes nothing. -/
theorem setMode_self (w : Word) (m : BitVec 5) (h : modeField w = m) : setMode w m = w := by
  apply BitVec.eq_of_getLsbD_eq
  intro k hk
  rw [getLsbD_setMode w m k hk]
  split
  · next h5 => subst h; simp [modeField, h5]
  · rfl

/-- Only the last mode written counts. -/
@[simp] theorem setMode_setMode (w : Word) (m m' : BitVec 5) : setMode (setMode w m) m' = setMode w m' := by
  apply BitVec.eq_of_getLsbD_eq
  intro k hk
  simp only [getLsbD_setMode _ _ k hk]
  split <;> rfl

/-- Bits 27:8 are 0, bit by bit. -/
theorem reservedClear_iff (w : Word) : reservedClear w = true ↔ ∀ k, 8 ≤ k → k < 28 → w.getLsbD k = false := by
  have h : ∀ k, k < 32 → (0x0FFFFF00#32).getLsbD k = decide (8 ≤ k ∧ k < 28) := by
    have : ∀ j : Fin 32, (0x0FFFFF00#32).getLsbD j.val = decide (8 ≤ j.val ∧ j.val < 28) := by decide
    intro k hk
    exact this ⟨k, hk⟩
  simp only [reservedClear, beq_iff_eq]
  constructor
  · intro e k h8 h28
    have := congrArg (fun x => x.getLsbD k) e
    simpa [h k (by omega), h8, h28] using this
  · intro hb
    apply BitVec.eq_of_getLsbD_eq
    intro k hk
    by_cases hr : 8 ≤ k ∧ k < 28
    · simp [hb k hr.1 hr.2]
    · simp only [BitVec.getLsbD_and, h k hk, hr, decide_false, Bool.and_false]; simp

/-- The mode of a mode's number. -/
@[simp] theorem Mode.ofBits_bits (m : Mode) : Mode.ofBits m.bits = some m := by cases m <;> rfl

/-- A recognised number is the number of its mode. -/
theorem Mode.bits_of_ofBits {b : BitVec 5} {m : Mode} (h : Mode.ofBits b = some m) : b = m.bits := by
  unfold Mode.ofBits at h
  repeat' split at h
  all_goals first | (injection h with h; subst h; assumption) | (exact absurd h (by simp))

namespace State

variable (s : State)

@[simp] theorem setFlags_flags (f : Flags) : (s.setFlags f).flags = f := by simp [State.flags]
@[simp] theorem setFlags_mode (f : Flags) : (s.setFlags f).mode = s.mode := by simp [State.mode]
@[simp] theorem setFlags_bank (f : Flags) : (s.setFlags f).bank = s.bank := by simp [State.bank]
@[simp] theorem setFlags_thumb (f : Flags) : (s.setFlags f).thumb = s.thumb := by
  simp only [State.thumb, setFlags_cpsr, getLsbD_withFlags _ _ 5 (by decide)]
@[simp] theorem setFlags_irqDisable (f : Flags) : (s.setFlags f).irqDisable = s.irqDisable := by
  simp only [State.irqDisable, setFlags_cpsr, getLsbD_withFlags _ _ 7 (by decide)]

end State

end Sys2Proof.Machine
end

