-- ==== Sys2Proof/Laws/Frames.lean ====
section
/-! SUPPORT. How a meaning's checks pass, and the frames of Safety.lean as equations over the shared operations. -/

namespace Sys2Proof.Machine

open Sys2Proof

/-! ## Checks -/

/-- The window check, as the guard computes it. -/
theorem mayTouch_iff (s : State) (regs : List Reg) :
    s.MayTouch regs ↔ (s.bankConflict && regs.any isBanked) = false := by
  cases h : s.bankConflict <;> simp [State.MayTouch, h]

/-- A guard passes where the instruction may touch its registers. -/
theorem guardBanked_eq {s : State} {regs : List Reg} (h : s.MayTouch regs) (body : Res State) :
    guardBanked regs s body = body := by
  rw [guardBanked, (mayTouch_iff s regs).mp h, refuseIf_false]

/-- Fewer registers are easier to touch. -/
theorem MayTouch.mono {s : State} {regs regs' : List Reg} (h : s.MayTouch regs)
    (hs : ∀ r ∈ regs', r ∈ regs ∨ isBanked r = false) : s.MayTouch regs' := by
  rcases h with h | h
  · exact .inl h
  · right
    intro r hr
    rcases hs r hr with h' | h'
    · exact h r h'
    · exact h'

/-- An instruction whose condition passes and whose registers it may touch is its body. -/
theorem armInstr_eq {s : State} {c : Cond} {regs : List Reg} (hc : s.passes c = true) (h : s.MayTouch regs)
    (body : Res State) : armInstr c regs s body = body := by
  rw [armInstr, if_pos hc, guardBanked_eq h]

/-- An instruction whose condition fails is `next`. -/
theorem armInstr_failed {s : State} {c : Cond} (regs : List Reg) (hc : s.passes c = false) (body : Res State) :
    armInstr c regs s body = .next (s.next false) := by
  rw [armInstr, if_neg (by simp [hc])]

/-- An instruction that went on is `next` after a failed condition, or its body in a state that may touch its
registers. -/
theorem armInstr_next {s t : State} {c : Cond} {regs : List Reg} {body : Res State}
    (h : armInstr c regs s body = .next t) :
    (s.passes c = false ∧ t = s.next false) ∨ (s.passes c = true ∧ s.MayTouch regs ∧ body = .next t) := by
  unfold armInstr at h
  split at h
  · next hc =>
    right
    obtain ⟨hg, hb⟩ := refuseIf_next h
    exact ⟨hc, (mayTouch_iff s regs).mpr hg, hb⟩
  · next hc =>
    left
    injection h with h
    exact ⟨by simpa using hc, h.symm⟩

/-! ## The frames as one conjunction each, for `simp` -/

theorem framed_iff (e : Effect) (s t : State) : Framed e s t ↔
    (∀ r : Reg, r ≠ regPc → r ∉ e.dst → t.get r = s.get r) ∧ t.bankLo = s.bankLo ∧ t.bankHi = s.bankHi ∧
      t.spsr = s.spsr ∧ t.flags = e.flags ∧
      (∀ k : Nat, k < 28 → k ≠ 5 → t.cpsr.getLsbD k = s.cpsr.getLsbD k) ∧ t.bankConflict = false ∧
      t.draws = s.draws + e.draws ∧ t.irqMaskLatch = s.irqMaskLatch ∧ t.invalidMode = s.invalidMode ∧
      t.started = s.started :=
  ⟨fun h => ⟨h.1, h.2, h.3, h.4, h.5, h.6, h.7, h.8, h.9, h.10⟩,
    fun ⟨a, b, c, d, e, f, g, h, i, j⟩ => ⟨a, b, c, d, e, f, g, h, i, j⟩⟩

theorem retires_iff (thumb : Bool) (e : Effect) (s t : State) : Retires thumb e s t ↔
    t.get regPc = s.get regPc + opWidth thumb ∧ t.slot0 = s.slot0 ∧ t.slot1 = s.slot1 ∧ t.fetchKind = e.kind ∧
      t.thumb = s.thumb ∧ t.world = (s.world.play e.calls).tell e.notes ∧ Framed e s t :=
  ⟨fun h => ⟨h.1, h.2.1, h.2.2, h.3, h.4, h.5, h.6⟩, fun ⟨a, b, c, d, e, f, g⟩ => ⟨a, ⟨b, c⟩, d, e, f, g⟩⟩

/-- A branch reloads the pipeline in the set that T selects (40 R166). -/
theorem reloaded_branchTo (s u : State) (a : Word) (calls : List BusCall) (h : u.world = s.world.play calls) :
    Reloaded u.thumb a calls s (u.branchTo a) := by
  constructor
  · simp [State.get_branchTo]
  · rw [State.branchTo_slot0, State.memAfter_congr s h, List.append_nil]
  · rw [State.branchTo_slot1, State.memAfter_congr s h]
  · rfl
  · rfl
  · rw [State.branchTo_world, h, World.play_play]

/-- The calls of a reload write nothing. -/
theorem reload_reads {cs : List BusCall} (h : ∀ c ∈ cs, World.isWrite c = false) (thumb : Bool) (a : Word) :
    ∀ c ∈ cs ++ [fetch0 thumb a, fetch1 thumb a], World.isWrite c = false := by
  intro c hc
  simp only [List.mem_append, List.mem_cons, List.not_mem_nil, or_false] at hc
  rcases hc with hc | rfl | rfl
  · exact h c hc
  · rfl
  · rfl

/-- A reload after calls that write nothing keeps memory. -/
theorem Reloaded.keepsMemory {thumb : Bool} {a : Word} {cs : List BusCall} {s t : State} (h : Reloaded thumb a cs s t)
    (hc : ∀ c ∈ cs, World.isWrite c = false) : KeepsMemory s t :=
  keepsMemory_of_play h.world (reload_reads hc thumb a)

/-- An instruction that retires after calls that write nothing keeps memory. -/
theorem Retires.keepsMemory {thumb : Bool} {e : Effect} {s t : State} (h : Retires thumb e s t)
    (hc : ∀ c ∈ e.calls, World.isWrite c = false) : KeepsMemory s t := by
  intro hp a
  rw [h.world, World.tell_noPokes _ (World.play_noPokes _ hp), World.play_mem hp hc]

/-- `next` retires an instruction whose own effect is in `u` (40 R165). -/
theorem retires_next {thumb : Bool} {e : Effect} {s u : State} (pc : u.get regPc = s.get regPc)
    (slots : u.slot0 = s.slot0 ∧ u.slot1 = s.slot1) (kind : u.fetchKind = e.kind) (set : u.thumb = s.thumb)
    (world : u.world = (s.world.play e.calls).tell e.notes) (regs : ∀ r : Reg, r ≠ regPc → r ∉ e.dst → u.get r = s.get r)
    (banks : u.bankLo = s.bankLo ∧ u.bankHi = s.bankHi ∧ u.spsr = s.spsr) (flags : u.flags = e.flags)
    (status : ∀ k : Nat, k < 28 → k ≠ 5 → u.cpsr.getLsbD k = s.cpsr.getLsbD k)
    (own : u.draws = s.draws + e.draws ∧ u.irqMaskLatch = s.irqMaskLatch ∧ u.invalidMode = s.invalidMode ∧
      u.started = s.started) : Retires thumb e s (u.next thumb) := by
  simp only [retires_iff, framed_iff] at *
  simp +contextual [State.get_next, *]

/-- A branch ends an instruction whose own effect is in `u` (40 R166). -/
theorem branches_branchTo {thumb : Bool} {target : Word} {e : Effect} {s u : State} (set : u.thumb = thumb)
    (world : u.world = s.world.play e.calls) (regs : ∀ r : Reg, r ≠ regPc → r ∉ e.dst → u.get r = s.get r)
    (banks : u.bankLo = s.bankLo ∧ u.bankHi = s.bankHi ∧ u.spsr = s.spsr) (flags : u.flags = e.flags)
    (status : ∀ k : Nat, k < 28 → k ≠ 5 → u.cpsr.getLsbD k = s.cpsr.getLsbD k)
    (own : u.draws = s.draws + e.draws ∧ u.irqMaskLatch = s.irqMaskLatch ∧ u.invalidMode = s.invalidMode ∧
      u.started = s.started) : Branches thumb target e s (u.branchTo target) := by
  subst set
  refine ⟨reloaded_branchTo s u target e.calls world, ?_⟩
  simp only [framed_iff] at *
  simp +contextual [State.get_branchTo, *]

end Sys2Proof.Machine
end

