-- ==== Sys2Proof/Laws/Banks.lean ====
section
/-! SUPPORT. The bank switch: which registers are visible after it, and that no mode loses one (spec/10 R25, R36). -/

namespace Sys2Proof.Machine

open Sys2Proof

namespace State

variable (s : State)

/-! ## Bank storage -/

theorem loBank_setLoBank (a b : Bank) (p : Pair) :
    (s.setLoBank a p).loBank b = if b = a then p else s.loBank b := by
  cases a <;> cases b <;> rfl

theorem hiBank_setHiBank (f g : Bool) (v : Vector Word 5) :
    (s.setHiBank f v).hiBank g = if g = f then v else s.hiBank g := by
  cases f <;> cases g <;> rfl

@[simp] theorem hiBank_setLoBank (a : Bank) (p : Pair) (g : Bool) : (s.setLoBank a p).hiBank g = s.hiBank g := by
  cases a <;> rfl

@[simp] theorem loBank_setHiBank (f : Bool) (v : Vector Word 5) (b : Bank) :
    (s.setHiBank f v).loBank b = s.loBank b := by
  cases f <;> cases b <;> rfl

@[simp] theorem loBank_set (r : Reg) (v : Word) (b : Bank) : (s.set r v).loBank b = s.loBank b := by cases b <;> rfl

@[simp] theorem hiBank_set (r : Reg) (v : Word) (g : Bool) : (s.set r v).hiBank g = s.hiBank g := rfl

@[simp] theorem loBank_setCpsr (w : Word) (b : Bank) : (s.setCpsr w).loBank b = s.loBank b := by cases b <;> rfl

@[simp] theorem hiBank_setCpsr (w : Word) (g : Bool) : (s.setCpsr w).hiBank g = s.hiBank g := rfl

theorem swapLow_loBank (a b c : Bank) :
    (s.swapLow a b).loBank c = if c = a then { r13 := s.get regSp, r14 := s.get regLr } else s.loBank c := by
  simp [swapLow, loBank_setLoBank]

@[simp] theorem swapLow_hiBank (a b : Bank) (g : Bool) : (s.swapLow a b).hiBank g = s.hiBank g := by
  simp [swapLow]

theorem swapLow_get (a b : Bank) (h : a ≠ b) (r : Reg) :
    (s.swapLow a b).get r =
      if r = regSp then (s.loBank b).r13 else if r = regLr then (s.loBank b).r14 else s.get r := by
  simp only [swapLow, get_set, loBank_setLoBank, if_neg (Ne.symm h), setLoBank_get]
  by_cases h13 : r = regSp
  · subst h13; simp [show (regSp : Reg) ≠ regLr by decide]
  · simp [h13]

@[simp] theorem swapHigh_loBank (f g : Bool) (b : Bank) : (s.swapHigh f g).loBank b = s.loBank b := by
  simp [swapHigh]

theorem swapHigh_hiBank (f g k : Bool) :
    (s.swapHigh f g).hiBank k =
      if k = f then #v[s.get 8, s.get 9, s.get 10, s.get 11, s.get 12] else s.hiBank k := by
  simp [swapHigh, hiBank_setHiBank]

theorem swapHigh_get (f g : Bool) (h : f ≠ g) (r : Reg) :
    (s.swapHigh f g).get r =
      if h : 8 ≤ r.val ∧ r.val ≤ 12 then (s.hiBank g)[r.val - 8] else s.get r := by
  simp only [swapHigh, get_set, hiBank_setHiBank, if_neg (Ne.symm h), setHiBank_get]
  fin_cases r <;> rfl

theorem swapHigh_get_other (f g : Bool) (r : Reg) (h : ¬(8 ≤ r.val ∧ r.val ≤ 12)) :
    (s.swapHigh f g).get r = s.get r := by
  simp only [swapHigh, get_set, setHiBank_get]
  revert h; fin_cases r <;> simp

/-! ## The switch -/

/-- Of two different banks exactly one is FIQ, where one is. -/
theorem fiq_differs {a b : Bank} (h : a ≠ b) (hf : a = .fiq ∨ b = .fiq) : (a == .fiq) ≠ (b == .fiq) := by
  cases a <;> cases b <;> simp_all

theorem switchTo_cpsr (m : Mode) : (s.switchTo m).cpsr = setMode s.cpsr m.bits := by
  unfold switchTo
  split
  · rfl
  · simp only [swapLow_cpsr]
    split <;> simp

theorem switchTo_mode (m : Mode) : (s.switchTo m).mode = m := by
  simp [State.mode, switchTo_cpsr]

theorem switchTo_bank (m : Mode) : (s.switchTo m).bank = m.bank := by
  simp [State.bank, switchTo_mode]

theorem switchTo_thumb (m : Mode) : (s.switchTo m).thumb = s.thumb := by
  simp only [State.thumb, switchTo_cpsr, getLsbD_setMode _ _ 5 (by decide)]
  simp

theorem switchTo_flags (m : Mode) : (s.switchTo m).flags = s.flags := by
  simp [State.flags, switchTo_cpsr]

/-- A switch within one bank writes the mode field alone. -/
theorem switchTo_same (m : Mode) (h : s.bank = m.bank) : s.switchTo m = s.setCpsr (setMode s.cpsr m.bits) := by
  rw [switchTo, if_pos h]

/-- The state before the exchange of r13 and r14 in a switch between two banks. -/
theorem switchTo_ne (m : Mode) (h : s.bank ≠ m.bank) :
    s.switchTo m =
      (if s.bank = .fiq ∨ m.bank = .fiq then
        (s.setCpsr (setMode s.cpsr m.bits)).swapHigh (s.bank == .fiq) (m.bank == .fiq)
       else s.setCpsr (setMode s.cpsr m.bits)).swapLow s.bank m.bank := by
  rw [switchTo, if_neg h]

/-- After a switch each register reads as the new mode saw it before (10 R36). -/
theorem switchTo_get (m : Mode) (r : Reg) : (s.switchTo m).get r = s.seenBy m r := by
  by_cases hb : s.bank = m.bank
  · rw [switchTo_same s m hb]
    simp [seenBy, hb]
  · rw [switchTo_ne s m hb, swapLow_get _ _ _ hb]
    unfold seenBy
    by_cases hf : s.bank = .fiq ∨ m.bank = .fiq
    · have hx := fiq_differs hb hf
      have hy : ¬((s.bank = .fiq) = (m.bank = .fiq)) := by simpa using hx
      rw [if_pos hf]
      simp only [if_neg hb, if_neg hy, swapHigh_get _ _ _ hx, swapHigh_loBank, loBank_setCpsr, hiBank_setCpsr, setCpsr_get]
    · rw [if_neg hf]
      simp only [not_or] at hf
      simp [if_neg hb, hf.1, hf.2]

theorem switchTo_loBank (m : Mode) (b : Bank) :
    (s.switchTo m).loBank b =
      if s.bank ≠ m.bank ∧ b = s.bank then { r13 := s.get regSp, r14 := s.get regLr } else s.loBank b := by
  by_cases hb : s.bank = m.bank
  · rw [switchTo_same s m hb]; simp [hb]
  · rw [switchTo_ne s m hb, swapLow_loBank]
    by_cases hf : s.bank = .fiq ∨ m.bank = .fiq
    · simp [if_pos hf, swapHigh_get_other, hb]
    · simp [if_neg hf, hb]

theorem switchTo_hiBank (m : Mode) (g : Bool) :
    (s.switchTo m).hiBank g =
      if (s.bank == .fiq) ≠ (m.bank == .fiq) ∧ g = (s.bank == .fiq) then
        #v[s.get 8, s.get 9, s.get 10, s.get 11, s.get 12] else s.hiBank g := by
  by_cases hb : s.bank = m.bank
  · rw [switchTo_same s m hb]; simp [hb]
  · rw [switchTo_ne s m hb, swapLow_hiBank]
    by_cases hf : s.bank = .fiq ∨ m.bank = .fiq
    · have hx := fiq_differs hb hf
      simp [if_pos hf, swapHigh_hiBank, hx]
    · have hx : (s.bank == .fiq) = (m.bank == .fiq) := by
        simp only [not_or] at hf; simp [hf]
      simp [if_neg hf, hx]

/-- A switch loses no register of any mode (10 R25, R36). -/
theorem switchTo_seenBy (m m' : Mode) (r : Reg) : (s.switchTo m).seenBy m' r = s.seenBy m' r := by
  rw [seenBy, switchTo_bank]
  simp only [switchTo_get, switchTo_loBank, switchTo_hiBank]
  unfold seenBy
  by_cases h13 : r = regSp
  · subst h13
    grind
  · by_cases h14 : r = regLr
    · subst h14
      grind
    · simp only [h13, h14, if_false]
      by_cases h8 : 8 ≤ r.val ∧ r.val ≤ 12
      · simp only [h8, dif_pos, and_self]
        have key : #v[s.get 8, s.get 9, s.get 10, s.get 11, s.get 12][r.val - 8]'(by omega) = s.get r := by
          revert h8 h13 h14; fin_cases r <;> simp
        by_cases h1 : s.bank = .fiq <;> by_cases h2 : m.bank = .fiq <;> by_cases h3 : m'.bank = .fiq <;>
          simp_all [show ∀ b : Bank, b ≠ .fiq → (b == .fiq) = false from fun b h => beq_false_of_ne h]
      · simp [h8]

end State

end Sys2Proof.Machine
end

