-- ==== Sys2Proof/Laws/Exceptions.lean ====
section
/-! SUPPORT. Taking an exception and returning from one, as the frames of Safety.lean (spec/60 R524, 42 R244). -/

namespace Sys2Proof.Machine

open Sys2Proof

/-! ## What no other update does to the registers of a mode -/

namespace State

variable (s : State)

theorem seenBy_congr {u v : State} (hb : v.bank = u.bank) (hg : ∀ q, q ≠ regPc → v.get q = u.get q)
    (hl : v.bankLo = u.bankLo) (hh : v.bankHi = u.bankHi) (m : Mode) (r : Reg) (hr : r ≠ regPc) :
    v.seenBy m r = u.seenBy m r := by
  unfold seenBy
  have h1 : ∀ b, v.loBank b = u.loBank b := by intro b; cases b <;> simp [loBank, hl]
  have h2 : ∀ g, v.hiBank g = u.hiBank g := by intro g; simp [hiBank, hh]
  simp only [hb, hg r hr, h1, h2]

/-- `next` leaves every register of every mode but r15. -/
theorem next_seenBy (thumb : Bool) (m : Mode) (r : Reg) (hr : r ≠ regPc) :
    (s.next thumb).seenBy m r = s.seenBy m r :=
  seenBy_congr (u := s) (v := s.next thumb) rfl (fun q hq => by simp [get_next, hq]) rfl rfl m r hr

/-- A branch leaves every register of every mode but r15. -/
theorem branchTo_seenBy (a : Word) (m : Mode) (r : Reg) (hr : r ≠ regPc) :
    (s.branchTo a).seenBy m r = s.seenBy m r :=
  seenBy_congr (u := s) (v := s.branchTo a) rfl (fun q hq => by simp [get_branchTo, hq]) rfl rfl m r hr

/-- The current mode sees the visible registers. -/
@[simp] theorem seenBy_mode (r : Reg) : s.seenBy s.mode r = s.get r := by
  simp [seenBy, State.bank]

/-- Modes of one bank see the same registers. -/
theorem seenBy_of_bank {m : Mode} (h : s.bank = m.bank) (r : Reg) : s.seenBy m r = s.get r := by
  simp [seenBy, h]

/-- A write to a register is seen by the modes that share it, and by no other. -/
theorem seenBy_set (q : Reg) (v : Word) (m : Mode) (r : Reg) :
    (s.set q v).seenBy m r = if r = q ∧ sameRegister m.bank s.bank r = true then v else s.seenBy m r := by
  unfold seenBy sameRegister
  simp only [set_bank, get_set, loBank_set, hiBank_set]
  by_cases h13 : r = regSp
  · subst h13; grind
  · by_cases h14 : r = regLr
    · subst h14; grind
    · simp only [h13, h14, if_false, or_self]
      by_cases h8 : 8 ≤ r.val ∧ r.val ≤ 12
      · simp only [h8, and_self, dif_pos, if_true]
        by_cases h1 : s.bank = .fiq <;> by_cases h2 : m.bank = .fiq <;> simp [h1, h2]
      · simp [h8]

end State

/-- An SPSR reads what was last written to it, and a write leaves the others alone. -/
theorem State.spsrOf_setSpsr (s : State) (a b : Bank) (w : Word) (ha : a ≠ .shared) :
    (s.setSpsr a w).spsrOf b = if b = a then w else s.spsrOf b := by
  cases a <;> cases b <;> first | rfl | exact absurd rfl ha

/-! ## Entry -/

/-- CPSR at a handler's first instruction. -/
def entryStatus (s : State) (m : Mode) : Word := setBit (setBit (setMode s.cpsr m.bits) 7 true) 5 false

theorem getLsbD_entryStatus (s : State) (m : Mode) (k : Nat) (hk : k < 32) :
    (entryStatus s m).getLsbD k =
      if k = 5 then false else if k = 7 then true else if k < 5 then m.bits.getLsbD k else s.cpsr.getLsbD k := by
  simp only [entryStatus, getLsbD_setBit _ _ _ k hk, getLsbD_setMode _ _ k hk]

/-- Entry as one branch from the state that the writes leave. -/
theorem enter_eq (s : State) (m : Mode) (vector link : Word) :
    s.enter m vector link =
      ((((s.switchTo m).setSpsr m.bank s.cpsr).set regLr link).setCpsr (entryStatus s m)).branchTo vector := by
  simp [State.enter, entryStatus, State.switchTo_cpsr]

/-- The entry procedure does what `Enters` says (60 R524). -/
theorem enter_enters (s : State) (m : Mode) (vector link : Word) (hm : m.bank ≠ .shared) :
    Enters m vector link s (s.enter m vector link) ∧ (s.enter m vector link).irqMaskLatch = s.irqMaskLatch := by
  rw [enter_eq]
  generalize hu : ((((s.switchTo m).setSpsr m.bank s.cpsr).set regLr link).setCpsr (entryStatus s m)) = u
  have hc : u.cpsr = entryStatus s m := by rw [← hu]; rfl
  have hg : ∀ r, r ≠ regLr → u.get r = s.seenBy m r := by
    intro r hr; rw [← hu]; simp [State.get_set, hr, State.switchTo_get]
  have hl : u.get regLr = link := by rw [← hu]; simp
  have ht : u.thumb = false := by
    simp only [State.thumb, hc, getLsbD_entryStatus _ _ 5 (by decide)]; rfl
  have hf : modeField u.cpsr = m.bits := by
    rw [hc, entryStatus, modeField_setBit _ _ _ (by decide), modeField_setBit _ _ _ (by decide), modeField_setMode]
  have hmode : u.mode = m := by simp [State.mode, hf]
  have hbank : u.bank = m.bank := by simp [State.bank, hmode]
  have hs : ∀ b, b ≠ .shared → u.spsrOf b = if b = m.bank then s.cpsr else s.spsrOf b := by
    intro b hb
    have h1 : u.spsrOf b = ((s.switchTo m).setSpsr m.bank s.cpsr).spsrOf b := by
      rw [← hu]; cases b <;> first | rfl | exact absurd rfl hb
    have h2 : (s.switchTo m).spsrOf b = s.spsrOf b := by
      cases b <;> first | (exact absurd rfl hb) | simp [State.spsrOf]
    rw [h1, State.spsrOf_setSpsr _ _ _ _ hm, h2]
  have hseen : ∀ (m' : Mode) (r : Reg), r ≠ regPc → ¬(r = regLr ∧ m'.bank = m.bank) →
      u.seenBy m' r = s.seenBy m' r := by
    intro m' r hr hn
    have h1 : u.seenBy m' r = (((s.switchTo m).setSpsr m.bank s.cpsr).set regLr link).seenBy m' r := by
      apply State.seenBy_congr _ _ _ _ m' r hr
      · simp [hbank, State.switchTo_bank]
      · intro q _; rw [← hu]; simp
      · rw [← hu]; rfl
      · rw [← hu]; rfl
    have h2 : ((s.switchTo m).setSpsr m.bank s.cpsr).seenBy m' r = (s.switchTo m).seenBy m' r := by
      apply State.seenBy_congr _ _ _ _ m' r hr <;> simp
    rw [h1, State.seenBy_set, h2, State.switchTo_seenBy, if_neg]
    rintro ⟨h, hsame⟩
    apply hn
    subst h
    refine ⟨rfl, ?_⟩
    have : (m'.bank == m.bank) = true := by simpa [sameRegister, State.switchTo_bank] using hsame
    simpa using this
  have hrest : u.world = s.world ∧ u.draws = s.draws ∧ u.irqMaskLatch = s.irqMaskLatch ∧
      u.invalidMode = s.invalidMode ∧ u.started = s.started := by
    rw [← hu]; simp
  obtain ⟨hwo, hd, hla, hin, hst⟩ := hrest
  have hr := reloaded_branchTo s u vector [] (by simp [hwo])
  rw [ht] at hr
  refine ⟨⟨hr, by simpa using hf, ?_, ?_, ?_, ?_, ?_, ?_, ?_, hr.keepsMemory (by simp), by simp, by simpa using hd,
    by simpa using ⟨hin, hst⟩⟩, by simpa using hla⟩
  · rw [State.branchTo_irqDisable, State.irqDisable, hc, getLsbD_entryStatus _ _ 7 (by decide)]; rfl
  · intro k hk h5 h7
    simp only [State.branchTo_cpsr, hc, getLsbD_entryStatus _ _ k hk]
    simp [h7, show k ≠ 5 by omega, show ¬k < 5 by omega]
  · rw [State.branchTo_spsrOf, hs _ hm, if_pos rfl]
  · intro b h1 h2
    rw [State.branchTo_spsrOf, hs b h1, if_neg h2]
  · rw [State.get_branchTo, if_neg (by decide), hl]
  · intro m' r h1 h2
    rw [State.branchTo_seenBy _ _ _ _ h1, hseen m' r h1 h2]
  · intro r hr
    rw [State.seenBy_of_bank _ (by simp [hbank])]

/-- Taking an exception outside the bank-conflict window (60 R524, R525). -/
theorem takeException_next (s : State) (m : Mode) (vector link : Word) (h : s.bankConflict = false) :
    s.takeException m vector link = .next (s.enter m vector link) := by
  simp [State.takeException, h]

/-! ## Return -/

/-- The exception return does what `Returns` says, where the saved mode is recognised (42 R244). -/
theorem exceptionReturn_next (s : State) (target : Word) (m : Mode) (hb : s.bank ≠ .shared)
    (hw : s.bankConflict = false) (hm : Mode.ofBits (modeField (s.spsrOf s.bank)) = some m) :
    ∃ t, s.exceptionReturn target = .next t ∧ Returns (s.spsrOf s.bank) target [] [] s t := by
  have hsp : s.getSpsr = s.spsrOf s.bank := by simp [State.getSpsr, hw]
  generalize hv : s.spsrOf s.bank = v at *
  have heq : s.exceptionReturn target = .next (((s.switchTo m).setCpsr v).branchTo target) := by
    simp [State.exceptionReturn, beq_false_of_ne hb, hw, hsp, State.switchMode, hm, State.stopFirst]
  refine ⟨_, heq, ?_⟩
  generalize hu : (s.switchTo m).setCpsr v = u
  have hc : u.cpsr = v := by rw [← hu]; rfl
  have hmode : u.mode = m := by simp [State.mode, hc, hm]
  have hbank : u.bank = m.bank := by simp [State.bank, hmode]
  have ht : u.thumb = v.getLsbD 5 := by simp only [State.thumb, hc]
  have hseen : ∀ (m' : Mode) (r : Reg), r ≠ regPc → u.seenBy m' r = s.seenBy m' r := by
    intro m' r hr
    rw [← State.switchTo_seenBy s m]
    apply State.seenBy_congr _ _ _ _ m' r hr
    · simp [hbank, State.switchTo_bank]
    · intro q _; rw [← hu]; simp
    · rw [← hu]; rfl
    · rw [← hu]; rfl
  have hrest : u.world = s.world ∧ u.draws = s.draws ∧ u.irqMaskLatch = s.irqMaskLatch ∧ u.spsr = s.spsr ∧
      u.invalidMode = s.invalidMode ∧ u.started = s.started := by
    rw [← hu]; simp
  obtain ⟨hwo, hd, hla, hsps, hin, hst⟩ := hrest
  have hr := reloaded_branchTo s u target [] (by simp [hwo])
  rw [ht] at hr
  refine ⟨hr, by simpa using hc, by simpa using hsps, ?_, ?_, hr.keepsMemory (by simp), by simp, by simpa using hd,
    by simpa using hla, by simpa using ⟨hin, hst⟩⟩
  · intro m' r h1 _
    rw [State.branchTo_seenBy _ _ _ _ h1, hseen m' r h1]
  · intro m' r hm' hr
    rw [hm] at hm'
    injection hm' with hm'
    rw [State.seenBy_of_bank _ (by simp [hbank, hm'])]

/-- An unrecognised saved mode number is the fault of 10 R38, behind a stop on record. -/
theorem exceptionReturn_fault (s : State) (target : Word) (hb : s.bank ≠ .shared) (hw : s.bankConflict = false)
    (hm : Mode.ofBits (modeField (s.spsrOf s.bank)) = none) :
    s.exceptionReturn target = s.world.stopOr (.fault .invalidMode) := by
  simp [State.exceptionReturn, beq_false_of_ne hb, hw, State.getSpsr, State.switchMode, hm, State.stopFirst]

/-- A mode without an SPSR is refused (42 R244), behind a stop on record. -/
theorem exceptionReturn_shared (s : State) (target : Word) (hb : s.bank = .shared) :
    s.exceptionReturn target = s.world.stopOr (.refused .returnWithoutSpsr) := by
  simp [State.exceptionReturn, hb, State.stopFirst]

/-- In the bank-conflict window the return is refused (45 R353), behind a stop on record. -/
theorem exceptionReturn_conflict (s : State) (target : Word) (hb : s.bank ≠ .shared) (hw : s.bankConflict = true) :
    s.exceptionReturn target = s.world.stopOr (.refused .bankConflict) := by
  simp [State.exceptionReturn, beq_false_of_ne hb, hw, State.stopFirst]

end Sys2Proof.Machine
end

