-- ==== Sys2Proof/Laws/Blocks.lean ====
section
/-! SUPPORT. What the loops of the block transfers do (spec/45 R350 to R352). -/

namespace Sys2Proof.Machine

open Sys2Proof

/-! ## Lists of registers -/

theorem wordAddr_zero (a : Word) : wordAddr a 0 = a := by simp [wordAddr]

theorem wordAddr_succ (a : Word) (k : Nat) : wordAddr a (k + 1) = wordAddr (a + 4) k := by
  apply BitVec.eq_of_toNat_eq
  have h4 : (4 : Word).toNat = 4 := rfl
  simp only [wordAddr, BitVec.toNat_add, BitVec.toNat_ofNat, h4]
  omega

/-- The bus calls of a list of accesses, the first of this kind and the others sequential (45 R350). -/
def accessCalls (f : Nat → Word → AccessKind → BusCall) (first : Bool) (n : Nat) (a : Word) : List BusCall :=
  (List.range n).map fun k => f k (wordAddr a k) (if first = true ∧ k = 0 then .n else .s)

theorem accessCalls_succ (f : Nat → Word → AccessKind → BusCall) (first : Bool) (n : Nat) (a : Word) :
    accessCalls f first (n + 1) a =
      f 0 a (blockKind first) :: accessCalls (fun k => f (k + 1)) false n (a + 4) := by
  cases first <;>
  simp [accessCalls, List.range_succ_eq_map, wordAddr_zero, wordAddr_succ, blockKind, Function.comp_def]

theorem nthReg_cons_zero (r : Reg) (rs : List Reg) : nthReg (r :: rs) 0 = r := rfl
theorem nthReg_cons_succ (r : Reg) (rs : List Reg) (k : Nat) : nthReg (r :: rs) (k + 1) = nthReg rs k := by
  simp [nthReg]
theorem nthReg_mem {rs : List Reg} {k : Nat} (h : k < rs.length) : nthReg rs k ∈ rs := by
  simp [nthReg, h]

/-! ## The reads of a block load -/

/-- The register a write-back writes. -/
def wbReg (wb : Option (Reg × Word)) : List Reg := (wb.map Prod.fst).toList

theorem blockBase_get (wb : Option (Reg × Word)) (first : Bool) (s : State) (q : Reg) (h : q ∉ wbReg wb) :
    (blockBase wb first s).get q = s.get q := by
  cases wb with
  | none => rfl
  | some p =>
    simp only [wbReg, Option.map_some, Option.toList_some, List.mem_singleton] at h
    cases first
    · rfl
    · simp [blockBase, State.get_set, h]

theorem blockBase_eq (wb : Option (Reg × Word)) (first : Bool) (s : State) :
    ∃ x, blockBase wb first s = { s with x := x } := by
  cases wb with
  | none => exact ⟨s.x, rfl⟩
  | some p => cases first <;> exact ⟨_, rfl⟩

/-- The reads of a block load change registers and what the world's calls change, and nothing else (45 R351). -/
theorem loadRegs_eq (wb : Option (Reg × Word)) : ∀ (rs : List Reg) (first : Bool) (a : Word) (s : State),
    ∃ x, loadRegs wb first rs a s =
      { s with x := x,
               world := s.world.play (accessCalls (fun _ b k => .read .word b (dataAcc k)) first rs.length a) }
  | [], first, a, s => ⟨s.x, by simp [loadRegs, accessCalls]⟩
  | r :: rs, first, a, s => by
    rw [loadRegs]
    obtain ⟨x, hx⟩ := blockBase_eq wb first (s.busRead .word a (dataAcc (blockKind first)))
    rw [hx]
    obtain ⟨y, hy⟩ := loadRegs_eq wb rs false (a + 4) _
    rw [hy]
    refine ⟨y, ?_⟩
    simp [State.set, State.busRead, State.call, accessCalls_succ, World.play_cons]

/-- A register that is neither loaded nor written back keeps its value. -/
theorem loadRegs_get_other (wb : Option (Reg × Word)) : ∀ (rs : List Reg) (first : Bool) (a : Word) (s : State)
    (q : Reg), q ∉ rs → q ∉ wbReg wb → (loadRegs wb first rs a s).get q = s.get q
  | [], _, _, _, _, _, _ => rfl
  | r :: rs, first, a, s, q, hq, hw => by
    simp only [List.mem_cons, not_or] at hq
    rw [loadRegs, loadRegs_get_other wb rs false _ _ q hq.2 hw, State.get_set, if_neg hq.1, blockBase_get _ _ _ _ hw]
    simp

/-- After the first access the base is not written. -/
theorem loadRegs_get_rest (wb : Option (Reg × Word)) : ∀ (rs : List Reg) (a : Word) (s : State)
    (q : Reg), q ∉ rs → (loadRegs wb false rs a s).get q = s.get q
  | [], _, _, _, _ => rfl
  | r :: rs, a, s, q, hq => by
    simp only [List.mem_cons, not_or] at hq
    rw [loadRegs, loadRegs_get_rest wb rs _ _ q hq.2, State.get_set, if_neg hq.1]
    cases wb <;> simp [blockBase]

/-- The base of a block load that does not load it (45 R350). -/
theorem loadRegs_get_base {rn : Reg} {v : Word} {rs : List Reg} (h : rs ≠ []) (hn : rn ∉ rs) (a : Word) (s : State) :
    (loadRegs (some (rn, v)) true rs a s).get rn = v := by
  cases rs with
  | nil => exact absurd rfl h
  | cons r rs =>
    simp only [List.mem_cons, not_or] at hn
    rw [loadRegs, loadRegs_get_rest _ _ _ _ _ hn.2, State.get_set, if_neg hn.1]
    simp [blockBase]

/-- The k-th register of a block load holds the word its access returned (45 R350, R351). -/
theorem loadRegs_get_nth (wb : Option (Reg × Word)) : ∀ (rs : List Reg) (first : Bool) (a : Word) (s : State) (k : Nat),
    rs.Nodup → k < rs.length →
    (loadRegs wb first rs a s).get (nthReg rs k) =
      Memory.read (s.memAfter (accessCalls (fun _ b k => .read .word b (dataAcc k)) first k a)) .word (wordAddr a k)
  | [], _, _, _, _, _, h => absurd h (by simp)
  | r :: rs, first, a, s, 0, hn, _ => by
    rw [nthReg_cons_zero, loadRegs, loadRegs_get_rest _ _ _ _ _ (List.nodup_cons.mp hn).1, State.get_set, if_pos rfl,
      wordAddr_zero]
    rfl
  | r :: rs, first, a, s, k + 1, hn, hk => by
    rw [nthReg_cons_succ, loadRegs, loadRegs_get_nth wb rs false _ _ k (List.nodup_cons.mp hn).2 (by simpa using hk),
      wordAddr_succ]
    obtain ⟨x, hx⟩ := blockBase_eq wb first (s.busRead .word a (dataAcc (blockKind first)))
    rw [hx, accessCalls_succ]; rfl

/-! ## The writes of a block store -/

/-- The writes of a block store change registers and what the world's calls change, and nothing else (45 R352). -/
theorem storeRegs_eq (wb : Option (Reg × Word)) : ∀ (rs : List Reg) (first : Bool) (a : Word) (s : State),
    ∃ x cs, storeRegs wb first rs a s = { s with x := x, world := s.world.play cs }
  | [], first, a, s => ⟨s.x, [], rfl⟩
  | r :: rs, first, a, s => by
    rw [storeRegs]
    obtain ⟨x, hx⟩ := blockBase_eq wb first (s.busWrite .word a (blockStored s r) (dataAcc (blockKind first)))
    rw [hx]
    obtain ⟨y, cs, hy⟩ := storeRegs_eq wb rs false (a + 4) _
    rw [hy]
    exact ⟨y, _ :: cs, by simp [State.busWrite, State.call, World.play_cons]; rfl⟩

theorem storeRegs_get_other (wb : Option (Reg × Word)) : ∀ (rs : List Reg) (first : Bool) (a : Word) (s : State)
    (q : Reg), q ∉ wbReg wb → (storeRegs wb first rs a s).get q = s.get q
  | [], _, _, _, _, _ => rfl
  | r :: rs, first, a, s, q, hw => by
    rw [storeRegs, storeRegs_get_other wb rs false _ _ q hw, blockBase_get _ _ _ _ hw]
    simp

theorem storeRegs_get_rest (wb : Option (Reg × Word)) : ∀ (rs : List Reg) (a : Word) (s : State)
    (q : Reg), (storeRegs wb false rs a s).get q = s.get q
  | [], _, _, _ => rfl
  | r :: rs, a, s, q => by
    rw [storeRegs, storeRegs_get_rest wb rs _ _ q]
    cases wb <;> simp [blockBase]

theorem storeRegs_get_base {rn : Reg} {v : Word} {rs : List Reg} (h : rs ≠ []) (a : Word) (s : State) :
    (storeRegs (some (rn, v)) true rs a s).get rn = v := by
  cases rs with
  | nil => exact absurd rfl h
  | cons r rs =>
    rw [storeRegs, storeRegs_get_rest]
    simp [blockBase]

/-- The k-th value a block store stores, r15 as A + 12. -/
theorem blockStored_eq (s : State) (rs : List Reg) (k : Nat) : blockStored s (nthReg rs k) = blockValue s rs k := rfl

/-- The bus calls of a block store whose base, where it is written back, is the first of the list or not in it. -/
theorem storeRegs_calls (wb : Option (Reg × Word)) : ∀ (rs : List Reg) (first : Bool) (a : Word) (s : State),
    (∀ q ∈ rs.tail, q ∉ wbReg wb) → regPc ∉ wbReg wb → (first = false → ∀ q ∈ rs, q ∉ wbReg wb) →
    (storeRegs wb first rs a s).world =
      s.world.play (accessCalls (fun k b f => .write .word b (blockValue s rs k) (dataAcc f)) first rs.length a)
  | [], _, _, _, _, _, _ => by simp [storeRegs, accessCalls]
  | r :: rs, first, a, s, ht, hp, _ => by
    simp only [List.tail_cons] at ht
    rw [storeRegs, storeRegs_calls wb rs false _ _ (fun q hq => ht q (List.mem_of_mem_tail hq)) hp (fun _ => ht)]
    have hv : ∀ k, k < rs.length → blockValue (blockBase wb first (s.busWrite .word a (blockStored s r)
        (dataAcc (blockKind first)))) rs k = blockValue s (r :: rs) (k + 1) := by
      intro k hk
      simp only [blockValue, nthReg_cons_succ]
      rw [blockBase_get _ _ _ _ hp, blockBase_get _ _ _ _ (ht _ (nthReg_mem hk))]
      simp
    have hb : (blockBase wb first (s.busWrite .word a (blockStored s r) (dataAcc (blockKind first)))).world =
        s.world.play [.write .word a (blockStored s r) (dataAcc (blockKind first))] := by
      obtain ⟨x, hx⟩ := blockBase_eq wb first (s.busWrite .word a (blockStored s r) (dataAcc (blockKind first)))
      rw [hx]; simp [busValue]
    rw [hb, List.length_cons, accessCalls_succ, World.play_play]
    simp only [List.cons_append, List.nil_append]
    congr 2
    simp only [accessCalls]
    apply List.map_congr_left
    intro k hk
    rw [hv k (List.mem_range.mp hk)]

theorem toNat_sub_alignWord_add (a b : Word) :
    ((b - Memory.alignWord (a + 4)).toNat + 4) % 4294967296 = (b - Memory.alignWord a).toNat := by
  have h1 := Memory.toNat_alignWord (a + 4)
  have h2 := Memory.toNat_alignWord a
  have := a.isLt
  have := b.isLt
  have h4 : (4 : Word).toNat = 4 := rfl
  rw [BitVec.toNat_add, h4] at h1
  rw [BitVec.toNat_sub, BitVec.toNat_sub]
  omega

/-- The memory after the writes of a block store of less than the whole address space, where no one else changes it
(45 R350, R352). -/
theorem play_writes : ∀ (n : Nat) (v : Nat → Word) (first : Bool) (a : Word) (w : World), n ≤ 16 →
    w.noPokes = true → ∀ b : Word,
    Memory.readByte (w.play (accessCalls (fun k b f => .write .word b (v k) (dataAcc f)) first n a)).mem b =
      if (b - Memory.alignWord a).toNat < 4 * n then
        (v ((b - Memory.alignWord a).toNat / 4)).extractLsb' (8 * ((b - Memory.alignWord a).toNat % 4)) 8
      else Memory.readByte w.mem b
  | 0, v, first, a, w, _, _, b => by simp [accessCalls]
  | n + 1, v, first, a, w, hl, hp, b => by
    obtain ⟨h1, h2⟩ := World.call_noPokes (.write .word a (v 0) (dataAcc (blockKind first))) hp
    have hm : ∀ c, Memory.readByte (w.call (.write .word a (v 0) (dataAcc (blockKind first)))).mem c =
        if (c - Memory.alignWord a).toNat < 4 then (v 0).extractLsb' (8 * (c - Memory.alignWord a).toNat) 8
        else Memory.readByte w.mem c := by
      intro c
      rw [h2]
      show Memory.readByte (Memory.write w.mem .word a (v 0)) c = _
      rw [Memory.readByte_write, Memory.inStore_word]
      simp only [decide_eq_true_eq]
      rfl
    rw [accessCalls_succ, World.play_cons, play_writes n (fun k => v (k + 1)) false (a + 4) _ (by omega) h1, hm b]
    have hd := toNat_sub_alignWord_add a b
    have hlt := (b - Memory.alignWord (a + 4)).isLt
    generalize (b - Memory.alignWord (a + 4)).toNat = d at *
    generalize (b - Memory.alignWord a).toNat = e at *
    by_cases h1 : d < 4 * n
    · rw [if_pos h1, if_pos (by omega), show e / 4 = d / 4 + 1 by omega, show e % 4 = d % 4 by omega]
    · rw [if_neg h1]
      by_cases h2 : e < 4
      · rw [if_pos h2, if_pos (by omega), show e / 4 = 0 by omega, show e % 4 = e by omega]
      · rw [if_neg h2, if_neg (by omega)]

/-- A block store stores what `StoredBlock` says (45 R350, R352). -/
theorem storedBlock_of_play {s t : State} {a : Word} {n : Nat} {v : Nat → Word} (hl : n ≤ 16)
    (h : t.world = s.world.play (accessCalls (fun k b f => .write .word b (v k) (dataAcc f)) true n a)) :
    StoredBlock a n v s t := by
  intro hp b
  rw [h, play_writes n v true a _ hl hp b]

/-! ## The loops change nothing else -/

section Fields

variable (wb : Option (Reg × Word)) (first : Bool) (rs : List Reg) (a : Word) (s : State)

@[simp] theorem loadRegs_bankLo : (loadRegs wb first rs a s).bankLo = s.bankLo := by
  obtain ⟨x, hx⟩ := loadRegs_eq wb rs first a s; rw [hx]
@[simp] theorem loadRegs_bankHi : (loadRegs wb first rs a s).bankHi = s.bankHi := by
  obtain ⟨x, hx⟩ := loadRegs_eq wb rs first a s; rw [hx]
@[simp] theorem loadRegs_cpsr : (loadRegs wb first rs a s).cpsr = s.cpsr := by
  obtain ⟨x, hx⟩ := loadRegs_eq wb rs first a s; rw [hx]
@[simp] theorem loadRegs_spsr : (loadRegs wb first rs a s).spsr = s.spsr := by
  obtain ⟨x, hx⟩ := loadRegs_eq wb rs first a s; rw [hx]
@[simp] theorem loadRegs_slot0 : (loadRegs wb first rs a s).slot0 = s.slot0 := by
  obtain ⟨x, hx⟩ := loadRegs_eq wb rs first a s; rw [hx]
@[simp] theorem loadRegs_slot1 : (loadRegs wb first rs a s).slot1 = s.slot1 := by
  obtain ⟨x, hx⟩ := loadRegs_eq wb rs first a s; rw [hx]
@[simp] theorem loadRegs_fetchKind : (loadRegs wb first rs a s).fetchKind = s.fetchKind := by
  obtain ⟨x, hx⟩ := loadRegs_eq wb rs first a s; rw [hx]
@[simp] theorem loadRegs_irqMaskLatch : (loadRegs wb first rs a s).irqMaskLatch = s.irqMaskLatch := by
  obtain ⟨x, hx⟩ := loadRegs_eq wb rs first a s; rw [hx]
@[simp] theorem loadRegs_invalidMode : (loadRegs wb first rs a s).invalidMode = s.invalidMode := by
  obtain ⟨x, hx⟩ := loadRegs_eq wb rs first a s; rw [hx]
@[simp] theorem loadRegs_bankConflict : (loadRegs wb first rs a s).bankConflict = s.bankConflict := by
  obtain ⟨x, hx⟩ := loadRegs_eq wb rs first a s; rw [hx]
@[simp] theorem loadRegs_started : (loadRegs wb first rs a s).started = s.started := by
  obtain ⟨x, hx⟩ := loadRegs_eq wb rs first a s; rw [hx]
@[simp] theorem loadRegs_draws : (loadRegs wb first rs a s).draws = s.draws := by
  obtain ⟨x, hx⟩ := loadRegs_eq wb rs first a s; rw [hx]
@[simp] theorem loadRegs_flags : (loadRegs wb first rs a s).flags = s.flags := by
  obtain ⟨x, hx⟩ := loadRegs_eq wb rs first a s; rw [hx]; rfl
@[simp] theorem loadRegs_thumb : (loadRegs wb first rs a s).thumb = s.thumb := by
  obtain ⟨x, hx⟩ := loadRegs_eq wb rs first a s; rw [hx]; rfl
@[simp] theorem loadRegs_irqDisable : (loadRegs wb first rs a s).irqDisable = s.irqDisable := by
  obtain ⟨x, hx⟩ := loadRegs_eq wb rs first a s; rw [hx]; rfl
@[simp] theorem loadRegs_mode : (loadRegs wb first rs a s).mode = s.mode := by
  obtain ⟨x, hx⟩ := loadRegs_eq wb rs first a s; rw [hx]; rfl
@[simp] theorem loadRegs_bank : (loadRegs wb first rs a s).bank = s.bank := by
  obtain ⟨x, hx⟩ := loadRegs_eq wb rs first a s; rw [hx]; rfl
@[simp] theorem storeRegs_bankLo : (storeRegs wb first rs a s).bankLo = s.bankLo := by
  obtain ⟨x, cs, hx⟩ := storeRegs_eq wb rs first a s; rw [hx]
@[simp] theorem storeRegs_bankHi : (storeRegs wb first rs a s).bankHi = s.bankHi := by
  obtain ⟨x, cs, hx⟩ := storeRegs_eq wb rs first a s; rw [hx]
@[simp] theorem storeRegs_cpsr : (storeRegs wb first rs a s).cpsr = s.cpsr := by
  obtain ⟨x, cs, hx⟩ := storeRegs_eq wb rs first a s; rw [hx]
@[simp] theorem storeRegs_spsr : (storeRegs wb first rs a s).spsr = s.spsr := by
  obtain ⟨x, cs, hx⟩ := storeRegs_eq wb rs first a s; rw [hx]
@[simp] theorem storeRegs_slot0 : (storeRegs wb first rs a s).slot0 = s.slot0 := by
  obtain ⟨x, cs, hx⟩ := storeRegs_eq wb rs first a s; rw [hx]
@[simp] theorem storeRegs_slot1 : (storeRegs wb first rs a s).slot1 = s.slot1 := by
  obtain ⟨x, cs, hx⟩ := storeRegs_eq wb rs first a s; rw [hx]
@[simp] theorem storeRegs_fetchKind : (storeRegs wb first rs a s).fetchKind = s.fetchKind := by
  obtain ⟨x, cs, hx⟩ := storeRegs_eq wb rs first a s; rw [hx]
@[simp] theorem storeRegs_irqMaskLatch : (storeRegs wb first rs a s).irqMaskLatch = s.irqMaskLatch := by
  obtain ⟨x, cs, hx⟩ := storeRegs_eq wb rs first a s; rw [hx]
@[simp] theorem storeRegs_invalidMode : (storeRegs wb first rs a s).invalidMode = s.invalidMode := by
  obtain ⟨x, cs, hx⟩ := storeRegs_eq wb rs first a s; rw [hx]
@[simp] theorem storeRegs_bankConflict : (storeRegs wb first rs a s).bankConflict = s.bankConflict := by
  obtain ⟨x, cs, hx⟩ := storeRegs_eq wb rs first a s; rw [hx]
@[simp] theorem storeRegs_started : (storeRegs wb first rs a s).started = s.started := by
  obtain ⟨x, cs, hx⟩ := storeRegs_eq wb rs first a s; rw [hx]
@[simp] theorem storeRegs_draws : (storeRegs wb first rs a s).draws = s.draws := by
  obtain ⟨x, cs, hx⟩ := storeRegs_eq wb rs first a s; rw [hx]
@[simp] theorem storeRegs_flags : (storeRegs wb first rs a s).flags = s.flags := by
  obtain ⟨x, cs, hx⟩ := storeRegs_eq wb rs first a s; rw [hx]; rfl
@[simp] theorem storeRegs_thumb : (storeRegs wb first rs a s).thumb = s.thumb := by
  obtain ⟨x, cs, hx⟩ := storeRegs_eq wb rs first a s; rw [hx]; rfl
@[simp] theorem storeRegs_irqDisable : (storeRegs wb first rs a s).irqDisable = s.irqDisable := by
  obtain ⟨x, cs, hx⟩ := storeRegs_eq wb rs first a s; rw [hx]; rfl
@[simp] theorem storeRegs_mode : (storeRegs wb first rs a s).mode = s.mode := by
  obtain ⟨x, cs, hx⟩ := storeRegs_eq wb rs first a s; rw [hx]; rfl
@[simp] theorem storeRegs_bank : (storeRegs wb first rs a s).bank = s.bank := by
  obtain ⟨x, cs, hx⟩ := storeRegs_eq wb rs first a s; rw [hx]; rfl
@[simp] theorem loadRegs_world : (loadRegs wb first rs a s).world =
    s.world.play (accessCalls (fun _ b k => .read .word b (dataAcc k)) first rs.length a) := by
  obtain ⟨x, hx⟩ := loadRegs_eq wb rs first a s; rw [hx]

end Fields

/-! ## Register lists -/

theorem mem_regList (list : BitVec 16) (r : Reg) : r ∈ regList list ↔ list.getLsbD r.val = true := by
  have h : r ∈ allRegs := by revert r; decide
  simp [regList, h]

theorem regList_nodup (list : BitVec 16) : (regList list).Nodup :=
  List.Nodup.filter _ (by decide)

theorem regList_length (list : BitVec 16) : (regList list).length ≤ 16 :=
  List.length_filter_le _ _

theorem regList_ne_nil {list : BitVec 16} (h : list ≠ 0) : regList list ≠ [] := by
  intro e
  apply h
  apply BitVec.eq_of_getLsbD_eq
  intro k hk
  have : (⟨k, hk⟩ : Reg) ∉ regList list := by rw [e]; simp
  rw [mem_regList] at this
  simpa using this

theorem mem_lowList (list : BitVec 8) (r : Reg) : r ∈ lowList list ↔ list.getLsbD r.val = true := by
  rw [lowList, mem_regList, BitVec.getLsbD_setWidth]
  simp

theorem lowList_lt {list : BitVec 8} {r : Reg} (h : r ∈ lowList list) : r.val < 8 := by
  rw [mem_lowList] at h
  exact Classical.byContradiction fun hn => by rw [BitVec.getLsbD_of_ge _ _ (by omega)] at h; simp at h

theorem lowList_ne_nil {list : BitVec 8} (h : list ≠ 0) : lowList list ≠ [] := by
  apply regList_ne_nil
  intro e
  apply h
  apply BitVec.eq_of_getLsbD_eq
  intro k hk
  have := congrArg (fun x => x.getLsbD k) e
  simpa [BitVec.getLsbD_setWidth, show k < 16 by omega] using this

/-- A list that ends in r15 ends in it. -/
theorem regList_last {list : BitVec 16} (h : list.getLsbD 15 = true) :
    0 < (regList list).length ∧ nthReg (regList list) ((regList list).length - 1) = regPc := by
  have : regList list = ([0, 1, 2, 3, 4, 5, 6, 7, 8, 9, 10, 11, 12, 13, 14] : List Reg).filter (fun r => list.getLsbD r.val) ++ [15] := by
    rw [regList, show allRegs = ([0, 1, 2, 3, 4, 5, 6, 7, 8, 9, 10, 11, 12, 13, 14] : List Reg) ++ [15] from rfl, List.filter_append]
    congr 1
    rw [List.filter_cons, if_pos (by simpa using h)]
    rfl
  rw [this]
  simp [nthReg]

theorem isLowest_iff (regs : List Reg) (r : Reg) (h : regs ≠ []) : isLowest regs r = true ↔ nthReg regs 0 = r := by
  cases regs with
  | nil => exact absurd rfl h
  | cons q qs => simp [isLowest, nthReg]

theorem contains_regPc (list : BitVec 16) : (regList list).contains regPc = list.getLsbD 15 := by
  have := mem_regList list regPc
  rw [Bool.eq_iff_iff, List.contains_iff_mem, this]
  rfl

theorem wbReg_blockWb (wb : Bool) (m : BlockMode) (rn : Reg) (s : State) (regs : List Reg) :
    wbReg (blockWb wb m rn s regs) = if wb then [rn] else [] := by cases wb <;> rfl

theorem readCalls_eq (a : Word) (n : Nat) :
    accessCalls (fun _ b k => .read .word b (dataAcc k)) true n a = readCalls a n := by
  simp [accessCalls, readCalls]

/-- Reads write nothing. -/
theorem readCalls_reads (a : Word) (n : Nat) : ∀ c ∈ readCalls a n ++ [.idle], World.isWrite c = false := by
  intro c hc
  simp only [readCalls, List.mem_append, List.mem_map, List.mem_range, List.mem_singleton] at hc
  rcases hc with ⟨k, _, rfl⟩ | rfl <;> rfl

theorem writeCalls_eq (a : Word) (n : Nat) (v : Nat → Word) :
    accessCalls (fun k b f => .write .word b (v k) (dataAcc f)) true n a = writeCalls a n v := by
  simp [accessCalls, writeCalls]

/-! ## LDM, STM -/

/-- The reads of an LDM with the current bank, before its end (45 R350, R351). -/
theorem ldmReads_get_other {m : BlockMode} {wb : Bool} {rn : Reg} {regs : List Reg} {s t : State} {q : Reg}
    (h : q ∉ (if wb then [rn] else []) ++ regs) : (ldmReads m wb rn regs s t).get q = t.get q := by
  rw [List.mem_append, not_or] at h
  rw [ldmReads, State.idle_get, loadRegs_get_other _ _ _ _ _ _ h.2 (by rw [wbReg_blockWb]; exact h.1)]
theorem ldmReads_get_nth {m : BlockMode} {wb : Bool} {rn : Reg} {list : BitVec 16} {s t : State} {k : Nat}
    (h : k < (regList list).length) : (ldmReads m wb rn (regList list) s t).get (nthReg (regList list) k) =
      blockWord t (blockStart m (s.get rn) (regList list)) k := by
  rw [ldmReads, State.idle_get, loadRegs_get_nth _ _ _ _ _ _ (regList_nodup _) h, readCalls_eq]; rfl
theorem ldmReads_get_base {m : BlockMode} {rn : Reg} {regs : List Reg} {s t : State} (h : regs ≠ []) (hn : rn ∉ regs) :
    (ldmReads m true rn regs s t).get rn = blockNewBase m (s.get rn) regs := by
  rw [ldmReads, State.idle_get]
  exact loadRegs_get_base h hn _ _

theorem stmWrites_get_other {m : BlockMode} {wb : Bool} {rn : Reg} {regs : List Reg} {s t : State} {q : Reg}
    (h : q ∉ (if wb then [rn] else [])) : (stmWrites m wb rn regs s t).get q = t.get q := by
  rw [stmWrites, storeRegs_get_other _ _ _ _ _ _ (by rw [wbReg_blockWb]; exact h)]
theorem stmWrites_get_base {m : BlockMode} {rn : Reg} {regs : List Reg} {s t : State} (h : regs ≠ []) :
    (stmWrites m true rn regs s t).get rn = blockNewBase m (s.get rn) regs := storeRegs_get_base h _ _
theorem regList_tail_base {list : BitVec 16} {rn : Reg} (h : nthReg (regList list) 0 = rn) :
    rn ∉ (regList list).tail := by
  have := regList_nodup list
  cases hr : regList list with
  | nil => simp
  | cons q qs =>
    rw [hr] at this h
    subst h
    exact (List.nodup_cons.mp this).1

/-- The memory and the bus calls of an STM (45 R350, R352). -/
theorem stmWrites_done {m : BlockMode} {wb : Bool} {rn : Reg} {list : BitVec 16} {s t : State} (hn : rn ≠ regPc)
    (h : wb = true → list.getLsbD rn.val = true → nthReg (regList list) 0 = rn) :
    StoredBlock (blockStart m (s.get rn) (regList list)) (regList list).length (blockValue t (regList list)) t
      (stmWrites m wb rn (regList list) s t) ∧
    (stmWrites m wb rn (regList list) s t).world = t.world.play
      (writeCalls (blockStart m (s.get rn) (regList list)) (regList list).length (blockValue t (regList list))) := by
  have h1 : ∀ q ∈ (regList list).tail, q ∉ wbReg (blockWb wb m rn s (regList list)) := by
    intro q hq
    rw [wbReg_blockWb]
    cases wb
    · simp
    · simp only [if_true, List.mem_singleton]
      rintro rfl
      exact regList_tail_base (h rfl ((mem_regList _ _).mp (List.mem_of_mem_tail hq))) hq
  have h2 : regPc ∉ wbReg (blockWb wb m rn s (regList list)) := by
    rw [wbReg_blockWb]
    cases wb
    · simp
    · simpa using fun e => hn e.symm
  have h3 := storeRegs_calls (blockWb wb m rn s (regList list)) (regList list) true
    (blockStart m (s.get rn) (regList list)) t h1 h2 (by simp)
  exact ⟨storedBlock_of_play (regList_length _) h3, by rw [stmWrites, h3, writeCalls_eq]⟩

/-- A register that the current mode does not share is in its bank, wherever the visible one goes. -/
theorem State.seenBy_bank {u s : State} (hb : u.bank = s.bank) (hl : u.bankLo = s.bankLo) (hh : u.bankHi = s.bankHi)
    {m : Mode} {r : Reg} (h : u.get r = s.get r ∨ sameRegister m.bank s.bank r = false) : u.seenBy m r = s.seenBy m r := by
  have h1 : ∀ b, u.loBank b = s.loBank b := by intro b; cases b <;> simp [State.loBank, hl]
  have h2 : ∀ g, u.hiBank g = s.hiBank g := by intro g; simp [State.hiBank, hh]
  rcases h with h | h
  · unfold State.seenBy; simp only [hb, h1, h2, h]
  · unfold sameRegister at h
    unfold State.seenBy
    simp only [hb, h1, h2]
    split at h
    · next hr =>
      have hne : s.bank ≠ m.bank := fun e => by simp [e] at h
      rcases hr with rfl | rfl <;> simp [hne]
    · next hr =>
      simp only [not_or] at hr
      rw [if_neg hr.1, if_neg hr.2, if_neg hr.1, if_neg hr.2]
      split at h
      · next h8 =>
        have hne : ¬((s.bank = .fiq) = (m.bank = .fiq)) := by
          intro e
          rw [eq_iff_iff] at e
          by_cases hx : s.bank = .fiq
          · simp [hx, e.mp hx] at h
          · have : m.bank ≠ .fiq := fun y => hx (e.mpr y)
            simp [beq_false_of_ne hx, beq_false_of_ne this] at h
        rw [dif_pos h8, dif_pos h8, if_neg hne, if_neg hne]
      · exact absurd h (by simp)
section Fields
variable (m : BlockMode) (wb : Bool) (rn : Reg) (regs : List Reg) (s t : State)
@[simp] theorem ldmReads_world : (ldmReads m wb rn regs s t).world =
    t.world.play (readCalls (blockStart m (s.get rn) regs) regs.length ++ [.idle]) := by
  simp [ldmReads, readCalls_eq]
end Fields

/-- A return from a state that differs in `dst`, the world after calls that write nothing, and the next fetch. -/
theorem returns_from {saved target dst calls s u t} (h : Returns saved target [] [] u t)
    (hw : u.world = s.world.play calls) (hs : u.spsr = s.spsr) (hc : ∀ c ∈ calls, World.isWrite c = false)
    (hseen : ∀ (m : Mode) (r : Reg), r ≠ regPc → ¬(r ∈ dst ∧ sameRegister m.bank s.bank r = true) →
      u.seenBy m r = s.seenBy m r)
    (own : u.draws = s.draws ∧ u.irqMaskLatch = s.irqMaskLatch ∧ u.invalidMode = s.invalidMode ∧
      u.started = s.started) :
    Returns saved target dst calls s t := by
  have hr : Reloaded (saved.getLsbD 5) target calls s t := by
    obtain ⟨r1, r2, r3, r4, r5, r6⟩ := h.reload
    refine ⟨r1, ?_, ?_, r4, r5, ?_⟩
    · rw [r2, State.memAfter_congr s hw, List.append_nil]
    · rw [r3, State.memAfter_congr s hw]; rfl
    · rw [r6, hw, World.play_play]; rfl
  refine ⟨hr, h.cpsr, h.spsr.trans hs, ?_, h.visible, hr.keepsMemory hc, h.window, h.draws.trans own.1,
    h.latch.trans own.2.1, h.own.1.trans own.2.2.1, h.own.2.trans own.2.2.2⟩
  intro m r h1 h2
  rw [h.regs m r h1 (by simp), hseen m r h1 h2]

/-! ## Transfers of the User bank -/

theorem State.mode_bits {s : State} (h : s.bank ≠ .shared) : modeField s.cpsr = s.mode.bits := by
  unfold State.bank State.mode at *
  cases hm : Mode.ofBits (modeField s.cpsr) with
  | none => rw [hm] at h; exact absurd rfl h
  | some m => exact Mode.bits_of_ofBits hm
@[simp] theorem State.seenBy_pc (s : State) (m : Mode) : s.seenBy m regPc = s.get regPc := rfl
/-- The rest of a transfer of the User bank, from what its accesses do between the two switches (45 R355). -/
theorem userBank_of {s w : State} {loaded : List Reg} {calls : List BusCall} (hb : s.bank ≠ .shared) (cf : Bool)
    (hw : w.cpsr = ((s.setFetchKind .n).switchTo .usr).cpsr) (hbus : w.world = s.world.play calls)
    (hlo : w.bankLo = ((s.setFetchKind .n).switchTo .usr).bankLo) (hhi : w.bankHi = ((s.setFetchKind .n).switchTo .usr).bankHi)
    (hg : ∀ r, r ∉ loaded → w.get r = ((s.setFetchKind .n).switchTo .usr).get r) (hpc : regPc ∉ loaded)
    (hf : w.spsr = s.spsr ∧ w.slot0 = s.slot0 ∧ w.slot1 = s.slot1 ∧ w.fetchKind = .n ∧ w.draws = s.draws ∧
      w.irqMaskLatch = s.irqMaskLatch ∧ w.invalidMode = s.invalidMode ∧ w.started = s.started) :
    UserBank loaded calls cf s { (w.switchTo s.mode).next false with bankConflict := cf } ∧
    (∀ r, r ≠ regPc → ({ (w.switchTo s.mode).next false with bankConflict := cf } : State).seenBy .usr r = w.get r) := by
  have hbank : w.bank = ((s.setFetchKind .n).switchTo .usr).bank := by simp [State.bank, State.mode, hw]
  have hsh : w.bank = .shared := by rw [hbank, State.switchTo_bank]; rfl
  have hbank' : ((s.setFetchKind .n).switchTo .usr).bank = .shared := by rw [State.switchTo_bank]; rfl
  generalize ht : ({ (w.switchTo s.mode).next false with bankConflict := cf } : State) = t
  have hts : ∀ m r, r ≠ regPc → t.seenBy m r = w.seenBy m r := by
    intro m r hr
    have := State.next_seenBy (w.switchTo s.mode) false m r hr
    rw [State.switchTo_seenBy] at this
    rw [← ht]; exact this
  refine ⟨⟨?_, ?_, ?_, ?_, ?_, ?_, ?_, ?_, ?_, ?_, ?_⟩, ?_⟩
  · rw [← ht]
    show ((w.switchTo s.mode).next false).get regPc = _
    rw [State.get_next, if_pos rfl, State.switchTo_get, State.seenBy_pc, hg _ hpc, State.switchTo_get]; rfl
  · intro m r hr hd
    rw [hts m r hr, State.seenBy_bank (s := (s.setFetchKind .n).switchTo .usr) hbank hlo hhi, State.switchTo_seenBy]
    · exact State.seenBy_congr (v := s.setFetchKind .n) (u := s) rfl (fun _ _ => rfl) rfl rfl m r hr
    · by_cases hl : r ∈ loaded
      · right
        rw [hbank']
        cases hh : sameRegister m.bank .shared r
        · rfl
        · exact absurd ⟨hl, hh⟩ hd
      · left; exact hg r hl
  · rw [← ht]
    show (w.switchTo s.mode).cpsr = _
    rw [State.switchTo_cpsr, hw, State.switchTo_cpsr, setMode_setMode]
    exact setMode_self _ _ (State.mode_bits hb)
  · rw [← ht]; simpa using hf.1
  · rw [← ht]; simpa using ⟨hf.2.1, hf.2.2.1⟩
  · rw [← ht]; simpa using hf.2.2.2.1
  · rw [← ht]; simpa using hbus
  · rw [← ht]
  · rw [← ht]; simpa using hf.2.2.2.2.1
  · rw [← ht]; simpa using hf.2.2.2.2.2.1
  · rw [← ht]; simpa using hf.2.2.2.2.2.2
  · intro r hr
    rw [hts _ r hr, State.seenBy_of_bank _ (by rw [hsh]; rfl)]

end Sys2Proof.Machine
end

