-- ==== Sys2Proof/Laws/Branches.lean ====
section
/-! SUPPORT. Branch offsets as numbers (spec/30 R141, R142), and BX (spec/46 R382). -/

namespace Sys2Proof.Machine

open Sys2Proof

/-- An offset with zeros appended, sign-extended, as a number. -/
theorem signExtend_append_zero {n k : Nat} (imm : BitVec n) :
    ((imm ++ 0#k).signExtend 32 : Word) = BitVec.ofInt 32 (2 ^ k * imm.toInt) := by
  rw [BitVec.signExtend, BitVec.toInt_append_zero]
/-- A sign-extended offset shifted left, as a number. -/
theorem shiftLeft_signExtend {n : Nat} (imm : BitVec n) (k : Nat) :
    (imm.signExtend 32 <<< k : Word) = BitVec.ofInt 32 (2 ^ k * imm.toInt) := by
  rw [BitVec.signExtend, BitVec.shiftLeft_eq_mul_twoPow, BitVec.ofInt_mul, BitVec.mul_comm]
  congr 1
  apply BitVec.eq_of_toNat_eq
  rw [BitVec.toNat_twoPow]
  have : ((2 : Int) ^ k) = ((2 ^ k : Nat) : Int) := by push_cast; rfl
  rw [this, BitVec.ofInt_natCast, BitVec.toNat_ofNat]

/-- BX to an address it accepts (46 R382, 49 R494). -/
theorem bxTo_next (s : State) (a : Word) (h : a.getLsbD 0 = true ∨ a.getLsbD 1 = false) :
    ∃ t, bxTo a s = .next t ∧ Branches (a.getLsbD 0) a { flags := s.flags } s t ∧ KeepsMemory s t := by
  have hx : (!a.getLsbD 0 && a.getLsbD 1) = false := by
    rcases h with h | h <;> rw [h]
    · rfl
    · exact Bool.and_false _
  have hb : Branches (a.getLsbD 0) a { flags := s.flags } s ((s.setCpsr (setBit s.cpsr 5 (a.getLsbD 0))).branchTo a) := by
    apply branches_branchTo
    · simp only [State.thumb, State.setCpsr_cpsr]; rw [getLsbD_setBit _ _ _ _ (by omega), if_pos rfl]
    · simp
    · simp
    · simp
    · simp only [State.flags, State.setCpsr_cpsr]; exact flagsOf_setBit _ _ _ (by omega)
    · intro k hk h5; rw [State.setCpsr_cpsr, getLsbD_setBit _ _ _ _ (by omega), if_neg h5]
    · simp
  exact ⟨_, by rw [bxTo, hx, refuseIf_false], hb, hb.reload.keepsMemory (by simp)⟩

end Sys2Proof.Machine
end

