-- ==== Sys2Proof/Laws/DataProcessing.lean ====
section
/-! SUPPORT. What the shared operations of the 32-bit data-processing instructions do (spec/42). -/

namespace Sys2Proof.Machine

open Sys2Proof

/-! ## The internal cycle of a register-specified shift -/

section Cycle

variable (s : State) (op2 : Operand2)

@[simp] theorem op2Cycle_x : (op2Cycle s op2).x = s.x := by unfold op2Cycle; split <;> rfl
@[simp] theorem op2Cycle_bankLo : (op2Cycle s op2).bankLo = s.bankLo := by unfold op2Cycle; split <;> rfl
@[simp] theorem op2Cycle_bankHi : (op2Cycle s op2).bankHi = s.bankHi := by unfold op2Cycle; split <;> rfl
@[simp] theorem op2Cycle_cpsr : (op2Cycle s op2).cpsr = s.cpsr := by unfold op2Cycle; split <;> rfl
@[simp] theorem op2Cycle_spsr : (op2Cycle s op2).spsr = s.spsr := by unfold op2Cycle; split <;> rfl
@[simp] theorem op2Cycle_slot0 : (op2Cycle s op2).slot0 = s.slot0 := by unfold op2Cycle; split <;> rfl
@[simp] theorem op2Cycle_slot1 : (op2Cycle s op2).slot1 = s.slot1 := by unfold op2Cycle; split <;> rfl
@[simp] theorem op2Cycle_irqMaskLatch : (op2Cycle s op2).irqMaskLatch = s.irqMaskLatch := by unfold op2Cycle; split <;> rfl
@[simp] theorem op2Cycle_invalidMode : (op2Cycle s op2).invalidMode = s.invalidMode := by unfold op2Cycle; split <;> rfl
@[simp] theorem op2Cycle_bankConflict : (op2Cycle s op2).bankConflict = s.bankConflict := by unfold op2Cycle; split <;> rfl
@[simp] theorem op2Cycle_started : (op2Cycle s op2).started = s.started := by unfold op2Cycle; split <;> rfl
@[simp] theorem op2Cycle_draws : (op2Cycle s op2).draws = s.draws := by unfold op2Cycle; split <;> rfl
@[simp] theorem op2Cycle_flags : (op2Cycle s op2).flags = s.flags := by unfold op2Cycle; split <;> rfl
@[simp] theorem op2Cycle_thumb : (op2Cycle s op2).thumb = s.thumb := by unfold op2Cycle; split <;> rfl
@[simp] theorem op2Cycle_mode : (op2Cycle s op2).mode = s.mode := by unfold op2Cycle; split <;> rfl
@[simp] theorem op2Cycle_bank : (op2Cycle s op2).bank = s.bank := by unfold op2Cycle; split <;> rfl
@[simp] theorem op2Cycle_getSpsr : (op2Cycle s op2).getSpsr = s.getSpsr := by unfold op2Cycle; split <;> rfl
@[simp] theorem op2Cycle_get (r : Reg) : (op2Cycle s op2).get r = s.get r := by unfold op2Cycle; split <;> rfl
@[simp] theorem op2Cycle_spsrOf (b : Bank) : (op2Cycle s op2).spsrOf b = s.spsrOf b := by
  unfold op2Cycle; split <;> simp
@[simp] theorem op2Cycle_seenBy (m : Mode) (r : Reg) : (op2Cycle s op2).seenBy m r = s.seenBy m r := by
  unfold op2Cycle; split <;> rfl
@[simp] theorem op2Cycle_fetchKind : (op2Cycle s op2).fetchKind = op2Kind s op2 := by
  unfold op2Cycle op2Kind; split <;> rfl
@[simp] theorem op2Cycle_world : (op2Cycle s op2).world = s.world.play (op2Calls op2) := by
  unfold op2Cycle op2Calls; split <;> rfl

/-- The internal cycle writes nothing. -/
theorem op2Calls_reads (op2 : Operand2) : ∀ c ∈ op2Calls op2, World.isWrite c = false := by
  intro c hc
  unfold op2Calls at hc
  split at hc
  · simp only [List.mem_singleton] at hc; subst hc; rfl
  · simp at hc

end Cycle

/-! ## The skeleton -/

/-- An instruction with a destination other than r15 (42 R240 step 4). -/
theorem dataOp_done (c : Cond) (sf : Bool) (regs : List Reg) (rd : Reg) (op2 : Operand2) (r : AluResult) (s : State)
    (hc : s.passes c = true) (ht : s.MayTouch (rd :: regs ++ op2Regs op2)) (hp : op2ShiftByPc op2 = false)
    (hd : rd ≠ regPc) :
    ∃ t : State, dataOp c regs sf rd op2 r s = .next t ∧ t.get rd = r.value ∧
      Retires false
        { dst := [rd], flags := if sf then r.flags else s.flags, kind := op2Kind s op2, calls := op2Calls op2 } s t ∧
      KeepsMemory s t := by
  have hd' : (15 : Reg) ≠ rd := fun e => hd e.symm
  have hr : ∀ t, (((if sf then (op2Cycle s op2).setFlags r.flags else op2Cycle s op2).set rd r.value).next false) = t →
      Retires false { dst := [rd], flags := if sf then r.flags else s.flags, kind := op2Kind s op2, calls := op2Calls op2 }
        s t := by
    rintro t rfl
    cases sf <;> apply retires_next <;> simp +contextual [State.get_set, getLsbD_withFlags, hd']
  refine ⟨_, by rw [dataOp, armInstr_eq hc ht, hp, refuseIf_false, dpWrite, if_neg hd], ?_, hr _ rfl,
    (hr _ rfl).keepsMemory (op2Calls_reads op2)⟩
  simp [State.get_next, hd]

/-- A comparison (42 R240 step 4, R245). -/
theorem compareOp_done (c : Cond) (rn rd : Reg) (op2 : Operand2) (f : Flags) (s : State) (hc : s.passes c = true)
    (ht : s.MayTouch (rn :: op2Regs op2)) (hp : op2ShiftByPc op2 = false) (hd : rd ≠ regPc) :
    ∃ t : State, compareOp c rn rd op2 f s = .next t ∧ KeepsMemory s t ∧
      Retires false { flags := f, kind := op2Kind s op2, calls := op2Calls op2 } s t := by
  have hr : Retires false { flags := f, kind := op2Kind s op2, calls := op2Calls op2 } s
      (((op2Cycle s op2).setFlags f).next false) := by
    apply retires_next <;> simp +contextual [getLsbD_withFlags]
  exact ⟨_, by rw [compareOp, armInstr_eq hc ht, hp, refuseIf_false, beq_false_of_ne hd, refuseIf_false],
    hr.keepsMemory (op2Calls_reads op2), hr⟩

/-- Rd = 15 with S = 0 is a branch (42 R244). -/
theorem dataOp_branch (c : Cond) (regs : List Reg) (op2 : Operand2) (r : AluResult) (s : State)
    (hc : s.passes c = true) (ht : s.MayTouch (regPc :: regs ++ op2Regs op2)) (hp : op2ShiftByPc op2 = false) :
    ∃ t : State, dataOp c regs false regPc op2 r s = .next t ∧
      Branches s.thumb r.value { flags := s.flags, calls := op2Calls op2 } s t ∧ t.cpsr = s.cpsr ∧
      KeepsMemory s t := by
  have hb : Branches s.thumb r.value { flags := s.flags, calls := op2Calls op2 } s ((op2Cycle s op2).branchTo r.value) := by
    apply branches_branchTo <;> simp +contextual
  exact ⟨_, by rw [dataOp, armInstr_eq hc ht, hp, refuseIf_false, dpWrite, if_pos rfl, if_neg (by simp)], hb,
    by simp, hb.reload.keepsMemory (op2Calls_reads op2)⟩

/-- Rd = 15 with S = 1 is the exception return of the shared operation (42 R244). -/
theorem dataOp_return (c : Cond) (regs : List Reg) (op2 : Operand2) (r : AluResult) (s : State)
    (hc : s.passes c = true) (ht : s.MayTouch (regPc :: regs ++ op2Regs op2)) (hp : op2ShiftByPc op2 = false) :
    dataOp c regs true regPc op2 r s = (op2Cycle s op2).exceptionReturn r.value := by
  rw [dataOp, armInstr_eq hc ht, hp, refuseIf_false, dpWrite, if_pos rfl, if_pos rfl]

/-- A register-specified shift by r15 is refused (42 R243). -/
theorem dataOp_shiftByPc (c : Cond) (regs : List Reg) (sf : Bool) (rd : Reg) (op2 : Operand2) (r : AluResult) (s : State)
    (hc : s.passes c = true) (ht : s.MayTouch (rd :: regs ++ op2Regs op2)) (hp : op2ShiftByPc op2 = true) :
    dataOp c regs sf rd op2 r s = .refused .shiftByPc := by
  rw [dataOp, armInstr_eq hc ht, hp, refuseIf_true]

end Sys2Proof.Machine
end

