-- ==== Sys2Proof/Laws/Scheduler.lean ====
section
/-! SUPPORT. The event scheduler: key order is kept, and what firing does (spec/65 R573 to R580). -/

namespace Sys2Proof.Machine

open Sys2Proof

/-! ## The key order (65 R573) -/

theorem Event.before_iff {a b : Event} : a.before b = true ↔
    a.timestamp < b.timestamp ∨ (a.timestamp = b.timestamp ∧
      (a.priority < b.priority ∨ (a.priority = b.priority ∧ a.seq < b.seq))) := by
  simp [Event.before]

theorem Event.before_trans {a b c : Event} (h : a.before b = true) (k : b.before c = true) : a.before c = true := by
  rw [Event.before_iff] at *; omega

theorem Event.before_time {a b : Event} (h : a.before b = true) : a.timestamp ≤ b.timestamp := by
  rw [Event.before_iff] at h; omega

namespace Sched

theorem sortedFrom_before {d e : Event} (h : d.before e = true) :
    ∀ {es : List Event}, sortedFrom e es = true → sortedFrom d es = true
  | [], _ => rfl
  | x :: es, k => by
    simp only [sortedFrom, Bool.and_eq_true] at *
    exact ⟨Event.before_trans h k.1, k.2⟩

theorem sortedFrom_mem : ∀ {d : Event} {es : List Event}, sortedFrom d es = true → ∀ e ∈ es, d.before e = true
  | _, [], _, e, he => by simp at he
  | d, x :: es, h, e, he => by
    simp only [sortedFrom, Bool.and_eq_true] at h
    rcases List.mem_cons.mp he with rfl | he
    · exact h.1
    · exact Event.before_trans h.1 (sortedFrom_mem h.2 e he)

theorem sorted_tail {e : Event} {es : List Event} (h : sorted (e :: es) = true) : sorted es = true := by
  cases es with
  | nil => rfl
  | cons x es => simp only [sorted, sortedFrom, Bool.and_eq_true] at h; exact h.2

theorem sortedFrom_filter (p : Event → Bool) : ∀ {d : Event} {es : List Event}, sortedFrom d es = true →
    sortedFrom d (es.filter p) = true
  | _, [], _ => rfl
  | d, x :: es, h => by
    simp only [sortedFrom, Bool.and_eq_true] at h
    rw [List.filter_cons]
    split
    · simp only [sortedFrom, Bool.and_eq_true]; exact ⟨h.1, sortedFrom_filter p h.2⟩
    · exact sortedFrom_filter p (sortedFrom_before h.1 h.2)

theorem sorted_filter (p : Event → Bool) : ∀ {es : List Event}, sorted es = true → sorted (es.filter p) = true
  | [], _ => rfl
  | x :: es, h => by
    rw [List.filter_cons]
    split
    · exact sortedFrom_filter p h
    · exact sorted_filter p (sorted_tail h)

/-! ## Adding -/

theorem mem_insert {e x : Event} : ∀ {es : List Event}, x ∈ insert es e ↔ x ∈ es ∨ x = e
  | [] => by simp [insert]
  | d :: es => by
    rw [insert]
    split
    · simp [or_comm]
    · rw [List.mem_cons, mem_insert, List.mem_cons, or_assoc]

theorem length_insert (e : Event) : ∀ es : List Event, (insert es e).length = es.length + 1
  | [] => rfl
  | d :: es => by rw [insert]; split <;> simp [length_insert]

theorem sortedFrom_insert {e : Event} : ∀ {d : Event} {es : List Event}, sortedFrom d es = true →
    d.before e = true → (∀ x ∈ es, x.seq < e.seq) → sortedFrom d (insert es e) = true
  | d, [], _, hd, _ => by simp [insert, sortedFrom, hd]
  | d, x :: es, h, hd, hs => by
    simp only [sortedFrom, Bool.and_eq_true] at h
    rw [insert]
    split
    · next hx => simp only [sortedFrom, Bool.and_eq_true]; exact ⟨hd, hx, h.2⟩
    · next hx =>
      simp only [sortedFrom, Bool.and_eq_true]
      refine ⟨h.1, sortedFrom_insert h.2 ?_ fun y hy => hs y (List.mem_cons_of_mem _ hy)⟩
      have := hs x List.mem_cons_self
      rw [Event.before_iff] at *; omega

theorem sorted_insert {e : Event} {es : List Event} (h : sorted es = true) (hs : ∀ x ∈ es, x.seq < e.seq) :
    sorted (insert es e) = true := by
  cases es with
  | nil => rfl
  | cons x es =>
    rw [insert]
    split
    · next hx => simp only [sorted, sortedFrom, Bool.and_eq_true]; exact ⟨hx, h⟩
    · next hx =>
      refine sortedFrom_insert h ?_ fun y hy => hs y (List.mem_cons_of_mem _ hy)
      have := hs x List.mem_cons_self
      rw [Event.before_iff] at *; omega

theorem nodup_insert {e : Event} : ∀ {es : List Event}, (es.map Event.seq).Nodup → (∀ x ∈ es, x.seq < e.seq) →
    ((insert es e).map Event.seq).Nodup
  | [], _, _ => by simp [insert]
  | d :: es, h, hs => by
    have hd := hs d List.mem_cons_self
    rw [List.map_cons, List.nodup_cons] at h
    rw [insert]
    split
    · rw [List.map_cons, List.nodup_cons, List.map_cons, List.nodup_cons]
      refine ⟨?_, h⟩
      intro hm
      rw [← List.map_cons (f := Event.seq), List.mem_map] at hm
      obtain ⟨y, hy, he⟩ := hm
      have := hs y hy; omega
    · rw [List.map_cons, List.nodup_cons]
      refine ⟨?_, nodup_insert h.2 fun y hy => hs y (List.mem_cons_of_mem _ hy)⟩
      rw [List.mem_map]
      rintro ⟨y, hy, he⟩
      rcases mem_insert.mp hy with hy | rfl
      · exact h.1 (List.mem_map.mpr ⟨y, hy, he⟩)
      · omega

/-! ## The form of a scheduler -/

theorem wf_iff {sc : Sched} : wf sc = true ↔ sorted sc.pending = true ∧ (sc.pending.map Event.seq).Nodup ∧
    ∀ e ∈ sc.pending, e.seq < sc.seq ∧ e.handle = e.seq := by
  simp [wf, and_assoc]

/-- What stays of the pending events is in form, whatever the time. -/
theorem wf_filter {sc : Sched} (p : Event → Bool) (n : Nat) (h : wf sc = true) :
    wf { sc with now := n, pending := sc.pending.filter p } = true := by
  rw [wf_iff] at *
  exact ⟨sorted_filter p h.1, h.2.1.sublist (List.Sublist.map _ List.filter_sublist), fun e he => h.2.2 e (List.mem_filter.mp he).1⟩

theorem wf_tail {sc : Sched} {e : Event} {es : List Event} (hp : sc.pending = e :: es) (h : wf sc = true) :
    wf { sc with pending := es } = true := by
  rw [wf_iff, hp] at h
  rw [wf_iff]
  exact ⟨sorted_tail h.1, (List.nodup_cons.mp h.2.1).2, fun x hx => h.2.2 x (List.mem_cons_of_mem _ hx)⟩

/-- `Add` that goes on (65 R575). -/
theorem add_next {cfg : Config} {sc sc' : Sched} {delay cls priority h : Nat}
    (hr : sc.add cfg delay cls priority = .next (sc', h)) :
    h = sc.seq ∧ sc' = { sc with
      pending := insert sc.pending
        { cls := cls, timestamp := sc.now + delay, priority := priority, seq := sc.seq, handle := sc.seq }
      seq := sc.seq + 1 } := by
  unfold add at hr
  split at hr
  · exact absurd hr (by simp)
  · split at hr
    · exact absurd hr (by simp)
    · split at hr
      · exact absurd hr (by simp)
      · injection hr with hr
        injection hr with h1 h2
        exact ⟨h2.symm, h1.symm⟩

theorem wf_add {cfg : Config} {sc sc' : Sched} {delay cls priority h : Nat}
    (hr : sc.add cfg delay cls priority = .next (sc', h)) (hw : wf sc = true) : wf sc' = true := by
  obtain ⟨_, rfl⟩ := add_next hr
  rw [wf_iff] at *
  refine ⟨sorted_insert hw.1 fun x hx => (hw.2.2 x hx).1, nodup_insert hw.2.1 fun x hx => (hw.2.2 x hx).1, ?_⟩
  intro x hx
  show x.seq < sc.seq + 1 ∧ _
  rcases mem_insert.mp hx with hx | rfl
  · exact ⟨Nat.lt_succ_of_lt (hw.2.2 x hx).1, (hw.2.2 x hx).2⟩
  · exact ⟨Nat.lt_succ_self _, rfl⟩

/-- `Cancel` that goes on (65 R577). -/
theorem cancel_next {sc sc' : Sched} {h : Nat} (hr : sc.cancel h = .next sc') :
    hasHandle sc.pending h = true ∧ sc' = { sc with pending := sc.pending.filter (fun e => e.handle != h) } := by
  unfold cancel at hr
  split at hr
  · next hh => injection hr with hr; exact ⟨hh, hr.symm⟩
  · exact absurd hr (by simp)

theorem wf_cancel {sc sc' : Sched} {h : Nat} (hr : sc.cancel h = .next sc') (hw : wf sc = true) : wf sc' = true := by
  obtain ⟨_, rfl⟩ := cancel_next hr
  exact wf_filter _ _ hw

theorem hasHandle_iff {es : List Event} {h : Nat} : hasHandle es h = true ↔ ∃ e ∈ es, e.handle = h := by
  simp [hasHandle]

/-! ## Firing (65 R580) -/

/-- With callbacks that do nothing, the events that are due fire in order and the others stay. -/
theorem fireQuiet_eq : ∀ (es : List Event) (w : World), w.sched.pending = es → sorted es = true →
    World.fireQuiet es w =
      { w with
        sched := { w.sched with pending := es.filter fun e => decide (w.sched.now < e.timestamp) }
        host := w.host ++ (es.filter fun e => decide (e.timestamp ≤ w.sched.now)).map fun e => .fired e w.sched.now }
  | [], w, hp, _ => by
    simp only [World.fireQuiet, List.filter_nil, List.map_nil, List.append_nil]
    rw [← hp]
  | e :: es, w, hp, hs => by
    rw [World.fireQuiet]
    split
    · next hn =>
      rw [fireQuiet_eq es (w.fire e es) rfl (sorted_tail hs)]
      have : ¬ w.sched.now < e.timestamp := by omega
      simp [World.fire, World.note, hn, this]
      exact ⟨rfl, rfl⟩
    · next hn =>
      have hall : ∀ x ∈ e :: es, w.sched.now < x.timestamp := by
        intro x hx
        rcases List.mem_cons.mp hx with rfl | hx
        · omega
        · have := Event.before_time (sortedFrom_mem hs x hx); omega
      have h1 : (e :: es).filter (fun e => decide (w.sched.now < e.timestamp)) = e :: es :=
        List.filter_eq_self.mpr fun x hx => by simpa using hall x hx
      have h2 : (e :: es).filter (fun e => decide (e.timestamp ≤ w.sched.now)) = [] :=
        List.filter_eq_nil_iff.mpr fun x hx => by have := hall x hx; simp; omega
      rw [h1, h2, List.map_nil, List.append_nil, ← hp]

end Sched

end Sys2Proof.Machine
end

