-- ==== Sys2Proof/Laws/Msr.lean ====
section
/-! SUPPORT. The masks of MSR bit by bit, and its common semantics (spec/43 R284). -/

namespace Sys2Proof.Machine

open Sys2Proof

theorem getLsbD_fieldMask (mask : BitVec 4) (k : Nat) (hk : k < 32) : (fieldMask mask).getLsbD k = mask.getLsbD (k / 8) := by
  have h : ∀ (m : BitVec 4) (k : Fin 32), (fieldMask m).getLsbD k.val = m.getLsbD (k.val / 8) := by decide
  exact h mask ⟨k, hk⟩
theorem getLsbD_flagsByte (k : Nat) (hk : k < 32) : (0xFF000000#32).getLsbD k = decide (24 ≤ k) := by
  have h : ∀ (k : Fin 32), (0xFF000000#32).getLsbD k.val = decide (24 ≤ k.val) := by decide
  exact h ⟨k, hk⟩
/-- The mask of R284, bit by bit. -/
theorem getLsbD_msrMask (s : State) (p : Bool) (mask : BitVec 4) (k : Nat) (hk : k < 32) :
    (msrMask s p mask).getLsbD k = msrWrites s p mask k := by
  unfold msrMask msrWrites
  by_cases hu : s.mode = .usr
  · cases p
    · simp [hu, getLsbD_fieldMask _ k hk, getLsbD_flagsByte k hk]
    · simp [getLsbD_fieldMask _ k hk]
  · have : (s.mode == .usr) = false := beq_false_of_ne hu
    cases p <;> simp [hu, this, getLsbD_fieldMask _ k hk]
theorem getLsbD_mergeMask (old op mask : Word) (k : Nat) (hk : k < 32) :
    (mergeMask old op mask).getLsbD k = if mask.getLsbD k then op.getLsbD k else old.getLsbD k := by
  simp only [mergeMask, BitVec.getLsbD_or, BitVec.getLsbD_and, BitVec.getLsbD_not, hk, decide_true, Bool.true_and]
  cases mask.getLsbD k <;> simp
theorem getLsbD_reservedMask (k : Nat) (hk : k < 32) : (0x0FFFFF00#32).getLsbD k = decide (8 ≤ k ∧ k < 28) := by
  have : ∀ j : Fin 32, (0x0FFFFF00#32).getLsbD j.val = decide (8 ≤ j.val ∧ j.val < 28) := by decide
  exact this ⟨k, hk⟩
/-- The reserved-bit check of R284. -/
theorem msrReserved_iff (s : State) (p : Bool) (mask : BitVec 4) (op : Word) :
    (op &&& msrMask s p mask &&& 0x0FFFFF00#32 != 0) = false ↔ msrKeepsReserved s p mask op := by
  have h : (op &&& msrMask s p mask &&& 0x0FFFFF00#32 != 0) = false ↔ op &&& msrMask s p mask &&& 0x0FFFFF00#32 = 0 := by simp
  rw [h]
  constructor
  · intro e k h8 h28 hw
    have := congrArg (fun x => x.getLsbD k) e
    simpa [getLsbD_reservedMask k (by omega), getLsbD_msrMask s p mask k (by omega), hw, h8, h28] using this
  · intro hr
    apply BitVec.eq_of_getLsbD_eq
    intro k hk
    simp only [BitVec.getLsbD_and, getLsbD_reservedMask k hk, getLsbD_msrMask s p mask k hk]
    by_cases h8 : 8 ≤ k ∧ k < 28
    · cases hw : msrWrites s p mask k
      · simp
      · simp [hr k h8.1 h8.2 hw]
    · rw [decide_eq_false h8]; simp
/-- Within a byte the mask is all or nothing. -/
theorem msrWrites_byte (s : State) (p : Bool) (mask : BitVec 4) (k : Nat) (h : k < 8) : msrWrites s p mask k = msrWrites s p mask 0 := by
  simp [msrWrites, show k / 8 = 0 by omega, show ¬24 ≤ k by omega]
theorem msrMask_low (s : State) (p : Bool) (mask : BitVec 4) :
    ((msrMask s p mask).extractLsb' 0 8 != 0) = msrWrites s p mask 0 := by
  have : ((msrMask s p mask).extractLsb' 0 8 != 0) = true ↔ msrWrites s p mask 0 = true := by
    rw [bne_iff_ne]
    constructor
    · intro h
      cases hw : msrWrites s p mask 0
      · exfalso; apply h
        apply BitVec.eq_of_getLsbD_eq
        intro k hk
        simp [hk, getLsbD_msrMask s p mask k (by omega), msrWrites_byte s p mask k hk, hw]
      · rfl
    · intro hw e
      have h1 := congrArg (fun x => x.getLsbD 0) e
      have h0 := getLsbD_msrMask s p mask 0 (by omega)
      simp only [BitVec.getLsbD_extractLsb', Nat.zero_add, h0, hw] at h1
      simp at h1
  rw [Bool.eq_iff_iff]; exact this

/-- A register or immediate MSR is its common semantics (43 R281, R282, R284). -/
theorem MsrForm.exec_eq {s : State} {p : Bool} {mask : BitVec 4} {i : Instr} {op : Word} (h : MsrForm s p mask i op) :
    exec i s = msrWrite p mask op s := by
  cases h with
  | reg c rm hc ht hn => rw [exec, execMsrReg, armInstr_eq hc ht, beq_false_of_ne hn, refuseIf_false]
  | imm c rot imm hc => rw [exec, execMsrImm, armInstr_eq hc (.inr (by simp))]; rfl
theorem flagsOf_congr {a b : Word} (h : ∀ k, 28 ≤ k → k < 32 → a.getLsbD k = b.getLsbD k) : flagsOf a = flagsOf b := by
  simp only [flagsOf, h 31 (by omega) (by omega), h 30 (by omega) (by omega), h 29 (by omega) (by omega), h 28 (by omega) (by omega)]
/-- MSR to SPSR after the reserved check (43 R284). -/
theorem msrSpsr_next (s : State) (mask op : Word) (h1 : s.bank ≠ .shared) (h2 : s.bankConflict = false) :
    msrSpsr mask op s = .next ((s.setSpsr s.bank (mergeMask (s.spsrOf s.bank) op mask)).next false) := by
  rw [msrSpsr, beq_false_of_ne h1, refuseIf_false, h2, refuseIf_false]

end Sys2Proof.Machine
end

