-- ==== Sys2Proof/Laws/Multiply.lean ====
section
/-! SUPPORT. What the shared operations of the multiplies do (spec/43 R285 to R290). -/

namespace Sys2Proof.Machine

open Sys2Proof

/-- A flag-setting multiply draws a free value (41 R211): what it leaves alone. -/
theorem drawFlags_true (f : Flags) (s : State) :
    drawFlags true f s = { s.setFlags f with draws := s.draws + 1 } := rfl
@[simp] theorem drawFlags_false (f : Flags) (s : State) : drawFlags false f s = s := rfl
section Draw
variable (sf : Bool) (f : Flags) (s : State)
@[simp] theorem drawFlags_get (r : Reg) : (drawFlags sf f s).get r = s.get r := by cases sf <;> rfl
@[simp] theorem drawFlags_bankLo : (drawFlags sf f s).bankLo = s.bankLo := by cases sf <;> rfl
@[simp] theorem drawFlags_bankHi : (drawFlags sf f s).bankHi = s.bankHi := by cases sf <;> rfl
@[simp] theorem drawFlags_spsr : (drawFlags sf f s).spsr = s.spsr := by cases sf <;> rfl
@[simp] theorem drawFlags_slot0 : (drawFlags sf f s).slot0 = s.slot0 := by cases sf <;> rfl
@[simp] theorem drawFlags_slot1 : (drawFlags sf f s).slot1 = s.slot1 := by cases sf <;> rfl
@[simp] theorem drawFlags_fetchKind : (drawFlags sf f s).fetchKind = s.fetchKind := by cases sf <;> rfl
@[simp] theorem drawFlags_irqMaskLatch : (drawFlags sf f s).irqMaskLatch = s.irqMaskLatch := by cases sf <;> rfl
@[simp] theorem drawFlags_invalidMode : (drawFlags sf f s).invalidMode = s.invalidMode := by cases sf <;> rfl
@[simp] theorem drawFlags_bankConflict : (drawFlags sf f s).bankConflict = s.bankConflict := by cases sf <;> rfl
@[simp] theorem drawFlags_started : (drawFlags sf f s).started = s.started := by cases sf <;> rfl
@[simp] theorem drawFlags_world : (drawFlags sf f s).world = s.world := by cases sf <;> rfl
@[simp] theorem drawFlags_draws : (drawFlags sf f s).draws = s.draws + sf.toNat := by cases sf <;> rfl
@[simp] theorem drawFlags_flags : (drawFlags sf f s).flags = if sf then f else s.flags := by
  cases sf
  · rfl
  · exact State.setFlags_flags s f
@[simp] theorem drawFlags_thumb : (drawFlags sf f s).thumb = s.thumb := by
  cases sf
  · rfl
  · exact State.setFlags_thumb s f
theorem getLsbD_drawFlags (k : Nat) (h : k < 28) : (drawFlags sf f s).cpsr.getLsbD k = s.cpsr.getLsbD k := by
  cases sf
  · rfl
  · exact getLsbD_withFlags s.cpsr f k h
end Draw

/-- Internal cycles write nothing. -/
theorem idles_read (n : Nat) : ∀ c ∈ List.replicate n BusCall.idle, World.isWrite c = false := by
  intro c hc
  rw [List.eq_of_mem_replicate hc]; rfl

/-- The end of a 32-bit multiply (43 R285, 41 R211). -/
theorem mulFinish_done (sf : Bool) (rd : Reg) (cycles : Nat) (r : Word) (s : State) (hd : rd ≠ regPc) :
    (mulFinish sf rd cycles r s).get rd = r ∧
      Retires false
        { dst := [rd], flags := if sf then mulFlags s r else s.flags, kind := .n, calls := List.replicate cycles .idle,
          draws := sf.toNat } s (mulFinish sf rd cycles r s) ∧
      KeepsMemory s (mulFinish sf rd cycles r s) := by
  have hd' : (15 : Reg) ≠ rd := fun e => hd e.symm
  have hr : Retires false
      { dst := [rd], flags := if sf then mulFlags s r else s.flags, kind := .n, calls := List.replicate cycles .idle,
        draws := sf.toNat } s (mulFinish sf rd cycles r s) := by
    unfold mulFinish
    apply retires_next <;> simp +contextual [State.get_set, hd', getLsbD_drawFlags]
  exact ⟨by simp [mulFinish, State.get_next, hd], hr, hr.keepsMemory (idles_read cycles)⟩

/-- The end of a long multiply (43 R287, 41 R211). -/
theorem mullFinish_done (sf : Bool) (hi lo : Reg) (cycles : Nat) (p : BitVec 64) (s : State) (hh : hi ≠ regPc)
    (hl : lo ≠ regPc) (hne : hi ≠ lo) :
    (mullFinish sf hi lo cycles p s).get hi ++ (mullFinish sf hi lo cycles p s).get lo = p ∧
      Retires false
        { dst := [hi, lo], flags := if sf then mullFlags s p else s.flags, kind := .n, calls := List.replicate cycles .idle,
          draws := sf.toNat } s (mullFinish sf hi lo cycles p s) ∧
      KeepsMemory s (mullFinish sf hi lo cycles p s) := by
  have h1 : (15 : Reg) ≠ hi := fun e => hh e.symm
  have h2 : (15 : Reg) ≠ lo := fun e => hl e.symm
  have h3 : lo ≠ hi := fun e => hne e.symm
  have hr : Retires false
      { dst := [hi, lo], flags := if sf then mullFlags s p else s.flags, kind := .n, calls := List.replicate cycles .idle,
        draws := sf.toNat } s (mullFinish sf hi lo cycles p s) := by
    unfold mullFinish
    apply retires_next <;> simp +contextual [State.get_set, h1, h2, getLsbD_drawFlags]
  refine ⟨?_, hr, hr.keepsMemory (idles_read cycles)⟩
  unfold mullFinish
  simp only [State.get_next, hh, hl, if_false, State.setFetchKind_get, State.get_set, h3, if_true]
  apply BitVec.eq_of_getLsbD_eq
  intro k hk
  rw [BitVec.getLsbD_append]
  by_cases h : k < 32
  · simp [h]
  · simp [h, show k - 32 < 32 by omega, show 32 + (k - 32) = k by omega]

end Sys2Proof.Machine
end

