-- ==== Sys2Proof/Laws/Transfers.lean ====
section
/-! SUPPORT. What the shared operations of the single transfers do (spec/44 R310, R312, R314). -/

namespace Sys2Proof.Machine

open Sys2Proof

theorem transferChecks_eq {ix : Index} {rn rd : Reg} {offPc : Bool} (h : TransferAllowed ix rn rd offPc) (k : Res State) :
    transferChecks ix rn rd offPc k = k := by
  obtain ⟨h1, h2⟩ := h
  subst h2
  cases hw : writesBack ix with
  | false => simp [transferChecks, hw]
  | true =>
    obtain ⟨ha, hb⟩ := h1 hw
    rw [transferChecks, hw, beq_false_of_ne ha, beq_false_of_ne hb]; rfl

theorem get_writeBack (s : State) (ix : Index) (rn q : Reg) (v : Word) :
    (writeBack s ix rn v).get q = if writesBack ix = true ∧ q = rn then v else s.get q := by
  unfold writeBack
  cases h : writesBack ix <;> simp [State.get_set]

/-- A load writes nothing. -/
theorem loadCalls_read (size : Size) (a : Word) (f : Access) :
    ∀ c ∈ [BusCall.read size a f, .idle], World.isWrite c = false := by simp [World.isWrite]

/-- A load up to its internal cycle, and its end at a register other than r15 (44 R310, R312). -/
theorem loadFinish_loaded {ix : Index} {up : Bool} {rn rd : Reg} {off : Word} {size : Size} {v : Word} {s : State} {offPc}
    (ha : TransferAllowed ix rn rd offPc) (hd : rd ≠ regPc) :
    Loaded ix up rn rd off size v s (loadFinish rd v (loadAccess s ix up rn off size)) := by
  have hd' : (15 : Reg) ≠ rd := fun e => hd e.symm
  have hr : Retires false
      { dst := rd :: backDst ix rn, flags := s.flags, kind := .n,
        calls := [.read size (transferAddr s ix up rn off) (dataAcc .n), .idle] } s
      (loadFinish rd v (loadAccess s ix up rn off size)) := by
    rw [loadFinish, if_neg hd]
    unfold loadAccess writeBack
    cases hw : writesBack ix
    · apply retires_next <;> simp +contextual [State.get_set, hd', backDst, hw]
    · have h1' : (15 : Reg) ≠ rn := fun e => (ha.1 hw).1 e.symm
      apply retires_next <;> simp +contextual [State.get_set, hd', h1', backDst, hw]
  refine ⟨?_, ?_, hr, hr.keepsMemory (loadCalls_read _ _ _)⟩
  · rw [loadFinish, if_neg hd]; simp [State.get_next, hd]
  · intro hw
    obtain ⟨h1, h2⟩ := ha.1 hw
    rw [loadFinish, if_neg hd]
    simp [loadAccess, writeBack, hw, State.get_next, h1, State.get_set, h2]

theorem loadFinish_branches {ix : Index} {up : Bool} {rn : Reg} {off : Word} {size : Size} {v : Word} {s : State} {offPc}
    (ha : TransferAllowed ix rn regPc offPc) :
    ∃ t, loadFinish regPc v (loadAccess s ix up rn off size) = t ∧ WroteBack ix up rn off s t ∧
      Branches s.thumb v
        { dst := backDst ix rn, flags := s.flags,
          calls := [.read size (transferAddr s ix up rn off) (dataAcc .n), .idle] } s t ∧
        t.cpsr = s.cpsr ∧ KeepsMemory s t := by
  have hb : Branches s.thumb v
      { dst := backDst ix rn, flags := s.flags,
        calls := [.read size (transferAddr s ix up rn off) (dataAcc .n), .idle] } s
      ((loadAccess s ix up rn off size).branchTo v) := by
    unfold loadAccess writeBack
    cases hw : writesBack ix <;> apply branches_branchTo <;> simp +contextual [State.get_set, backDst, hw]
  rw [loadFinish, if_pos rfl]
  refine ⟨_, rfl, ?_, hb, ?_, hb.reload.keepsMemory (loadCalls_read _ _ _)⟩
  · intro hw
    simp [loadAccess, writeBack, hw, State.get_branchTo, (ha.1 hw).1]
  · unfold loadAccess writeBack
    cases writesBack ix <;> simp

theorem storeAccess_stored {ix : Index} {up : Bool} {rn rd : Reg} {off : Word} {size : Size} {v : Word} {s : State} {offPc}
    (ha : TransferAllowed ix rn rd offPc) :
    Stored ix up rn off size v s (storeAccess s ix up rn off size v) := by
  unfold storeAccess writeBack
  cases hw : writesBack ix
  · refine ⟨storedAt_of_play (acc := dataAcc .n) (cs := []) (ds := []) (by simp) (by simp) (by simp), ?_, ?_⟩
    · intro h; rw [hw] at h; exact absurd h (by simp)
    · apply retires_next <;> simp +contextual [backDst, hw]
  · have h1 := (ha.1 hw).1
    have h1' : (15 : Reg) ≠ rn := fun e => h1 e.symm
    refine ⟨storedAt_of_play (acc := dataAcc .n) (cs := []) (ds := []) (by simp) (by simp) (by simp), ?_, ?_⟩
    · intro _; simp [State.get_next, h1]
    · apply retires_next <;> simp +contextual [State.get_set, h1', backDst, hw]

end Sys2Proof.Machine
end

