-- ==== Sys2Proof/Laws/Thumb.lean ====
section
/-! SUPPORT. What the shared operations of the 16-bit set do (spec/47 R434, R435, 48 R471). -/

namespace Sys2Proof.Machine

open Sys2Proof

/-- No low register is r15. -/
theorem low_ne_pc (r : LowReg) : low r ≠ regPc := by revert r; decide
theorem pc_ne_low (r : LowReg) : (15 : Reg) ≠ low r := by revert r; decide
theorem low_ne_sp (r : LowReg) : low r ≠ regSp := by revert r; decide
theorem low_inj {r q : LowReg} (h : low r = low q) : r = q := by
  simp only [low, Fin.mk.injEq] at h; exact Fin.ext h

/-- The end of an instruction that writes a low register and the flags (47 R434). -/
theorem thumbWrite_result (rd : LowReg) (r : AluResult) (s : State) :
    ∃ t, thumbWrite rd r s = .next t ∧ ThumbResult s t rd r.value r.flags := by
  have hr : Retires true { dst := [low rd], flags := r.flags, kind := s.fetchKind } s
      (((s.setFlags r.flags).set (low rd) r.value).next true) := by
    apply retires_next <;> simp +contextual [State.get_set, pc_ne_low, getLsbD_withFlags]
  exact ⟨_, rfl, by simp [State.get_next, low_ne_pc], hr, hr.keepsMemory (by simp)⟩

/-- The end of a comparison (47 R434). -/
theorem thumbFlags_done (f : Flags) (s : State) :
    ∃ t, thumbFlags f s = .next t ∧ Retires true { flags := f, kind := s.fetchKind } s t ∧ KeepsMemory s t := by
  have hr : Retires true { flags := f, kind := s.fetchKind } s ((s.setFlags f).next true) := by
    apply retires_next <;> simp +contextual [getLsbD_withFlags]
  exact ⟨_, rfl, hr, hr.keepsMemory (by simp)⟩

/-- A shift by a register (47 R435). -/
theorem thumbShiftReg_done (ty : ShiftType) (rs rd : LowReg) (s : State) :
    ∃ t, thumbShiftReg ty rs rd s = .next t ∧
      ThumbShift s t rd (shiftReg ty (s.get (low rd)) ((s.get (low rs)).toNat % 256) s.flags.c) := by
  have e : ((s.get (low rs)).extractLsb' 0 8).toNat = (s.get (low rs)).toNat % 256 := by simp [BitVec.extractLsb'_toNat]
  rw [thumbShiftReg, e]
  generalize shiftReg ty (s.get (low rd)) ((s.get (low rs)).toNat % 256) s.flags.c = p
  have hr : Retires true { dst := [low rd], flags := thumbShiftFlags s p, kind := .n, calls := [.idle] } s
      (((((s.idle 1).setFetchKind .n).setFlags (shiftResult s p).flags).set (low rd) p.1).next true) := by
    apply retires_next <;>
      simp +contextual [State.get_set, pc_ne_low, getLsbD_withFlags, shiftResult, logical, thumbShiftFlags]
    rfl
  exact ⟨_, rfl, by simp [State.get_next, low_ne_pc, shiftResult, logical], hr, hr.keepsMemory (by simp [World.isWrite])⟩

/-- A load of the 16-bit set (48 R471). -/
theorem thumbLoad_loaded (rd : LowReg) (size : Size) (a v : Word) (s : State) :
    ∃ t, thumbLoad rd size a v s = .next t ∧ ThumbLoaded rd size a v s t := by
  have hr : Retires true { dst := [low rd], flags := s.flags, kind := .n, calls := [.read size a (dataAcc .n), .idle] } s
      (((((s.setFetchKind .n).busRead size a (dataAcc .n)).idle 1).set (low rd) v).next true) := by
    apply retires_next <;> simp +contextual [State.get_set, pc_ne_low]
  exact ⟨_, rfl, by simp [State.get_next, low_ne_pc], hr, hr.keepsMemory (by simp [World.isWrite])⟩

/-- A store of the 16-bit set (48 R471). -/
theorem thumbStore_stored (rd : LowReg) (size : Size) (a : Word) (s : State) :
    ∃ t, thumbStore rd size a s = .next t ∧ ThumbStored rd size a s t := by
  refine ⟨_, rfl, storedAt_of_play (acc := dataAcc .n) (cs := []) (ds := []) (by simp) (by simp) (by simp), ?_⟩
  apply retires_next <;> simp +contextual

/-! ## The lists of PUSH, POP and the multiple transfers (48 R467 to R470) -/

theorem lowList_nodup (l : BitVec 8) : (lowList l).Nodup := regList_nodup _
theorem pushRegs_nodup (lr : Bool) (l : BitVec 8) : (pushRegs lr l).Nodup := by
  unfold pushRegs; split
  · rw [List.nodup_append]; refine ⟨lowList_nodup l, by simp, ?_⟩
    intro a ha b hb e; subst e
    have := lowList_lt ha; simp at hb; subst hb; revert this; decide
  · exact lowList_nodup l
theorem popRegs_nodup (lr : Bool) (l : BitVec 8) : (popRegs lr l).Nodup := by
  unfold popRegs; split
  · rw [List.nodup_append]; refine ⟨lowList_nodup l, by simp, ?_⟩
    intro a ha b hb e; subst e
    have := lowList_lt ha; simp at hb; subst hb; revert this; decide
  · exact lowList_nodup l
theorem lowList_length (l : BitVec 8) : (lowList l).length ≤ 8 := by
  have : lowList l = ([0,1,2,3,4,5,6,7] : List Reg).filter (fun r => l.getLsbD r.val) := by
    rw [lowList, regList, show allRegs = ([0,1,2,3,4,5,6,7] : List Reg) ++ [8,9,10,11,12,13,14,15] from rfl, List.filter_append]
    have h2 : ([8,9,10,11,12,13,14,15] : List Reg).filter (fun r => (l.setWidth 16).getLsbD r.val) = [] := by
      rw [List.filter_eq_nil_iff]
      intro r hr
      rw [BitVec.getLsbD_setWidth, BitVec.getLsbD_of_ge _ _ (by fin_cases r <;> simp_all)]; simp
    rw [h2, List.append_nil]
    apply List.filter_congr
    intro r hr
    rw [BitVec.getLsbD_setWidth]; simp
  rw [this]; exact List.length_filter_le _ _
theorem pushRegs_length (lr : Bool) (l : BitVec 8) : (pushRegs lr l).length ≤ 16 := by
  have := lowList_length l
  unfold pushRegs; split <;> simp <;> omega
theorem pc_notMem_low (l : BitVec 8) : regPc ∉ lowList l := fun h => absurd (lowList_lt h) (by decide)
theorem sp_notMem_low (l : BitVec 8) : regSp ∉ lowList l := fun h => absurd (lowList_lt h) (by decide)
theorem popRegs_last (l : BitVec 8) : 0 < (popRegs true l).length ∧ nthReg (popRegs true l) ((popRegs true l).length - 1) = regPc := by
  simp [popRegs, nthReg]

end Sys2Proof.Machine
end

