-- ==== Sys2Proof/Laws/Exec.lean ====
section
/-! SUPPORT. Everything that running an instruction can do, said once (spec/40 R160, R165, R166): every rule about all
instructions is a case analysis over `exec_ends`. -/

namespace Sys2Proof.Machine

open Sys2Proof

/-- What an instruction has changed before its end: registers of the current mode, flags if it may write them, the next
fetch, free values, and of the world what its bus calls and the environment inside them make of it. -/
structure Local (i : Instr) (s u : State) : Prop where
  banks : u.bankLo = s.bankLo ∧ u.bankHi = s.bankHi ∧ u.spsr = s.spsr
  slots : u.slot0 = s.slot0 ∧ u.slot1 = s.slot1
  latch : u.irqMaskLatch = s.irqMaskLatch
  window : u.bankConflict = s.bankConflict
  own : u.invalidMode = s.invalidMode ∧ u.started = s.started
  status : u.cpsr = s.cpsr ∨ (mayWriteFlags i = true ∧ ∃ f, u.cpsr = withFlags s.cpsr f)
  world : ∃ calls, u.world = s.world.play calls

/-- The ways an instruction can end (40 R165, R166, 60 R524, 42 R244, 43 R284, 45 R355). -/
inductive Ends (i : Instr) (s : State) : State → Prop
  /-- `next`, in the set of the instruction. -/
  | next (u : State) (h : Local i s u) (pc : u.get regPc = s.get regPc) : Ends i s (u.next (!isArmInstr i))
  /-- `next` after a callback of the host (60 R540). -/
  | callHost (m : HostNote) : Ends i s (({ s with world := s.world.callHost m } : State).next (!isArmInstr i))
  /-- `pc <- target` in the current set. -/
  | branch (u : State) (a : Word) (h : Local i s u) : Ends i s (u.branchTo a)
  /-- BX. -/
  | bx (a : Word) (h : mayChangeSet i = true) (ok : a.getLsbD 0 = true ∨ a.getLsbD 1 = false) :
      Ends i s ((s.setCpsr (setBit s.cpsr 5 (a.getLsbD 0))).branchTo a)
  /-- An exception. -/
  | exception (m : Mode) (v l : Word) (h : mayChangeSet i = true) (w : s.bankConflict = false)
      (ok : (m = .svc ∧ v = 0x00000008#32) ∨ (m = .und ∧ v = 0x00000004#32)) : Ends i s (s.enter m v l)
  /-- A return from an exception. -/
  | exit (u t : State) (a : Word) (h : Local i s u) (set : mayChangeSet i = true) (fl : mayWriteFlags i = true)
      (ok : u.exceptionReturn a = .next t) : Ends i s t
  /-- MSR to CPSR. -/
  | msrCpsr (t : State) (p : Bool) (mask : BitVec 4) (op : Word) (hp : p = false) (arm : isArmInstr i = true)
      (keep : msrKeepsReserved s false mask op) (fl : mask.getLsbD 3 = true → mayWriteFlags i = true)
      (ok : Machine.msrCpsr (msrMask s false mask) op s = .next t) : Ends i s t
  /-- MSR to SPSR. -/
  | msrSpsr (t : State) (mask : BitVec 4) (op : Word) (arm : isArmInstr i = true)
      (keep : msrKeepsReserved s true mask op)
      (ok : Machine.msrSpsr (msrMask s true mask) op s = .next t) : Ends i s t
  /-- LDM of the User bank. -/
  | ldmUser (t : State) (c : Cond) (m : BlockMode) (rn : Reg) (list : BitVec 16)
      (hi : i = .ldm c m true false rn list) (h15 : list.getLsbD 15 = false) (bank : s.bank ≠ .shared)
      (pass : s.passes c = true)
      (ok : Machine.ldmUser m rn (regList list) s = .next t) : Ends i s t
  /-- STM of the User bank. -/
  | stmUser (t : State) (c : Cond) (m : BlockMode) (rn : Reg) (list : BitVec 16) (hn : rn ≠ regPc)
      (hi : i = .stm c m true false rn list) (bank : s.bank ≠ .shared)
      (ok : Machine.stmUser m rn (regList list) s = .next t) : Ends i s t

theorem Local.refl (i : Instr) (s : State) : Local i s s :=
  ⟨⟨rfl, rfl, rfl⟩, ⟨rfl, rfl⟩, rfl, rfl, ⟨rfl, rfl⟩, .inl rfl, [], rfl⟩

section Shapes

variable {i : Instr} {s t : State}

/-- More bus calls. -/
theorem Local.calls {u : State} (h : Local i s u) (cs : List BusCall) : Local i s (u.calls cs) := by
  obtain ⟨h1, h2, h3, h4, h5, h6, ds, h7⟩ := h
  exact ⟨h1, h2, h3, h4, h5, h6, ds ++ cs, by rw [State.calls_world, h7, World.play_play]⟩

theorem local_set {u : State} {r : Reg} {v : Word} (h : Local i s u) : Local i s (u.set r v) := by
  obtain ⟨h1, h2, h3, h4, h5, h6, h7⟩ := h
  exact ⟨h1, h2, h3, h4, h5, h6, h7⟩

theorem local_kind {u : State} {k : AccessKind} (h : Local i s u) : Local i s (u.setFetchKind k) := by
  obtain ⟨h1, h2, h3, h4, h5, h6, h7⟩ := h
  exact ⟨h1, h2, h3, h4, h5, h6, h7⟩

theorem local_idle {u : State} (n : Nat) (h : Local i s u) : Local i s (u.idle n) := h.calls _

theorem local_read {u : State} {z : Size} {a : Word} {f : Access} (h : Local i s u) : Local i s (u.busRead z a f) :=
  h.calls [_]

theorem local_write {u : State} {z : Size} {a v : Word} {f : Access} (h : Local i s u) :
    Local i s (u.busWrite z a v f) := h.calls [_]

theorem local_writeBack {u : State} {ix : Index} {rn : Reg} {v : Word} (h : Local i s u) :
    Local i s (writeBack u ix rn v) := by
  unfold writeBack
  split
  · exact local_set h
  · exact h

theorem local_cycle (op2 : Operand2) : Local i s (op2Cycle s op2) := by
  unfold op2Cycle
  split
  · exact local_kind (local_idle 1 (Local.refl i s))
  · exact Local.refl i s

theorem local_flags {u : State} {f : Flags} (hf : mayWriteFlags i = true) (h : Local i s u) (hc : u.cpsr = s.cpsr) :
    Local i s (u.setFlags f) := by
  obtain ⟨h1, h2, h3, h4, h5, h6, h7⟩ := h
  exact ⟨h1, h2, h3, h4, h5, .inr ⟨hf, f, by rw [← hc]; rfl⟩, h7⟩

theorem ends_arm {c : Cond} {regs : List Reg} {body : Res State} (ha : isArmInstr i = true)
    (h : armInstr c regs s body = .next t) (hb : s.passes c = true → body = .next t → Ends i s t) : Ends i s t := by
  rcases armInstr_next h with ⟨_, rfl⟩ | ⟨hc, _, h⟩
  · have := Ends.next (i := i) (s := s) s (Local.refl i s) rfl
    rwa [ha] at this
  · exact hb hc h

theorem ends_next (u : State) {th : Bool} (ht : th = !isArmInstr i) (h : Local i s u) (pc : u.get regPc = s.get regPc) :
    Ends i s (u.next th) := by subst ht; exact .next u h pc

theorem ends_dataOp {c : Cond} {regs : List Reg} {sf : Bool} {rd : Reg} {op2 : Operand2} {r : AluResult}
    (ha : isArmInstr i = true) (hf : sf = true → mayWriteFlags i = true)
    (hs : sf = true → rd = regPc → mayChangeSet i = true) (h : dataOp c regs sf rd op2 r s = .next t) : Ends i s t := by
  refine ends_arm ha h fun _ h => ?_
  obtain ⟨_, h⟩ := refuseIf_next h
  have hL : Local i s (op2Cycle s op2) := local_cycle op2
  unfold dpWrite at h
  by_cases hd : rd = regPc
  · rw [if_pos hd] at h
    cases sf
    · injection h with h; subst h; exact .branch _ _ hL
    · exact .exit _ t _ hL (hs rfl hd) (hf rfl) h
  · rw [if_neg hd] at h
    have hd' : (15 : Reg) ≠ rd := fun e => hd e.symm
    injection h with h; subst h
    apply ends_next _ (by simp [ha])
    · cases sf
      · exact local_set hL
      · exact local_set (local_flags (hf rfl) hL (by simp))
    · cases sf <;> simp [State.get_set, hd']

theorem ends_compareOp {c : Cond} {rn rd : Reg} {op2 : Operand2} {f : Flags} (ha : isArmInstr i = true)
    (hf : mayWriteFlags i = true) (h : compareOp c rn rd op2 f s = .next t) : Ends i s t := by
  refine ends_arm ha h fun _ h => ?_
  obtain ⟨_, h⟩ := refuseIf_next h
  obtain ⟨_, h⟩ := refuseIf_next h
  injection h with h; subst h
  exact ends_next _ (by simp [ha]) (local_flags hf (local_cycle op2) (by simp)) (by simp)

theorem local_draw {sf : Bool} {f : Flags} {u : State} (hf : sf = true → mayWriteFlags i = true) (h : Local i s u)
    (hc : u.cpsr = s.cpsr) : Local i s (drawFlags sf f u) := by
  cases sf
  · exact h
  · obtain ⟨h1, h2, h3, h4, h5, h6, h7⟩ := local_flags (f := f) (hf rfl) h hc
    exact ⟨h1, h2, h3, h4, h5, h6, h7⟩

theorem ends_mul {sf : Bool} {rd : Reg} {n : Nat} {r : Word} (ha : isArmInstr i = true)
    (hf : sf = true → mayWriteFlags i = true) (hd : rd ≠ regPc) : Ends i s (mulFinish sf rd n r s) := by
  have hd' : (15 : Reg) ≠ rd := fun e => hd e.symm
  apply ends_next _ (by simp [ha])
  · exact local_kind (local_set (local_draw hf (local_idle n (Local.refl i s)) (by simp)))
  · simp [State.get_set, hd']

theorem ends_mull {sf : Bool} {hi lo : Reg} {n : Nat} {p : BitVec 64} (ha : isArmInstr i = true)
    (hf : sf = true → mayWriteFlags i = true) (h1 : hi ≠ regPc) (h2 : lo ≠ regPc) :
    Ends i s (mullFinish sf hi lo n p s) := by
  have h1' : (15 : Reg) ≠ hi := fun e => h1 e.symm
  have h2' : (15 : Reg) ≠ lo := fun e => h2 e.symm
  apply ends_next _ (by simp [ha])
  · exact local_kind (local_set (local_set (local_draw hf (local_idle n (Local.refl i s)) (by simp))))
  · simp [State.get_set, h1', h2']

theorem transferChecks_next {ix : Index} {rn rd : Reg} {p : Bool} {k : Res State} (h : transferChecks ix rn rd p k = .next t) :
    TransferAllowed ix rn rd p ∧ k = .next t := by
  obtain ⟨h1, h⟩ := refuseIf_next h
  obtain ⟨h2, h⟩ := refuseIf_next h
  obtain ⟨h3, h⟩ := refuseIf_next h
  refine ⟨⟨fun hw => ?_, h3⟩, h⟩
  rw [hw] at h1 h2
  simpa using And.intro h1 h2

theorem ends_load {ix : Index} {up : Bool} {rn rd : Reg} {off v : Word} {size : Size} {p : Bool}
    (ha : isArmInstr i = true) (hx : TransferAllowed ix rn rd p) :
    Ends i s (loadFinish rd v (loadAccess s ix up rn off size)) := by
  have hL : Local i s (loadAccess s ix up rn off size) :=
    local_idle 1 (local_writeBack (local_read (local_kind (Local.refl i s))))
  unfold loadFinish
  by_cases hd : rd = regPc
  · rw [if_pos hd]; exact .branch _ _ hL
  · have hd' : (15 : Reg) ≠ rd := fun e => hd e.symm
    rw [if_neg hd]
    apply ends_next _ (by simp [ha]) (local_set hL)
    rw [State.get_set, if_neg hd']
    unfold loadAccess
    rw [State.idle_get, get_writeBack, if_neg]
    · simp
    · rintro ⟨hw, rfl⟩; exact (hx.1 hw).1 rfl

theorem ends_store {ix : Index} {up : Bool} {rn rd : Reg} {off v : Word} {size : Size} {p : Bool}
    (ha : isArmInstr i = true) (hx : TransferAllowed ix rn rd p) :
    Ends i s (storeAccess s ix up rn off size v) := by
  apply ends_next _ (by simp [ha]) (local_writeBack (local_write (local_kind (Local.refl i s))))
  · rw [get_writeBack, if_neg]
    · simp
    · rintro ⟨hw, rfl⟩; exact (hx.1 hw).1 rfl

theorem ends_loadWord {c : Cond} {ix : Index} {up : Bool} {rn rd : Reg} {off : Offset} (ha : isArmInstr i = true)
    (h : loadWordOp c ix up rn rd off s = .next t) : Ends i s t := by
  refine ends_arm ha h fun _ h => ?_
  obtain ⟨hx, h⟩ := transferChecks_next h
  injection h with h; subst h; exact ends_load ha hx

theorem ends_loadByte {c : Cond} {ix : Index} {up : Bool} {rn rd : Reg} {off : Offset} (ha : isArmInstr i = true)
    (h : loadByteOp c ix up rn rd off s = .next t) : Ends i s t := by
  refine ends_arm ha h fun _ h => ?_
  obtain ⟨hx, h⟩ := transferChecks_next h
  obtain ⟨_, h⟩ := refuseIf_next h
  injection h with h; subst h; exact ends_load ha hx

theorem ends_storeWord {c : Cond} {ix : Index} {up : Bool} {rn rd : Reg} {off : Offset} (ha : isArmInstr i = true)
    (h : storeWordOp c ix up rn rd off s = .next t) : Ends i s t := by
  refine ends_arm ha h fun _ h => ?_
  obtain ⟨hx, h⟩ := transferChecks_next h
  injection h with h; subst h; exact ends_store ha hx

theorem ends_storeByte {c : Cond} {ix : Index} {up : Bool} {rn rd : Reg} {off : Offset} (ha : isArmInstr i = true)
    (h : storeByteOp c ix up rn rd off s = .next t) : Ends i s t := by
  refine ends_arm ha h fun _ h => ?_
  obtain ⟨hx, h⟩ := transferChecks_next h
  obtain ⟨_, h⟩ := refuseIf_next h
  injection h with h; subst h; exact ends_store ha hx

theorem ends_loadHalf {c : Cond} {ix : Index} {up : Bool} {rn rd : Reg} {off : HalfOffset} {z : Word → Size}
    {v : Word → Word} (ha : isArmInstr i = true) (h : loadHalfOp c ix up rn rd off z v s = .next t) : Ends i s t := by
  refine ends_arm ha h fun _ h => ?_
  obtain ⟨hx, h⟩ := transferChecks_next h
  obtain ⟨_, h⟩ := refuseIf_next h
  injection h with h; subst h; exact ends_load ha hx

theorem ends_swap {c : Cond} {size : Size} {rn rd rm : Reg} {v : Word} (ha : isArmInstr i = true)
    (h : swapOp c size rn rd rm v s = .next t) : Ends i s t := by
  refine ends_arm ha h fun _ h => ?_
  obtain ⟨hx, h⟩ := refuseIf_next h
  simp only [Bool.or_eq_false_iff, beq_eq_false_iff_ne] at hx
  have hd' : (15 : Reg) ≠ rd := fun e => hx.1.1.1.2 e.symm
  injection h with h; subst h
  apply ends_next _ (by simp [ha]) (local_kind (local_set (local_idle 1 (local_write (local_read (Local.refl i s))))))
  simp [State.get_set, hd']

theorem ends_raise {m : Mode} {v l : Word} (hs : mayChangeSet i = true)
    (ok : (m = .svc ∧ v = 0x00000008#32) ∨ (m = .und ∧ v = 0x00000004#32))
    (h : s.takeException m v l = .next t) : Ends i s t := by
  obtain ⟨hw, h⟩ := refuseIf_next h
  injection h with h; subst h; exact .exception m v l hs hw ok

theorem ends_swi {th : Bool} {n : Word} (ht : th = !isArmInstr i) (hs : mayChangeSet i = true)
    (h : swiOp th n s = .next t) : Ends i s t := by
  unfold swiOp at h
  split at h
  · injection h with h; subst h; subst ht; exact .callHost _
  · exact ends_raise hs (.inl ⟨rfl, rfl⟩) h

theorem ends_bx {a : Word} (hs : mayChangeSet i = true) (h : bxTo a s = .next t) : Ends i s t := by
  obtain ⟨hx, h⟩ := refuseIf_next h
  injection h with h; subst h
  refine .bx a hs ?_
  cases h0 : a.getLsbD 0
  · rw [h0] at hx; right; simpa using hx
  · exact .inl rfl

theorem ends_msr {p : Bool} {mask : BitVec 4} {op : Word} (ha : isArmInstr i = true)
    (hf : p = false → mask.getLsbD 3 = true → mayWriteFlags i = true) (h : msrWrite p mask op s = .next t) :
    Ends i s t := by
  obtain ⟨hr, h⟩ := refuseIf_next h
  have hk := (msrReserved_iff _ _ _ _).mp hr
  cases p
  · exact .msrCpsr t false mask op rfl ha hk (hf rfl) h
  · exact .msrSpsr t mask op ha hk h

theorem local_loadRegs {wb : Option (Reg × Word)} {first : Bool} {rs : List Reg} {a : Word} {u : State}
    (h : Local i s u) : Local i s (loadRegs wb first rs a u) := by
  obtain ⟨x, hx⟩ := loadRegs_eq wb rs first a u
  rw [hx]
  obtain ⟨h1, h2, h3, h4, h5, h6, h7⟩ := h.calls _
  exact ⟨h1, h2, h3, h4, h5, h6, h7⟩

theorem local_storeRegs {wb : Option (Reg × Word)} {first : Bool} {rs : List Reg} {a : Word} {u : State}
    (h : Local i s u) : Local i s (storeRegs wb first rs a u) := by
  obtain ⟨x, cs, hx⟩ := storeRegs_eq wb rs first a u
  rw [hx]
  obtain ⟨h1, h2, h3, h4, h5, h6, h7⟩ := h.calls cs
  exact ⟨h1, h2, h3, h4, h5, h6, h7⟩

end Shapes

/-- LDM. -/
theorem ends_ldm {c : Cond} {m : BlockMode} {sb wb : Bool} {rn : Reg} {list : BitVec 16} {s t : State}
    (h : execLdm c m sb wb rn list s = .next t) : Ends (.ldm c m sb wb rn list) s t := by
  refine ends_arm rfl h fun hc h => ?_
  obtain ⟨hn, h⟩ := refuseIf_next h
  obtain ⟨hl, h⟩ := refuseIf_next h
  obtain ⟨hb, h⟩ := refuseIf_next h
  obtain ⟨hw, h⟩ := refuseIf_next h
  obtain ⟨hr, h⟩ := refuseIf_next h
  split at h
  · next hu =>
    simp only [Bool.and_eq_true, Bool.not_eq_true'] at hu
    rw [hu.1, hu.2] at hw
    rw [hu.1] at hb
    have hwb : wb = false := by simpa using hw
    rw [hu.1, hwb]
    exact .ldmUser t c m rn list rfl hu.2 (by simpa using hb) hc h
  · next hu =>
    have hn' : (15 : Reg) ≠ rn := by intro e; rw [← e] at hn; exact absurd hn (by decide)
    have hL : Local (.ldm c m sb wb rn list) s (ldmReads m wb rn (regList list) s (s.setFetchKind .n)) :=
      local_idle 1 (local_loadRegs (local_kind (Local.refl _ s)))
    unfold ldmCurrent at h
    rw [contains_regPc] at h
    cases h15 : list.getLsbD 15
    · rw [h15, if_neg (by simp)] at h
      injection h with h; subst h
      apply ends_next _ rfl hL
      rw [ldmReads_get_other]
      · rfl
      · rw [List.mem_append, not_or, mem_regList]
        refine ⟨?_, by simpa using h15⟩
        cases wb <;> simp [hn']
    · rw [h15, if_pos rfl] at h
      cases sb
      · injection h with h; subst h; exact .branch _ _ hL
      · exact .exit _ t _ hL (by simp [mayChangeSet, h15]) (by simp [mayWriteFlags, h15]) h

/-- STM. -/
theorem ends_stm {c : Cond} {m : BlockMode} {sb wb : Bool} {rn : Reg} {list : BitVec 16} {s t : State}
    (h : execStm c m sb wb rn list s = .next t) : Ends (.stm c m sb wb rn list) s t := by
  refine ends_arm rfl h fun hc h => ?_
  obtain ⟨hn, h⟩ := refuseIf_next h
  obtain ⟨hl, h⟩ := refuseIf_next h
  obtain ⟨hb, h⟩ := refuseIf_next h
  obtain ⟨hw, h⟩ := refuseIf_next h
  obtain ⟨hr, h⟩ := refuseIf_next h
  have hn' : rn ≠ regPc := by simpa using hn
  cases sb
  · injection h with h; subst h
    apply ends_next _ rfl
    · exact local_storeRegs (local_kind (Local.refl _ s))
    · rw [stmWrites_get_other]
      · rfl
      · cases wb <;> simp
        exact fun e => hn' e.symm
  · have hwb : wb = false := by simpa using hw
    subst hwb
    exact .stmUser t c m rn list hn' rfl (by simpa using hb) h

theorem ends_thumbWrite {i : Instr} {s t u : State} {rd : LowReg} {r : AluResult} (ha : isArmInstr i = false) (hL : Local i s u)
    (hc : u.cpsr = s.cpsr) (hp : u.get regPc = s.get regPc)
    (hf : mayWriteFlags i = true) (h : thumbWrite rd r u = .next t) : Ends i s t := by
  injection h with h; subst h
  apply ends_next _ (by simp [ha])
  · exact local_set (local_flags hf hL hc)
  · simpa [State.get_set, pc_ne_low] using hp

theorem ends_thumbFlags {i : Instr} {s t : State} {f : Flags} (ha : isArmInstr i = false) (hf : mayWriteFlags i = true)
    (h : thumbFlags f s = .next t) : Ends i s t := by
  injection h with h; subst h
  exact ends_next _ (by simp [ha]) (local_flags hf (Local.refl i s) rfl) (by simp)

theorem ends_thumbLoad {i : Instr} {s t : State} {rd : LowReg} {z : Size} {a v : Word} (ha : isArmInstr i = false)
    (h : thumbLoad rd z a v s = .next t) : Ends i s t := by
  injection h with h; subst h
  apply ends_next _ (by simp [ha]) (local_set (local_idle 1 (local_read (local_kind (Local.refl i s)))))
  simp [State.get_set, pc_ne_low]

theorem ends_thumbStore {i : Instr} {s t : State} {rd : LowReg} {z : Size} {a : Word} (ha : isArmInstr i = false)
    (h : thumbStore rd z a s = .next t) : Ends i s t := by
  injection h with h; subst h
  apply ends_next _ (by simp [ha]) (local_write (local_kind (Local.refl i s)))
  simp

theorem ends_hiWrite {i : Instr} {s t : State} {rd : Reg} {v : Word} (ha : isArmInstr i = false)
    (h : hiWrite rd v s = .next t) : Ends i s t := by
  unfold hiWrite at h
  by_cases hd : rd = regPc
  · rw [if_pos hd] at h
    injection h with h; subst h; exact .branch _ _ (Local.refl i s)
  · rw [if_neg hd] at h
    injection h with h; subst h
    apply ends_next _ (by simp [ha]) (local_set (Local.refl i s))
    rw [State.get_set, if_neg (show regPc ≠ rd from fun e => hd e.symm)]

theorem ends_set {i : Instr} {s : State} {r : Reg} {v : Word} (ha : isArmInstr i = false) (hr : regPc ≠ r) :
    Ends i s ((s.set r v).next true) := by
  apply ends_next _ (by simp [ha]) (local_set (Local.refl i s))
  rw [State.get_set, if_neg hr]

/-- Everything that running an instruction can do. -/
theorem exec_ends {i : Instr} {s t : State} (h : exec i s = .next t) : Ends i s t := by
  cases i with
  | and | eor | sub | rsb | add | adc | sbc | rsc | orr | mov | bic | mvn =>
    exact ends_dataOp rfl (by simp [mayWriteFlags]) (by simp +contextual [mayChangeSet]) h
  | tst | teq | cmp | cmn => exact ends_compareOp rfl rfl h
  | mrs c p rd =>
    refine ends_arm rfl h fun _ h => ?_
    obtain ⟨hd, h⟩ := refuseIf_next h
    obtain ⟨_, h⟩ := refuseIf_next h
    injection h with h; subst h
    apply ends_next _ rfl (local_set (Local.refl _ s))
    rw [State.get_set, if_neg (show regPc ≠ rd from fun e => by rw [← e] at hd; exact absurd hd (by decide))]
  | msrReg c p mask rm =>
    refine ends_arm rfl h fun _ h => ?_
    obtain ⟨_, h⟩ := refuseIf_next h
    exact ends_msr rfl (by simp +contextual [mayWriteFlags]) h
  | msrImm c p mask rot imm =>
    refine ends_arm rfl h fun _ h => ?_
    exact ends_msr rfl (by simp +contextual [mayWriteFlags]) h
  | mul | mla =>
    refine ends_arm rfl h fun _ h => ?_
    obtain ⟨hx, h⟩ := refuseIf_next h
    simp only [Bool.or_eq_false_iff, beq_eq_false_iff_ne] at hx
    injection h with h; subst h
    exact ends_mul rfl (by simp [mayWriteFlags]) (by simp [hx])
  | umull | umlal | smull | smlal =>
    refine ends_arm rfl h fun _ h => ?_
    obtain ⟨hx, h⟩ := refuseIf_next h
    simp only [mullRefused, Bool.or_eq_false_iff, beq_eq_false_iff_ne] at hx
    injection h with h; subst h
    exact ends_mull rfl (by simp [mayWriteFlags]) (by simp [hx]) (by simp [hx])
  | ldr | ldrt => exact ends_loadWord rfl h
  | ldrb | ldrbt => exact ends_loadByte rfl h
  | str | strt => exact ends_storeWord rfl h
  | strb | strbt => exact ends_storeByte rfl h
  | ldrh => exact ends_loadHalf (z := fun _ => .half) (v := Memory.readHalfRotate s.heard) rfl h
  | ldrsb => exact ends_loadHalf (z := fun _ => .byte) (v := Memory.readByteSigned s.heard) rfl h
  | ldrsh => exact ends_loadHalf (z := Memory.halfSignedSize) (v := Memory.readHalfSigned s.heard) rfl h
  | strh =>
    refine ends_arm rfl h fun _ h => ?_
    obtain ⟨hx, h⟩ := transferChecks_next h
    obtain ⟨_, h⟩ := refuseIf_next h
    injection h with h; subst h; exact ends_store rfl hx
  | ldm => exact ends_ldm h
  | stm => exact ends_stm h
  | swp | swpb => exact ends_swap rfl h
  | b c imm =>
    refine ends_arm rfl h fun _ h => ?_
    injection h with h; subst h; exact .branch _ _ (Local.refl _ s)
  | bl c imm =>
    refine ends_arm rfl h fun _ h => ?_
    injection h with h; subst h; exact .branch _ _ (local_set (Local.refl _ s))
  | bx => exact ends_arm rfl h fun _ h => ends_bx rfl h
  | swi => exact ends_arm rfl h fun _ h => ends_swi rfl rfl h
  | undefined | coprocessor => exact ends_arm rfl h fun _ h => ends_raise rfl (.inr ⟨rfl, rfl⟩) h
  | reservedPsrImm | reservedPsrReg | reservedMul | reservedSwp | reservedHalfPostw | reservedHalfStore =>
    exact ends_arm rfl h fun _ h => absurd h (by simp)
  | tLslImm | tLsrImm | tAsrImm | tAddReg | tSubReg | tAddImm3 | tSubImm3 | tMovImm | tAddImm8 | tSubImm8 | tAnd | tEor
  | tAdc | tSbc | tNeg | tOrr | tBic | tMvn => exact ends_thumbWrite rfl (Local.refl _ s) rfl rfl rfl h
  | tLsl | tLsr | tAsr | tRor =>
    exact ends_thumbWrite rfl (local_kind (local_idle 1 (Local.refl _ s))) (by simp) (by simp) rfl h
  | tCmpImm | tTst | tCmp | tCmn => exact ends_thumbFlags rfl rfl h
  | tMul rs rd =>
    obtain ⟨_, h⟩ := refuseIf_next h
    injection h with h; subst h
    apply ends_next _ rfl
    · exact local_kind (local_set (local_draw (fun _ => rfl) (local_idle _ (Local.refl _ s)) (by simp)))
    · simp [State.get_set, pc_ne_low]
  | tAddHi | tMovHi =>
    obtain ⟨_, h⟩ := refuseIf_next h
    exact ends_hiWrite rfl h
  | tCmpHi =>
    obtain ⟨_, h⟩ := refuseIf_next h
    obtain ⟨_, h⟩ := refuseIf_next h
    exact ends_thumbFlags rfl rfl h
  | tBx =>
    obtain ⟨_, h⟩ := refuseIf_next h
    exact ends_bx rfl h
  | tLdrPc | tLdrReg | tLdrbReg | tLdsbReg | tLdrhReg | tLdshReg | tLdrImm | tLdrbImm | tLdrhImm =>
    exact ends_thumbLoad rfl h
  | tStrReg | tStrbReg | tStrhReg | tStrImm | tStrbImm | tStrhImm => exact ends_thumbStore rfl h
  | tStrSp =>
    obtain ⟨_, h⟩ := refuseIf_next h
    exact ends_thumbStore rfl h
  | tLdrSp =>
    obtain ⟨_, h⟩ := refuseIf_next h
    exact ends_thumbLoad rfl h
  | tAddPc rd imm =>
    injection h with h; subst h; exact ends_set rfl (pc_ne_low rd)
  | tAddSp rd imm =>
    obtain ⟨_, h⟩ := refuseIf_next h
    injection h with h; subst h; exact ends_set rfl (pc_ne_low rd)
  | tSpAdd | tSpSub =>
    obtain ⟨_, h⟩ := refuseIf_next h
    injection h with h; subst h; exact ends_set rfl (by decide)
  | tPush lr list =>
    obtain ⟨_, h⟩ := refuseIf_next h
    obtain ⟨_, h⟩ := refuseIf_next h
    injection h with h; subst h
    apply ends_next _ rfl (local_set (local_storeRegs (local_kind (Local.refl _ s))))
    rw [State.get_set, if_neg (by decide), storeRegs_get_other _ _ _ _ _ _ (by simp [wbReg])]
    rfl
  | tPop pc list =>
    obtain ⟨_, h⟩ := refuseIf_next h
    obtain ⟨_, h⟩ := refuseIf_next h
    injection h with h; subst h
    have hL : Local (.tPop pc list) s (popReads (popRegs pc list) s) :=
      local_idle 1 (local_set (local_loadRegs (local_kind (Local.refl _ s))))
    cases pc
    · rw [if_neg (by simp)]
      apply ends_next _ rfl hL
      rw [popReads, State.idle_get, State.get_set, if_neg (by decide),
        loadRegs_get_other _ _ _ _ _ _ (show regPc ∉ popRegs false list from pc_notMem_low list) (by simp [wbReg])]
      rfl
    · rw [if_pos rfl]; exact .branch _ _ hL
  | tStmia rb list =>
    obtain ⟨_, h⟩ := refuseIf_next h
    obtain ⟨_, h⟩ := refuseIf_next h
    injection h with h; subst h
    apply ends_next _ rfl (local_storeRegs (local_kind (Local.refl _ s)))
    rw [storeRegs_get_other]
    · rfl
    · simp only [wbReg, Option.map_some, Option.toList_some, List.mem_singleton]
      exact fun e => low_ne_pc rb e.symm
  | tLdmia rb list =>
    obtain ⟨_, h⟩ := refuseIf_next h
    injection h with h; subst h
    have hL : Local (.tLdmia rb list) s ((loadRegs none true (lowList list) (s.get (low rb)) (s.setFetchKind .n)).idle 1) :=
      local_idle 1 (local_loadRegs (local_kind (Local.refl _ s)))
    have hp : ((loadRegs none true (lowList list) (s.get (low rb)) (s.setFetchKind .n)).idle 1).get regPc =
        s.get regPc := by
      rw [State.idle_get, loadRegs_get_other _ _ _ _ _ _ (pc_notMem_low list) (by simp [wbReg])]; rfl
    apply ends_next _ rfl
    · split
      · exact hL
      · exact local_set hL
    · split
      · exact hp
      · rw [State.get_set, if_neg (show regPc ≠ low rb from fun e => low_ne_pc rb e.symm), hp]
  | tBcond c imm =>
    injection h with h; subst h
    split
    · exact .branch _ _ (Local.refl _ s)
    · exact ends_next _ rfl (Local.refl _ s) rfl
  | tSwi => exact ends_swi rfl rfl h
  | tB =>
    injection h with h; subst h; exact .branch _ _ (Local.refl _ s)
  | tBlFirst =>
    obtain ⟨_, h⟩ := refuseIf_next h
    injection h with h; subst h; exact ends_set rfl (by decide)
  | tBlSecond =>
    obtain ⟨_, h⟩ := refuseIf_next h
    injection h with h; subst h; exact .branch _ _ (local_set (Local.refl _ s))
  | tUndefined => exact ends_raise rfl (.inr ⟨rfl, rfl⟩) h
  | tReservedHiLoLo | tReservedBxH1 | tReservedBcondAl => exact absurd h (by simp [exec, execTReservedHiLoLo, execTReservedBxH1, execTReservedBcondAl])

end Sys2Proof.Machine
end

