-- ==== Sys2Proof/Laws/Step.lean ====
section
/-! SUPPORT. What a step does around its instruction (spec/40 R160, 10 R44). -/

namespace Sys2Proof.Machine

open Sys2Proof

/-- A step that starts in `e` after the environment's acts is `run e`. -/
theorem step_of {s e : State} (h : s.environment = .next e) : step s = run e := by rw [step, h, andThen_next]

/-- A state with no stop on record goes on. -/
theorem settle_none {s : State} (h : s.world.stop = none) : s.settle = .next s := World.stopOr_none h _

/-- A stop on record is what the step answers. -/
theorem settle_fault {s : State} {f : Fault} (h : s.world.stop = some (.fault f)) : s.settle = .fault f :=
  World.stopOr_fault h _

theorem settle_refused {s : State} {why : Refusal} (h : s.world.stop = some (.refused why)) :
    s.settle = .refused why := World.stopOr_refused h _

/-- Only a state with no stop on record goes on. -/
theorem settle_next {s t : State} (h : s.settle = .next t) : t = s ∧ s.world.stop = none := by
  obtain ⟨hs, h⟩ := World.stopOr_next h
  injection h with h
  exact ⟨h.symm, hs⟩

/-- A step that executes an instruction (40 R160). -/
theorem run_instr {e : State} (hst : e.started = true) (hh : e.world.halted = false) (hm : e.modeOk = true)
    (hi : (e.world.irqLine && !e.irqMaskLatch) = false) : run e = e.instrStep := by
  have hm' : (Mode.ofBits (modeField e.cpsr)).isSome = true ∧ e.invalidMode = false := by simpa [State.modeOk] using hm
  rw [run, if_neg (by simp [hst]), if_neg (by simp [hh]), if_neg (by simp [hm'.2]),
    if_neg (by simp [Option.isSome_iff_ne_none.mp hm'.1]), if_neg (by rw [State.irqTaken, hi]; simp)]

/-- A step that takes the interrupt (40 R160). -/
theorem run_irq {e : State} (hst : e.started = true) (hh : e.world.halted = false) (hm : e.modeOk = true)
    (hi : (e.world.irqLine && !e.irqMaskLatch) = true) : run e = e.irqStep := by
  have hm' : (Mode.ofBits (modeField e.cpsr)).isSome = true ∧ e.invalidMode = false := by simpa [State.modeOk] using hm
  rw [run, if_neg (by simp [hst]), if_neg (by simp [hh]), if_neg (by simp [hm'.2]),
    if_neg (by simp [Option.isSome_iff_ne_none.mp hm'.1]), if_pos (by rw [State.irqTaken, hi])]

/-- A halted step. -/
theorem run_halted {e : State} (hst : e.started = true) (hh : e.world.halted = true) : run e = (e.idle 1).settle := by
  rw [run, if_neg (by simp [hst]), if_pos hh]

/-- A step whose fetch meets no stop is its instruction, with the stop that a later call meets (40 R160). -/
theorem instrStep_of {e : State} (h : e.prepare.world.stop = none) :
    e.instrStep = andThen (exec e.slotInstr e.prepare) State.settle := by
  rw [State.instrStep, settle_none h, andThen_next]

/-- A step that executed an instruction and went on. -/
theorem instrStep_next {e t : State} (h : e.instrStep = .next t) :
    e.prepare.world.stop = none ∧ exec e.slotInstr e.prepare = .next t ∧ t.world.stop = none := by
  obtain ⟨p, hp, h⟩ := andThen_eq_next h
  obtain ⟨rfl, hs⟩ := settle_next hp
  obtain ⟨u, hu, h⟩ := andThen_eq_next h
  obtain ⟨rfl, ht⟩ := settle_next h
  exact ⟨hs, hu, ht⟩

/-- Stage 1 aligns r15 and leaves the other registers (10 R41). -/
theorem alignStep_get (e : State) (r : Reg) : e.alignStep.get r = if r = regPc then alignPc e.thumb (e.get regPc) else e.get r := by
  rw [State.alignStep, State.get_set]
theorem prepare_get (e : State) (r : Reg) : e.prepare.get r = if r = regPc then alignPc e.thumb (e.get regPc) else e.get r :=
  alignStep_get e r

/-- MSR leaves the latch (10 R44). -/
theorem msrCpsr_latch {mask op : Word} {s t : State} (h : msrCpsr mask op s = .next t) : t.irqMaskLatch = s.irqMaskLatch := by
  obtain ⟨_, h⟩ := refuseIf_next h
  obtain ⟨u, hu, h⟩ := andThen_eq_next h
  injection h with h; subst h
  simp only [State.next_irqMaskLatch, State.setCpsr_irqMaskLatch]
  split at hu
  · unfold State.switchMode at hu
    split at hu
    · exact absurd hu (by simp)
    · obtain ⟨_, hu⟩ := refuseIf_next hu
      injection hu with hu; subst hu; simp
  · injection hu with hu; subst hu; rfl

/-- A return that went on, as one branch. -/
theorem exceptionReturn_eq {u t : State} {a : Word} (h : u.exceptionReturn a = .next t) :
    ∃ m, Mode.ofBits (modeField (u.spsrOf u.bank)) = some m ∧ u.bank ≠ .shared ∧ u.bankConflict = false ∧ t = ((u.switchTo m).setCpsr (u.spsrOf u.bank)).branchTo a := by
  have h := State.stopFirst_next h
  obtain ⟨hb, h⟩ := refuseIf_next h
  obtain ⟨hw, h⟩ := refuseIf_next h
  obtain ⟨v, hv, h⟩ := andThen_eq_next h
  have hsp : u.getSpsr = u.spsrOf u.bank := by simp [State.getSpsr, hw]
  unfold State.switchMode at hv
  rw [hsp] at hv h
  injection h with h; subst h
  split at hv
  · exact absurd hv (by simp)
  · next m hm =>
    obtain ⟨_, hv⟩ := refuseIf_next hv
    injection hv with hv; subst hv
    exact ⟨m, hm, by simpa using hb, hw, rfl⟩

/-- No instruction writes the latch (10 R44, 60 R534). -/
theorem exec_latch {i : Instr} {s t : State} (h : exec i s = .next t) : t.irqMaskLatch = s.irqMaskLatch := by
  cases exec_ends h with
  | next u hl pc => simpa using hl.latch
  | callHost m => rfl
  | branch u a hl => simpa using hl.latch
  | bx => simp
  | exception m v l h w ok =>
    exact (enter_enters s m v l (by rcases ok with ⟨rfl, _⟩ | ⟨rfl, _⟩ <;> decide)).2
  | exit u _ a hl _ _ ok =>
    obtain ⟨m, _, _, _, rfl⟩ := exceptionReturn_eq ok
    simpa using hl.latch
  | msrCpsr _ _ _ _ _ _ _ _ ok => exact msrCpsr_latch ok
  | msrSpsr _ _ _ _ _ ok =>
    obtain ⟨_, h⟩ := refuseIf_next ok
    obtain ⟨_, h⟩ := refuseIf_next h
    injection h with h; subst h; simp
  | ldmUser _ _ _ _ _ _ _ _ _ ok =>
    obtain ⟨_, h⟩ := refuseIf_next ok
    injection h with h; subst h; simp [ldmReads]
  | stmUser _ _ _ _ _ _ _ _ ok =>
    obtain ⟨_, h⟩ := refuseIf_next ok
    injection h with h; subst h; simp [stmWrites]

/-- The entry of the IRQ step, from the state before stage 1. -/
theorem enters_align {v l : Word} {e t : State} (h : Enters .irq v l e.alignStep t) : Enters .irq v l e t.latchIrqMask := by
  obtain ⟨h1, h2, h3, h4, h5, h6, h7, h8, h9, h10, h11, h12, h13⟩ := h
  have ha : ∀ m r, r ≠ regPc → e.alignStep.seenBy m r = e.seenBy m r := by
    intro m r hr
    exact State.seenBy_congr (v := e.alignStep) (u := e) rfl (fun q hq => by rw [alignStep_get, if_neg hq]) rfl rfl m r hr
  have hl : ∀ m r, r ≠ regPc → t.latchIrqMask.seenBy m r = t.seenBy m r := by
    intro m r hr
    exact State.seenBy_congr (v := t.latchIrqMask) (u := t) rfl (fun q hq => rfl) rfl rfl m r hr
  obtain ⟨r1, r2, r3, r4, r5, r6⟩ := h1
  refine ⟨⟨r1, r2, r3, r4, r5, r6⟩, h2, h3, h4, by simpa using h5, ?_, h7, ?_, ?_, h10, h11, h12, h13⟩
  · intro b hb hn; have := h6 b hb hn; rw [State.latchIrqMask_spsrOf, this]; simp
  · intro m r hr hn; rw [hl m r hr, h8 m r hr hn, ha m r hr]
  · intro r hr; rw [hl _ r hr]; exact h9 r hr

/-! ## Alignment of r15 (10 R41) -/

theorem alignWord_idem (a : Word) : Memory.alignWord (Memory.alignWord a) = Memory.alignWord a := by
  apply BitVec.eq_of_toNat_eq; simp only [Memory.toNat_alignWord]; omega
theorem alignHalf_idem (a : Word) : Memory.alignHalf (Memory.alignHalf a) = Memory.alignHalf a := by
  apply BitVec.eq_of_toNat_eq; simp only [Memory.toNat_alignHalf]; omega
theorem alignPc_idem (b : Bool) (a : Word) : alignPc b (alignPc b a) = alignPc b a := by
  cases b
  · exact alignWord_idem a
  · exact alignHalf_idem a
/-- A multiple of the width added to an aligned address. -/
theorem alignPc_add (b : Bool) (a : Word) : alignPc b (alignPc b a + opWidth b) = alignPc b a + opWidth b := by
  cases b
  · apply BitVec.eq_of_toNat_eq
    simp only [alignPc, opWidth, Memory.toNat_alignWord, BitVec.toNat_add, if_neg (by simp : ¬(false = true))]
    have h4 : (4#32).toNat = 4 := rfl
    have := Memory.toNat_alignWord a
    omega
  · apply BitVec.eq_of_toNat_eq
    simp only [alignPc, opWidth, Memory.toNat_alignHalf, BitVec.toNat_add, if_pos]
    have h4 : (2#32).toNat = 2 := rfl
    have := Memory.toNat_alignHalf a
    omega
theorem alignPc_sub (b : Bool) (a : Word) (h : alignPc b a = a) : alignPc b (a - opWidth b) = a - opWidth b := by
  cases b
  · apply BitVec.eq_of_toNat_eq
    have e : Memory.alignWord a = a := h
    have := Memory.toNat_alignWord a
    rw [e] at this
    simp only [alignPc, opWidth, Memory.toNat_alignWord, BitVec.toNat_sub, if_neg (by simp : ¬(false = true))]
    have h4 : (4#32).toNat = 4 := rfl
    omega
  · apply BitVec.eq_of_toNat_eq
    have e : Memory.alignHalf a = a := h
    have := Memory.toNat_alignHalf a
    rw [e] at this
    simp only [alignPc, opWidth, Memory.toNat_alignHalf, BitVec.toNat_sub, if_pos]
    have h4 : (2#32).toNat = 2 := rfl
    omega
theorem execAddr_aligned (e : State) : alignPc e.thumb (execAddr e) = execAddr e :=
  alignPc_sub _ _ (alignPc_sub _ _ (alignPc_idem _ _))

/-! ## What the ends of an instruction say -/

theorem getLsbD_modeField (w : Word) (k : Nat) (h : k < 5) : (modeField w).getLsbD k = w.getLsbD k := by
  simp [modeField, h]
theorem mode_usr {s : State} (h : modeField s.cpsr = Mode.usr.bits) : s.mode = .usr ∧ s.bank = .shared := by
  have : s.mode = .usr := by rw [State.mode, h]; rfl
  exact ⟨this, by rw [State.bank, this]; rfl⟩
theorem Local.bit {i : Instr} {s u : State} (h : Local i s u) (k : Nat) (hk : k < 28) : u.cpsr.getLsbD k = s.cpsr.getLsbD k := by
  rcases h.status with e | ⟨_, f, e⟩
  · rw [e]
  · rw [e, getLsbD_withFlags _ _ _ hk]
theorem Local.mode {i : Instr} {s u : State} (h : Local i s u) : u.mode = s.mode := by
  have : modeField u.cpsr = modeField s.cpsr := by
    apply BitVec.eq_of_getLsbD_eq
    intro k hk
    rw [getLsbD_modeField _ _ hk, getLsbD_modeField _ _ hk, h.bit k (by omega)]
  rw [State.mode, State.mode, this]
theorem Local.bank {i : Instr} {s u : State} (h : Local i s u) : u.bank = s.bank := by
  rw [State.bank, State.bank, h.mode]
theorem Local.thumb {i : Instr} {s u : State} (h : Local i s u) : u.thumb = s.thumb := h.bit 5 (by omega)
theorem Local.spsrOf {i : Instr} {s u : State} (h : Local i s u) (b : Bank) (hb : b ≠ .shared) : u.spsrOf b = s.spsrOf b := by
  cases b <;> first | exact absurd rfl hb | simp [State.spsrOf, h.banks.2.2]
theorem Local.flags {i : Instr} {s u : State} (h : Local i s u) (hf : mayWriteFlags i = false) : u.flags = s.flags := by
  rcases h.status with e | ⟨hx, _⟩
  · rw [State.flags, State.flags, e]
  · rw [hf] at hx; exact absurd hx (by simp)
/-- MSR to CPSR that went on (43 R284). -/
theorem msrCpsr_eq {mask op : Word} {s t : State} (h : msrCpsr mask op s = .next t) :
    (mask.getLsbD 5 && op.getLsbD 5 != s.thumb) = false ∧
    ∃ u, t = (u.setCpsr (mergeMask u.cpsr op mask)).next false ∧
      ((mask.extractLsb' 0 8 = 0 ∧ u = s) ∨
        (mask.extractLsb' 0 8 ≠ 0 ∧ ∃ m, Mode.ofBits (modeField op) = some m ∧ u = s.switchTo m ∧ (s.bankConflict = true → s.bank = m.bank))) := by
  obtain ⟨h5, h⟩ := refuseIf_next h
  obtain ⟨u, hu, h⟩ := andThen_eq_next h
  injection h with h; subst h
  refine ⟨h5, u, rfl, ?_⟩
  split at hu
  · next hm =>
    right
    refine ⟨by simpa using hm, ?_⟩
    unfold State.switchMode at hu
    split at hu
    · exact absurd hu (by simp)
    · next m hm' =>
      obtain ⟨hc, hu⟩ := refuseIf_next hu
      injection hu with hu; subst hu
      exact ⟨m, hm', rfl, fun e => by rw [e] at hc; simpa using hc⟩
  · next hm =>
    injection hu with hu
    exact .inl ⟨by simpa using hm, hu.symm⟩
theorem msrCpsr_bit {s t : State} {mask : BitVec 4} {op : Word} (h : msrCpsr (msrMask s false mask) op s = .next t) (k : Nat) (hk : k < 32) :
    t.cpsr.getLsbD k = if msrWrites s false mask k then op.getLsbD k else s.cpsr.getLsbD k := by
  obtain ⟨_, u, rfl, hu⟩ := msrCpsr_eq h
  rw [State.next_cpsr, State.setCpsr_cpsr, getLsbD_mergeMask _ _ _ _ hk, getLsbD_msrMask _ _ _ _ hk]
  rcases hu with ⟨_, rfl⟩ | ⟨hm, m, _, rfl, _⟩
  · rfl
  · split
    · rfl
    · next hn =>
      rw [State.switchTo_cpsr, getLsbD_setMode _ _ _ hk, if_neg]
      intro h5
      have h0 := msrMask_low s false mask
      rw [msrWrites_byte _ _ _ _ (by omega), ← h0] at hn
      exact hn (by simpa using hm)
theorem msrSpsr_eq {mask op : Word} {s t : State} (h : msrSpsr mask op s = .next t) :
    s.bank ≠ .shared ∧ s.bankConflict = false ∧ t = (s.setSpsr s.bank (mergeMask (s.spsrOf s.bank) op mask)).next false := by
  obtain ⟨hb, h⟩ := refuseIf_next h
  obtain ⟨hw, h⟩ := refuseIf_next h
  injection h with h
  exact ⟨by simpa using hb, hw, h.symm⟩

theorem ldmUser_eq {m rn regs} {s t : State} (h : ldmUser m rn regs s = .next t) : s.bankConflict = false ∧
   t = { ((ldmReads m false rn regs s ((s.setFetchKind .n).switchTo .usr)).switchTo s.mode).next false with bankConflict := true } := by
  obtain ⟨hw, h⟩ := refuseIf_next h
  injection h with h
  exact ⟨hw, h.symm⟩
theorem stmUser_eq {m rn regs} {s t : State} (h : stmUser m rn regs s = .next t) : s.bankConflict = false ∧
   t = ((stmWrites m false rn regs s ((s.setFetchKind .n).switchTo .usr)).switchTo s.mode).next false := by
  obtain ⟨hw, h⟩ := refuseIf_next h
  injection h with h
  exact ⟨hw, h.symm⟩
theorem user_cpsr {s w : State} (hb : s.bank ≠ .shared) (hw : w.cpsr = ((s.setFetchKind .n).switchTo .usr).cpsr) : (w.switchTo s.mode).cpsr = s.cpsr := by
  rw [State.switchTo_cpsr, hw, State.switchTo_cpsr, setMode_setMode]
  exact setMode_self _ _ (State.mode_bits hb)

/-! ## The set of the decoded instruction (30 R112, R114) -/

theorem isArmInstr_dpOf (w : Word) (op2 : Operand2) : isArmInstr (dpOf w op2) = true := by
  unfold dpOf; simp only; split <;> rfl
/-- Every word decodes to an instruction of its own set (30 R112, R114). -/
theorem isArmInstr_decodeArm (w : Word) : isArmInstr (decodeArm w) = true := by
  unfold decodeArm; simp only
  cases armClass (armIndex w) <;> first | rfl | exact isArmInstr_dpOf _ _
theorem isArmInstr_decodeThumb (w : Half) : isArmInstr (decodeThumb w) = false := by
  unfold decodeThumb; simp only
  cases thumbClass (thumbIndex w) <;> first | rfl | (unfold aluOf; simp only; split <;> rfl)
theorem isArmInstr_slotInstr (s : State) : isArmInstr s.slotInstr = !s.thumb := by
  unfold State.slotInstr
  cases s.thumb
  · exact isArmInstr_decodeArm _
  · exact isArmInstr_decodeThumb _


/-! ## The pipeline after a branch (10 R43, 40 R166) -/

theorem alignPc_fixed {th : Bool} {x : Word} (h : alignPc th x = x) : alignPc th (x + opWidth th) = x + opWidth th := by
  have := alignPc_add th x
  rwa [h] at this
/-- Two widths past an aligned address, and back. -/
theorem execAddr_of {t : State} {th : Bool} {a : Word} (ht : t.thumb = th) (hp : t.get regPc = alignPc th a + opWidth th + opWidth th) :
    execAddr t = alignPc th a := by
  have h1 : alignPc th (alignPc th a + opWidth th + opWidth th) = alignPc th a + opWidth th + opWidth th :=
    alignPc_fixed (alignPc_add th a)
  rw [execAddr, ht, hp, h1, BitVec.add_sub_cancel, BitVec.add_sub_cancel]

/-- Where no one else changes memory inside the calls, a reload finds what memory holds after it. -/
theorem reloaded_coherent {th : Bool} {a : Word} {calls : List BusCall} {s t : State} (h : Reloaded th a calls s t)
    (hp : s.world.noPokes = true) : t.Coherent := by
  have he := execAddr_of h.set h.pc
  have h1 := World.play_noPokes calls hp
  have hm : t.world.mem = (s.world.play calls).mem := by
    rw [h.world, World.play_append, World.play_mem h1]
    intro c hc
    simp only [List.mem_cons, List.not_mem_nil, or_false] at hc
    rcases hc with rfl | rfl <;> rfl
  have h0 : s.memAfter calls = t.world.mem := by rw [State.memAfter, (World.turn_noPokes h1).2, hm]
  have h2 : s.memAfter (calls ++ [fetch0 th a]) = t.world.mem := by
    rw [State.memAfter, World.play_append, (World.turn_noPokes (World.play_noPokes _ h1)).2, World.play_mem h1, hm]
    intro c hc
    simp only [List.mem_singleton] at hc
    subst hc; rfl
  refine ⟨?_, ?_⟩
  · rw [he, h.set, h.slot0, h0]
  · rw [he, h.set, h.slot1, h2]

theorem reloaded_aligned {th : Bool} {a : Word} {calls : List BusCall} {s t : State} (h : Reloaded th a calls s t) : t.pcAligned = true := by
  have h2 : alignPc th (alignPc th a + opWidth th + opWidth th) = alignPc th a + opWidth th + opWidth th := by
    exact alignPc_fixed (alignPc_add th a)
  rw [State.pcAligned, h.set, h.pc, h2]; simp

/-! ## Reserved bits and the invariant (10 R32) -/

theorem spsrOf_reserved {s : State} (h : s.spsr.reservedClear = true) (b : Bank) (hb : b ≠ .shared) : reservedClear (s.spsrOf b) = true := by
  simp only [Spsrs.reservedClear, Bool.and_eq_true] at h
  cases b <;> simp_all [State.spsrOf]
theorem reserved_congr {a b : Word} (h : ∀ k, k < 28 → 8 ≤ k → a.getLsbD k = b.getLsbD k) : reservedClear a = reservedClear b := by
  have : a &&& 0x0FFFFF00#32 = b &&& 0x0FFFFF00#32 := by
    apply BitVec.eq_of_getLsbD_eq
    intro k hk
    rw [BitVec.getLsbD_and, BitVec.getLsbD_and]
    by_cases h1 : k < 28 ∧ 8 ≤ k
    · rw [h k h1.1 h1.2]
    · have : (0x0FFFFF00#32).getLsbD k = false := by
        have : k < 8 ∨ k = 28 ∨ k = 29 ∨ k = 30 ∨ k = 31 := by omega
        rcases this with h | rfl | rfl | rfl | rfl
        · have := (by decide : ∀ k : Fin 8, (0x0FFFFF00#32).getLsbD k.val = false) ⟨k, h⟩; exact this
        all_goals rfl
      rw [this]; simp
  rw [reservedClear, reservedClear, this]
theorem reserved_iff {a : Word} : reservedClear a = true ↔ ∀ k, k < 28 → 8 ≤ k → a.getLsbD k = false := by
  constructor
  · intro h k h1 h2
    have h : a &&& 0x0FFFFF00#32 = 0 := by simpa [reservedClear] using h
    have h := congrArg (fun w => w.getLsbD k) h
    simp only [BitVec.getLsbD_and] at h
    have : (0x0FFFFF00#32).getLsbD k = true := (by decide : ∀ k : Fin 28, 8 ≤ k.val → (0x0FFFFF00#32).getLsbD k.val = true) ⟨k, h1⟩ h2
    rw [this] at h
    simpa using h
  · intro h
    have := reserved_congr (a := a) (b := 0) (fun k h1 h2 => by rw [h k h1 h2]; simp)
    rw [this]; decide
theorem setSpsr_reserved {s : State} {b : Bank} {w : Word} (hs : s.spsr.reservedClear = true) (hw : reservedClear w = true) : (s.setSpsr b w).spsr.reservedClear = true := by
  simp only [Spsrs.reservedClear, Bool.and_eq_true] at *
  cases b <;> simp_all [State.setSpsr]
/-- The invariant from its parts. -/
theorem inv_congr {s t : State} (h1 : t.cpsr = s.cpsr) (h2 : t.invalidMode = s.invalidMode) (h3 : t.spsr = s.spsr)
    (h4 : t.get regPc = s.get regPc) (h5 : t.world.ok = true) (h : s.Inv) : t.Inv := by
  refine ⟨?_, ?_, ?_, h5⟩
  · rw [State.modeOk, h1, h2]; exact h.1
  · rw [State.reservedOk, h1, h3]; exact h.2.1
  · rw [State.pcAligned, State.thumb, h1, h4]; exact h.2.2.1

end Sys2Proof.Machine
end

