-- ==== Sys2Proof/Laws/Environment.lean ====
section
/-! SUPPORT. What the environment keeps: the world stays in form through every act, inside the calls and between steps
(spec/20 R75, 65 R580, R591). -/

namespace Sys2Proof.Machine

open Sys2Proof

namespace World

/-- Memory canonical, the pending events in form, valid parameters: `World.ok` without the stop. -/
def Formed (w : World) : Prop := Memory.wf w.mem = true ∧ Sched.wf w.sched = true ∧ cfgValid w.cfg = true

theorem ok_iff {w : World} : w.ok = true ↔ w.Formed ∧ w.stop = none := by
  simp [ok, Formed, and_assoc]

theorem formed_common {a : CommonAct} {w v : World} (h : w.applyCommon a = .next v) (hi : w.Formed) : v.Formed := by
  obtain ⟨i1, i2, i3⟩ := hi
  cases a <;> simp only [applyCommon] at h
  case add d c p =>
    unfold schedAdd at h
    obtain ⟨r, hr, h⟩ := andThen_eq_next h
    injection h with h; subst h
    exact ⟨i1, Sched.wf_add (sc' := r.1) (h := r.2) hr i2, i3⟩
  case cancel k =>
    obtain ⟨r, hr, h⟩ := andThen_eq_next h
    injection h with h; subst h
    exact ⟨i1, Sched.wf_cancel hr i2, i3⟩
  case getNow => injection h with h; subst h; exact ⟨i1, i2, i3⟩
  case getTarget => obtain ⟨r, hr, h⟩ := andThen_eq_next h; injection h with h; subst h; exact ⟨i1, i2, i3⟩
  case getRemaining => obtain ⟨r, hr, h⟩ := andThen_eq_next h; injection h with h; subst h; exact ⟨i1, i2, i3⟩
  case setIrq => injection h with h; subst h; exact ⟨i1, i2, i3⟩
  case setHalted => injection h with h; subst h; exact ⟨i1, i2, i3⟩
  case poke a v => injection h with h; subst h; exact ⟨Memory.wf_store v a.isLt i1, i2, i3⟩

/-- Everything inside a call keeps the form. -/
theorem kept_formed : KeptCall (fun _ => True) Formed where
  common _ h hp := formed_common h hp
  fire hq hp := ⟨hp.1, Sched.wf_tail hq hp.2.1, hp.2.2⟩
  time n hp := by
    refine ⟨hp.1, ?_, hp.2.2⟩
    have := hp.2.1
    rw [Sched.wf_iff] at *
    exact this
  pop hp := hp
  record _ hp := hp

/-- No act records a stop by itself. -/
theorem stop_addCycles {n : Nat} {l : List (List CallbackAct)} {w v : World} (h : w.addCycles n l = .next v) :
    v.stop = w.stop :=
  Kept.addCycles (ok := fun _ => True) (P := fun v => v.stop = w.stop)
    ⟨fun _ h hp => ((applyCommon_next h).2.1).trans hp, fun _ h => h, fun _ h => h⟩ (fun _ _ _ _ => trivial) h rfl

theorem formed_call {w : World} (c : BusCall) (h : w.Formed) : (w.call c).Formed := by
  have ht := kept_formed.turn' h
  cases c with
  | write size a v acc => exact ⟨Memory.wf_write _ _ _ ht.1, ht.2⟩
  | read => exact ht
  | idle => exact ht

/-- Bus calls keep the form (20 R79). -/
theorem formed_play : ∀ (cs : List BusCall) {w : World}, w.Formed → (w.play cs).Formed
  | [], _, h => h
  | c :: cs, _, h => formed_play cs (formed_call c h)

theorem formed_callHost {w : World} (m : HostNote) (h : w.Formed) : (w.callHost m).Formed :=
  kept_formed.turn' (w := w.note m) h

end World

end Sys2Proof.Machine
end

