-- ==== Sys2Proof/Tests/Slice0.lean ====
section
/-! SUPPORT. Tests: ill-formed terms, words of every constructor, single steps of the spec's vectors, and a witness for
the hypotheses of every statement that has some. -/

namespace Sys2Proof.Tests

open Sys2Proof Sys2Proof.Machine

/-! ## Well-formedness: one ill-formed term for each check -/

theorem smoke_undefined : (Instr.undefined .al 0x4000000).WellFormed = false := by decide
theorem smoke_coprocessor : (Instr.coprocessor .al 0xF000000).WellFormed = false := by decide
theorem smoke_reservedPsrImm : (Instr.reservedPsrImm .al 0x3200000).WellFormed = false := by decide
theorem smoke_reservedPsrReg : (Instr.reservedPsrReg .al 0x1200010).WellFormed = false := by decide
theorem smoke_reservedMul : (Instr.reservedMul .al 0x0000090).WellFormed = false := by decide
theorem smoke_reservedSwp : (Instr.reservedSwp .al 0x1400090).WellFormed = false := by decide
theorem smoke_reservedHalfPostw : (Instr.reservedHalfPostw .al 0x12000B0).WellFormed = false := by decide
theorem smoke_reservedHalfStore : (Instr.reservedHalfStore .al 0x18000B0).WellFormed = false := by decide
theorem smoke_tAddHi : (Instr.tAddHi 7 7).WellFormed = false := by decide
theorem smoke_tCmpHi : (Instr.tCmpHi 0 7).WellFormed = false := by decide
theorem smoke_tMovHi : (Instr.tMovHi 7 0).WellFormed = false := by decide
theorem smoke_tBcond_al : (Instr.tBcond .al 0).WellFormed = false := by decide
theorem smoke_tBcond_nv : (Instr.tBcond .nv 0).WellFormed = false := by decide
theorem smoke_tUndefined : (Instr.tUndefined 0xB400).WellFormed = false := by decide
theorem smoke_tReservedHiLoLo : (Instr.tReservedHiLoLo 0x4700).WellFormed = false := by decide
theorem smoke_tReservedBxH1 : (Instr.tReservedBxH1 0x4700).WellFormed = false := by decide
theorem smoke_tReservedBcondAl : (Instr.tReservedBcondAl 0xDF00).WellFormed = false := by decide

/-! ## Decoding: words written field by field from spec/30_encoding.md -/

/-- 30 R122, opcodes 0 to 15 over the three operand forms. -/
theorem test_decode_data_processing :
    decodeArm 0b0001_00_1_0000_1_1001_0110_1010_10100101#32 = .and .ne true 9 6 (.imm 10 0xA5) ∧
    decodeArm 0b0001_00_0_0001_1_1001_0110_10011_10_0_0101#32 = .eor .ne true 9 6 (.shiftImm 19 .asr 5) ∧
    decodeArm 0b0001_00_0_0010_1_1001_0110_1011_0_11_1_0100#32 = .sub .ne true 9 6 (.shiftReg 11 .ror 4) ∧
    decodeArm 0b0001_00_1_0011_1_1001_0110_1010_10100101#32 = .rsb .ne true 9 6 (.imm 10 0xA5) ∧
    decodeArm 0b0001_00_0_0100_1_1001_0110_10011_10_0_0101#32 = .add .ne true 9 6 (.shiftImm 19 .asr 5) ∧
    decodeArm 0b0001_00_0_0101_1_1001_0110_1011_0_11_1_0100#32 = .adc .ne true 9 6 (.shiftReg 11 .ror 4) ∧
    decodeArm 0b0001_00_1_0110_1_1001_0110_1010_10100101#32 = .sbc .ne true 9 6 (.imm 10 0xA5) ∧
    decodeArm 0b0001_00_0_0111_1_1001_0110_10011_10_0_0101#32 = .rsc .ne true 9 6 (.shiftImm 19 .asr 5) ∧
    decodeArm 0b0001_00_0_1000_1_1001_0110_1011_0_11_1_0100#32 = .tst .ne 9 6 (.shiftReg 11 .ror 4) ∧
    decodeArm 0b0001_00_1_1001_1_1001_0110_1010_10100101#32 = .teq .ne 9 6 (.imm 10 0xA5) ∧
    decodeArm 0b0001_00_0_1010_1_1001_0110_10011_10_0_0101#32 = .cmp .ne 9 6 (.shiftImm 19 .asr 5) ∧
    decodeArm 0b0001_00_0_1011_1_1001_0110_1011_0_11_1_0100#32 = .cmn .ne 9 6 (.shiftReg 11 .ror 4) ∧
    decodeArm 0b0001_00_1_1100_1_1001_0110_1010_10100101#32 = .orr .ne true 9 6 (.imm 10 0xA5) ∧
    decodeArm 0b0001_00_0_1101_1_1001_0110_10011_10_0_0101#32 = .mov .ne true 6 (.shiftImm 19 .asr 5) ∧
    decodeArm 0b0001_00_0_1110_1_1001_0110_1011_0_11_1_0100#32 = .bic .ne true 9 6 (.shiftReg 11 .ror 4) ∧
    decodeArm 0b0001_00_1_1111_1_1001_0110_1010_10100101#32 = .mvn .ne true 6 (.imm 10 0xA5) := by
  decide

/-- 30 R123 to R125. -/
theorem test_decode_status_multiply_swap_bx :
    decodeArm 0b1110_00010_1_00_1111_0110_000000000000#32 = .mrs .al true 6 ∧
    decodeArm 0b1110_00010_0_10_1001_1111_00000000_0101#32 = .msrReg .al false 9 5 ∧
    decodeArm 0b1110_00110_1_10_0110_1111_0011_11000001#32 = .msrImm .al true 6 3 0xC1 ∧
    decodeArm 0b0101_000000_0_1_1001_0000_1011_1001_0100#32 = .mul .pl true 9 11 4 ∧
    decodeArm 0b0101_000000_1_0_1001_0110_1011_1001_0100#32 = .mla .pl false 9 6 11 4 ∧
    decodeArm 0b0101_00001_0_0_1_1001_0110_1011_1001_0100#32 = .umull .pl true 9 6 11 4 ∧
    decodeArm 0b0101_00001_0_1_0_1001_0110_1011_1001_0100#32 = .umlal .pl false 9 6 11 4 ∧
    decodeArm 0b0101_00001_1_0_0_1001_0110_1011_1001_0100#32 = .smull .pl false 9 6 11 4 ∧
    decodeArm 0b0101_00001_1_1_1_1001_0110_1011_1001_0100#32 = .smlal .pl true 9 6 11 4 ∧
    decodeArm 0b1110_0001_0_0_00_1001_0110_0000_1001_0100#32 = .swp .al 9 6 4 ∧
    decodeArm 0b1110_0001_0_1_00_1001_0110_0000_1001_0100#32 = .swpb .al 9 6 4 ∧
    decodeArm 0b1100_00010010_1111_1111_1111_0001_0100#32 = .bx .gt 4 := by
  decide

/-- 30 R127. -/
theorem test_decode_word_and_byte_transfers :
    decodeArm 0b1010_01_0_1_0_0_1_1_1001_0110_101100111010#32 = .ldr .ge .pre false 9 6 (.imm 0xB3A) ∧
    decodeArm 0b1010_01_1_1_1_0_0_1_1001_0110_10011_01_0_0101#32 = .ldr .ge .offset true 9 6 (.reg 19 .lsr 5) ∧
    decodeArm 0b1010_01_0_0_1_0_0_1_1001_0110_101100111010#32 = .ldr .ge .post true 9 6 (.imm 0xB3A) ∧
    decodeArm 0b1010_01_1_0_0_0_1_1_1001_0110_00000_11_0_0101#32 = .ldrt .ge false 9 6 (.reg 0 .ror 5) ∧
    decodeArm 0b1010_01_0_1_0_1_1_1_1001_0110_101100111010#32 = .ldrb .ge .pre false 9 6 (.imm 0xB3A) ∧
    decodeArm 0b1010_01_1_1_1_1_0_1_1001_0110_10011_01_0_0101#32 = .ldrb .ge .offset true 9 6 (.reg 19 .lsr 5) ∧
    decodeArm 0b1010_01_0_0_1_1_0_1_1001_0110_101100111010#32 = .ldrb .ge .post true 9 6 (.imm 0xB3A) ∧
    decodeArm 0b1010_01_1_0_0_1_1_1_1001_0110_00000_11_0_0101#32 = .ldrbt .ge false 9 6 (.reg 0 .ror 5) ∧
    decodeArm 0b1010_01_0_1_0_0_1_0_1001_0110_101100111010#32 = .str .ge .pre false 9 6 (.imm 0xB3A) ∧
    decodeArm 0b1010_01_1_1_1_0_0_0_1001_0110_10011_01_0_0101#32 = .str .ge .offset true 9 6 (.reg 19 .lsr 5) ∧
    decodeArm 0b1010_01_0_0_1_0_0_0_1001_0110_101100111010#32 = .str .ge .post true 9 6 (.imm 0xB3A) ∧
    decodeArm 0b1010_01_1_0_0_0_1_0_1001_0110_00000_11_0_0101#32 = .strt .ge false 9 6 (.reg 0 .ror 5) ∧
    decodeArm 0b1010_01_0_1_0_1_1_0_1001_0110_101100111010#32 = .strb .ge .pre false 9 6 (.imm 0xB3A) ∧
    decodeArm 0b1010_01_1_1_1_1_0_0_1001_0110_10011_01_0_0101#32 = .strb .ge .offset true 9 6 (.reg 19 .lsr 5) ∧
    decodeArm 0b1010_01_0_0_1_1_0_0_1001_0110_101100111010#32 = .strb .ge .post true 9 6 (.imm 0xB3A) ∧
    decodeArm 0b1010_01_1_0_0_1_1_0_1001_0110_00000_11_0_0101#32 = .strbt .ge false 9 6 (.reg 0 .ror 5) := by
  decide

/-- 30 R126. -/
theorem test_decode_halfword_and_signed_transfers :
    decodeArm 0b1011_000_1_0_1_1_1_1001_0110_1010_1_01_1_0101#32 = .ldrh .lt .pre false 9 6 (.imm 0xA5) ∧
    decodeArm 0b1011_000_1_1_0_0_1_1001_0110_0000_1_01_1_0101#32 = .ldrh .lt .offset true 9 6 (.reg 5) ∧
    decodeArm 0b1011_000_0_0_1_0_1_1001_0110_1010_1_01_1_0101#32 = .ldrh .lt .post false 9 6 (.imm 0xA5) ∧
    decodeArm 0b1011_000_1_0_1_1_1_1001_0110_1010_1_10_1_0101#32 = .ldrsb .lt .pre false 9 6 (.imm 0xA5) ∧
    decodeArm 0b1011_000_1_1_0_0_1_1001_0110_0000_1_10_1_0101#32 = .ldrsb .lt .offset true 9 6 (.reg 5) ∧
    decodeArm 0b1011_000_0_0_1_0_1_1001_0110_1010_1_10_1_0101#32 = .ldrsb .lt .post false 9 6 (.imm 0xA5) ∧
    decodeArm 0b1011_000_1_0_1_1_1_1001_0110_1010_1_11_1_0101#32 = .ldrsh .lt .pre false 9 6 (.imm 0xA5) ∧
    decodeArm 0b1011_000_1_1_0_0_1_1001_0110_0000_1_11_1_0101#32 = .ldrsh .lt .offset true 9 6 (.reg 5) ∧
    decodeArm 0b1011_000_0_0_1_0_1_1001_0110_1010_1_11_1_0101#32 = .ldrsh .lt .post false 9 6 (.imm 0xA5) ∧
    decodeArm 0b1011_000_1_0_1_1_0_1001_0110_1010_1_01_1_0101#32 = .strh .lt .pre false 9 6 (.imm 0xA5) ∧
    decodeArm 0b1011_000_1_1_0_0_0_1001_0110_0000_1_01_1_0101#32 = .strh .lt .offset true 9 6 (.reg 5) ∧
    decodeArm 0b1011_000_0_0_1_0_0_1001_0110_1010_1_01_1_0101#32 = .strh .lt .post false 9 6 (.imm 0xA5) := by
  decide

/-- 30 R127 to R130. -/
theorem test_decode_block_branch_and_exceptions :
    decodeArm 0b1110_100_0_0_1_0_1_1001_1100000000000001#32 = .ldm .al .da true false 9 0xC001 ∧
    decodeArm 0b1110_100_0_1_0_1_0_1001_0000000000001110#32 = .stm .al .ia false true 9 0x000E ∧
    decodeArm 0b1110_100_1_0_0_1_1_1001_0000000000001110#32 = .ldm .al .db false true 9 0x000E ∧
    decodeArm 0b1110_100_1_1_1_0_0_1001_1000000000000000#32 = .stm .al .ib true false 9 0x8000 ∧
    decodeArm 0b0000_101_0_100000000000000000000011#32 = .b .eq 0x800003 ∧
    decodeArm 0b0000_101_1_011111111111111111111110#32 = .bl .eq 0x7FFFFE ∧
    decodeArm 0b0010_1111_000100100011010001010110#32 = .swi .cs 0x123456 ∧
    decodeArm 0b0011_011_00000000000000000000_1_0011#32 = .undefined .cc 0x6000013 ∧
    decodeArm 0b1000_1110_000000000000000000000001#32 = .coprocessor .hi 0xE000001 ∧
    decodeArm 0b1001_1101_000000000000000000000001#32 = .coprocessor .ls 0xD000001 ∧
    decodeArm 0b1101_1100_000000000000000000000001#32 = .coprocessor .le 0xC000001 := by
  decide

/-- 30 R121: the reserved indices of the 32-bit set. -/
theorem test_decode_reserved_32_bit :
    decodeArm 0b1110_001_1000_0_0000_0000_000000000001#32 = .reservedPsrImm .al 0x3000001 ∧
    decodeArm 0b1110_001_1010_0_0000_0000_000000000001#32 = .reservedPsrImm .al 0x3400001 ∧
    decodeArm 0b1110_000_1001_0_0000_0000_0000_0011_0001#32 = .reservedPsrReg .al 0x1200031 ∧
    decodeArm 0b1110_000_1000_0_0000_0000_0000_0001_0001#32 = .reservedPsrReg .al 0x1000011 ∧
    decodeArm 0b1110_000001_0_0_0000_0000_0000_1001_0001#32 = .reservedMul .al 0x400091 ∧
    decodeArm 0b1110_0001_1_0_00_0000_0000_0000_1001_0001#32 = .reservedSwp .al 0x1800091 ∧
    decodeArm 0b1110_0001_0_0_01_0000_0000_0000_1001_0001#32 = .reservedSwp .al 0x1100091 ∧
    decodeArm 0b1110_000_0_1_0_1_1_0000_0000_0000_1011_0001#32 = .reservedHalfPostw .al 0x0B000B1 ∧
    decodeArm 0b1110_000_1_1_0_0_0_0000_0000_0000_1101_0001#32 = .reservedHalfStore .al 0x18000D1 := by
  decide

/-- 30 R131, R132: formats 1 to 5, 12 and 13. -/
theorem test_decode_thumb_alu :
    decodeThumb 0b000_00_10011_101_010#16 = .tLslImm 19 5 2 ∧
    decodeThumb 0b000_01_10011_101_010#16 = .tLsrImm 19 5 2 ∧
    decodeThumb 0b000_10_10011_101_010#16 = .tAsrImm 19 5 2 ∧
    decodeThumb 0b00011_0_0_110_101_010#16 = .tAddReg 6 5 2 ∧
    decodeThumb 0b00011_0_1_110_101_010#16 = .tSubReg 6 5 2 ∧
    decodeThumb 0b00011_1_0_110_101_010#16 = .tAddImm3 6 5 2 ∧
    decodeThumb 0b00011_1_1_110_101_010#16 = .tSubImm3 6 5 2 ∧
    decodeThumb 0b001_00_110_10100101#16 = .tMovImm 6 0xA5 ∧
    decodeThumb 0b001_01_110_10100101#16 = .tCmpImm 6 0xA5 ∧
    decodeThumb 0b001_10_110_10100101#16 = .tAddImm8 6 0xA5 ∧
    decodeThumb 0b001_11_110_10100101#16 = .tSubImm8 6 0xA5 ∧
    decodeThumb 0b010000_0000_101_010#16 = .tAnd 5 2 ∧
    decodeThumb 0b010000_0001_101_010#16 = .tEor 5 2 ∧
    decodeThumb 0b010000_0010_101_010#16 = .tLsl 5 2 ∧
    decodeThumb 0b010000_0011_101_010#16 = .tLsr 5 2 ∧
    decodeThumb 0b010000_0100_101_010#16 = .tAsr 5 2 ∧
    decodeThumb 0b010000_0101_101_010#16 = .tAdc 5 2 ∧
    decodeThumb 0b010000_0110_101_010#16 = .tSbc 5 2 ∧
    decodeThumb 0b010000_0111_101_010#16 = .tRor 5 2 ∧
    decodeThumb 0b010000_1000_101_010#16 = .tTst 5 2 ∧
    decodeThumb 0b010000_1001_101_010#16 = .tNeg 5 2 ∧
    decodeThumb 0b010000_1010_101_010#16 = .tCmp 5 2 ∧
    decodeThumb 0b010000_1011_101_010#16 = .tCmn 5 2 ∧
    decodeThumb 0b010000_1100_101_010#16 = .tOrr 5 2 ∧
    decodeThumb 0b010000_1101_101_010#16 = .tMul 5 2 ∧
    decodeThumb 0b010000_1110_101_010#16 = .tBic 5 2 ∧
    decodeThumb 0b010000_1111_101_010#16 = .tMvn 5 2 ∧
    decodeThumb 0b010001_00_1_0_101_010#16 = .tAddHi 10 5 ∧
    decodeThumb 0b010001_01_0_1_101_010#16 = .tCmpHi 2 13 ∧
    decodeThumb 0b010001_10_1_1_101_010#16 = .tMovHi 10 13 ∧
    decodeThumb 0b010001_11_0_1_101_000#16 = .tBx 13 ∧
    decodeThumb 0b1010_0_110_10100101#16 = .tAddPc 6 0xA5 ∧
    decodeThumb 0b1010_1_110_10100101#16 = .tAddSp 6 0xA5 ∧
    decodeThumb 0b10110000_0_1100101#16 = .tSpAdd 0x65 ∧
    decodeThumb 0b10110000_1_1100101#16 = .tSpSub 0x65 := by
  decide

/-- 30 R131, R132: formats 6 to 11, 14 and 15. -/
theorem test_decode_thumb_transfers :
    decodeThumb 0b01001_110_10100101#16 = .tLdrPc 6 0xA5 ∧
    decodeThumb 0b0101_00_0_110_101_010#16 = .tStrReg 6 5 2 ∧
    decodeThumb 0b0101_01_0_110_101_010#16 = .tStrbReg 6 5 2 ∧
    decodeThumb 0b0101_10_0_110_101_010#16 = .tLdrReg 6 5 2 ∧
    decodeThumb 0b0101_11_0_110_101_010#16 = .tLdrbReg 6 5 2 ∧
    decodeThumb 0b0101_00_1_110_101_010#16 = .tStrhReg 6 5 2 ∧
    decodeThumb 0b0101_01_1_110_101_010#16 = .tLdsbReg 6 5 2 ∧
    decodeThumb 0b0101_10_1_110_101_010#16 = .tLdrhReg 6 5 2 ∧
    decodeThumb 0b0101_11_1_110_101_010#16 = .tLdshReg 6 5 2 ∧
    decodeThumb 0b011_00_10011_101_010#16 = .tStrImm 19 5 2 ∧
    decodeThumb 0b011_01_10011_101_010#16 = .tLdrImm 19 5 2 ∧
    decodeThumb 0b011_10_10011_101_010#16 = .tStrbImm 19 5 2 ∧
    decodeThumb 0b011_11_10011_101_010#16 = .tLdrbImm 19 5 2 ∧
    decodeThumb 0b1000_0_10011_101_010#16 = .tStrhImm 19 5 2 ∧
    decodeThumb 0b1000_1_10011_101_010#16 = .tLdrhImm 19 5 2 ∧
    decodeThumb 0b1001_0_110_10100101#16 = .tStrSp 6 0xA5 ∧
    decodeThumb 0b1001_1_110_10100101#16 = .tLdrSp 6 0xA5 ∧
    decodeThumb 0b1011_0_10_1_10100101#16 = .tPush true 0xA5 ∧
    decodeThumb 0b1011_1_10_0_10100101#16 = .tPop false 0xA5 ∧
    decodeThumb 0b1100_0_110_10100101#16 = .tStmia 6 0xA5 ∧
    decodeThumb 0b1100_1_110_10100101#16 = .tLdmia 6 0xA5 := by
  decide

/-- 30 R131, R132: formats 16 to 19 and the reserved indices. -/
theorem test_decode_thumb_branches_and_reserved :
    decodeThumb 0b1101_1100_10100101#16 = .tBcond .gt 0xA5 ∧
    decodeThumb 0b1101_1111_10100101#16 = .tSwi 0xA5 ∧
    decodeThumb 0b11100_10011100101#16 = .tB 0x4E5 ∧
    decodeThumb 0b11110_10011100101#16 = .tBlFirst 0x4E5 ∧
    decodeThumb 0b11111_10011100101#16 = .tBlSecond 0x4E5 ∧
    decodeThumb 0b1011_1110_00000001#16 = .tUndefined 0xBE01 ∧
    decodeThumb 0b11101_00000000001#16 = .tUndefined 0xE801 ∧
    decodeThumb 0b010001_00_0_0_101_010#16 = .tReservedHiLoLo 0x442A ∧
    decodeThumb 0b010001_11_1_0_101_000#16 = .tReservedBxH1 0x47A8 ∧
    decodeThumb 0b1101_1110_00000001#16 = .tReservedBcondAl 0xDE01 := by
  decide

/-! ## One step -/

/-- What a test gives the state before the step; every other register is 0, r15 stands two widths past `addr`. -/
structure Before where
  regs : List (Nat × Word) := []
  mem : List (Word × Word) := []
  banked : List (Bank × Nat × Word) := []
  saved : Word := 0
  addr : Word := 0x08000000

/-- What a test compares after the step. -/
structure After where
  regs : List (Fin 16 × Word) := []
  cpsr : Option Word := none
  mem : List (Word × Word) := []
  banked : List (Mode × Fin 16 × Word) := []
  saved : List (Bank × Word) := []

/-- The start state of spec/95_test_vectors.md with one opcode at `addr`. -/
def before (w : Nat) (cpsr : Word) (b : Before) : State :=
  let thumb := cpsr.getLsbD 5
  let x := b.regs.foldl (fun v p => v.setIfInBounds p.1 p.2) (Vector.replicate 16 (0 : Word))
  let s0 : State :=
    { State.reset with
      x := x.setIfInBounds 15 (b.addr + opWidth thumb + opWidth thumb)
      cpsr := cpsr
      irqMaskLatch := cpsr.getLsbD 7
      world := { State.reset.world with mem := b.mem.foldl (fun m p => Memory.write m .word p.1 p.2) [], bus := [] } }
  let s1 := s0.setSpsr s0.bank b.saved
  let s2 := b.banked.foldl (fun (t : State) p =>
    let q := t.loBank p.1
    t.setLoBank p.1 (if p.2.1 = 13 then { q with r13 := p.2.2 } else { q with r14 := p.2.2 })) s1
  placeOpcode s2 thumb (BitVec.ofNat 32 w)

/-- The step answers a next state with these contents. -/
def runs (s : State) (a : After) : Bool :=
  match step s with
  | .next t =>
    a.regs.all (fun p => t.get p.1 == p.2) && a.cpsr.all (fun c => t.cpsr == c)
      && a.mem.all (fun p => Memory.read t.world.mem .word p.1 == p.2)
      && a.banked.all (fun p => t.seenBy p.1 p.2.1 == p.2.2) && a.saved.all (fun p => t.spsrOf p.1 == p.2)
  | _ => false

/-- The step is refused for this reason. -/
def stops (s : State) (why : Refusal) : Bool :=
  match step s with
  | .refused r => r == why
  | _ => false

/-- The state with the wire and the `HALTED` input at these levels. -/
def driven (s : State) (irq halted : Bool) : State :=
  { s with world := { s.world with irqLine := irq, halted := halted } }

/-- The state with these acts of the environment: before the next step, and inside its bus calls. -/
def withActs (s : State) (env : List EnvAct) (inside : List (List InsideAct)) : State :=
  { s with world := { s.world with env := [env], inside := inside } }

/-- The step answers this fault. -/
def faults (s : State) (f : Fault) : Bool :=
  match step s with
  | .fault g => g == f
  | _ => false

/-- The step answers a next state that told the host this. -/
def tells (s : State) (notes : List HostNote) : Bool :=
  match step s with
  | .next t => t.world.host == notes
  | _ => false

/-- 42 R246 to R261; section 2.5 of spec/95_test_vectors.md. -/
theorem test_data_processing :
    runs (before 0xE2110102 0xD3 { regs := [(1, 0x7FFFFFFF)] })
      { regs := [(0, 0)], cpsr := some 0x600000D3 } = true ∧
    runs (before 0xE0310002 0x300000D3 { regs := [(1, 0xF0F0F0F0), (2, 0x3C3C3C3C)] })
      { regs := [(0, 0xCCCCCCCC)], cpsr := some 0xB00000D3 } = true ∧
    runs (before 0xE0510002 0xD3 { regs := [(1, 0x80000000), (2, 1)] })
      { regs := [(0, 0x7FFFFFFF)], cpsr := some 0x300000D3 } = true ∧
    runs (before 0xE2710000 0xD3 { regs := [(1, 0x80000000)] })
      { regs := [(0, 0x80000000)], cpsr := some 0x900000D3 } = true ∧
    runs (before 0xE0910002 0x200000D3 { regs := [(1, 0x7FFFFFFF), (2, 1)] })
      { regs := [(0, 0x80000000)], cpsr := some 0x900000D3 } = true ∧
    runs (before 0xE0B10002 0x200000D3 { regs := [(1, 0xFFFFFFFF), (2, 0)] })
      { regs := [(0, 0)], cpsr := some 0x600000D3 } = true ∧
    runs (before 0xE0D10002 0xD3 { regs := [(1, 0), (2, 0xFFFFFFFF)] })
      { regs := [(0, 0)], cpsr := some 0x400000D3 } = true ∧
    runs (before 0xE0F10002 0xD3 { regs := [(1, 1), (2, 3)] })
      { regs := [(0, 1)], cpsr := some 0x200000D3 } = true ∧
    runs (before 0xE11100A2 0xD3 { regs := [(1, 0xFF), (2, 0x101)] }) { cpsr := some 0x200000D3 } = true ∧
    runs (before 0xE1310002 0x100000D3 { regs := [(1, 0x55), (2, 0x55)] }) { cpsr := some 0x500000D3 } = true ∧
    runs (before 0xE1510002 0xD3 { regs := [(1, 0x80000000), (2, 0x7FFFFFFF)] })
      { cpsr := some 0x300000D3 } = true ∧
    runs (before 0xE1710002 0xD3 { regs := [(1, 0x80000000), (2, 0x80000000)] })
      { cpsr := some 0x700000D3 } = true ∧
    runs (before 0xE1910002 0x300000D3 { regs := [(1, 0xF0F0F0F0), (2, 0x3C3C3C3C)] })
      { regs := [(0, 0xFCFCFCFC)], cpsr := some 0xB00000D3 } = true ∧
    runs (before 0xE1B00061 0xD3 { regs := [(1, 3)] }) { regs := [(0, 1)], cpsr := some 0x200000D3 } = true ∧
    runs (before 0xE1D10002 0x300000D3 { regs := [(1, 0xF0F0F0F0), (2, 0x3C3C3C3C)] })
      { regs := [(0, 0xC0C0C0C0)], cpsr := some 0xB00000D3 } = true ∧
    runs (before 0xE1F00002 0x300000D3 { regs := [(1, 0xF0F0F0F0), (2, 0x3C3C3C3C)] })
      { regs := [(0, 0xC3C3C3C3)], cpsr := some 0xB00000D3 } = true ∧
    runs (before 0xE08F0211 0xD3 { regs := [(1, 1), (2, 4)] })
      { regs := [(0, 0x800001C)], cpsr := some 0xD3 } = true ∧
    runs (before 0x1B00001 0xD3 { regs := [(1, 7)] }) { regs := [(0, 0)], cpsr := some 0xD3 } = true := by
  decide

/-- 42 R244; section 2.5 of spec/95_test_vectors.md. -/
theorem test_data_processing_to_r15 :
    runs (before 0xE1A0F001 0xD3 { regs := [(1, 0x8000100)] })
      { regs := [(15, 0x8000108)], cpsr := some 0xD3 } = true ∧
    runs (before 0xE25EF004 0xD2 { regs := [(14, 0x8000204)], saved := 0x6000001F })
      { regs := [(15, 0x8000208)], cpsr := some 0x6000001F, banked := [(.usr, 14, 0)] } = true ∧
    runs (before 0xE1B0F00E 0xD3 { regs := [(14, 0x8000201)], saved := 0x30 })
      { regs := [(15, 0x8000204)], cpsr := some 0x30, banked := [(.usr, 14, 0)] } = true := by
  decide

/-- 43 R280 to R284; section 2.6 of spec/95_test_vectors.md. -/
theorem test_status_transfers :
    runs (before 0xE14F0000 0xD3 { saved := 0x9000001F }) { regs := [(0, 0x9000001F)], cpsr := some 0xD3 } = true ∧
    runs (before 0xE14F0000 0x600000DF { }) { regs := [(0, 0x600000DF)], cpsr := some 0x600000DF } = true ∧
    runs (before 0xE121F000 0xD3
      { regs := [(0, 0xF0000092), (13, 0x3007FE0), (14, 0x11111111)],
        banked := [(.irq, 13, 0x3007FA0), (.irq, 14, 0x22222222)] })
      { cpsr := some 0x92, banked := [(.irq, 13, 0x3007FA0), (.irq, 14, 0x22222222),
          (.svc, 13, 0x3007FE0), (.svc, 14, 0x11111111)] } = true ∧
    runs (before 0xE129F000 0x10 { regs := [(0, 0xF00000DF)] }) { cpsr := some 0xF0000010 } = true ∧
    runs (before 0xE169F000 0xD3 { regs := [(0, 0xA0000030)], saved := 0 })
      { cpsr := some 0xD3, saved := [(.svc, 0xA0000030)] } = true ∧
    runs (before 0xE328F201 0xF00000D3 { }) { cpsr := some 0x100000D3 } = true := by
  decide

/-- The multiplies of section 2.6 (43 R285 to R290; C, V free, so CPSR is not compared where S is set) of spec/95_test_vectors.md. -/
theorem test_multiplies :
    runs (before 0xE0000291 0xD3 { regs := [(1, 3), (2, 0x12345678)] })
      { regs := [(0, 0x369D0368)], cpsr := some 0xD3 } = true ∧
    runs (before 0xE0303291 0xD3 { regs := [(1, 0x10), (2, 0x100), (3, 0xFFFFF000)] })
      { regs := [(0, 0)] } = true ∧
    runs (before 0xE0910392 0xD3 { regs := [(2, 0xFFFFFFFF), (3, 0xFFFFFFFF)] })
      { regs := [(0, 1), (1, 0xFFFFFFFE)] } = true ∧
    runs (before 0xE0D10392 0xD3 { regs := [(2, 0xFFFFFFFF), (3, 0xFFFFFFFF)] }) { regs := [(0, 1)] } = true ∧
    runs (before 0xE0A10392 0xD3 { regs := [(0, 0xFFFFFFFF), (1, 0), (2, 1), (3, 1)] })
      { regs := [(0, 0), (1, 1)], cpsr := some 0xD3 } = true ∧
    runs (before 0xE0F10392 0xD3 { regs := [(0, 1), (1, 0), (2, 0xFFFFFFFF), (3, 1)] })
      { regs := [(0, 0)] } = true := by
  decide

/-- 44 R310 to R316; section 2.7 of spec/95_test_vectors.md. -/
theorem test_word_and_byte_transfers :
    runs (before 0xE5910001 0xD3 { regs := [(1, 0x3000000)], mem := [(0x3000000, 0x44332211)] })
      { regs := [(0, 0x11443322)], cpsr := some 0xD3 } = true ∧
    runs (before 0xE5D10006 0xD3 { regs := [(1, 0x3000000)], mem := [(0x3000004, 0x88776655)] })
      { regs := [(0, 0x77)], cpsr := some 0xD3 } = true ∧
    runs (before 0xE7910062 0x200000D3 { regs := [(1, 0x3000000), (2, 8)], mem := [(0x83000004, 0xDEADBEEF)] })
      { regs := [(0, 0xDEADBEEF)], cpsr := some 0x200000D3 } = true ∧
    runs (before 0xE591F000 0xD3 { regs := [(1, 0x3000000)], mem := [(0x3000000, 0x8000200)] })
      { regs := [(15, 0x8000208)], cpsr := some 0xD3 } = true ∧
    runs (before 0xE5810005 0xD3 { regs := [(0, 0xCAFEF00D), (1, 0x3000000)], mem := [(0x3000004, 0x88776655)] })
      { cpsr := some 0xD3, mem := [(0x3000004, 0xCAFEF00D)] } = true ∧
    runs (before 0xE5C10005 0xD3 { regs := [(0, 0xCAFEF00D), (1, 0x3000000)], mem := [(0x3000004, 0x88776655)] })
      { cpsr := some 0xD3, mem := [(0x3000004, 0x88770D55)] } = true ∧
    runs (before 0xE581F000 0xD3 { regs := [(1, 0x3000000)], mem := [(0x3000000, 0x44332211)] })
      { cpsr := some 0xD3, mem := [(0x3000000, 0x800000C)] } = true ∧
    runs (before 0xE4B10000 0xD3 { regs := [(1, 0x3000000)], mem := [(0x3000000, 0x44332211)] })
      { regs := [(0, 0x44332211)], cpsr := some 0xD3 } = true := by
  decide

/-- 44 R317 to R321; section 2.7 of spec/95_test_vectors.md. -/
theorem test_halfword_transfers :
    runs (before 0xE1D100B1 0xD3 { regs := [(1, 0x3000000)], mem := [(0x3000000, 0x8081F2F3)] })
      { regs := [(0, 0xF30000F2)], cpsr := some 0xD3 } = true ∧
    runs (before 0xE1D100F1 0xD3 { regs := [(1, 0x3000000)], mem := [(0x3000000, 0x8081F2F3)] })
      { regs := [(0, 0xFFFFFFF2)], cpsr := some 0xD3 } = true ∧
    runs (before 0xE1D100D3 0xD3 { regs := [(1, 0x3000000)], mem := [(0x3000000, 0x8081F2F3)] })
      { regs := [(0, 0xFFFFFF80)], cpsr := some 0xD3 } = true ∧
    runs (before 0xE0D102B4 0xD3 { regs := [(1, 0x3000000)], mem := [(0x3000000, 0x8081F2F3)] })
      { regs := [(0, 0xF2F3), (1, 0x3000024)], cpsr := some 0xD3 } = true ∧
    runs (before 0xE1C100B3 0xD3 { regs := [(0, 0xCAFEF00D), (1, 0x3000000)], mem := [(0x3000000, 0x8081F2F3)] })
      { cpsr := some 0xD3, mem := [(0x3000000, 0xF00DF2F3)] } = true := by
  decide

/-- 45 R350 to R355; section 2.8 of spec/95_test_vectors.md. -/
theorem test_block_transfers :
    runs (before 0xE930000E 0xD3
      { regs := [(0, 0x3000100)], mem := [(0x30000F4, 0x1001), (0x30000F8, 0x1002), (0x30000FC, 0x1003)] })
      { regs := [(0, 0x30000F4), (1, 0x1001), (2, 0x1002), (3, 0x1003)], cpsr := some 0xD3 } = true ∧
    runs (before 0xE9B0000E 0xD3
      { regs := [(0, 0x3000100)], mem := [(0x3000104, 0x1005), (0x3000108, 0x1006), (0x300010C, 0x1007)] })
      { regs := [(0, 0x300010C), (1, 0x1005), (2, 0x1006), (3, 0x1007)], cpsr := some 0xD3 } = true ∧
    runs (before 0xE92D4030 0xD3 { regs := [(4, 0xB4), (5, 0xB5), (13, 0x3000100), (14, 0xBE)] })
      { regs := [(13, 0x30000F4)],
        cpsr := some 0xD3, mem := [(0x30000F4, 0xB4), (0x30000F8, 0xB5), (0x30000FC, 0xBE)] } = true ∧
    runs (before 0xE8BD8010 0xD3 { regs := [(13, 0x3000100)], mem := [(0x3000100, 0x44), (0x3000104, 0x8000300)] })
      { regs := [(4, 0x44), (13, 0x3000108), (15, 0x8000308)], cpsr := some 0xD3 } = true ∧
    runs (before 0xE8A00003 0xD3 { regs := [(0, 0x3000100), (1, 0xA1)] })
      { regs := [(0, 0x3000108)], cpsr := some 0xD3, mem := [(0x3000100, 0x3000100), (0x3000104, 0xA1)] } = true ∧
    runs (before 0xE8C06000 0xD2
      { regs := [(0, 0x3000100), (13, 0x1333), (14, 0x1444)],
        banked := [(.shared, 13, 0x333), (.shared, 14, 0x444)] })
      { cpsr := some 0xD2, mem := [(0x3000100, 0x333), (0x3000104, 0x444)],
        banked := [(.usr, 13, 0x333), (.usr, 14, 0x444)] } = true ∧
    runs (before 0xE8D06000 0xD2
      { regs := [(0, 0x3000100), (13, 0x1333), (14, 0x1444)],
        mem := [(0x3000100, 0x1004), (0x3000104, 0x1005)], banked := [(.shared, 13, 0x333), (.shared, 14, 0x444)] })
      { cpsr := some 0xD2, banked := [(.usr, 13, 0x1004), (.usr, 14, 0x1005)] } = true ∧
    runs (before 0xE8FD8001 0xD2
      { regs := [(13, 0x3000100)], mem := [(0x3000100, 0x77), (0x3000104, 0x8000400)], saved := 0x4000001F })
      { regs := [(0, 0x77), (15, 0x8000408)],
        cpsr := some 0x4000001F, banked := [(.usr, 13, 0), (.irq, 13, 0x3000108)] } = true := by
  decide

/-- 45 R360, R361; section 2.8 of spec/95_test_vectors.md. -/
theorem test_swaps :
    runs (before 0xE1020091 0xD3 { regs := [(1, 0xCAFEF00D), (2, 0x3000002)], mem := [(0x3000000, 0x44332211)] })
      { regs := [(0, 0x22114433)], cpsr := some 0xD3, mem := [(0x3000000, 0xCAFEF00D)] } = true ∧
    runs (before 0xE1420091 0xD3 { regs := [(1, 0xCAFEF00D), (2, 0x3000001)], mem := [(0x3000000, 0x44332211)] })
      { regs := [(0, 0x22)], cpsr := some 0xD3, mem := [(0x3000000, 0x44330D11)] } = true := by
  decide

/-- 46 R380 to R385; section 2.9 of spec/95_test_vectors.md. -/
theorem test_branches_and_exceptions :
    runs (before 0xEA800000 0xD3 { }) { regs := [(15, 0x6000010)], cpsr := some 0xD3 } = true ∧
    runs (before 0xEB00003E 0xD3 { }) { regs := [(14, 0x8000004), (15, 0x8000108)], cpsr := some 0xD3 } = true ∧
    runs (before 0xE12FFF10 0xD3 { regs := [(0, 0x8000101)] })
      { regs := [(15, 0x8000104)], cpsr := some 0xF3 } = true ∧
    runs (before 0xEF123456 0x60000010 { })
      { regs := [(15, 0x10)], cpsr := some 0x60000093, banked := [(.svc, 14, 0x8000004)],
        saved := [(.svc, 0x60000010)] } = true ∧
    runs (before 0xE7F000F0 0x6000001F { })
      { regs := [(15, 12)], cpsr := some 0x6000009B, banked := [(.und, 14, 0x8000004)],
        saved := [(.und, 0x6000001F)] } = true ∧
    runs (before 0xEE000000 0x1F { })
      { regs := [(15, 12)], cpsr := some 0x9B, banked := [(.und, 14, 0x8000004)] } = true := by
  decide

/-- 47 R400 to R410; section 2.10 of spec/95_test_vectors.md. -/
theorem test_thumb_shifts_and_immediates :
    runs (before 0x00C8 0x200000F3 { regs := [(1, 5)] }) { regs := [(0, 0x28)], cpsr := some 0xF3 } = true ∧
    runs (before 0x0808 0xF3 { regs := [(1, 0x80000000)] }) { regs := [(0, 0)], cpsr := some 0x600000F3 } = true ∧
    runs (before 0x1108 0xF3 { regs := [(1, 0x80000008)] })
      { regs := [(0, 0xF8000000)], cpsr := some 0xA00000F3 } = true ∧
    runs (before 0x1888 0xF3 { regs := [(1, 0x7FFFFFFF), (2, 1)] })
      { regs := [(0, 0x80000000)], cpsr := some 0x900000F3 } = true ∧
    runs (before 0x1A88 0xF3 { regs := [(1, 1), (2, 2)] })
      { regs := [(0, 0xFFFFFFFF)], cpsr := some 0x800000F3 } = true ∧
    runs (before 0x1DC8 0xF3 { regs := [(1, 0xFFFFFFF9)] }) { regs := [(0, 0)], cpsr := some 0x600000F3 } = true ∧
    runs (before 0x1E08 0xF3 { regs := [(1, 0)] }) { regs := [(0, 0)], cpsr := some 0x600000F3 } = true ∧
    runs (before 0x20FF 0xF00000F3 { }) { regs := [(0, 0xFF)], cpsr := some 0x300000F3 } = true ∧
    runs (before 0x2805 0xF3 { regs := [(0, 5)] }) { cpsr := some 0x600000F3 } = true ∧
    runs (before 0x30FF 0xF3 { regs := [(0, 0xFFFFFF01)] }) { regs := [(0, 0)], cpsr := some 0x600000F3 } = true ∧
    runs (before 0x3801 0xF3 { regs := [(0, 0x80000000)] })
      { regs := [(0, 0x7FFFFFFF)], cpsr := some 0x300000F3 } = true := by
  decide

/-- 47 R411 to R426; section 2.10 of spec/95_test_vectors.md. -/
theorem test_thumb_alu :
    runs (before 0x4008 0x300000F3 { regs := [(0, 0xF0F0F0F0), (1, 0x3C3C3C3C)] })
      { regs := [(0, 0x30303030)], cpsr := some 0x300000F3 } = true ∧
    runs (before 0x4048 0x300000F3 { regs := [(0, 0xF0F0F0F0), (1, 0x3C3C3C3C)] })
      { regs := [(0, 0xCCCCCCCC)], cpsr := some 0xB00000F3 } = true ∧
    runs (before 0x4088 0xF3 { regs := [(0, 1), (1, 0x20)] })
      { regs := [(0, 0)], cpsr := some 0x600000F3 } = true ∧
    runs (before 0x40C8 0xF3 { regs := [(0, 0x80000000), (1, 0x20)] })
      { regs := [(0, 0)], cpsr := some 0x600000F3 } = true ∧
    runs (before 0x4108 0xF3 { regs := [(0, 0x80000000), (1, 0xFF)] })
      { regs := [(0, 0xFFFFFFFF)], cpsr := some 0xA00000F3 } = true ∧
    runs (before 0x4148 0x300000F3 { regs := [(0, 0xF0F0F0F0), (1, 0x3C3C3C3C)] })
      { regs := [(0, 0x2D2D2D2D)], cpsr := some 0x200000F3 } = true ∧
    runs (before 0x4188 0xF3 { regs := [(0, 5), (1, 5)] })
      { regs := [(0, 0xFFFFFFFF)], cpsr := some 0x800000F3 } = true ∧
    runs (before 0x41C8 0xF3 { regs := [(0, 0x12345678), (1, 4)] })
      { regs := [(0, 0x81234567)], cpsr := some 0xA00000F3 } = true ∧
    runs (before 0x4208 0x300000F3 { regs := [(0, 0xF0F0F0F0), (1, 0x3C3C3C3C)] })
      { cpsr := some 0x300000F3 } = true ∧
    runs (before 0x4248 0xF3 { regs := [(1, 0x80000000)] })
      { regs := [(0, 0x80000000)], cpsr := some 0x900000F3 } = true ∧
    runs (before 0x4288 0x300000F3 { regs := [(0, 0xF0F0F0F0), (1, 0x3C3C3C3C)] })
      { cpsr := some 0xA00000F3 } = true ∧
    runs (before 0x42C8 0x300000F3 { regs := [(0, 0xF0F0F0F0), (1, 0x3C3C3C3C)] })
      { cpsr := some 0x200000F3 } = true ∧
    runs (before 0x4308 0x300000F3 { regs := [(0, 0xF0F0F0F0), (1, 0x3C3C3C3C)] })
      { regs := [(0, 0xFCFCFCFC)], cpsr := some 0xB00000F3 } = true ∧
    runs (before 0x4348 0xF3 { regs := [(0, 0x10000), (1, 0x10000)] }) { regs := [(0, 0)] } = true ∧
    runs (before 0x4388 0x300000F3 { regs := [(0, 0xF0F0F0F0), (1, 0x3C3C3C3C)] })
      { regs := [(0, 0xC0C0C0C0)], cpsr := some 0xB00000F3 } = true ∧
    runs (before 0x43C8 0x300000F3 { regs := [(0, 0xF0F0F0F0), (1, 0x3C3C3C3C)] })
      { regs := [(0, 0xC3C3C3C3)], cpsr := some 0xB00000F3 } = true := by
  decide

/-- 47 R427 to R433; section 2.10 of spec/95_test_vectors.md. -/
theorem test_thumb_high_registers :
    runs (before 0x4480 0xF3 { regs := [(0, 1), (8, 0x10)] }) { regs := [(8, 0x11)], cpsr := some 0xF3 } = true ∧
    runs (before 0x4487 0xF3 { regs := [(0, 0x101)] }) { regs := [(15, 0x8000108)], cpsr := some 0xF3 } = true ∧
    runs (before 0x4580 0xF3 { regs := [(0, 6), (8, 5)] }) { cpsr := some 0x800000F3 } = true ∧
    runs (before 0x4640 0xF3 { regs := [(8, 0x80000000)] })
      { regs := [(0, 0x80000000)], cpsr := some 0xF3 } = true ∧
    runs (before 0xA001 0xF3 { addr := 0x8000002 }) { regs := [(0, 0x8000008)], cpsr := some 0xF3 } = true ∧
    runs (before 0xA8FF 0xF3 { regs := [(13, 0x3007000)] })
      { regs := [(0, 0x30073FC)], cpsr := some 0xF3 } = true ∧
    runs (before 0xB07F 0xF3 { regs := [(13, 0x3007000)] })
      { regs := [(13, 0x30071FC)], cpsr := some 0xF3 } = true ∧
    runs (before 0xB084 0xF3 { regs := [(13, 0x3007000)] })
      { regs := [(13, 0x3006FF0)], cpsr := some 0xF3 } = true := by
  decide

/-- 48 R450 to R466; section 2.11 of spec/95_test_vectors.md. -/
theorem test_thumb_transfers :
    runs (before 0x4801 0xF3 { mem := [(0x8000008, 0xDEADBEEF)], addr := 0x8000002 })
      { regs := [(0, 0xDEADBEEF)], cpsr := some 0xF3 } = true ∧
    runs (before 0x5088 0xF3
      { regs := [(0, 0xCAFEF00D), (1, 0x3000000), (2, 4)], mem := [(0x3000004, 0x88776655)] })
      { cpsr := some 0xF3, mem := [(0x3000004, 0xCAFEF00D)] } = true ∧
    runs (before 0x5488 0xF3
      { regs := [(0, 0xCAFEF00D), (1, 0x3000000), (2, 6)], mem := [(0x3000004, 0x88776655)] })
      { cpsr := some 0xF3, mem := [(0x3000004, 0x880D6655)] } = true ∧
    runs (before 0x5888 0xF3 { regs := [(1, 0x3000000), (2, 5)], mem := [(0x3000004, 0x88776655)] })
      { regs := [(0, 0x55887766)], cpsr := some 0xF3 } = true ∧
    runs (before 0x5C88 0xF3 { regs := [(1, 0x3000000), (2, 3)], mem := [(0x3000000, 0x8081F2F3)] })
      { regs := [(0, 0x80)], cpsr := some 0xF3 } = true ∧
    runs (before 0x5288 0xF3
      { regs := [(0, 0xCAFEF00D), (1, 0x3000000), (2, 6)], mem := [(0x3000004, 0x88776655)] })
      { cpsr := some 0xF3, mem := [(0x3000004, 0xF00D6655)] } = true ∧
    runs (before 0x5688 0xF3 { regs := [(1, 0x3000000), (2, 0)], mem := [(0x3000000, 0x8081F2F3)] })
      { regs := [(0, 0xFFFFFFF3)], cpsr := some 0xF3 } = true ∧
    runs (before 0x5A88 0xF3 { regs := [(1, 0x3000000), (2, 1)], mem := [(0x3000000, 0x8081F2F3)] })
      { regs := [(0, 0xF30000F2)], cpsr := some 0xF3 } = true ∧
    runs (before 0x5E88 0xF3 { regs := [(1, 0x3000000), (2, 3)], mem := [(0x3000000, 0x8081F2F3)] })
      { regs := [(0, 0xFFFFFF80)], cpsr := some 0xF3 } = true ∧
    runs (before 0x6048 0xF3 { regs := [(0, 0x11111111), (1, 0x3000000)], mem := [(0x3000004, 0x88776655)] })
      { cpsr := some 0xF3, mem := [(0x3000004, 0x11111111)] } = true ∧
    runs (before 0x6FC8 0xF3 { regs := [(1, 0x2FFFF8C)], mem := [(0x3000008, 0xCCBBAA99)] })
      { regs := [(0, 0xCCBBAA99)], cpsr := some 0xF3 } = true ∧
    runs (before 0x7088 0xF3 { regs := [(0, 0x1FF), (1, 0x3000000)], mem := [(0x3000000, 0x8081F2F3)] })
      { cpsr := some 0xF3, mem := [(0x3000000, 0x80FFF2F3)] } = true ∧
    runs (before 0x7FC8 0xF3 { regs := [(1, 0x2FFFFEB)], mem := [(0x3000008, 0xCCBBAA99)] })
      { regs := [(0, 0xBB)], cpsr := some 0xF3 } = true ∧
    runs (before 0x8048 0xF3 { regs := [(0, 0xABCD1234), (1, 0x3000000)], mem := [(0x3000000, 0x8081F2F3)] })
      { cpsr := some 0xF3, mem := [(0x3000000, 0x1234F2F3)] } = true ∧
    runs (before 0x88C8 0xF3 { regs := [(1, 0x3000000)], mem := [(0x3000004, 0x88776655)] })
      { regs := [(0, 0x8877)], cpsr := some 0xF3 } = true ∧
    runs (before 0x9001 0xF3 { regs := [(0, 0x22222222), (13, 0x3000000)], mem := [(0x3000004, 0x88776655)] })
      { cpsr := some 0xF3, mem := [(0x3000004, 0x22222222)] } = true ∧
    runs (before 0x9802 0xF3 { regs := [(13, 0x3000000)], mem := [(0x3000008, 0xCCBBAA99)] })
      { regs := [(0, 0xCCBBAA99)], cpsr := some 0xF3 } = true := by
  decide

/-- 48 R467 to R470; section 2.11 of spec/95_test_vectors.md. -/
theorem test_thumb_multiple :
    runs (before 0xB510 0xF3 { regs := [(4, 0xB4), (13, 0x3000100), (14, 0x8000123)] })
      { regs := [(13, 0x30000F8)], cpsr := some 0xF3, mem := [(0x30000F8, 0xB4), (0x30000FC, 0x8000123)] } = true ∧
    runs (before 0xBD10 0xF3 { regs := [(13, 0x3000100)], mem := [(0x3000100, 0xC4), (0x3000104, 0x8000201)] })
      { regs := [(4, 0xC4), (13, 0x3000108), (15, 0x8000204)], cpsr := some 0xF3 } = true ∧
    runs (before 0xC003 0xF3 { regs := [(0, 0x3000100), (1, 0xD1)] })
      { regs := [(0, 0x3000108)], cpsr := some 0xF3, mem := [(0x3000100, 0x3000100), (0x3000104, 0xD1)] } = true ∧
    runs (before 0xC803 0xF3 { regs := [(0, 0x3000100)], mem := [(0x3000100, 0xE1), (0x3000104, 0xE2)] })
      { regs := [(0, 0xE1), (1, 0xE2)], cpsr := some 0xF3 } = true := by
  decide

/-- 49 R490 to R496; section 2.12 of spec/95_test_vectors.md. -/
theorem test_thumb_branches :
    runs (before 0xDB80 0x800000F3 { }) { regs := [(15, 0x7FFFF08)], cpsr := some 0x800000F3 } = true ∧
    runs (before 0xDF2A 0x60000030 { })
      { regs := [(15, 0x10)], cpsr := some 0x60000093, banked := [(.svc, 14, 0x8000002)],
        saved := [(.svc, 0x60000030)] } = true ∧
    runs (before 0xE400 0xF3 { }) { regs := [(15, 0x7FFF808)], cpsr := some 0xF3 } = true ∧
    runs (before 0xF001 0xF3 { }) { regs := [(14, 0x8001004)], cpsr := some 0xF3 } = true ∧
    runs (before 0xF802 0xF3 { regs := [(14, 0x8000100)] })
      { regs := [(14, 0x8000003), (15, 0x8000108)], cpsr := some 0xF3 } = true ∧
    runs (before 0x4708 0xF3 { regs := [(1, 0x8000100)] })
      { regs := [(15, 0x8000108)], cpsr := some 0xD3 } = true ∧
    runs (before 0xB100 0x6000003F { })
      { regs := [(15, 12)], cpsr := some 0x6000009B, banked := [(.und, 14, 0x8000002)],
        saved := [(.und, 0x6000003F)] } = true := by
  decide

/-- the refused rows of sections 2.5 to 2.12 of spec/95_test_vectors.md. -/
theorem test_refusals :
    stops (before 0xE1A00F11 0xD3 { regs := [(1, 1)] }) .shiftByPc = true ∧
    stops (before 0xE151F002 0xD3 { regs := [(1, 1), (2, 2)] }) .comparePc = true ∧
    stops (before 0xE1B0F00E 0xDF { regs := [(14, 0x8000200)] }) .returnWithoutSpsr = true ∧
    stops (before 0xE10FF000 0xD3 { }) .mrsToPc = true ∧
    stops (before 0xE121F000 0xD3 { regs := [(0, 0xF3)] }) .msrChangesT = true ∧
    stops (before 0xE169F000 0xDF { regs := [(0, 0xA0000030)] }) .msrSpsrWithoutSpsr = true ∧
    stops (before 0xE122F000 0xD3 { regs := [(0, 0xFF00)] }) .msrReservedBit = true ∧
    stops (before 0xE0000290 0xD3 { regs := [(0, 2), (2, 3)] }) .mulOperands = true ∧
    stops (before 0xE0800392 0xD3 { regs := [(2, 2), (3, 3)] }) .mullOperands = true ∧
    stops (before 0xE5A11004 0xD3 { regs := [(1, 0x3000000)] }) .writebackToRd = true ∧
    stops (before 0xE5BF0004 0xD3 { }) .writebackToPc = true ∧
    stops (before 0xE5D1F000 0xD3 { regs := [(1, 0x3000000)] }) .bytePc = true ∧
    stops (before 0xE1D1F0B0 0xD3 { regs := [(1, 0x3000000)] }) .halfPc = true ∧
    stops (before 0xE8B00003 0xD3 { regs := [(0, 0x3000100)] }) .ldmBaseInList = true ∧
    stops (before 0xE8B00000 0xD3 { regs := [(0, 0x3000100)] }) .blockEmptyList = true ∧
    stops (before 0xE89F0001 0xD3 { }) .blockBasePc = true ∧
    stops (before 0xE8F02000 0xD2 { regs := [(0, 0x3000100)] }) .userBankWriteback = true ∧
    stops (before 0xE8D02000 0xDF { regs := [(0, 0x3000100)] }) .sBitWithoutSpsr = true ∧
    stops (before 0xE1010091 0xD3 { regs := [(1, 0x3000000)] }) .swpOperands = true ∧
    stops (before 0xE12FFF10 0xD3 { regs := [(0, 0x8000102)] }) .bxUnaligned = true ∧
    stops (before 0x4340 0xF3 { regs := [(0, 3)] }) .thumbMulSameReg = true ∧
    stops (before 0x4587 0xF3 { regs := [(0, 6)] }) .thumbCmpPc = true ∧
    stops (before 0x4608 0xF3 { regs := [(1, 3)] }) .reservedHiLoLo = true ∧
    stops (before 0xB400 0xF3 { regs := [(13, 0x3000100)] }) .blockEmptyList = true ∧
    stops (before 0xC103 0xF3 { regs := [(0, 0xD0), (1, 0x3000100)] }) .stmBaseNotLowest = true ∧
    stops (before 0xDE00 0xF3 { }) .reservedBcondAl = true ∧
    stops (before 0x4788 0xF3 { regs := [(1, 0x8000100)] }) .reservedBxH1 = true := by
  decide

/-! ## Reset, interrupts, halt, the scheduler (spec/96_test_sequences.md) -/

/-- The memory of reset is in canonical form, and so is that of a written byte and its erasure. -/
theorem test_memory_canonical :
    Memory.wf State.reset.world.mem = true ∧ Memory.wf (Memory.write [] .word 0xFFFFFFFE#32 0x00010203#32) = true ∧
    Memory.write (Memory.write [] .word 8#32 0x11223344#32) .word 8#32 0#32 = [] := by
  decide

/-- Section 2: reset with a program in memory and the wire high. -/
theorem test_reset :
    let s : State := { State.reset with
      cpsr := 0x1F
      world := { State.reset.world with
        mem := Memory.write (Memory.write [] .word 0#32 0xEA00000E#32) .word 4#32 0xEAFFFFFE#32
        irqLine := true, bus := [] } }
    s.doReset.slot0 = 0xEA00000E ∧ s.doReset.slot1 = 0xEAFFFFFE ∧ s.doReset.cpsr = 0xD3 ∧
    s.doReset.get 15 = 8 ∧ s.doReset.world.irqLine = false ∧ s.doReset.irqMaskLatch = true := by
  decide

/-- Sequence E1: the IRQ scenario in the 16-bit set, stored r15 = 0x08000100. -/
theorem test_irq_entry_thumb :
    runs (driven (before 0x46C0 0x6000003F { addr := 0x080000FC }) true false)
      { regs := [(14, 0x08000100), (15, 0x20)], cpsr := some 0x60000092, saved := [(.irq, 0x6000003F)] } = true := by
  decide

/-- Sequence E2: the same in the 32-bit set. -/
theorem test_irq_entry_arm :
    runs (driven (before 0xE1A00000 0x80000013 { }) true false)
      { regs := [(14, 0x08000004), (15, 0x20)], cpsr := some 0x80000092, saved := [(.irq, 0x80000013)] } = true := by
  decide

/-- Sequence E3, step 1: the instruction that clears I still runs with the old latch. -/
theorem test_latch_lags :
    let s := driven (before 0xE121F000 0xD3 { regs := [(0, 0x53)] }) true false
    runs s { regs := [(15, 0x0800000C)], cpsr := some 0x53 } = true := by
  decide

/-- Sequence E6: a halted step idles once and does not poll the wire. -/
theorem test_halt :
    runs (driven (before 0xE1A00000 0x53 { }) true true)
      { regs := [(15, 0x08000008)], cpsr := some 0x53 } = true := by
  decide

/-- Sequence E7: an intercepted SWI, in whose callback the environment asks for the time (60 R540, 65 R583). -/
theorem test_swi_intercepted :
    let s := before 0xEF123456 0x10 { }
    let s := withActs s [.intercept true] [[], [.common .getNow]]
    tells s [.swiCallback 0x123456, .answer 0] = true ∧
    runs s { regs := [(15, 0x0800000C)], cpsr := some 0x10 } = true := by
  decide

/-- Sequence S1: the fourth `Add` reaches `SCHED_CAPACITY` = 4. -/
theorem test_scheduler_capacity :
    faults (withActs (before 0xE1A00000 0xD3 { })
      [.addCycles 5 [], .common (.add 10 0 1), .common (.add 10 1 0), .common (.add 3 2 7), .common (.add 1 3 0)] [])
      .schedulerCapacity = true := by
  decide

/-- Sequence S2: `AddCycles(20)` fires B, then A; the query before it answers 15 and 7. -/
theorem test_scheduler_order :
    let a : Event := { cls := 0, timestamp := 15, priority := 1, seq := 0, handle := 0 }
    let b : Event := { cls := 1, timestamp := 15, priority := 0, seq := 1, handle := 1 }
    let s := withActs (before 0xE1A00000 0xD3 { }) [.common .getTarget, .common .getRemaining, .addCycles 20 []] []
    tells { s with world := { s.world with sched := { now := 8, pending := [b, a], seq := 3 } } }
      [.answer 15, .answer 7, .fired b 28, .fired a 28] = true := by
  decide

/-! ## The environment inside a call (20 R75, 65 R591, 70 R621) -/

/-- LDR r0, [r1] with r1 = A + 8: the fetch of the step and the load read one word, and the act inside the load's call
changes its low byte in between (00 R5, 20 R91). -/
theorem test_poke_inside_call :
    let s := withActs (before 0xE5910000 0xD3 { regs := [(1, 0x08000008)], mem := [(0x08000008, 0x11223344)] }) []
      [[], [.common (.poke 0x08000008 0x55)]]
    runs s { regs := [(0, 0x11223355)] } = true ∧
    (match step s with | .next t => t.slot1 == 0x11223344 | _ => false) = true := by
  decide

/-- What a step may not meet inside a bus call, in its fetch and in a later call. -/
theorem test_forbidden_inside_call :
    stops (withActs (before 0xE1A00000 0xD3 { }) [] [[.reset]]) .resetInsideCall = true ∧
    stops (withActs (before 0xE1A00000 0xD3 { }) [] [[.run]]) .runInsideCall = true ∧
    stops (withActs (before 0xE5910000 0xD3 { }) [] [[], [.touchCpu]]) .cpuAccessInsideCall = true ∧
    stops (withActs (before 0xE1A00000 0xD3 { }) [] [[.addCycles 0 [[.reset]], .common (.cancel 7)]]) .deadHandle
      = true := by
  decide

/-- 00 R10, 45 R351, C5: LDMIA r13!, {r0, r15}^ with an unrecognised saved mode number is the fault of 10 R38; where the
environment reaches the capacity inside a read, or does what is refused inside the `Idle()`, that stop came first. -/
theorem test_first_stop :
    let s := before 0xE8FD8001 0xD3 { saved := 0x1E }
    let fill : List InsideAct := List.replicate 4 (.common (.add 1 0 0))
    faults s .invalidMode = true ∧ faults (withActs s [] [[], fill]) .schedulerCapacity = true ∧
    stops (withActs s [] [[], [], [], [.run]]) .runInsideCall = true := by
  decide

/-- 70 R623: `Run()` before the first `Reset()`; after a `Reset()` it runs. -/
theorem test_run_before_reset :
    let s := { before 0xE1A00000 0xD3 { } with started := false }
    stops s .runBeforeReset = true ∧ (match step (withActs s [.reset] []) with | .next _ => true | _ => false) = true := by
  decide

/-- Sequences S7 and S5, with the environment inside the fetch (65 R591): a callback that adds an event due at once, and
one that cancels an event already due, whose handle is dead from then on. -/
theorem test_callbacks_inside_call :
    let a : Event := { cls := 0, timestamp := 10, priority := 0, seq := 0, handle := 0 }
    let b : Event := { cls := 1, timestamp := 10, priority := 1, seq := 1, handle := 1 }
    let c : Event := { cls := 2, timestamp := 12, priority := 0, seq := 2, handle := 2 }
    let inside : List InsideAct → State := fun acts => withActs (before 0xE1A00000 0xD3 { }) [] [acts]
    tells (inside [.common (.add 10 0 0), .common (.add 10 1 1), .addCycles 12 [[.common (.add 0 2 0)]]])
      [.handle 0, .handle 1, .fired a 12, .handle 2, .fired b 12, .fired c 12] = true ∧
    tells (inside [.common (.add 10 0 0), .common (.add 10 1 1), .addCycles 10 [[.common (.cancel 1)]]])
      [.handle 0, .handle 1, .fired a 10] = true ∧
    stops (inside [.common (.add 10 0 0), .common (.add 10 1 1), .addCycles 10 [[.common (.cancel 1)]],
      .common (.cancel 1)]) .deadHandle = true := by
  decide

/-- 65 R580, D20: a nested `AddCycles`. -/
theorem test_nested_addCycles :
    stops (withActs (before 0xE1A00000 0xD3 { }) [.common (.add 1 0 0), .addCycles 1 [[.addCycles 1]]] [])
      .nestedAddCycles = true := by
  decide

/-! ## Witnesses: for every statement with hypotheses, a state and operands that meet them -/

/-- The state after reset with the mode of `c` (flags, T and mode as `c` has them) and the wire masked. -/
def withStatus (c : Word) : State := { State.reset with cpsr := c }

/-- The state after reset inside the bank-conflict window. -/
def inWindow : State := { State.reset with bankConflict := true }

theorem witness_ResetLeavesTheStartState :
    cfgValid State.reset.world.cfg = true ∧ State.reset.world.inside = [] := by decide

theorem witness_StepKeepsTheInvariant : State.reset.Inv ∧ ∃ t, step State.reset = .next t :=
  ⟨by unfold State.Inv; decide, _, rfl⟩

theorem witness_ArmDecodeOfEncodeIsTheInstruction :
    isArmInstr (.reservedHalfStore .nv 0x1CFFFFF) = true ∧
    (Instr.reservedHalfStore .nv 0x1CFFFFF).WellFormed = true := by decide

theorem witness_ThumbDecodeOfEncodeIsTheInstruction :
    isArmInstr (.tBcond .le 0xFF) = false ∧ (Instr.tBcond .le 0xFF).WellFormed = true := by decide

/-- The state after reset as its first step finds it. -/
def entry : State := { State.reset with world := { State.reset.world with bus := [] } }

/-- The same where the environment tries an act inside the first bus call of the step. -/
def entryWith (a : InsideAct) : State := { entry with world := { entry.world with inside := [[a]] } }

theorem environment_entry : State.reset.environment = .next entry := rfl

theorem environment_entryWith (a : InsideAct) : (entryWith a).environment = .next (entryWith a) := rfl

/-- A quiet fetch, a fetch that records a fault, and one that records a refusal. -/
theorem witness_StepRunsTheDecodedInstruction :
    (entry.started = true ∧ entry.world.halted = false ∧ entry.modeOk = true ∧
      (entry.world.irqLine && !entry.irqMaskLatch) = false ∧ entry.prepare.world.stop = none) ∧
    entry.slot0 = Memory.read entry.world.mem (opSize entry.thumb) (execAddr entry) ∧
    decodeBytes false [0, 0, 0, 0] = .ok (.and .eq false 0 0 (.shiftImm 0 .lsl 0), []) ∧
    ({ entryWith (.common (.add 0 0 0)) with world := { (entryWith (.common (.add 0 0 0))).world with
        cfg := { Config.recommended with schedCapacity := 1 } } } : State).prepare.world.stop =
      some (.fault .schedulerCapacity) ∧
    (entryWith .reset).prepare.world.stop = some (.refused .resetInsideCall) :=
  ⟨by decide, by decide, rfl, by decide, by decide⟩

theorem witness_HaltedStepOnlyIdles :
    (∃ e, (driven State.reset false true).environment = .next e ∧ e.started = true ∧ e.world.halted = true ∧
      (e.world.play [.idle]).stop = none) ∧
    ((driven (entryWith .run) false true).world.play [.idle]).stop = some (.refused .runInsideCall) :=
  ⟨⟨_, rfl, by decide⟩, by decide⟩

theorem witness_StepTakesTheInterrupt :
    (∃ e, (driven { withStatus 0x1F with irqMaskLatch := false } true false).environment = .next e ∧
      e.started = true ∧ e.world.halted = false ∧ e.modeOk = true ∧ e.world.irqLine = true ∧
      e.irqMaskLatch = false ∧ e.bankConflict = false ∧
      (e.world.play [fetch0 false 0x00000018#32, fetch1 false 0x00000018#32]).stop = none) ∧
    (∃ e, (driven { inWindow with irqMaskLatch := false } true false).environment = .next e ∧
      e.started = true ∧ e.world.halted = false ∧ e.modeOk = true ∧ e.world.irqLine = true ∧
      e.irqMaskLatch = false ∧ e.bankConflict = true) :=
  ⟨⟨_, rfl, by decide⟩, ⟨_, rfl, by decide⟩⟩

theorem witness_LatchHoldsTheMaskOfTheStepEntry :
    entry.world.halted = false ∧ (entry.world.irqLine && !entry.irqMaskLatch) = false ∧
      ∃ t, step State.reset = .next t := ⟨rfl, by decide, _, rfl⟩

theorem witness_FailedConditionDoesOnlyNext :
    (instrCond (.swi .eq 0) = some .eq ∧ State.reset.passes .eq = false) ∧
    (instrCond (.reservedMul .nv 0x400090) = some .nv ∧ inWindow.passes .nv = false) ∧
    (entry.started = true ∧ entry.world.halted = false ∧ entry.modeOk = true ∧
      (entry.world.irqLine && !entry.irqMaskLatch) = false ∧ entry.thumb = false ∧
      instrCond (decodeArm entry.slot0) = some .eq ∧ entry.passes .eq = false ∧ entry.prepare.world.stop = none) := by
  decide

/-- An instruction in User mode, and a step of each kind: SWI at the execution address, and the IRQ. -/
theorem witness_UserModeIsLeftOnlyByAnException :
    modeField (withStatus 0x10).cpsr = Mode.usr.bits ∧ (∃ t, exec (.swi .al 0) (withStatus 0x10) = .next t) ∧
    (∃ t, exec (.msrImm .al false 9 0 0xD3) (withStatus 0x10) = .next t) ∧
    (∃ e t, (before 0xEF000000 0x10 { }).environment = .next e ∧ modeField e.cpsr = Mode.usr.bits ∧
      step (before 0xEF000000 0x10 { }) = .next t) ∧
    (∃ e t, (driven (before 0xE1A00000 0x10 { }) true false).environment = .next e ∧
      modeField e.cpsr = Mode.usr.bits ∧ step (driven (before 0xE1A00000 0x10 { }) true false) = .next t) :=
  ⟨by decide, ⟨_, rfl⟩, ⟨_, rfl⟩, ⟨_, _, rfl, by decide, rfl⟩, ⟨_, _, rfl, by decide, rfl⟩⟩

theorem witness_OnlyListedInstructionsChangeFlagsOrT :
    (∃ t, exec (.msrImm .al false 7 0 0x1F) State.reset = .next t ∧
      mayWriteFlags (.msrImm .al false 7 0 0x1F) = false) ∧
    (∃ t, exec (.bx .al 1) (State.reset.set 1 1) = .next t ∧ t.thumb ≠ State.reset.thumb) :=
  ⟨⟨_, rfl, rfl⟩, ⟨_, rfl, by decide⟩⟩

/-- Each clause: Supervisor mode with the flag set meets all of them. -/
theorem witness_BankConflictRefusesBankedRegisters :
    (inWindow.bankConflict = true ∧ inWindow.passes .al = true ∧ inWindow.world.cfg.swiIntercept = false ∧
      inWindow.bank ≠ .shared) ∧
    (∃ r ∈ instrRegs (.mov .al false 8 (.imm 0 0)), isBanked r = true) ∧
    (∃ r ∈ instrRegs (.bl .al 0), isBanked r = true) ∧ ((0 : Reg) ≠ regPc) ∧
    (MsrForm inWindow true 9 (.msrReg .al true 9 7) (inWindow.get 7) ∧
      msrKeepsReserved inWindow true 9 (inWindow.get 7)) ∧
    (MsrForm inWindow false 1 (.msrImm .al false 1 0 0xD1) ((0xD1#8).setWidth 32 |>.rotateRight 0) ∧
      msrKeepsReserved inWindow false 1 0xD1 ∧ msrWrites inWindow false 1 0 = true ∧
      (0xD1#32).getLsbD 5 = inWindow.thumb ∧ Mode.ofBits (modeField 0xD1#32) = some .fiq ∧
      Mode.fiq.bank ≠ inWindow.bank) ∧
    op2ShiftByPc (.shiftReg 14 .lsl 15) = false ∧
    (∃ op ∈ arithmeticOps ++ logicalOps,
      (∃ r ∈ instrRegs (op.instr .al true 0 regPc (.shiftReg 14 .lsl 15)), isBanked r = true) ∧
      (∀ r ∈ instrRegs (op.instr .al true 7 regPc (.shiftReg 0 .lsl 15)), isBanked r = false)) ∧
    ((∃ r ∈ (13 : Reg) :: regList 0x8001, isBanked r = true) ∧
      (∀ r ∈ (7 : Reg) :: regList 0x8001, isBanked r = false)) ∧
    ((0x8001#16).getLsbD 15 = true ∧ (0x7FFF#16).getLsbD 15 = false ∧ (0x8001#16).getLsbD (1 : Reg).val = false ∧
      (0x8001#16) ≠ 0) ∧
    (∃ t, exec (.ldm .al .ia true false 0 1) State.reset = .next t ∧ t.bankConflict = true) :=
  ⟨by decide, ⟨8, by decide, by decide⟩, ⟨14, by decide, by decide⟩, by decide,
    ⟨.reg .al 7 (by decide) (.inr (by decide)) (by decide), by unfold msrKeepsReserved; decide⟩,
    ⟨.imm .al 0 0xD1 (by decide), by unfold msrKeepsReserved; decide, by decide⟩, rfl,
    ⟨_, List.mem_cons_self, ⟨14, by decide, by decide⟩, by decide⟩, ⟨⟨13, by decide, by decide⟩, by decide⟩, by decide,
    ⟨_, rfl, by decide⟩⟩

theorem witness_PipelineStaysCoherent :
    State.reset.Coherent ∧ State.reset.world.noPokes = true ∧
    ∃ t, run State.reset = .next t ∧ KeepsMemory State.reset t :=
  ⟨⟨by decide, by decide⟩, by decide, _, rfl, fun _ _ => rfl⟩

theorem witness_ModesBanksAndSavedStatus :
    Mode.usr.bank = Mode.usr.bank ∧ Mode.irq.bank ≠ .shared ∧ (withStatus 0x1F).bank = .shared ∧
    State.reset.bankConflict = false ∧ inWindow.bankConflict = true := by decide

theorem witness_SwitchModeExchangesBanks :
    (Mode.ofBits 0x11 = some .fiq ∧ State.reset.bankConflict = false) ∧ Mode.ofBits 0x00 = none ∧
    Mode.ofBits 0x1E = none ∧
    (State.reset.mode = .svc ∧ (Mode.ofBits (modeField State.reset.cpsr)).isSome = true) := by decide

theorem witness_ConditionTable : State.reset.flags = ⟨false, false, false, false⟩ := by decide

theorem witness_ShifterResultsAndCarries : (1 : BitVec 5) ≠ 0 ∧ (31 : BitVec 5) ≠ 0 ∧ 31 < 32 := by decide

theorem witness_MemoryReadsAndWrites :
    (0xFFFFFFFF#32).getLsbD 0 = true ∧ (0xFFFFFFFE#32).getLsbD 0 = false := by decide

/-- The data-processing statements, with r15 as an operand and inside the bank-conflict window. -/
theorem witness_DataProcessingWritesItsResult :
    (∃ op ∈ arithmeticOps ++ logicalOps, State.reset.passes .al = true ∧
      State.reset.MayTouch (instrRegs (op.instr .al true 15 14 (.shiftReg 1 .ror 15)))) ∧
    (∃ op ∈ arithmeticOps ++ logicalOps, inWindow.MayTouch (instrRegs (op.instr .al true 15 7 (.imm 15 255)))) ∧
    op2ShiftByPc (.shiftReg 1 .ror 15) = false ∧ (14 : Reg) ≠ regPc :=
  ⟨⟨_, List.mem_cons_self, by decide, .inl rfl⟩, ⟨_, List.mem_cons_self, .inr (by decide)⟩, rfl, by decide⟩

theorem witness_ComparisonsWriteOnlyFlags :
    State.reset.passes .al = true ∧ State.reset.MayTouch (14 :: op2Regs (.shiftImm 0 .ror 13)) ∧
    op2ShiftByPc (.shiftImm 0 .ror 13) = false ∧ (0 : Reg) ≠ regPc :=
  ⟨by decide, .inl rfl, rfl, by decide⟩

theorem witness_DataProcessingToR15Branches :
    ∃ op ∈ arithmeticOps ++ logicalOps, State.reset.passes .al = true ∧
      State.reset.MayTouch (instrRegs (op.instr .al false 14 regPc (.imm 0 4))) ∧ op2ShiftByPc (.imm 0 4) = false :=
  ⟨_, List.mem_cons_self, by decide, .inl rfl, rfl⟩

theorem witness_DataProcessingReturnsFromException :
    State.reset.passes .al = true ∧ State.reset.bankConflict = false ∧ State.reset.bank ≠ .shared ∧
    Mode.ofBits (modeField ((State.reset.setSpsr .svc 0x30).spsrOf .svc)) = some .usr ∧
    Mode.ofBits (modeField (State.reset.spsrOf State.reset.bank)) = none ∧ (withStatus 0x10).bank = .shared := by
  decide

theorem witness_MrsReadsStatus :
    State.reset.passes .al = true ∧ State.reset.MayTouch [14] ∧ inWindow.MayTouch [15] ∧ (14 : Reg) ≠ regPc ∧
    State.reset.bankConflict = false ∧ inWindow.MayTouch [7] ∧ inWindow.bankConflict = true ∧ (7 : Reg) ≠ regPc :=
  ⟨by decide, .inl rfl, .inr (by decide), by decide, rfl, .inr (by decide), rfl, by decide⟩

/-- To CPSR with the mode written, and in User mode, where it is not; to SPSR. -/
theorem witness_MsrWritesItsStatusRegister :
    (MsrForm State.reset false 9 (.msrImm .al false 9 0 0x1F) ((0x1F#8).setWidth 32 |>.rotateRight 0) ∧
      msrKeepsReserved State.reset false 9 0x1F ∧ msrWrites State.reset false 9 0 = true ∧
      (0x1F#32).getLsbD 5 = State.reset.thumb ∧ State.reset.bankConflict = false ∧
      (Mode.ofBits (modeField 0x1F#32)).isSome = true) ∧
    (MsrForm (withStatus 0x10) false 9 (.msrReg .al false 9 0) ((withStatus 0x10).get 0) ∧
      msrKeepsReserved (withStatus 0x10) false 9 0xF00000F3 ∧ msrWrites (withStatus 0x10) false 9 0 = false) ∧
    MsrForm State.reset true 9 (.msrReg .al true 9 14) (State.reset.get 14) ∧
    msrKeepsReserved State.reset true 9 (State.reset.get 14) ∧ State.reset.bank ≠ .shared ∧
    State.reset.bankConflict = false :=
  ⟨⟨.imm .al 0 0x1F (by decide), by unfold msrKeepsReserved; decide, by decide⟩,
    ⟨.reg .al 0 (by decide) (.inl rfl) (by decide), by unfold msrKeepsReserved; decide, by decide⟩,
    .reg .al 14 (by decide) (.inl rfl) (by decide), by unfold msrKeepsReserved; decide, by decide, rfl⟩

theorem witness_MsrStops :
    (MsrForm State.reset false 4 (.msrImm .al false 4 8 1) ((1#8).setWidth 32 |>.rotateRight 16) ∧
      ¬msrKeepsReserved State.reset false 4 0x00010000) ∧
    (MsrForm (withStatus 0x1F) true 9 (.msrImm .al true 9 0 0) ((0#8).setWidth 32 |>.rotateRight 0) ∧
      msrKeepsReserved (withStatus 0x1F) true 9 0 ∧ (withStatus 0x1F).bank = .shared) ∧
    (MsrForm State.reset false 1 (.msrImm .al false 1 0 0x33) ((0x33#8).setWidth 32 |>.rotateRight 0) ∧
      msrKeepsReserved State.reset false 1 0x33 ∧ msrWrites State.reset false 1 0 = true ∧
      (0x33#32).getLsbD 5 ≠ State.reset.thumb) ∧
    (msrKeepsReserved State.reset false 1 0x1E ∧ (0x1E#32).getLsbD 5 = State.reset.thumb ∧
      Mode.ofBits (modeField 0x1E#32) = none) :=
  ⟨⟨.imm .al 8 1 (by decide), by unfold msrKeepsReserved; decide⟩,
    ⟨.imm .al 0 0 (by decide), by unfold msrKeepsReserved; decide, by decide⟩,
    ⟨.imm .al 0 0x33 (by decide), by unfold msrKeepsReserved; decide, by decide⟩,
    by unfold msrKeepsReserved; decide⟩

theorem witness_MultipliesWriteTheLowWord :
    State.reset.passes .al = true ∧ State.reset.MayTouch [14, 13, 12] ∧ State.reset.MayTouch [14, 13, 12, 11] ∧
    (14 : Reg) ≠ regPc ∧ (12 : Reg) ≠ regPc ∧ (13 : Reg) ≠ regPc ∧ (11 : Reg) ≠ regPc ∧ (14 : Reg) ≠ 12 ∧
    (7 : LowReg) ≠ 6 :=
  ⟨by decide, .inl rfl, .inl rfl, by decide⟩

theorem witness_LongMultipliesWriteBothWords :
    State.reset.passes .al = true ∧ State.reset.MayTouch [14, 13, 12, 12] ∧ (14 : Reg) ≠ regPc ∧
    (13 : Reg) ≠ regPc ∧ (12 : Reg) ≠ regPc ∧ (14 : Reg) ≠ 13 ∧ (14 : Reg) ≠ 12 ∧ (13 : Reg) ≠ 12 :=
  ⟨by decide, .inl rfl, by decide⟩

/-- Write-back to r14 with a register offset; r15 as base; the window. -/
theorem witness_LoadsWriteTheirRegister :
    State.reset.passes .al = true ∧ State.reset.MayTouch (14 :: 13 :: offsetRegs (.reg 0 .ror 12)) ∧
    inWindow.MayTouch (15 :: 7 :: halfOffsetRegs (.imm 255)) ∧
    TransferAllowed .post 14 13 (offsetByPc (.reg 0 .ror 12)) ∧
    TransferAllowed .offset 15 7 (halfOffsetByPc (.imm 255)) ∧ (13 : Reg) ≠ regPc ∧ (7 : Reg) ≠ regPc :=
  ⟨by decide, .inl rfl, .inr (by decide), ⟨fun _ => by decide, rfl⟩, ⟨by decide, rfl⟩, by decide⟩

theorem witness_LoadsToR15Branch :
    State.reset.passes .al = true ∧ State.reset.MayTouch (14 :: offsetRegs (.imm 4095)) ∧
    TransferAllowed .post 14 regPc (offsetByPc (.imm 4095)) ∧
    TransferAllowed .offset 15 regPc (offsetByPc (.imm 4095)) :=
  ⟨by decide, .inl rfl, ⟨fun _ => by decide, rfl⟩, ⟨by decide, rfl⟩⟩

/-- r15 stored, with write-back to r14; r15 as base and stored. -/
theorem witness_StoresWriteTheirBytes :
    State.reset.passes .al = true ∧ State.reset.MayTouch (14 :: 15 :: offsetRegs (.reg 0 .ror 12)) ∧
    TransferAllowed .post 14 15 (offsetByPc (.reg 0 .ror 12)) ∧ TransferAllowed .offset 15 15 (offsetByPc (.imm 0)) ∧
    inWindow.MayTouch (0 :: 7 :: halfOffsetRegs (.reg 7)) ∧ TransferAllowed .pre 0 7 (halfOffsetByPc (.reg 7)) ∧
    (7 : Reg) ≠ regPc :=
  ⟨by decide, .inl rfl, ⟨fun _ => by decide, rfl⟩, ⟨by decide, rfl⟩, .inr (by decide), ⟨fun _ => by decide, rfl⟩,
    by decide⟩

/-- The longest list without r15, written back and not. -/
theorem witness_BlockLoadFillsItsList :
    State.reset.passes .al = true ∧ State.reset.MayTouch (14 :: regList 0x3FFF) ∧
    inWindow.MayTouch (0 :: regList 0x00FF) ∧ (14 : Reg) ≠ regPc ∧ (0x3FFF#16) ≠ 0 ∧ (0x00FF#16) ≠ 0 ∧
    (0x3FFF#16).getLsbD 15 = false ∧ (0x3FFF#16).getLsbD (14 : Reg).val = false :=
  ⟨by decide, .inl rfl, .inr (by decide), by decide⟩

theorem witness_BlockLoadOfR15BranchesOrReturns :
    (State.reset.passes .al = true ∧ State.reset.MayTouch (13 :: regList 0x8000) ∧ (13 : Reg) ≠ regPc ∧
      (0x8000#16).getLsbD 15 = true ∧ (0x8000#16).getLsbD (13 : Reg).val = false) ∧
    (State.reset.bank ≠ .shared ∧ State.reset.bankConflict = false ∧
      (Mode.ofBits (modeField ((State.reset.setSpsr .svc 0x10).spsrOf .svc))).isSome = true ∧
      Mode.ofBits (modeField (State.reset.spsrOf State.reset.bank)) = none) :=
  ⟨⟨by decide, .inl rfl, by decide⟩, by decide⟩

theorem witness_BlockStoreWritesItsList :
    State.reset.passes .al = true ∧ State.reset.MayTouch (13 :: regList 0xE000) ∧ (13 : Reg) ≠ regPc ∧
    (0xE000#16) ≠ 0 ∧ (0xE000#16).getLsbD (13 : Reg).val = true ∧ nthReg (regList 0xE000) 0 = 13 :=
  ⟨by decide, .inl rfl, by decide⟩

theorem witness_UserBankTransfers :
    State.reset.passes .al = true ∧ (14 : Reg) ≠ regPc ∧ (0x7FFF#16) ≠ 0 ∧ State.reset.bank ≠ .shared ∧
    State.reset.bankConflict = false ∧ (0x7FFF#16).getLsbD 15 = false := by decide

theorem witness_SwapExchangesRegisterAndMemory :
    State.reset.passes .al = true ∧ State.reset.MayTouch [14, 13, 13] ∧ (14 : Reg) ≠ regPc ∧ (13 : Reg) ≠ regPc ∧
    (14 : Reg) ≠ 13 :=
  ⟨by decide, .inl rfl, by decide⟩

theorem witness_DataOperandRefusals :
    (∃ op ∈ arithmeticOps ++ logicalOps, State.reset.passes .al = true ∧
      State.reset.MayTouch (instrRegs (op.instr .al true 14 regPc (.shiftReg regPc .lsl 13)))) ∧
    State.reset.MayTouch (14 :: op2Regs (.imm 0 0)) ∧ State.reset.MayTouch [15, 13, 12] ∧
    State.reset.MayTouch [14, 15, 13, 14] ∧ State.reset.MayTouch [14, 13, 12, 15] ∧ State.reset.MayTouch [14] ∧
    op2ShiftByPc (.imm 0 0) = false ∧ State.reset.MayTouch (14 :: op2Regs (.shiftReg regPc .ror 13)) :=
  ⟨⟨_, List.mem_cons_self, by decide, .inl rfl⟩, .inl rfl, .inl rfl, .inl rfl, .inl rfl, .inl rfl, rfl, .inl rfl⟩

theorem witness_TransferOperandRefusals :
    State.reset.passes .al = true ∧ ¬TransferAllowed .pre 15 0 (offsetByPc (.imm 0)) ∧
    ¬TransferAllowed .post 1 1 (offsetByPc (.imm 0)) ∧ ¬TransferAllowed .offset 0 1 (halfOffsetByPc (.reg 15)) ∧
    TransferAllowed .offset 0 regPc (offsetByPc (.imm 0)) ∧ TransferAllowed .post 0 regPc (offsetByPc (.reg 0 .ror 14)) ∧
    ¬TransferAllowed .post 1 1 (offsetByPc (.imm 4095)) ∧ State.reset.MayTouch (0 :: offsetRegs (.imm 0)) ∧
    ((withStatus 0x10).bank = .shared ∧ (0x0003#16).getLsbD (1 : Reg).val = true ∧ nthReg (regList 0x0003) 0 ≠ 1 ∧
      (0x0001#16).getLsbD 15 = false) ∧
    State.reset.MayTouch [14, 13, 14] ∧ State.reset.bankConflict = false ∧
    (0x03#8).getLsbD (1 : LowReg).val = true ∧ nthReg (lowList 0x03) 0 ≠ low 1 :=
  ⟨by decide, fun h => absurd (h.1 rfl).1 (by decide), fun h => absurd (h.1 rfl).2 (by decide),
    fun h => absurd h.2 (by decide), ⟨by decide, rfl⟩, ⟨fun _ => by decide, rfl⟩,
    fun h => absurd (h.1 rfl).2 (by decide), .inl rfl, by decide, .inl rfl, rfl, by decide⟩

theorem witness_BranchesOfThe32BitSet :
    State.reset.passes .al = true ∧ State.reset.bankConflict = false ∧ State.reset.MayTouch [15] ∧
    ((State.reset.set 0 3).get 0).getLsbD 0 = true ∧ (State.reset.get 0).getLsbD 1 = false ∧
    ((State.reset.set 0 2).get 0).getLsbD 0 = false ∧ ((State.reset.set 0 2).get 0).getLsbD 1 = true :=
  ⟨by decide, rfl, .inl rfl, by decide⟩

theorem witness_SoftwareExceptionsEnterOrCallTheHost :
    State.reset.bankConflict = false ∧ State.reset.passes .al = true ∧ State.reset.world.cfg.swiIntercept = false ∧
    ({ inWindow.world with cfg := { Config.recommended with swiIntercept := true } } : World).cfg.swiIntercept = true := by
  decide

theorem witness_ReservedEncodingsAreRefused : State.reset.passes .al = true ∧ inWindow.passes .al = true := by decide

theorem witness_ThumbComparisons : State.reset.MayTouch [14, 15] ∧ (14 : Reg) ≠ regPc := ⟨.inl rfl, by decide⟩

theorem witness_ThumbHighRegistersAndAddresses :
    State.reset.MayTouch [15, 14] ∧ inWindow.MayTouch [7, 15] ∧ (14 : Reg) ≠ regPc ∧
    State.reset.bankConflict = false := ⟨.inl rfl, .inr (by decide), by decide⟩

theorem witness_ThumbLoads : State.reset.bankConflict = false := by decide

theorem witness_ThumbStores : (withStatus 0x30).bankConflict = false := by decide

theorem witness_ThumbBlockTransfers :
    State.reset.bankConflict = false ∧ ((0x00#8) ≠ 0 ∨ true = true) ∧ ((0x80#8) ≠ 0 ∨ false = true) ∧
    (0x80#8).getLsbD (7 : LowReg).val = true ∧ nthReg (lowList 0x80) 0 = low 7 ∧
    ((0xFF#8) ≠ 0 ∨ false = true) ∧
    (0x7F#8).getLsbD (7 : LowReg).val = false := by decide

theorem witness_BranchesOfThe16BitSet :
    State.reset.passes .al = true ∧ State.reset.passes .eq = false ∧ State.reset.bankConflict = false ∧
    State.reset.MayTouch [15] ∧ ((State.reset.set 14 1).get 14).getLsbD 0 = true ∧
    ((State.reset.set 14 2).get 14).getLsbD 0 = false ∧ ((State.reset.set 14 2).get 14).getLsbD 1 = true :=
  ⟨by decide, by decide, rfl, .inl rfl, by decide⟩

/-- Two pending events, one of them due at once. -/
theorem witness_AddCyclesFiresDueEventsInOrder :
    Sched.wf { now := 5, pending := [⟨2, 8, 7, 2, 2⟩, ⟨1, 15, 0, 1, 1⟩], seq := 3 } = true := by decide

/-- Each clause of `Add` at the edge of its range, and `Cancel` of a live and of a dead handle. -/
theorem witness_SchedulerAddAndCancel :
    let cfg := Config.recommended
    let three : Sched := { now := 5, pending := [⟨2, 8, 7, 2, 2⟩, ⟨1, 15, 0, 1, 1⟩, ⟨0, 15, 1, 0, 0⟩], seq := 3 }
    let two : Sched := { now := 5, pending := [⟨1, 15, 0, 1, 1⟩, ⟨0, 15, 1, 0, 0⟩], seq := 3 }
    Sched.wf three = true ∧ Sched.wf two = true ∧ cfg.schedCapacity ≤ three.pending.length + 1 ∧
    two.pending.length + 1 < cfg.schedCapacity ∧ 4 ∉ cfg.classes ∧ 3 ∈ cfg.classes ∧ cfg.schedPrioMax < 8 ∧
    7 ≤ cfg.schedPrioMax ∧ (∃ e ∈ two.pending, e.handle = 1) ∧ (∀ e ∈ two.pending, e.handle ≠ 2) := by
  decide

/-- Nothing due by one cycle; the first of two due by key; the two events at the edge of the capacity. -/
theorem witness_SchedulerCallbacksAndQueries :
    let a : Event := ⟨1, 15, 0, 1, 1⟩
    let b : Event := ⟨0, 15, 1, 0, 0⟩
    let w : World := { entry.world with sched := { now := 5, pending := [a, b], seq := 3 } }
    Sched.wf w.sched = true ∧ (∀ e ∈ w.sched.pending, w.sched.now + 9 < e.timestamp) ∧
    (a.timestamp ≤ w.sched.now + 10 ∧ a ∈ w.sched.pending ∧ b ∈ w.sched.pending ∧ b ≠ a ∧
      ∀ d ∈ w.sched.pending, d ≠ a → a.before d = true) ∧
    ({ w with cfg := { Config.recommended with schedCapacity := 3 } } : World).sched.pending.length < 3 ∧
    a.cls ∈ w.cfg.classes ∧ a.priority ≤ w.cfg.schedPrioMax ∧ entry.world.sched.pending = [] ∧
    (∀ d ∈ w.sched.pending, a.timestamp ≤ d.timestamp) := by
  decide

/-- A call inside which an act goes on, one that faults and one that is refused. -/
theorem witness_BusCallsAndTheEnvironmentInside :
    entry.world.inside = [] ∧ entry.world.stop = none ∧ entry.world.noPokes = true ∧
    (entryWith (.common (.poke 4 5))).world.inside = [[.common (.poke 4 5)]] ∧
    (∃ v, World.insideActs [.common (.poke 4 5)] entry.world = .next v) ∧
    World.insideActs [.common (.add 0 0 0)]
      { entry.world with cfg := { Config.recommended with schedCapacity := 1 } } = .fault .schedulerCapacity ∧
    World.insideActs [.common (.cancel 0)] entry.world = .refused .deadHandle ∧
    (InsideAct.reset, Refusal.resetInsideCall) ∈ forbiddenInside ∧
    ({ entry.world with stop := some (.fault .schedulerCapacity) } : World).stop = some (.fault .schedulerCapacity) :=
  ⟨rfl, rfl, by decide, rfl, ⟨_, rfl⟩, rfl, rfl, by decide, rfl⟩

theorem witness_TheEnvironmentOwnsNoCpuState :
    (∃ e, ({ State.reset with started := false }).environment = .next e ∧ e.started = false) ∧
    (∃ t, entry.applyEnvAct (.common (.setIrq true)) = .next t) ∧
    (∃ w, entry.world.addCycles 1 [] = .next w) ∧ (∃ t, entry.applyEnvAct .reset = .next t) ∧
    (entry.snapshot.valid = true ∧ ({ entry.snapshot with cpsr := 0 }).valid = false) ∧
    (∃ t, entry.applyEnvAct (.restore entry.snapshot) = .next t) ∧ State.reset.Inv ∧
    (∃ t, exec (.mov .al false 0 (.imm 0 1)) State.reset = .next t) ∧
    ((entryWith .run).started = true ∧ (entryWith .run).modeOk = true ∧ (entryWith .run).bankConflict = false ∧
      (entryWith .run).world.stop = none ∧ (InsideAct.run, Refusal.runInsideCall) ∈ forbiddenInside ∧
      (entryWith .run).world.inside = [[.run]]) :=
  ⟨⟨_, rfl, rfl⟩, ⟨_, rfl⟩, ⟨_, rfl⟩, ⟨_, rfl⟩, by decide, ⟨_, rfl⟩, by unfold State.Inv; decide, ⟨_, rfl⟩, by decide⟩

end Sys2Proof.Tests
end

section
/-! The ends of an instruction as frames, and what every instruction keeps (spec/10 R28 to R32, R41, 40 R165, R166):
each rule is a case analysis over `exec_ends`. -/

namespace Sys2Proof.Machine

open Sys2Proof

/-! ## The ends of an instruction that have a rule of their own, as frames -/

/-- A load of the User bank that went on, as the frame of 45 R355. -/
theorem ldmUser_frame {m : BlockMode} {rn : Reg} {list : BitVec 16} {s t : State} (hb : s.bank ≠ .shared)
    (h15 : list.getLsbD 15 = false) (h : ldmUser m rn (regList list) s = .next t) :
    ∃ calls, UserBank (regList list) calls true s t := by
  obtain ⟨_, ht⟩ := ldmUser_eq h
  rw [ht]
  have hpc : regPc ∉ regList list := by rw [mem_regList]; simpa using h15
  exact ⟨_, (userBank_of hb true (by simp [ldmReads]) (by simp; rfl) (by simp [ldmReads]) (by simp [ldmReads])
    (fun r hr => ldmReads_get_other (by simpa using hr)) hpc (by simp [ldmReads])).1⟩

/-- A store of the User bank that went on, as the frame of 45 R355. -/
theorem stmUser_frame {m : BlockMode} {rn : Reg} {regs : List Reg} {s t : State} (hb : s.bank ≠ .shared)
    (h : stmUser m rn regs s = .next t) : ∃ calls, UserBank [] calls false s t := by
  obtain ⟨_, ht⟩ := stmUser_eq h
  rw [ht]
  obtain ⟨x, cs, hw⟩ := storeRegs_eq (blockWb false m rn s regs) regs true (blockStart m (s.get rn) regs)
    ((s.setFetchKind .n).switchTo .usr)
  exact ⟨cs, (userBank_of hb false (by simp [stmWrites]) (by simp [stmWrites, hw]) (by simp [stmWrites])
    (by simp [stmWrites]) (fun r _ => stmWrites_get_other (by simp)) (by simp) (by simp [stmWrites])).1⟩

/-- The instruction ended with `next` in the set that `thumb` names (40 R165): r15 has moved by one width, the slots
and T stay. -/
structure Advances (thumb : Bool) (s t : State) : Prop where
  pc : t.get regPc = s.get regPc + opWidth thumb
  slots : t.slot0 = s.slot0 ∧ t.slot1 = s.slot1
  set : t.thumb = s.thumb

theorem advances_next {s u : State} (thumb : Bool) (pc : u.get regPc = s.get regPc)
    (slots : u.slot0 = s.slot0 ∧ u.slot1 = s.slot1) (set : u.thumb = s.thumb) : Advances thumb s (u.next thumb) :=
  ⟨by rw [State.get_next, if_pos rfl, pc], slots, set⟩

theorem UserBank.advances {loaded : List Reg} {calls : List BusCall} {cf : Bool} {s t : State}
    (h : UserBank loaded calls cf s t) : Advances false s t :=
  ⟨h.pc, h.slots, by rw [State.thumb, h.cpsr]; rfl⟩

/-- What an MSR to CPSR leaves beside CPSR and the registers its mode shows (43 R284). -/
structure MsrCpsrFrame (s t : State) : Prop extends Advances false s t where
  spsr : t.spsr = s.spsr
  world : t.world = s.world
  own : t.invalidMode = s.invalidMode ∧ t.started = s.started

/-- MSR to CPSR never changes T (43 R284). -/
theorem msrCpsr_thumb {s t : State} {mask : BitVec 4} {op : Word}
    (h : msrCpsr (msrMask s false mask) op s = .next t) : t.thumb = s.thumb := by
  obtain ⟨hT, _⟩ := msrCpsr_eq h
  rw [getLsbD_msrMask _ _ _ _ (by omega)] at hT
  rw [State.thumb, msrCpsr_bit h 5 (by omega)]
  split
  · next hw => simpa [hw] using hT
  · rfl

theorem msrCpsr_frame {s t : State} {mask : BitVec 4} {op : Word}
    (h : msrCpsr (msrMask s false mask) op s = .next t) : MsrCpsrFrame s t := by
  have hT := msrCpsr_thumb h
  obtain ⟨_, u, rfl, ⟨_, rfl⟩ | ⟨_, m, _, rfl, _⟩⟩ := msrCpsr_eq h
  · exact ⟨⟨by simp [State.get_next], by simp, hT⟩, by simp, by simp, by simp⟩
  · exact ⟨⟨by simp [State.get_next, State.switchTo_get], by simp, hT⟩, by simp, by simp, by simp⟩

/-- MSR to CPSR leaves a recognised mode recognised (10 R38, 43 R284). -/
theorem msrCpsr_mode {s t : State} {mask : BitVec 4} {op : Word}
    (h : msrCpsr (msrMask s false mask) op s = .next t) (hs : (Mode.ofBits (modeField s.cpsr)).isSome = true) :
    (Mode.ofBits (modeField t.cpsr)).isSome = true := by
  have hbits : modeField t.cpsr = if msrWrites s false mask 0 then modeField op else modeField s.cpsr := by
    apply BitVec.eq_of_getLsbD_eq
    intro k hk
    rw [getLsbD_modeField _ _ hk, msrCpsr_bit h k (by omega), msrWrites_byte _ _ _ _ (by omega)]
    split <;> rw [getLsbD_modeField _ _ hk]
  have hlow := msrMask_low s false mask
  obtain ⟨_, u, _, ⟨hm, _⟩ | ⟨hm, m, ho, _⟩⟩ := msrCpsr_eq h
  · have hw : msrWrites s false mask 0 = false := by rw [← hlow, hm]; rfl
    rw [hbits, hw]
    exact hs
  · have hw : msrWrites s false mask 0 = true := by rw [← hlow]; simpa using hm
    rw [hbits, hw, if_pos rfl, ho]
    rfl

/-! ## What every instruction keeps -/

/-- The two modes that an exception instruction enters have a bank of their own (60 R527, R528). -/
theorem bank_of_exception {m : Mode} {v a b : Word} (ok : (m = .svc ∧ v = a) ∨ (m = .und ∧ v = b)) :
    m.bank ≠ .shared := by
  obtain ⟨rfl, _⟩ | ⟨rfl, _⟩ := ok <;> decide

/-- No instruction enters the degraded state (10 R38) or starts the block. -/
theorem exec_own {i : Instr} {s t : State} (h : exec i s = .next t) :
    t.invalidMode = s.invalidMode ∧ t.started = s.started := by
  cases exec_ends h with
  | next u hl => exact hl.own
  | callHost | bx => exact ⟨rfl, rfl⟩
  | branch u a hl => exact hl.own
  | exception m v l _ _ ok => exact (enter_enters s m v l (bank_of_exception ok)).1.own
  | exit u _ a hl _ _ ok =>
    obtain ⟨m, _, _, _, rfl⟩ := exceptionReturn_eq ok
    simpa using hl.own
  | msrCpsr _ _ _ _ _ _ _ _ ok => exact (msrCpsr_frame ok).own
  | msrSpsr _ _ _ _ _ ok =>
    obtain ⟨_, _, rfl⟩ := msrSpsr_eq ok
    simp
  | ldmUser _ _ _ _ _ _ h15 hb _ ok =>
    obtain ⟨calls, hu⟩ := ldmUser_frame hb h15 ok
    exact hu.own
  | stmUser _ _ _ _ _ _ _ hb ok =>
    obtain ⟨calls, hu⟩ := stmUser_frame hb ok
    exact hu.own

/-- Of the world an instruction changes what its bus calls, or a callback of the host, and the environment inside them
change (20 R70, 60 R540). -/
theorem exec_world {i : Instr} {s t : State} (h : exec i s = .next t) :
    (∃ calls, t.world = s.world.play calls) ∨ ∃ note, t.world = s.world.callHost note := by
  cases exec_ends h with
  | next u hl => exact .inl hl.world
  | callHost m => exact .inr ⟨m, rfl⟩
  | branch u a hl =>
    obtain ⟨calls, hw⟩ := hl.world
    exact .inl ⟨_, (reloaded_branchTo s u a calls hw).world⟩
  | bx a => exact .inl ⟨_, State.branchTo_world (s.setCpsr _) a⟩
  | exception m v l _ _ ok => exact .inl ⟨_, (enter_enters s m v l (bank_of_exception ok)).1.reload.world⟩
  | exit u _ a hl _ _ ok =>
    obtain ⟨m, _, _, _, rfl⟩ := exceptionReturn_eq ok
    obtain ⟨calls, hw⟩ := hl.world
    exact .inl ⟨_, (reloaded_branchTo s _ a calls (by simpa using hw)).world⟩
  | msrCpsr _ _ _ _ _ _ _ _ ok => exact .inl ⟨[], (msrCpsr_frame ok).world⟩
  | msrSpsr _ _ _ _ _ ok =>
    obtain ⟨_, _, rfl⟩ := msrSpsr_eq ok
    exact .inl ⟨[], by simp⟩
  | ldmUser _ _ _ _ _ _ h15 hb _ ok =>
    obtain ⟨calls, hu⟩ := ldmUser_frame hb h15 ok
    exact .inl ⟨calls, hu.world⟩
  | stmUser _ _ _ _ _ _ _ hb ok =>
    obtain ⟨calls, hu⟩ := stmUser_frame hb ok
    exact .inl ⟨calls, hu.world⟩

/-- Every instruction ends with `next` in its own set or with a reload; a change of T is one of the listed
instructions and comes with the reload (10 R30, 40 R165, R166). -/
theorem exec_advances_or_reloads {i : Instr} {s t : State} (h : exec i s = .next t) :
    Advances (!isArmInstr i) s t ∨
      ((t.thumb ≠ s.thumb → mayChangeSet i = true) ∧ ∃ target calls, Reloaded t.thumb target calls s t) := by
  cases exec_ends h with
  | next u hl pc => exact .inl (advances_next _ pc hl.slots hl.thumb)
  | callHost m =>
    exact .inl (advances_next (u := { s with world := s.world.callHost m }) _ rfl ⟨rfl, rfl⟩ rfl)
  | branch u a hl =>
    obtain ⟨calls, hw⟩ := hl.world
    exact .inr ⟨fun hT => absurd hl.thumb hT, a, calls, reloaded_branchTo s u a calls hw⟩
  | bx a hset => exact .inr ⟨fun _ => hset, a, [], reloaded_branchTo s (s.setCpsr _) a [] rfl⟩
  | exception m v l hset _ ok =>
    have hr := (enter_enters s m v l (bank_of_exception ok)).1.reload
    exact .inr ⟨fun _ => hset, v, [], hr.set ▸ hr⟩
  | exit u _ a hl hset _ ok =>
    obtain ⟨m, _, _, _, rfl⟩ := exceptionReturn_eq ok
    obtain ⟨calls, hw⟩ := hl.world
    exact .inr ⟨fun _ => hset, a, calls, reloaded_branchTo s ((u.switchTo m).setCpsr _) a calls (by simpa using hw)⟩
  | msrCpsr _ _ _ _ _ ha _ _ ok =>
    rw [ha]
    exact .inl (msrCpsr_frame ok).toAdvances
  | msrSpsr _ _ _ ha _ ok =>
    obtain ⟨_, _, rfl⟩ := msrSpsr_eq ok
    rw [ha]
    exact .inl (advances_next _ (by simp) (by simp) (by simp))
  | ldmUser _ _ _ _ _ hi h15 hb _ ok =>
    subst hi
    obtain ⟨calls, hu⟩ := ldmUser_frame hb h15 ok
    exact .inl hu.advances
  | stmUser _ _ _ _ _ _ hi hb ok =>
    subst hi
    obtain ⟨calls, hu⟩ := stmUser_frame hb ok
    exact .inl hu.advances

/-- An instruction outside the list of 10 R28 leaves the four flags. -/
theorem exec_flags {i : Instr} {s t : State} (h : exec i s = .next t) (hf : mayWriteFlags i = false) :
    t.flags = s.flags := by
  cases exec_ends h with
  | next u hl => exact hl.flags hf
  | callHost => rfl
  | branch u a hl => exact hl.flags hf
  | bx a => exact flagsOf_setBit _ _ _ (by omega)
  | exception m v l _ _ ok =>
    have hbits := (enter_enters s m v l (bank_of_exception ok)).1.status
    exact flagsOf_congr fun k h28 h32 => hbits k h32 (by omega) (by omega)
  | exit u _ a _ _ hw _ => exact absurd hw (by simp [hf])
  | msrCpsr _ p mask _ _ _ _ hw ok =>
    have h3 : mask.getLsbD 3 = false := by
      by_contra hm
      exact absurd (hw (by simpa using hm)) (by simp [hf])
    refine flagsOf_congr fun k h28 h32 => ?_
    rw [msrCpsr_bit ok k h32, msrWrites, show k / 8 = 3 by omega, h3]
    rfl
  | msrSpsr _ _ _ _ _ ok =>
    obtain ⟨_, _, rfl⟩ := msrSpsr_eq ok
    simp
  | ldmUser _ _ _ _ _ _ h15 hb _ ok =>
    obtain ⟨calls, hu⟩ := ldmUser_frame hb h15 ok
    exact congrArg flagsOf hu.cpsr
  | stmUser _ _ _ _ _ _ _ hb ok =>
    obtain ⟨calls, hu⟩ := stmUser_frame hb ok
    exact congrArg flagsOf hu.cpsr

theorem Local.modeField {i : Instr} {s u : State} (h : Local i s u) : modeField u.cpsr = modeField s.cpsr := by
  obtain hc | ⟨_, f, hc⟩ := h.status
  · rw [hc]
  · rw [hc, modeField_withFlags]

/-- Every instruction leaves a recognised mode recognised (10 R31). -/
theorem exec_mode {i : Instr} {s t : State} (h : exec i s = .next t)
    (hs : (Mode.ofBits (modeField s.cpsr)).isSome = true) : (Mode.ofBits (modeField t.cpsr)).isSome = true := by
  cases exec_ends h with
  | next u hl => rw [State.next_cpsr, hl.modeField]; exact hs
  | callHost => exact hs
  | branch u a hl => rw [State.branchTo_cpsr, hl.modeField]; exact hs
  | bx a => rw [State.branchTo_cpsr, State.setCpsr_cpsr, modeField_setBit _ _ _ (by omega)]; exact hs
  | exception m v l _ _ ok => simp [(enter_enters s m v l (bank_of_exception ok)).1.mode]
  | exit u _ a _ _ _ ok =>
    obtain ⟨m, hm, _, _, rfl⟩ := exceptionReturn_eq ok
    simp [hm]
  | msrCpsr _ _ _ _ _ _ _ _ ok => exact msrCpsr_mode ok hs
  | msrSpsr _ _ _ _ _ ok =>
    obtain ⟨_, _, rfl⟩ := msrSpsr_eq ok
    simpa using hs
  | ldmUser _ _ _ _ _ _ h15 hb _ ok =>
    obtain ⟨calls, hu⟩ := ldmUser_frame hb h15 ok
    rw [hu.cpsr]
    exact hs
  | stmUser _ _ _ _ _ _ _ hb ok =>
    obtain ⟨calls, hu⟩ := stmUser_frame hb ok
    rw [hu.cpsr]
    exact hs

theorem Local.reserved {i : Instr} {s u : State} (h : Local i s u) : u.reservedOk = s.reservedOk := by
  rw [State.reservedOk, State.reservedOk, h.banks.2.2, reserved_congr fun k hk _ => h.bit k hk]

theorem State.reservedOk_iff {s : State} :
    s.reservedOk = true ↔ reservedClear s.cpsr = true ∧ s.spsr.reservedClear = true := by
  rw [State.reservedOk, Bool.and_eq_true]

/-- Entry keeps the reserved bits 0: of bits 31:8 of CPSR it writes none, and it saves CPSR (60 R524). -/
theorem enter_reserved {s : State} {m : Mode} (v l : Word) (hm : m.bank ≠ .shared) (hs : s.reservedOk = true) :
    (s.enter m v l).reservedOk = true := by
  have hbits := (enter_enters s m v l hm).1.status
  rw [State.reservedOk_iff] at *
  obtain ⟨hc, hsp⟩ := hs
  constructor
  · rw [reserved_congr fun k hk h8 => hbits k (by omega) (by omega) (by omega), hc]
  · rw [enter_eq]
    exact setSpsr_reserved (s := s.switchTo m) (by simpa using hsp) hc

/-- MSR to CPSR keeps the reserved bits 0: it is refused where it would write a 1 to one (43 R284). -/
theorem msrCpsr_reserved {s t : State} {mask : BitVec 4} {op : Word} (keep : msrKeepsReserved s false mask op)
    (h : msrCpsr (msrMask s false mask) op s = .next t) (hs : s.reservedOk = true) : t.reservedOk = true := by
  rw [State.reservedOk_iff] at *
  obtain ⟨hc, hsp⟩ := hs
  refine ⟨?_, by rw [(msrCpsr_frame h).spsr, hsp]⟩
  rw [reserved_iff]
  intro k h28 h8
  rw [msrCpsr_bit h k (by omega)]
  split
  · next hw => exact keep k h8 h28 hw
  · exact reserved_iff.mp hc k h28 h8

/-- MSR to SPSR keeps the reserved bits 0 likewise (43 R284). -/
theorem msrSpsr_reserved {s t : State} {mask : BitVec 4} {op : Word} (keep : msrKeepsReserved s true mask op)
    (h : msrSpsr (msrMask s true mask) op s = .next t) (hs : s.reservedOk = true) : t.reservedOk = true := by
  obtain ⟨hb, _, rfl⟩ := msrSpsr_eq h
  rw [State.reservedOk_iff] at *
  obtain ⟨hc, hsp⟩ := hs
  refine ⟨by simpa using hc, setSpsr_reserved hsp ?_⟩
  rw [reserved_iff]
  intro k h28 h8
  rw [getLsbD_mergeMask _ _ _ _ (by omega), getLsbD_msrMask _ _ _ _ (by omega)]
  split
  · next hw => exact keep k h8 h28 hw
  · exact reserved_iff.mp (spsrOf_reserved hsp _ hb) k h28 h8

/-- Every instruction keeps the reserved bits of CPSR and of every SPSR 0 (10 R32). -/
theorem exec_reserved {i : Instr} {s t : State} (h : exec i s = .next t) (hs : s.reservedOk = true) :
    t.reservedOk = true := by
  cases exec_ends h with
  | next u hl => exact hl.reserved.trans hs
  | callHost => exact hs
  | branch u a hl => exact hl.reserved.trans hs
  | bx a =>
    rw [State.reservedOk_iff] at *
    refine ⟨?_, hs.2⟩
    rw [State.branchTo_cpsr, State.setCpsr_cpsr, ← hs.1]
    refine reserved_congr fun k h28 h8 => ?_
    rw [getLsbD_setBit _ _ _ _ (by omega), if_neg (by omega)]
  | exception m v l _ _ ok => exact enter_reserved v l (bank_of_exception ok) hs
  | exit u _ a hl _ _ ok =>
    obtain ⟨m, _, hb, _, rfl⟩ := exceptionReturn_eq ok
    have hu := State.reservedOk_iff.mp (hl.reserved.trans hs)
    exact State.reservedOk_iff.mpr ⟨by simpa using spsrOf_reserved hu.2 _ hb, by simpa using hu.2⟩
  | msrCpsr _ _ _ _ _ _ keep _ ok => exact msrCpsr_reserved keep ok hs
  | msrSpsr _ _ _ _ keep ok => exact msrSpsr_reserved keep ok hs
  | ldmUser _ _ _ _ _ _ h15 hb _ ok =>
    obtain ⟨calls, hu⟩ := ldmUser_frame hb h15 ok
    rw [State.reservedOk, hu.cpsr, hu.spsr]
    exact hs
  | stmUser _ _ _ _ _ _ _ hb ok =>
    obtain ⟨calls, hu⟩ := stmUser_frame hb ok
    rw [State.reservedOk, hu.cpsr, hu.spsr]
    exact hs

/-- An instruction of the current set keeps r15 aligned to the set it leaves (10 R41). -/
theorem exec_aligned {i : Instr} {s t : State} (h : exec i s = .next t) (hi : isArmInstr i = !s.thumb)
    (hs : s.pcAligned = true) : t.pcAligned = true := by
  obtain ⟨pc, _, set⟩ | ⟨_, target, calls, hr⟩ := exec_advances_or_reloads h
  · have hp : alignPc s.thumb (s.get regPc) = s.get regPc := by simpa [State.pcAligned] using hs
    rw [hi, Bool.not_not] at pc
    rw [State.pcAligned, set, pc, alignPc_fixed hp, beq_self_eq_true]
  · exact reloaded_aligned hr

/-- Every instruction keeps the world in form. -/
theorem exec_formed {i : Instr} {s t : State} (h : exec i s = .next t) (hs : s.world.Formed) : t.world.Formed := by
  obtain ⟨calls, hw⟩ | ⟨note, hw⟩ := exec_world h
  · rw [hw]; exact World.formed_play calls hs
  · rw [hw]; exact World.formed_callHost note hs

end Sys2Proof.Machine
end

section
/-! The invariant over the environment's acts and over the three kinds of step (spec/10 R31, R32, R41, 40
R160, 70 R620). -/

namespace Sys2Proof.Machine

open Sys2Proof

/-! ## The invariant between two steps -/

/-- A reload leaves r15 aligned to the set it reads (10 R41, 40 R166). -/
theorem reload_aligned (s : State) (a : Word) : (s.reload a).pcAligned = true :=
  reloaded_aligned (t := s.branchTo a) (reloaded_branchTo s s a [] rfl)

/-- What the check of a snapshot says of the state it was read from (10 R48). -/
theorem snapshot_valid_iff (s : State) :
    s.snapshot.valid = true ↔ s.modeOk = true ∧ s.reservedOk = true ∧ s.pcAligned = true := by
  simp only [Snapshot.valid, State.modeOk, State.reservedOk, State.pcAligned, Bool.and_eq_true, and_assoc]
  rfl

/-- A replacement reads back as itself (10 R48). -/
theorem snapshot_loadSnapshot (s : State) (p : Snapshot) : (s.loadSnapshot p).snapshot = p := rfl

/-- `restore` that went on: the snapshot passed the check, and the replacement is the next state. -/
theorem restore_next {s t : State} {p : Snapshot} (h : s.applyEnvAct (.restore p) = .next t) :
    p.valid = true ∧ t = s.loadSnapshot p := by
  obtain ⟨hv, h⟩ := refuseIf_next h
  injection h with h
  exact ⟨by simpa using hv, h.symm⟩

/-- An act that works on the world alone and went on. -/
theorem onWorld_next {s t : State} {r : Res World} (h : s.onWorld r = .next t) :
    ∃ w, r = .next w ∧ t = { s with world := w } := by
  obtain ⟨w, hw, h⟩ := andThen_eq_next h
  injection h with h
  exact ⟨w, hw, h.symm⟩

theorem State.Inv.world {s : State} (h : s.Inv) : s.world.Formed ∧ s.world.stop = none := by
  obtain ⟨_, _, _, hok⟩ := h
  exact World.ok_iff.mp hok

/-- The CPU's part of the invariant reads nothing of the world. -/
theorem inv_withWorld {s : State} {w : World} (hw : w.Formed ∧ w.stop = none) (h : s.Inv) :
    State.Inv { s with world := w } :=
  inv_congr (s := s) rfl rfl rfl rfl (World.ok_iff.mpr hw) h

/-- An act on the world that keeps it in form and records no stop keeps the invariant. -/
theorem onWorld_inv {s t : State} {r : Res World} (h : s.onWorld r = .next t) (hs : s.Inv)
    (hw : ∀ w, r = .next w → w.Formed ∧ w.stop = s.world.stop) : t.Inv := by
  obtain ⟨w, hr, rfl⟩ := onWorld_next h
  obtain ⟨hf, hst⟩ := hw w hr
  exact inv_withWorld ⟨hf, hst.trans hs.world.2⟩ hs

/-- `Reset()` that meets no stop in its fetches leaves the machine in form, for every legal value of the parameters
(10 R50, 70 R620). -/
theorem doReset_inv {s : State} (hs : s.world.Formed) (hst : s.doReset.world.stop = none) : s.doReset.Inv := by
  obtain ⟨hmem, -, hcfg⟩ := hs
  have hv := hcfg
  simp only [cfgValid, Bool.and_eq_true] at hv
  obtain ⟨⟨⟨hmode, -⟩, hres⟩, -⟩ := hv
  have hform : s.doReset.world.Formed :=
    World.formed_play [fetch0 _ _, fetch1 _ _] (w := { s.world with sched := Sched.zero, irqLine := false })
      ⟨hmem, rfl, hcfg⟩
  refine ⟨?_, ?_, reload_aligned _ _, World.ok_iff.mpr ⟨hform, hst⟩⟩
  · exact Bool.and_eq_true_iff.mpr ⟨hmode, rfl⟩
  · have hz : Spsrs.reservedClear { fiq := 0, irq := 0, svc := 0, abt := 0, und := 0 } = true := by decide
    exact State.reservedOk_iff.mpr ⟨hres, hz⟩

/-- Every act between two steps keeps the invariant. -/
theorem applyEnvAct_inv {s t : State} {a : EnvAct} (h : s.applyEnvAct a = .next t) (hs : s.Inv) : t.Inv := by
  obtain ⟨hform, hstop⟩ := hs.world
  cases a with
  | common a =>
    exact onWorld_inv h hs fun w hw => ⟨World.formed_common hw hform, (World.applyCommon_next hw).2.1⟩
  | addCycles n scripts =>
    exact onWorld_inv h hs fun w hw =>
      ⟨World.kept_formed.addCycles (fun _ _ _ _ => trivial) hw hform, World.stop_addCycles hw⟩
  | reset =>
    obtain ⟨rfl, hst⟩ := settle_next h
    exact doReset_inv hform hst
  | save =>
    injection h with h; subst h
    exact inv_withWorld ⟨hform, hstop⟩ hs
  | restore p =>
    obtain ⟨hv, rfl⟩ := restore_next h
    rw [← snapshot_loadSnapshot s p, snapshot_valid_iff] at hv
    obtain ⟨hm, hr, hp⟩ := hv
    exact ⟨hm, hr, hp, World.ok_iff.mpr ⟨hform, hstop⟩⟩
  | intercept present =>
    injection h with h; subst h
    exact inv_withWorld ⟨hform, hstop⟩ hs

theorem applyEnvActs_inv : ∀ {acts : List EnvAct} {s t : State},
    State.applyEnvActs acts s = .next t → s.Inv → t.Inv
  | [], s, t, h, hs => by injection h with h; exact h ▸ hs
  | a :: acts, s, t, h, hs => by
    obtain ⟨u, hu, h⟩ := andThen_eq_next h
    exact applyEnvActs_inv h (applyEnvAct_inv hu hs)

/-- What the environment does at the entry of a step keeps the invariant. -/
theorem environment_inv {s e : State} (h : s.environment = .next e) (hs : s.Inv) : e.Inv :=
  applyEnvActs_inv h (inv_withWorld hs.world hs)

/-! ## The ways a step goes on -/

/-- A step that went on was a halted step, took the interrupt, or executed an instruction (40 R160). -/
theorem run_next {e t : State} (h : run e = .next t) :
    (e.world.halted = true ∧ t = e.idle 1 ∧ t.world.stop = none) ∨
      (e.irqTaken = true ∧ e.bankConflict = false ∧ t.world.stop = none ∧
        t = (e.alignStep.enter .irq Config.vecIrq
          (if e.thumb then e.alignStep.get regPc else e.alignStep.get regPc - 4)).latchIrqMask) ∨
      (e.world.halted = false ∧ e.irqTaken = false ∧ exec e.slotInstr e.prepare = .next t ∧
        t.world.stop = none) := by
  unfold run at h
  split at h
  · exact absurd h (by simp)
  split at h
  · next hh =>
    obtain ⟨rfl, hst⟩ := settle_next h
    exact .inl ⟨hh, rfl, hst⟩
  next hh =>
  split at h
  · exact absurd h (by simp)
  split at h
  · exact absurd h (by simp)
  split at h
  · next hi =>
    obtain ⟨u, hu, h⟩ := andThen_eq_next h
    obtain ⟨hw, hu⟩ := refuseIf_next hu
    injection hu with hu; subst hu
    obtain ⟨rfl, hst⟩ := settle_next h
    exact .inr (.inl ⟨hi, hw, hst, rfl⟩)
  · next hi =>
    obtain ⟨-, hx, hst⟩ := instrStep_next h
    exact .inr (.inr ⟨by simpa using hh, by simpa using hi, hx, hst⟩)

/-- A step that went on, from the state after the environment's acts. -/
theorem step_next {s t : State} (h : step s = .next t) : ∃ e, s.environment = .next e ∧ run e = .next t :=
  andThen_eq_next h

/-- Stages 1, 3 and 4 keep the invariant but for a stop on record. -/
theorem prepare_keeps_form {e : State} (h : e.Inv) :
    (Mode.ofBits (modeField e.prepare.cpsr)).isSome = true ∧ e.prepare.invalidMode = false ∧
      e.prepare.reservedOk = true ∧ e.prepare.pcAligned = true ∧ e.prepare.world.Formed := by
  obtain ⟨hform, _⟩ := h.world
  obtain ⟨hm, hr, _⟩ := h
  simp only [State.modeOk, Bool.and_eq_true, Bool.not_eq_true'] at hm
  obtain ⟨hmode, hinv⟩ := hm
  refine ⟨by simpa using hmode, by simpa using hinv, ?_, ?_, World.formed_call _ hform⟩
  · rw [State.reservedOk, State.prepare_cpsr, State.prepare_spsr]; exact hr
  · rw [State.pcAligned, State.prepare_thumb, prepare_get, if_pos rfl, alignPc_idem, beq_self_eq_true]

/-- A step that executes an instruction keeps the invariant. -/
theorem exec_inv {e t : State} (h : exec e.slotInstr e.prepare = .next t) (hst : t.world.stop = none) (he : e.Inv) :
    t.Inv := by
  obtain ⟨hmode, hinv, hres, hpc, hform⟩ := prepare_keeps_form he
  refine ⟨?_, exec_reserved h hres, exec_aligned h ?_ hpc, World.ok_iff.mpr ⟨exec_formed h hform, hst⟩⟩
  · rw [State.modeOk, exec_mode h hmode, (exec_own h).1, hinv]; rfl
  · rw [isArmInstr_slotInstr, State.prepare_thumb]

/-- Taking the interrupt keeps the invariant (60 R524, R526). -/
theorem irq_inv {e t : State} {l : Word} (ht : t = (e.alignStep.enter .irq Config.vecIrq l).latchIrqMask)
    (hst : t.world.stop = none) (he : e.Inv) : t.Inv := by
  obtain ⟨hworld, _⟩ := he.world
  obtain ⟨hm, hr, _⟩ := he
  simp only [State.modeOk, Bool.and_eq_true, Bool.not_eq_true'] at hm
  have hen := (enter_enters e.alignStep .irq Config.vecIrq l (by decide)).1
  have hres : (e.alignStep.enter .irq Config.vecIrq l).reservedOk = true := enter_reserved _ _ (by decide) hr
  have hform : (e.alignStep.enter .irq Config.vecIrq l).world.Formed := by
    rw [hen.reload.world]
    exact World.formed_play _ hworld
  generalize e.alignStep.enter .irq Config.vecIrq l = u at ht hen hres hform
  subst ht
  refine ⟨?_, hres, reloaded_aligned (t := u) hen.reload, World.ok_iff.mpr ⟨hform, hst⟩⟩
  rw [State.modeOk, State.latchIrqMask_cpsr, hen.mode, Mode.ofBits_bits, State.latchIrqMask_invalidMode, hen.own.1,
    State.alignStep_invalidMode, hm.2]
  rfl

/-- `Run()` keeps the invariant. -/
theorem run_inv {e t : State} (h : run e = .next t) (he : e.Inv) : t.Inv := by
  obtain ⟨_, rfl, hst⟩ | ⟨_, _, hst, ht⟩ | ⟨_, _, hx, hst⟩ := run_next h
  · exact inv_withWorld ⟨World.formed_play [.idle] he.world.1, hst⟩ he
  · exact irq_inv ht hst he
  · exact exec_inv hx hst he

end Sys2Proof.Machine
end

section
/-! The pipeline over a step (spec/10 R43), `SwitchMode` (10 R36 to R38), and forbidden acts inside a call (20 R75, 70
R621). -/

namespace Sys2Proof.Machine

open Sys2Proof

/-! ## The pipeline over a step (10 R43) -/

/-- Where `next` follows the fetch of a step, the slots hold the opcodes at the fetched address less one width, and at
it. -/
theorem advances_coherent {e t : State} (hc : e.Coherent) (hp : e.world.noPokes = true) (hk : KeepsMemory e t)
    (h : Advances e.thumb e.prepare t) : t.Coherent := by
  obtain ⟨pc, ⟨hs0, hs1⟩, set⟩ := h
  rw [State.prepare_thumb] at set
  rw [prepare_get, if_pos rfl] at pc
  have hx : execAddr t = alignPc e.thumb (e.get regPc) - opWidth e.thumb := by
    rw [execAddr, set, pc, alignPc_add, BitVec.add_sub_cancel]
  have hx1 : execAddr e + opWidth e.thumb = alignPc e.thumb (e.get regPc) - opWidth e.thumb := by
    rw [execAddr, BitVec.sub_add_cancel]
  have hf : e.prepare.slot1 = Memory.read e.world.mem (opSize e.thumb) (alignPc e.thumb (e.get regPc)) := by
    have hm : e.prepare.slot1 = Memory.read e.world.turn.mem (opSize e.thumb) (e.alignStep.get regPc) := rfl
    rw [hm, (World.turn_noPokes hp).2, alignStep_get, if_pos rfl]
  refine ⟨?_, ?_⟩
  · rw [hs0, set, hx, hk.read hp, ← hx1]
    exact hc.2
  · rw [hs1, hf, set, hx, hk.read hp, BitVec.sub_add_cancel]

/-- A halted step leaves the slots, r15 and T alone. -/
theorem idle_coherent {e : State} (hc : e.Coherent) (hp : e.world.noPokes = true) (hk : KeepsMemory e (e.idle 1)) :
    (e.idle 1).Coherent := by
  refine ⟨?_, ?_⟩
  · rw [hk.read hp]; exact hc.1
  · rw [hk.read hp]; exact hc.2

/-- `Run()` keeps the pipeline coherent where it leaves memory alone. -/
theorem run_coherent {e t : State} (h : run e = .next t) (hp : e.world.noPokes = true) (hc : e.Coherent)
    (hk : KeepsMemory e t) : t.Coherent := by
  obtain ⟨_, rfl, _⟩ | ⟨_, _, _, rfl⟩ | ⟨_, _, hx, _⟩ := run_next h
  · exact idle_coherent hc hp hk
  · have hen := (enter_enters e.alignStep .irq Config.vecIrq
      (if e.thumb then e.alignStep.get regPc else e.alignStep.get regPc - 4) (by decide)).1
    generalize State.enter e.alignStep .irq Config.vecIrq _ = u at hen
    exact reloaded_coherent (t := u) hen.reload hp
  · obtain hn | ⟨_, target, calls, hr⟩ := exec_advances_or_reloads hx
    · rw [isArmInstr_slotInstr, Bool.not_not] at hn
      exact advances_coherent hc hp hk hn
    · exact reloaded_coherent hr (World.call_noPokes _ hp).1

/-! ## `SwitchMode` (10 R36 to R38) -/

/-- r0 to r7 and r15 are the same register in every mode (10 R25). -/
theorem seenBy_shared (s : State) (m : Mode) {r : Reg} (h : r.val < 8 ∨ r = regPc) : s.seenBy m r = s.get r := by
  obtain h | rfl := h
  · have h13 : r ≠ regSp := by rintro rfl; exact absurd h (by decide)
    have h14 : r ≠ regLr := by rintro rfl; exact absurd h (by decide)
    rw [State.seenBy, if_neg h13, if_neg h14, dif_neg (by omega)]
  · exact State.seenBy_pc s m

/-- `SwitchMode` to a recognised mode outside the bank-conflict window. -/
theorem switchMode_next {s : State} {b : BitVec 5} {m : Mode} (hb : Mode.ofBits b = some m)
    (hw : s.bankConflict = false) : s.switchMode b = .next (s.switchTo m) := by
  rw [State.switchMode, hb, hw]
  rfl

/-- `SwitchMode` to an unrecognised number (10 R38). -/
theorem switchMode_fault {s : State} {b : BitVec 5} (hb : Mode.ofBits b = none) :
    s.switchMode b = .fault .invalidMode := by
  rw [State.switchMode, hb]

/-- A switch writes registers, banks and CPSR, and nothing else. -/
theorem switchTo_rest (s : State) (m : Mode) :
    { s.switchTo m with x := s.x, bankLo := s.bankLo, bankHi := s.bankHi, cpsr := s.cpsr } = s := by
  simp

/-- A switch writes the mode field of CPSR and no other bit. -/
theorem getLsbD_switchTo_cpsr (s : State) (m : Mode) {k : Nat} (h : 5 ≤ k) :
    (s.switchTo m).cpsr.getLsbD k = s.cpsr.getLsbD k := by
  rw [State.switchTo_cpsr]
  by_cases hk : k < 32
  · rw [getLsbD_setMode _ _ _ hk, if_neg (by omega)]
  · rw [BitVec.getLsbD_of_ge _ _ (by omega), BitVec.getLsbD_of_ge _ _ (by omega)]

/-- The number of the current mode, where CPSR names one. -/
theorem modeField_of_recognised {s : State} (h : (Mode.ofBits (modeField s.cpsr)).isSome = true) :
    modeField s.cpsr = s.mode.bits := by
  obtain ⟨m, hm⟩ := Option.isSome_iff_exists.mp h
  rw [State.mode, hm]
  exact Mode.bits_of_ofBits hm

/-- Switching away and back restores CPSR (10 R37). -/
theorem switchTo_roundTrip_cpsr {s : State} (b : Mode) (h : (Mode.ofBits (modeField s.cpsr)).isSome = true) :
    ((s.switchTo b).switchTo s.mode).cpsr = s.cpsr := by
  rw [State.switchTo_cpsr, State.switchTo_cpsr, setMode_setMode]
  exact setMode_self _ _ (modeField_of_recognised h)

theorem State.spsrOf_congr {s t : State} (hc : t.cpsr = s.cpsr) (hs : t.spsr = s.spsr) (b : Bank) :
    t.spsrOf b = s.spsrOf b := by
  cases b <;> simp only [State.spsrOf, hc, hs]

/-! ## What the environment may not do inside a call (20 R75, 70 R621) -/

namespace World

theorem insideActs_forbidden {p : InsideAct × Refusal} (h : p ∈ forbiddenInside) (acts : List InsideAct)
    (w : World) : insideActs (p.1 :: acts) w = .refused p.2 := by
  simp only [forbiddenInside, List.mem_cons, List.not_mem_nil, or_false] at h
  obtain rfl | rfl | rfl := h <;> rfl

/-- A forbidden act in the first call of a sequence is on record after it. -/
theorem play_forbidden {w : World} {p : InsideAct × Refusal} {acts : List InsideAct} {rest : List (List InsideAct)}
    (h : p ∈ forbiddenInside) (hi : w.inside = (p.1 :: acts) :: rest) (hs : w.stop = none) (c : BusCall)
    (cs : List BusCall) : (w.play (c :: cs)).stop = some (.refused p.2) := by
  have ht : w.turn.stop = some (.refused p.2) := by rw [turn_cons hi hs, insideActs_forbidden h]
  refine play_stop cs ?_
  cases c <;> exact ht

end World

/-- A step whose first call meets a forbidden act answers its refusal, whichever call that is: the `Idle()` of a halted
step, the first fetch of an exception entry, the fetch of an instruction. -/
theorem run_forbidden {e : State} {p : InsideAct × Refusal} {acts : List InsideAct} {rest : List (List InsideAct)}
    (hst : e.started = true) (hm : e.modeOk = true) (hw : e.bankConflict = false) (hs : e.world.stop = none)
    (h : p ∈ forbiddenInside) (hi : e.world.inside = (p.1 :: acts) :: rest) : run e = .refused p.2 := by
  have hplay := World.play_forbidden h hi hs
  cases hh : e.world.halted
  · cases hq : e.world.irqLine && !e.irqMaskLatch
    · rw [run_instr hst hh hm hq, State.instrStep, settle_refused (hplay _ []), andThen_refused]
    · rw [run_irq hst hh hm hq, State.irqStep, State.raiseIrq, takeException_next e.alignStep _ _ _ hw, andThen_next]
      refine settle_refused ?_
      rw [State.latchIrqMask_world, (enter_enters e.alignStep .irq _ _ (by decide)).1.reload.world]
      exact hplay _ _
  · rw [run_halted hst hh]
    exact settle_refused (hplay _ [])

end Sys2Proof.Machine
end

section
/-! The statements about the state, its banks and its environment (spec/10_state.md). -/

open Sys2Proof Sys2Proof.Machine

/-- Settles O3: the environment's acts keep the invariant, and so does each of the three kinds of step, whatever the
environment does inside the calls. -/
theorem stepKeepsTheInvariant : Obligations.StepKeepsTheInvariant := by
  unfold Obligations.StepKeepsTheInvariant
  intro s t hs h
  obtain ⟨e, he, hr⟩ := step_next h
  exact run_inv hr (environment_inv he hs)

/-- Settles O11: no instruction writes the latch, and stage 3 wrote the I bit of the step's entry to it (10 R44). -/
theorem latchHoldsTheMaskOfTheStepEntry : Obligations.LatchHoldsTheMaskOfTheStepEntry := by
  unfold Obligations.LatchHoldsTheMaskOfTheStepEntry
  intro s e t he hh hi h
  rw [step_of he] at h
  obtain ⟨hh', _⟩ | ⟨hi', _⟩ | ⟨_, _, hx, _⟩ := run_next h
  · exact absurd hh' (by simp [hh])
  · exact absurd (hi'.symm.trans hi) (by simp)
  · exact exec_latch hx

/-- Settles O14: by what every instruction can do to the flags, and by the two ways it can end. -/
theorem onlyListedInstructionsChangeFlagsOrT : Obligations.OnlyListedInstructionsChangeFlagsOrT := by
  unfold Obligations.OnlyListedInstructionsChangeFlagsOrT
  intro i s t h
  refine ⟨exec_flags h, fun hT => ?_⟩
  obtain hn | ⟨hset, hr⟩ := exec_advances_or_reloads h
  · exact absurd hn.set hT
  · exact ⟨hset hT, hr⟩

/-- Settles O16: after `next` the slots hold what the step fetched and the opcode before it, after a reload what the
reload fetched. -/
theorem pipelineStaysCoherent : Obligations.PipelineStaysCoherent := by
  unfold Obligations.PipelineStaysCoherent
  exact fun s t h hp hc hk => run_coherent h hp hc hk

/-- Settles O18: after a switch each register reads as the new mode saw it, and every mode sees what it saw. -/
theorem switchModeExchangesBanks : Obligations.SwitchModeExchangesBanks := by
  unfold Obligations.SwitchModeExchangesBanks
  refine ⟨?_, fun s b => switchMode_fault, ?_⟩
  · intro s b m hb hw
    refine ⟨_, switchMode_next hb hw, s.switchTo_get m, s.switchTo_seenBy m, ?_, ?_, ?_, switchTo_rest s m⟩
    · exact fun r hr => (s.switchTo_get m r).trans (seenBy_shared s m hr)
    · rw [State.switchTo_cpsr, modeField_setMode]
    · exact fun k hk => getLsbD_switchTo_cpsr s m hk
  · rintro s _ b rfl hs
    have hc := switchTo_roundTrip_cpsr b hs
    refine ⟨fun r => ?_, hc, ?_⟩
    · rw [State.switchTo_get, State.switchTo_seenBy, State.seenBy_mode]
    · rw [State.switchTo_bank]
      exact State.spsrOf_congr hc (by simp) _

/-- Settles O60, clause by clause: before the start, each act between two steps, the bulk read, the instructions, and
the forbidden acts inside the first call of a step. -/
theorem theEnvironmentOwnsNoCpuState : Obligations.TheEnvironmentOwnsNoCpuState := by
  unfold Obligations.TheEnvironmentOwnsNoCpuState
  refine ⟨?_, ?_, ?_, ?_, ?_, ?_, ?_, ?_⟩
  · intro s e he hst
    rw [step_of he, run, hst]
    rfl
  · intro s t a h hreset hrestore
    cases a with
    | common | addCycles => obtain ⟨w, _, rfl⟩ := onWorld_next h; rfl
    | reset => exact absurd rfl hreset
    | restore p => exact absurd rfl (hrestore p)
    | save | intercept => injection h with h; subst h; rfl
  · intro s w n scripts h
    rw [State.applyEnvAct, State.onWorld, h, andThen_next]
  · intro s t h
    obtain ⟨rfl, hst⟩ := settle_next h
    exact ⟨rfl, rfl, hst⟩
  · intro s p
    refine ⟨fun hv => ?_, fun hv => ?_, fun t h => ?_⟩
    · rw [State.applyEnvAct, hv]; rfl
    · rw [State.applyEnvAct, hv]; rfl
    · obtain ⟨_, rfl⟩ := restore_next h
      exact snapshot_loadSnapshot s p
  · rintro s ⟨hm, hr, hp, _⟩
    exact ⟨(snapshot_valid_iff s).mpr ⟨hm, hr, hp⟩, rfl⟩
  · exact fun i s t h => (exec_own h).2
  · intro s e acts rest he hst hm hw hs p h hi
    rw [step_of he]
    exact run_forbidden hst hm hw hs h hi

/-- Settles O17: the 32 numbers and the seven modes one by one; `GetSPSR()` by its window and its bank. -/
theorem modesBanksAndSavedStatus : Obligations.ModesBanksAndSavedStatus := by
  unfold Obligations.ModesBanksAndSavedStatus
  refine ⟨by decide, ?_, ?_, ?_, ?_, ?_⟩
  · intro m; cases m <;> simp [Mode.bank]
  · intro m m'; cases m <;> cases m' <;> simp [Mode.bank]
  · intro s hb
    rw [State.getSpsr, hb]
    cases s.bankConflict
    · rfl
    · exact BitVec.or_self
  · intro s hw
    rw [State.getSpsr, hw]
    rfl
  · intro s hw
    rw [State.getSpsr, hw]
    rfl

end

section
/-! Little-endian values, rotated and signed loads as numbers (spec/20 R79, R82 to R84). -/

namespace Sys2Proof.Machine.Memory

open Sys2Proof

/-- The value of two fields side by side. -/
theorem toNat_append_eq_add {m n : Nat} (x : BitVec m) (y : BitVec n) :
    (x ++ y).toNat = 2 ^ n * x.toNat + y.toNat := by
  rw [BitVec.toNat_append, ← Nat.shiftLeft_add_eq_or_of_lt y.isLt, Nat.shiftLeft_eq, Nat.mul_comm]

/-- A rotation by one byte moves the low byte to the top. -/
theorem toNat_rotateRight_eight (w : Word) :
    (w.rotateRight 8).toNat = w.toNat / 2 ^ 8 + 2 ^ 24 * (w.toNat % 2 ^ 8) := by
  have htop : w.toNat <<< 24 % 2 ^ 32 = (w.toNat % 2 ^ 8) <<< 24 := by
    rw [Nat.shiftLeft_eq, Nat.shiftLeft_eq]; omega
  have hlow : w.toNat / 2 ^ 8 < 2 ^ 24 := by have := w.isLt; omega
  have hor : (w.rotateRight 8).toNat = w.toNat >>> 8 ||| w.toNat <<< 24 % 2 ^ 32 := BitVec.toNat_rotateRight
  rw [hor, htop, Nat.shiftRight_eq_div_pow, Nat.or_comm, ← Nat.shiftLeft_add_eq_or_of_lt hlow, Nat.shiftLeft_eq,
    Nat.mul_comm, Nat.add_comm]

/-- A word read is little-endian (R79). -/
theorem toNat_read_word (m : List Host.Cell) (a : Word) :
    (read m .word a).toNat = (readByte m (alignWord a)).toNat + 2 ^ 8 * (readByte m (alignWord a + 1)).toNat
      + 2 ^ 16 * (readByte m (alignWord a + 2)).toNat + 2 ^ 24 * (readByte m (alignWord a + 3)).toNat := by
  rw [read, readWord]
  simp only [toNat_append_eq_add]
  omega

theorem toNat_readHalf (m : List Host.Cell) (a : Word) :
    (readHalf m a).toNat = (readByte m (alignHalf a)).toNat + 2 ^ 8 * (readByte m (alignHalf a + 1)).toNat := by
  rw [readHalf, toNat_append_eq_add, Nat.add_comm]

/-- A halfword read is little-endian and zero-extended (R72, R79). -/
theorem toNat_read_half (m : List Host.Cell) (a : Word) :
    (read m .half a).toNat =
      (readByte m (alignHalf a)).toNat + 2 ^ 8 * (readByte m (alignHalf a + 1)).toNat := by
  rw [read, BitVec.toNat_setWidth_of_le (by decide), toNat_readHalf]

theorem toNat_read_byte (m : List Host.Cell) (a : Word) : (read m .byte a).toNat = (readByte m a).toNat := by
  rw [read, BitVec.toNat_setWidth_of_le (by decide)]

/-- An address is its word's address and its two low bits. -/
theorem alignWord_add_low (a : Word) : alignWord a + BitVec.ofNat 32 (a.toNat % 4) = a := by
  apply BitVec.eq_of_toNat_eq
  rw [BitVec.toNat_add, toNat_alignWord, BitVec.toNat_ofNat]
  have := a.isLt
  omega

/-- The byte at the address itself ends up in bits 7:0 of a rotated word load (R82). -/
theorem extract_readWordRotate (m : List Host.Cell) (a : Word) :
    (readWordRotate m a).extractLsb' 0 8 = readByte m a := by
  have hbyte := extract_readWord m a (a.toNat % 4) (by omega)
  rw [alignWord_add_low] at hbyte
  rw [← hbyte]
  apply BitVec.eq_of_getLsbD_eq
  intro k hk
  rw [BitVec.getLsbD_extractLsb', BitVec.getLsbD_extractLsb', Nat.zero_add, getLsbD_readWordRotate m a k (by omega),
    Nat.mod_eq_of_lt (by omega : k + 8 * (a.toNat % 4) < 32), Nat.add_comm k]
  rfl

/-- A halfword load from an odd address is rotated by one byte (R83). -/
theorem toNat_readHalfRotate_odd (m : List Host.Cell) {a : Word} (h : a.getLsbD 0 = true) :
    (readHalfRotate m a).toNat =
      (read m .half a).toNat / 2 ^ 8 + 2 ^ 24 * ((read m .half a).toNat % 2 ^ 8) := by
  rw [readHalfRotate, if_pos h, toNat_rotateRight_eight]

theorem readHalfRotate_even (m : List Host.Cell) {a : Word} (h : a.getLsbD 0 = false) :
    readHalfRotate m a = read m .half a := by
  rw [readHalfRotate, if_neg (Bool.eq_false_iff.mp h)]

/-- A signed halfword load from an odd address is a signed byte load (R84). -/
theorem toInt_readHalfSigned_odd (m : List Host.Cell) {a : Word} (h : a.getLsbD 0 = true) :
    (readHalfSigned m a).toInt = (readByte m a).toInt := by
  rw [readHalfSigned, if_pos h, BitVec.toInt_signExtend_of_le (by decide)]

theorem toInt_readHalfSigned_even (m : List Host.Cell) {a : Word} (h : a.getLsbD 0 = false) :
    (readHalfSigned m a).toInt = (readHalf m a).toInt := by
  rw [readHalfSigned, if_neg (Bool.eq_false_iff.mp h), BitVec.toInt_signExtend_of_le (by decide)]

/-- The byte at any address after a byte store. -/
theorem readByte_store (m : List Host.Cell) (a : Word) (v : Byte) (b : Word) :
    readByte (store m a.toNat v) b = if b = a then v else readByte m b := by
  rw [readByte, lookup_store]
  simp only [BitVec.toNat_inj]
  rfl

end Sys2Proof.Machine.Memory
end

section
/-! A bus call whose environment does nothing, and one whose environment acts (spec/20 R70 to R75, R91). -/

namespace Sys2Proof.Machine

open Sys2Proof

namespace World

theorem isWrite_eq_false {c : BusCall} (h : ∀ z a v f, c ≠ .write z a v f) : isWrite c = false := by
  cases c with
  | write z a v f => exact absurd rfl (h z a v f)
  | read | idle => rfl

/-- A call that writes nothing is the environment's turn and an entry in the trace. -/
theorem call_of_reads (w : World) {c : BusCall} (h : isWrite c = false) :
    w.call c = { w.turn with bus := w.bus ++ [c] } := by
  rw [← turn_bus w]
  cases c with
  | write => exact absurd h (by simp [isWrite])
  | read | idle => rfl

/-- Where the environment does nothing, calls that write nothing change the trace alone. -/
theorem play_quiet : ∀ {cs : List BusCall} {w : World}, w.inside = [] → (∀ c ∈ cs, isWrite c = false) →
    w.play cs = { w with bus := w.bus ++ cs }
  | [], w, _, _ => by rw [play_nil, List.append_nil]
  | c :: cs, w, hi, hc => by
    have hcall : w.call c = { w with bus := w.bus ++ [c] } := by
      rw [call_of_reads w (hc c List.mem_cons_self), turn_quiet hi]
    have hquiet : (w.call c).inside = [] := by rw [hcall]; exact hi
    rw [play_cons, play_quiet hquiet fun d hd => hc d (List.mem_cons_of_mem _ hd), hcall, List.append_assoc]
    rfl

/-- A call puts no stop on record but what its turn puts there. -/
theorem call_stop_eq (w : World) (c : BusCall) : (w.call c).stop = w.turn.stop := by
  cases c <;> rfl

section Turn

variable {w v : World} {acts : List InsideAct} {rest : List (List InsideAct)} (hi : w.inside = acts :: rest)
  (hs : w.stop = none)
include hi hs

/-- The turn whose acts all went on. -/
theorem turn_of_next (h : insideActs acts { w with inside := rest } = .next v) : w.turn = v := by
  rw [turn_cons hi hs, h]

/-- A call whose acts all went on finds the world they left. -/
theorem call_of_next (h : insideActs acts { w with inside := rest } = .next v) (c : BusCall) :
    w.call c = { v.answer c with bus := w.bus ++ [c] } := by
  have hv := turn_of_next hi hs h
  rw [call, turn_bus, hv]

end Turn

/-- A turn in which someone else changes one byte of memory (R92). -/
theorem turn_poke {w : World} {a : Word} {v : Byte} {rest : List (List InsideAct)}
    (hi : w.inside = [.common (.poke a v)] :: rest) (hs : w.stop = none) :
    w.turn = { w with inside := rest, mem := Memory.store w.mem a.toNat v } :=
  turn_of_next hi hs rfl

end World

/-- With no one else changing memory, what the call after reads finds is the memory before them. -/
theorem memAfter_reads {s : State} {cs : List BusCall} (hp : s.world.noPokes = true)
    (hc : ∀ c ∈ cs, World.isWrite c = false) : s.memAfter cs = s.world.mem := by
  rw [State.memAfter, (World.turn_noPokes (World.play_noPokes cs hp)).2, World.play_mem hp hc]

/-- Two reads of one address return the two bytes that the environment puts there inside them (20 R92). -/
theorem reads_differ {s : State} {a : Word} {v0 v1 : Byte} (f : Access) (hs : s.world.stop = none)
    (hi : s.world.inside = [[.common (.poke a v0)], [.common (.poke a v1)]]) :
    Memory.read s.heard .byte a = v0.setWidth 32 ∧
      Memory.read (s.memAfter [.read .byte a f]) .byte a = v1.setWidth 32 := by
  have h0 := World.turn_poke hi hs
  have hcall := World.call_of_next hi hs rfl (.read .byte a f)
  have h1 := World.turn_poke (w := s.world.call (.read .byte a f)) (a := a) (v := v1) (rest := []) (by rw [hcall]; rfl)
    (by rw [World.call_stop_eq, h0]; exact hs)
  refine ⟨?_, ?_⟩
  · rw [State.heard, h0, Memory.read, Memory.readByte_store, if_pos rfl]
  · rw [State.memAfter, World.play_cons, World.play_nil, h1, Memory.read, Memory.readByte_store, if_pos rfl]

end Sys2Proof.Machine
end

section
/-! The statements about memory and the bus (spec/20_memory.md). -/

open Sys2Proof Sys2Proof.Machine

/-- Settles O23: reads as sums of bytes, rotations bit by bit and as numbers, and the byte after a write. -/
theorem memoryReadsAndWrites : Obligations.MemoryReadsAndWrites := by
  unfold Obligations.MemoryReadsAndWrites
  refine ⟨fun m a => ⟨Memory.toNat_read_word m a, Memory.toNat_read_half m a, Memory.toNat_read_byte m a,
    Memory.getLsbD_readWordRotate m a, Memory.extract_readWordRotate m a, Memory.toNat_readHalfRotate_odd m,
    Memory.readHalfRotate_even m, Memory.toInt_readHalfSigned_odd m, Memory.toInt_readHalfSigned_even m⟩, ?_⟩
  intro m size a v b
  rw [Memory.readByte_write]
  simp only [Memory.inStore, decide_eq_true_eq]

/-- Settles O56, clause by clause: calls in sequence, the environment's turn inside one, its acts, the stop on record,
and memory with and without a second writer. -/
theorem busCallsAndTheEnvironmentInside : Obligations.BusCallsAndTheEnvironmentInside := by
  unfold Obligations.BusCallsAndTheEnvironmentInside
  refine ⟨?_, ?_, ?_, ?_, fun w k cs h => World.play_stop cs h, ?_, ?_, ?_, ?_⟩
  · intro w cs ds
    refine ⟨World.play_append cs ds w, World.play_bus cs w, World.play_env cs w, World.play_cfg cs w, ?_⟩
    intro hi hc
    rw [World.play_quiet hi fun c h => World.isWrite_eq_false (hc c h)]
  · intro w acts rest c hi hs
    have hstop : (w.play [c]).stop = w.turn.stop := World.call_stop_eq w c
    refine ⟨fun hc v h => ?_, ?_, fun f h => ?_, fun why h => ?_⟩
    · rw [World.play_cons, World.play_nil, World.call_of_reads w (World.isWrite_eq_false hc),
        World.turn_of_next hi hs h]
    · rintro z a x f rfl v h
      exact World.call_of_next hi hs h _
    · rw [hstop, World.turn_cons hi hs, h]
    · rw [hstop, World.turn_cons hi hs, h]
  · exact fun w a n scripts acts => ⟨rfl, rfl, rfl, fun p hp => World.insideActs_forbidden hp acts w⟩
  · exact fun w a v level => ⟨rfl, rfl, _, rfl, Memory.readByte_store w.mem a v⟩
  · exact fun s => ⟨rfl, settle_none, fun f => settle_fault, fun why => settle_refused⟩
  · exact fun w own => ⟨fun h => World.stopOr_none h own, fun f h => World.stopOr_fault h own,
      fun why h => World.stopOr_refused h own⟩
  · intro s cs hp
    refine ⟨fun hc => ?_, fun z a v f b => ?_⟩
    · have hr : ∀ c ∈ cs, World.isWrite c = false := fun c h => World.isWrite_eq_false (hc c h)
      exact ⟨World.play_mem hp hr, memAfter_reads hp hr⟩
    · exact storedAt_of_play (t := s.calls [.write z a (busValue z v) f]) (cs := []) (ds := []) rfl (by simp) (by simp)
        hp b
  · rintro s a v0 v1 f hs
    refine ⟨[[.common (.poke a v0)], [.common (.poke a v1)]], ?_⟩
    rintro _ rfl
    exact reads_differ f hs rfl

end

section
/-! Fields of instruction words written and read back (spec/30 R122 to R132). -/

namespace Sys2Proof

@[simp] theorem Cond.ofBits_bits (c : Cond) : Cond.ofBits c.bits = c := by cases c <;> rfl

@[simp] theorem ShiftType.ofBits_bits (ty : ShiftType) : ShiftType.ofBits ty.bits = ty := by cases ty <;> rfl

@[simp] theorem Reg.ofBits_bits (r : Reg) : Reg.ofBits (Reg.bits r) = r := Fin.ext (Nat.mod_eq_of_lt r.isLt)

@[simp] theorem Reg.bits_ofBits (b : BitVec 4) : Reg.bits (Reg.ofBits b) = b :=
  BitVec.eq_of_toNat_eq (Nat.mod_eq_of_lt b.isLt)

@[simp] theorem LowReg.ofBits_bits (r : LowReg) : LowReg.ofBits (LowReg.bits r) = r :=
  Fin.ext (Nat.mod_eq_of_lt r.isLt)

@[simp] theorem getLsbD_bit1 (b : Bool) : (bit1 b).getLsbD 0 = b := by cases b <;> rfl

@[simp] theorem getElem_bit1 (b : Bool) : (bit1 b)[0] = b := by cases b <;> rfl

/-! The library's lemmas about `++`, with the width of the whole left open: `simp` writes it as a numeral. -/

theorem getLsbD_pieces {n m : Nat} (x : BitVec n) (y : BitVec m) (k : Nat) :
    (@HAppend.hAppend (BitVec n) (BitVec m) (no_index (BitVec (n + m))) _ x y).getLsbD k =
      if k < m then y.getLsbD k else x.getLsbD (k - m) :=
  BitVec.getLsbD_append

@[simp] theorem getElem_pieces {n m : Nat} (x : BitVec n) (y : BitVec m) (k : Nat) (h : k < n + m) :
    (@HAppend.hAppend (BitVec n) (BitVec m) (no_index (BitVec (n + m))) _ x y)[k] =
      if k < m then y.getLsbD k else x.getLsbD (k - m) := by
  rw [← BitVec.getLsbD_eq_getElem]
  exact getLsbD_pieces x y k

@[simp] theorem extractLsb'_pieces_low {n m lo len : Nat} (x : BitVec n) (y : BitVec m) (h : lo + len ≤ m) :
    (@HAppend.hAppend (BitVec n) (BitVec m) (no_index (BitVec (n + m))) _ x y).extractLsb' lo len =
      y.extractLsb' lo len :=
  BitVec.extractLsb'_append_eq_of_add_le h

@[simp] theorem extractLsb'_pieces_high {n m lo len : Nat} (x : BitVec n) (y : BitVec m) (h : m ≤ lo) :
    (@HAppend.hAppend (BitVec n) (BitVec m) (no_index (BitVec (n + m))) _ x y).extractLsb' lo len =
      x.extractLsb' (lo - m) len :=
  BitVec.extractLsb'_append_eq_of_le h

/-- A field of the whole high piece and the top of the low one. -/
theorem extractLsb'_pieces_across {n m lo k : Nat} (x : BitVec n) (y : BitVec m) (h : lo + k = m) :
    (x ++ y).extractLsb' lo (n + k) = x ++ y.extractLsb' lo k := by
  subst h
  apply BitVec.eq_of_getLsbD_eq
  intro i hi
  rw [BitVec.getLsbD_extractLsb', BitVec.getLsbD_append, BitVec.getLsbD_append, BitVec.getLsbD_extractLsb']
  by_cases hk : i < k
  · simp [hk, hi]
  · simp [hk, hi, Nat.add_sub_add_left]

/-! ## Fields and bits -/

theorem getLsbD_of_extractLsb'_eq {m n lo : Nat} {w : BitVec m} {v : BitVec n} (h : w.extractLsb' lo n = v) {k : Nat}
    (hk : k < n) : w.getLsbD (lo + k) = v.getLsbD k := by
  rw [← h, BitVec.getLsbD_extractLsb', decide_eq_true hk, Bool.true_and]

/-- A field with a wrong bit fails its test. -/
theorem extractLsb'_ne_of_bit {m n lo : Nat} {w : BitVec m} {v : BitVec n} (k : Nat) (hk : k < n)
    (h : w.getLsbD (lo + k) ≠ v.getLsbD k) : w.extractLsb' lo n ≠ v :=
  fun heq => h (getLsbD_of_extractLsb'_eq heq hk)

theorem extractLsb'_eq_iff {m n lo : Nat} {w : BitVec m} {v : BitVec n} :
    w.extractLsb' lo n = v ↔ ∀ k < n, w.getLsbD (lo + k) = v.getLsbD k := by
  refine ⟨fun h k hk => getLsbD_of_extractLsb'_eq h hk, fun h => BitVec.eq_of_getLsbD_eq fun k hk => ?_⟩
  rw [BitVec.getLsbD_extractLsb', decide_eq_true hk, Bool.true_and, h k hk]

theorem extractLsb'_congr {n lo len : Nat} {v w : BitVec n}
    (h : ∀ k, lo ≤ k → k < lo + len → v.getLsbD k = w.getLsbD k) : v.extractLsb' lo len = w.extractLsb' lo len := by
  rw [extractLsb'_eq_iff]
  intro k hk
  rw [BitVec.getLsbD_extractLsb', decide_eq_true hk, Bool.true_and, h (lo + k) (by omega) (by omega)]

/-- The test of a field, bit by bit. -/
theorem extractLsb'_beq {m n : Nat} (w : BitVec m) (lo : Nat) (v : BitVec n) :
    (w.extractLsb' lo n == v) = (List.range n).all fun k => w.getLsbD (lo + k) == v.getLsbD k := by
  rw [Bool.eq_iff_iff, beq_iff_eq, extractLsb'_eq_iff]
  simp only [List.all_eq_true, List.mem_range, beq_iff_eq]

theorem extractLsb'_bne {m n : Nat} (w : BitVec m) (lo : Nat) (v : BitVec n) :
    (w.extractLsb' lo n != v) = !(List.range n).all fun k => w.getLsbD (lo + k) == v.getLsbD k := by
  rw [bne, extractLsb'_beq]

/-- A register is r8 to r15 exactly where the top bit of its field is set. -/
theorem eight_le_iff_bits (r : Reg) : 8 ≤ r.val ↔ (Reg.bits r).extractLsb' 3 1 = 1#1 := by
  revert r; decide

theorem Cond.ofBits_ne_al_nv (b : BitVec 4) :
    (b.extractLsb' 1 3 != 0b111#3) = true → (Cond.ofBits b != .al && Cond.ofBits b != .nv) = true := by
  revert b; decide

end Sys2Proof
end

section
/-! The dispatch of both sets (spec/30 R112 to R114, R120 to R131): it reads the index alone, and the classes of the
reserved spaces are those of `Instr.WellFormed`. -/

namespace Sys2Proof

/-- The dispatch of the 32-bit set reads bits 27:20 and 7:4 alone. -/
theorem armClassOf_congr {v w : Word} (high : ∀ k, 20 ≤ k → k < 28 → v.getLsbD k = w.getLsbD k)
    (low : ∀ k, 4 ≤ k → k < 8 → v.getLsbD k = w.getLsbD k) : armClassOf v = armClassOf w := by
  have field (lo len : Nat) (h : 20 ≤ lo) (h' : lo + len ≤ 28) : v.extractLsb' lo len = w.extractLsb' lo len :=
    extractLsb'_congr fun k hk hk' => high k (h.trans hk) (hk'.trans_le h')
  have field4 : v.extractLsb' 4 4 = w.extractLsb' 4 4 := extractLsb'_congr low
  simp only [armClassOf, armClass00, armClass01, field, field4, high, low 4, Nat.reduceLeDiff, Nat.reduceAdd,
    Nat.reduceLT]

theorem armClass_armIndex (w : Word) : armClass (armIndex w) = armClassOf w := by
  refine armClassOf_congr ?_ ?_ <;> intro k hlo hhi <;>
    simp only [armIndex, getLsbD_pieces, BitVec.getLsbD_extractLsb'] <;> grind

/-- The dispatch of the 16-bit set reads bits 15:6 alone. -/
theorem thumbClassOf_congr {v w : Half} (h : ∀ k, 6 ≤ k → v.getLsbD k = w.getLsbD k) :
    thumbClassOf v = thumbClassOf w := by
  have field (lo len : Nat) (hlo : 6 ≤ lo) : v.extractLsb' lo len = w.extractLsb' lo len :=
    extractLsb'_congr fun k hk _ => h k (hlo.trans hk)
  simp only [thumbClassOf, field, h, Nat.reduceLeDiff]

theorem thumbClass_thumbIndex (w : Half) : thumbClass (thumbIndex w) = thumbClassOf w := by
  refine thumbClassOf_congr fun k hk => ?_
  have hout : 16 ≤ k → w.getLsbD k = false := w.getLsbD_of_ge k
  simp only [thumbIndex, getLsbD_pieces, BitVec.getLsbD_extractLsb']
  grind

/-- Each class of the 32-bit set that keeps the raw bits is the space of its name. -/
theorem armClassOf_spaces (w : Word) :
    (armClassOf w = .reservedPsrImm ↔ inPsrImmSpace (w.extractLsb' 0 28) = true) ∧
    (armClassOf w = .reservedPsrReg ↔ inPsrRegSpace (w.extractLsb' 0 28) = true) ∧
    (armClassOf w = .reservedMul ↔ inMulSpace (w.extractLsb' 0 28) = true) ∧
    (armClassOf w = .reservedSwp ↔ inSwpSpace (w.extractLsb' 0 28) = true) ∧
    (armClassOf w = .reservedHalfPostw ↔ inHalfPostwSpace (w.extractLsb' 0 28) = true) ∧
    (armClassOf w = .reservedHalfStore ↔ inHalfStoreSpace (w.extractLsb' 0 28) = true) ∧
    (armClassOf w = .undefined ↔ inUndefinedSpace (w.extractLsb' 0 28) = true) ∧
    (armClassOf w = .coprocessor ↔ inCoprocessorSpace (w.extractLsb' 0 28) = true) := by
  simp only [armClassOf, armClass00, armClass01, inPsrImmSpace, inPsrRegSpace, inMulSpace, inSwpSpace,
    inHalfPostwSpace, inHalfStoreSpace, inUndefinedSpace, inCoprocessorSpace, extractLsb'_beq, extractLsb'_bne]
  simp [List.range_succ]
  refine ⟨?_, ?_, ?_, ?_, ?_, ?_, ?_, ?_⟩ <;> grind

/-- The classes of the 16-bit set whose instructions carry a condition of well-formedness. The four top bits narrow the
tests to those of a few formats. -/
theorem thumbClassOf_spaces (w : Half) :
    (thumbClassOf w = .undefined ↔ inThumbUndefinedSpace w = true) ∧
    (thumbClassOf w = .reservedHiLoLo ↔ inHiLoLoSpace w = true) ∧
    (thumbClassOf w = .reservedBxH1 ↔ inBxH1Space w = true) ∧
    (thumbClassOf w = .reservedBcondAl ↔ inBcondAlSpace w = true) ∧
    (thumbClassOf w = .addHi ∨ thumbClassOf w = .cmpHi ∨ thumbClassOf w = .movHi → w[7] = true ∨ w[6] = true) ∧
    (thumbClassOf w = .bcond → ((w.extractLsb' 8 4).extractLsb' 1 3 != 0b111#3) = true) := by
  simp only [thumbClassOf, inThumbUndefinedSpace, inHiLoLoSpace, inBxH1Space, inBcondAlSpace, extractLsb'_beq,
      extractLsb'_bne]
  simp [List.range_succ]
  refine ⟨?_, ?_, ?_, ?_, ?_, ?_⟩ <;>
    cases h15 : w[15] <;> cases h14 : w[14] <;> cases h13 : w[13] <;> cases h12 : w[12] <;> grind

end Sys2Proof
end

section
/-! Every word decodes to a well-formed instruction (spec/30 R112 to R114, R143). -/

namespace Sys2Proof

theorem wellFormed_dpOf (w : Word) (op2 : Operand2) : (dpOf w op2).WellFormed = true := by
  unfold dpOf; simp only; split <;> rfl

theorem wellFormed_aluOf (w : Half) : (aluOf w).WellFormed = true := by
  unfold aluOf; simp only; split <;> rfl

theorem wellFormed_decodeArm (w : Word) : (decodeArm w).WellFormed = true := by
  obtain ⟨psrImm, psrReg, mul, swp, halfPostw, halfStore, undef, cop⟩ := armClassOf_spaces w
  rw [decodeArm, armClass_armIndex]
  cases hc : armClassOf w with
  | dpImm | dpShiftImm | dpShiftReg => exact wellFormed_dpOf w _
  | reservedPsrImm => exact psrImm.mp hc
  | reservedPsrReg => exact psrReg.mp hc
  | reservedMul => exact mul.mp hc
  | reservedSwp => exact swp.mp hc
  | reservedHalfPostw => exact halfPostw.mp hc
  | reservedHalfStore => exact halfStore.mp hc
  | undefined => exact undef.mp hc
  | coprocessor => exact cop.mp hc
  | _ => rfl

theorem eight_le_hiRd {w : Half} (h : w[7] = true) : 8 ≤ (hiRd w).val := by
  rw [eight_le_iff_bits, hiRd, Reg.bits_ofBits, extractLsb'_pieces_high _ _ le_rfl, Nat.sub_self,
    BitVec.extractLsb'_eq_self]
  simpa [extractLsb'_eq_iff] using h

theorem eight_le_hiRs {w : Half} (h : w[6] = true) : 8 ≤ (hiRs w).val := by
  rw [eight_le_iff_bits, hiRs, Reg.bits_ofBits, extractLsb'_pieces_high _ _ le_rfl, Nat.sub_self,
    BitVec.extractLsb'_eq_self]
  simpa [extractLsb'_eq_iff] using h

theorem someHigh_of_bits {w : Half} (h : w[7] = true ∨ w[6] = true) : someHigh (hiRd w) (hiRs w) = true :=
  decide_eq_true (h.imp eight_le_hiRd eight_le_hiRs)

theorem wellFormed_decodeThumb (w : Half) : (decodeThumb w).WellFormed = true := by
  obtain ⟨undef, hiLoLo, bxH1, bcondAl, hi, bcond⟩ := thumbClassOf_spaces w
  rw [decodeThumb, thumbClass_thumbIndex]
  cases hc : thumbClassOf w with
  | alu => exact wellFormed_aluOf w
  | undefined => exact undef.mp hc
  | reservedHiLoLo => exact hiLoLo.mp hc
  | reservedBxH1 => exact bxH1.mp hc
  | reservedBcondAl => exact bcondAl.mp hc
  | addHi => exact someHigh_of_bits (hi (.inl hc))
  | cmpHi => exact someHigh_of_bits (hi (.inr (.inl hc)))
  | movHi => exact someHigh_of_bits (hi (.inr (.inr hc)))
  | bcond => exact Cond.ofBits_ne_al_nv _ (bcond hc)
  | _ => rfl

end Sys2Proof
end

section
/-! What the words of the 32-bit encoder hold (spec/30 R122 to R130): their operand fields, and the bits that the
dispatch tests. -/

namespace Sys2Proof

section DataProcessing

variable {c : Cond} {op : BitVec 4} {sf : Bool} {rn rd : Reg} {w : Word}

theorem encodeDp_fields {op2 : Operand2} (h : encodeDp c op sf rn rd op2 = .arm w) :
    Cond.ofBits (w.extractLsb' 28 4) = c ∧ w.extractLsb' 21 4 = op ∧ w[20] = sf ∧ regAt w 16 = rn ∧
      regAt w 12 = rd := by
  cases op2 <;> cases h <;> simp [regAt]

theorem encodeDp_tests {op2 : Operand2} (h : encodeDp c op sf rn rd op2 = .arm w) :
    w.extractLsb' 26 2 = 0b00#2 ∧ w[24] = op[3] ∧ w[23] = op[2] ∧ w[20] = sf := by
  cases op2 <;> cases h <;> simp

theorem encodeDp_imm_reads {rot : BitVec 4} {imm : BitVec 8} (h : encodeDp c op sf rn rd (.imm rot imm) = .arm w) :
    w[25] = true ∧ w.extractLsb' 8 4 = rot ∧ w.extractLsb' 0 8 = imm := by
  cases h
  simp

theorem encodeDp_shiftImm_reads {amt : BitVec 5} {ty : ShiftType} {rm : Reg}
    (h : encodeDp c op sf rn rd (.shiftImm amt ty rm) = .arm w) :
    w[25] = false ∧ w[4] = false ∧ shiftImmOf w = .shiftImm amt ty rm := by
  cases h
  simp [regAt, shiftImmOf]

theorem encodeDp_shiftReg_reads {rs : Reg} {ty : ShiftType} {rm : Reg}
    (h : encodeDp c op sf rn rd (.shiftReg rs ty rm) = .arm w) :
    w[25] = false ∧ w[4] = true ∧ w[7] = false ∧ shiftRegOf w = .shiftReg rs ty rm := by
  cases h
  simp [regAt, shiftRegOf]

end DataProcessing

section Multiply

variable {c : Cond} {op : BitVec 5} {signed a sf : Bool} {hd ld rs rm : Reg} {w : Word}
  (h : encodeMul c op signed a sf hd ld rs rm = .arm w)
include h

theorem encodeMul_fields :
    Cond.ofBits (w.extractLsb' 28 4) = c ∧ w[20] = sf ∧ regAt w 16 = hd ∧ regAt w 12 = ld ∧ regAt w 8 = rs ∧
      regAt w 0 = rm := by
  cases h
  simp [regAt]

theorem encodeMul_tests :
    w.extractLsb' 26 2 = op.extractLsb' 3 2 ∧ w[25] = op[2] ∧ w[24] = op[1] ∧ w[23] = op[0] ∧ w[22] = signed ∧
      w[21] = a ∧ w.extractLsb' 4 4 = 0x9#4 := by
  cases h
  simp

end Multiply

section Transfer

variable {c : Cond} {p up b wb l : Bool} {rn rd : Reg} {off : Offset} {w : Word}
  (h : encodeLdst c p up b wb l rn rd off = .arm w)
include h

theorem encodeLdst_fields :
    Cond.ofBits (w.extractLsb' 28 4) = c ∧ w[23] = up ∧ regAt w 16 = rn ∧ regAt w 12 = rd ∧ offsetOf w = off := by
  cases off <;> cases h <;> simp [regAt, offsetOf]

theorem encodeLdst_tests :
    w.extractLsb' 26 2 = 0b01#2 ∧ ¬(w[25] = true ∧ w[4] = true) ∧ w[24] = p ∧ w[22] = b ∧ w[21] = wb ∧ w[20] = l := by
  cases off <;> cases h <;> simp

end Transfer

section HalfwordTransfer

variable {c : Cond} {ix : Index} {up l : Bool} {sh : BitVec 2} {rn rd : Reg} {off : HalfOffset} {w : Word}
  (h : encodeHalf c ix up l sh rn rd off = .arm w)
include h

theorem encodeHalf_fields :
    Cond.ofBits (w.extractLsb' 28 4) = c ∧ w[23] = up ∧ regAt w 16 = rn ∧ regAt w 12 = rd ∧ halfOffsetOf w = off := by
  cases off <;> cases h <;> simp [regAt, halfOffsetOf]
  exact (BitVec.extractLsb'_append_extractLsb'_eq_extractLsb' (start₁ := 0) (len₁ := 4) rfl).trans
    BitVec.extractLsb'_eq_self

theorem encodeHalf_tests :
    w.extractLsb' 26 2 = 0b00#2 ∧ w[25] = false ∧ w[24] = ix.p ∧ w[21] = ix.w ∧ w[20] = l ∧
      w.extractLsb' 4 4 = 1#1 ++ sh ++ 1#1 := by
  have hindex : w.extractLsb' 4 4 = 1#1 ++ sh ++ 1#1 := by
    rw [extractLsb'_eq_iff]
    intro k hk
    cases off <;> cases h <;> interval_cases k <;> simp
  cases off <;> cases h <;> simp [hindex]

end HalfwordTransfer

section BlockTransfer

variable {c : Cond} {m : BlockMode} {sb wb l : Bool} {rn : Reg} {list : BitVec 16} {w : Word}
  (h : encodeBlock c m sb wb l rn list = .arm w)
include h

theorem encodeBlock_fields :
    Cond.ofBits (w.extractLsb' 28 4) = c ∧ blockModeOf w = m ∧ w[22] = sb ∧ w[21] = wb ∧ regAt w 16 = rn ∧
      w.extractLsb' 0 16 = list := by
  cases m <;> cases h <;> simp [regAt, blockModeOf, BlockMode.bits]

theorem encodeBlock_tests : w.extractLsb' 26 2 = 0b10#2 ∧ w[25] = false ∧ w[20] = l := by
  cases h
  simp

end BlockTransfer

theorem encodeRaw_fields {c : Cond} {raw : BitVec 28} {w : Word} (h : encodeRaw c raw = .arm w) :
    Cond.ofBits (w.extractLsb' 28 4) = c ∧ w.extractLsb' 0 28 = raw := by
  cases h
  simp

end Sys2Proof
end

section
/-! Decoding what the encoder writes in the 32-bit set (spec/30 R112, R121 to R130). -/

namespace Sys2Proof

/-- The operand form selects the class; the opcodes 8 to 11 without S are no data-processing words (R121). -/
theorem decodeArm_encodeDp {c : Cond} {op : BitVec 4} {sf : Bool} {rn rd : Reg} {op2 : Operand2} {w : Word}
    (h : encodeDp c op sf rn rd op2 = .arm w) (hs : ¬((op[3] = true ∧ op[2] = false) ∧ sf = false)) :
    decodeArm w = dpOf w op2 := by
  obtain ⟨h26, h24, h23, h20⟩ := encodeDp_tests h
  rw [decodeArm, armClass_armIndex]
  cases op2 with
  | imm rot imm =>
    obtain ⟨h25, hrot, himm⟩ := encodeDp_imm_reads h
    have hclass : armClassOf w = .dpImm := by simp [armClassOf, armClass00, h26, h25, h24, h23, h20, hs]
    rw [hclass, hrot, himm]
  | shiftImm amt ty rm =>
    obtain ⟨h25, h4, hop2⟩ := encodeDp_shiftImm_reads h
    have hodd {v : BitVec 4} (hv : v.getLsbD 0 = true) : w.extractLsb' 4 4 ≠ v :=
      extractLsb'_ne_of_bit 0 (by decide) (by simp [h4, hv])
    have hclass : armClassOf w = .dpShiftImm := by
      simp [armClassOf, armClass00, h26, h25, h24, h23, h20, h4, hs, hodd]
    rw [hclass, hop2]
  | shiftReg rs ty rm =>
    obtain ⟨h25, h4, h7, hop2⟩ := encodeDp_shiftReg_reads h
    have hlarge {v : BitVec 4} (hv : v.getLsbD 3 = true) : w.extractLsb' 4 4 ≠ v :=
      extractLsb'_ne_of_bit 3 (by decide) (by simp [h7, hv])
    have hbx : w.extractLsb' 20 8 ≠ 0x12#8 := by
      intro hbits
      have hbit24 : w[24] = true := getLsbD_of_extractLsb'_eq hbits (k := 4) (by decide)
      have hbit23 : w[23] = false := getLsbD_of_extractLsb'_eq hbits (k := 3) (by decide)
      have hbit20 : w[20] = false := getLsbD_of_extractLsb'_eq hbits (k := 0) (by decide)
      exact hs ⟨⟨h24 ▸ hbit24, h23 ▸ hbit23⟩, h20 ▸ hbit20⟩
    have hclass : armClassOf w = .dpShiftReg := by
      simp [armClassOf, armClass00, h26, h25, h24, h23, h20, h4, hs, hlarge, hbx]
    rw [hclass, hop2]

/-- The decoder gives back the instruction of the 32-bit set whose word it reads. -/
theorem decodeArm_encode {i : Instr} {w : Word} (h : encode i = .arm w) (hw : i.WellFormed = true) :
    decodeArm w = i := by
  obtain ⟨psrImm, psrReg, mul, swp, halfPostw, halfStore, undef, cop⟩ := armClassOf_spaces w
  cases i with
  | and | eor | sub | rsb | add | adc | sbc | rsc | tst | teq | cmp | cmn | orr | mov | bic | mvn =>
    obtain ⟨hc, hop, hs, hrn, hrd⟩ := encodeDp_fields h
    rw [decodeArm_encodeDp h (by simp), dpOf, hop]
    simp [hc, hs, hrn, hrd]
  | mrs | msrReg | msrImm | swp | swpb | b | bl | bx | swi =>
    cases h
    simp [decodeArm, armClass_armIndex, armClassOf, armClass00, regAt]
  | mul | mla | umull | umlal | smull | smlal =>
    obtain ⟨hc, hs, hhd, hld, hrs, hrm⟩ := encodeMul_fields h
    obtain ⟨h26, h25, h24, h23, h22, h21, h4⟩ := encodeMul_tests h
    simp [decodeArm, armClass_armIndex, armClassOf, armClass00, h26, h25, h24, h23, h22, h21, h4, hc, hs, hhd, hld,
      hrs, hrm]
  | ldr c ix | ldrb c ix | str c ix | strb c ix =>
    obtain ⟨hc, hup, hrn, hrd, hoff⟩ := encodeLdst_fields h
    obtain ⟨h26, h25, h24, h22, h21, h20⟩ := encodeLdst_tests h
    cases ix <;>
      simp [decodeArm, armClass_armIndex, armClassOf, armClass01, indexOf, Index.p, Index.w, h26, h25, h24, h22, h21,
        h20, hc, hup, hrn, hrd, hoff]
  | ldrt | ldrbt | strt | strbt =>
    obtain ⟨hc, hup, hrn, hrd, hoff⟩ := encodeLdst_fields h
    obtain ⟨h26, h25, h24, h22, h21, h20⟩ := encodeLdst_tests h
    simp [decodeArm, armClass_armIndex, armClassOf, armClass01, h26, h25, h24, h22, h21, h20, hc, hup, hrn, hrd, hoff]
  | ldrh c ix | strh c ix | ldrsb c ix | ldrsh c ix =>
    obtain ⟨hc, hup, hrn, hrd, hoff⟩ := encodeHalf_fields h
    obtain ⟨h26, h25, h24, h21, h20, h4⟩ := encodeHalf_tests h
    cases ix <;>
      simp [decodeArm, armClass_armIndex, armClassOf, armClass00, indexOf, Index.p, Index.w, h26, h25, h24, h21,
        h20, h4, hc, hup, hrn, hrd, hoff]
  | ldm | stm =>
    obtain ⟨hc, hm, hs, hwb, hrn, hlist⟩ := encodeBlock_fields h
    obtain ⟨h26, h25, h20⟩ := encodeBlock_tests h
    simp [decodeArm, armClass_armIndex, armClassOf, h26, h25, h20, hc, hm, hs, hwb, hrn, hlist]
  | reservedPsrImm =>
    obtain ⟨rfl, rfl⟩ := encodeRaw_fields h
    rw [decodeArm, armClass_armIndex, psrImm.mpr hw]
  | reservedPsrReg =>
    obtain ⟨rfl, rfl⟩ := encodeRaw_fields h
    rw [decodeArm, armClass_armIndex, psrReg.mpr hw]
  | reservedMul =>
    obtain ⟨rfl, rfl⟩ := encodeRaw_fields h
    rw [decodeArm, armClass_armIndex, mul.mpr hw]
  | reservedSwp =>
    obtain ⟨rfl, rfl⟩ := encodeRaw_fields h
    rw [decodeArm, armClass_armIndex, swp.mpr hw]
  | reservedHalfPostw =>
    obtain ⟨rfl, rfl⟩ := encodeRaw_fields h
    rw [decodeArm, armClass_armIndex, halfPostw.mpr hw]
  | reservedHalfStore =>
    obtain ⟨rfl, rfl⟩ := encodeRaw_fields h
    rw [decodeArm, armClass_armIndex, halfStore.mpr hw]
  | undefined =>
    obtain ⟨rfl, rfl⟩ := encodeRaw_fields h
    rw [decodeArm, armClass_armIndex, undef.mpr hw]
  | coprocessor =>
    obtain ⟨rfl, rfl⟩ := encodeRaw_fields h
    rw [decodeArm, armClass_armIndex, cop.mpr hw]
  | _ => cases h

end Sys2Proof
end

section
/-! What the halfwords of the 16-bit encoder hold (spec/30 R131, R132): their operand fields, and their index. -/

namespace Sys2Proof

/-! The index of a halfword whose low piece is wider than the six bits outside it. -/

theorem thumbIndex_five (x : BitVec 5) (y : BitVec 11) : thumbIndex (x ++ y) = x ++ y.extractLsb' 6 5 :=
  extractLsb'_pieces_across (lo := 6) (k := 5) x y rfl

theorem thumbIndex_eight (x : BitVec 8) (y : BitVec 8) : thumbIndex (x ++ y) = x ++ y.extractLsb' 6 2 :=
  extractLsb'_pieces_across (lo := 6) (k := 2) x y rfl

theorem thumbIndex_nine (x : BitVec 9) (y : BitVec 7) : thumbIndex (x ++ y) = x ++ y.extractLsb' 6 1 :=
  extractLsb'_pieces_across (lo := 6) (k := 1) x y rfl

section

variable {op : BitVec 7} {a b d : BitVec 3} {w : Half} (h : encodeThree op a b d = .thumb w)
include h

theorem encodeThree_fields : w.extractLsb' 6 3 = a ∧ w.extractLsb' 3 3 = b ∧ w.extractLsb' 0 3 = d := by
  cases h
  simp

theorem encodeThree_index : thumbIndex w = op ++ a := by
  cases h
  simp [thumbIndex]

end

section

variable {op imm : BitVec 5} {b d : LowReg} {w : Half} (h : encodeImm5 op imm b d = .thumb w)
include h

theorem encodeImm5_fields : w.extractLsb' 6 5 = imm ∧ lowRegAt w 3 = b ∧ lowRegAt w 0 = d := by
  cases h
  simp [lowRegAt]

theorem encodeImm5_index : thumbIndex w = op ++ imm := by
  cases h
  simp [thumbIndex]

end

section

variable {op : BitVec 5} {rd : LowReg} {imm : BitVec 8} {w : Half} (h : encodeImm8 op rd imm = .thumb w)
include h

theorem encodeImm8_fields : lowRegAt w 8 = rd ∧ w.extractLsb' 0 8 = imm := by
  cases h
  simp [lowRegAt]

theorem encodeImm8_index : thumbIndex w = op ++ LowReg.bits rd ++ imm.extractLsb' 6 2 := by
  cases h
  exact thumbIndex_eight _ _

end

section

variable {op : BitVec 4} {rs rd : LowReg} {w : Half} (h : encodeAlu op rs rd = .thumb w)
include h

theorem encodeAlu_fields : w.extractLsb' 6 4 = op ∧ lowRegAt w 3 = rs ∧ lowRegAt w 0 = rd := by
  cases h
  simp [lowRegAt]

theorem encodeAlu_class : thumbClass (thumbIndex w) = .alu := by
  have hclass : ∀ op : BitVec 4, thumbClass (0b010000#6 ++ op) = .alu := by decide
  cases h
  simpa [thumbIndex] using hclass op

end

section

variable {op : BitVec 2} {rd rs : Reg} {w : Half} (h : encodeHi op rd rs = .thumb w)
include h

theorem encodeHi_fields : hiRd w = rd ∧ hiRs w = rs := by
  have hbits (r : Reg) : (Reg.bits r).extractLsb' 3 1 ++ (Reg.bits r).extractLsb' 0 3 = Reg.bits r :=
    (BitVec.extractLsb'_append_extractLsb'_eq_extractLsb' rfl).trans BitVec.extractLsb'_eq_self
  cases h
  simp [hiRd, hiRs, hbits]

theorem encodeHi_index :
    thumbIndex w = 0b010001#6 ++ op ++ (Reg.bits rd).extractLsb' 3 1 ++ (Reg.bits rs).extractLsb' 3 1 := by
  cases h
  simp [thumbIndex]

end

end Sys2Proof
end

section
/-! Decoding what the encoder writes in the 16-bit set (spec/30 R113, R131, R132). The operand bits of the index do not
change the class of an encoded halfword. -/

namespace Sys2Proof

theorem encodeThree_class {op : BitVec 7} {a b d : BitVec 3} {w : Half} (h : encodeThree op a b d = .thumb w)
    (hop : ∀ x : BitVec 3, thumbClass (op ++ x) = thumbClass (op ++ 0#3)) :
    thumbClass (thumbIndex w) = thumbClass (op ++ 0#3) := by
  rw [encodeThree_index h, hop]

theorem encodeImm5_class {op imm : BitVec 5} {b d : LowReg} {w : Half} (h : encodeImm5 op imm b d = .thumb w)
    (hop : ∀ x : BitVec 5, thumbClass (op ++ x) = thumbClass (op ++ 0#5)) :
    thumbClass (thumbIndex w) = thumbClass (op ++ 0#5) := by
  rw [encodeImm5_index h, hop]

theorem encodeImm8_class {op : BitVec 5} {rd : LowReg} {imm : BitVec 8} {w : Half} (h : encodeImm8 op rd imm = .thumb w)
    (hop : ∀ (x : BitVec 3) (y : BitVec 2), thumbClass (op ++ x ++ y) = thumbClass (op ++ 0#5)) :
    thumbClass (thumbIndex w) = thumbClass (op ++ 0#5) := by
  rw [encodeImm8_index h, hop]

/-- With a high register the two bits H1 and H2 do not change the class. -/
theorem encodeHi_class {op : BitVec 2} {rd rs : Reg} {w : Half} (h : encodeHi op rd rs = .thumb w)
    (hw : someHigh rd rs = true)
    (hop : ∀ x y : BitVec 1, x = 1#1 ∨ y = 1#1 →
      thumbClass (0b010001#6 ++ op ++ x ++ y) = thumbClass (0b010001#6 ++ op ++ 0b11#2)) :
    thumbClass (thumbIndex w) = thumbClass (0b010001#6 ++ op ++ 0b11#2) := by
  rw [someHigh, decide_eq_true_eq, eight_le_iff_bits, eight_le_iff_bits] at hw
  rw [encodeHi_index h, hop _ _ hw]

theorem thumbClass_bcond {c : Cond} (hc : (c != .al && c != .nv) = true) (x : BitVec 2) :
    thumbClass (0b1101#4 ++ c.bits ++ x) = .bcond := by
  revert hc x
  cases c <;> decide

/-- The decoder gives back the instruction of the 16-bit set whose halfword it reads. -/
theorem decodeThumb_encode {i : Instr} {w : Half} (h : encode i = .thumb w) (hi : Machine.isArmInstr i = false)
    (hw : i.WellFormed = true) : decodeThumb w = i := by
  obtain ⟨undef, hiLoLo, bxH1, bcondAl, -, -⟩ := thumbClassOf_spaces w
  cases i with
  | tAddReg | tSubReg | tAddImm3 | tSubImm3 | tStrReg | tStrbReg | tLdrReg | tLdrbReg | tStrhReg | tLdsbReg | tLdrhReg
  | tLdshReg =>
    obtain ⟨h6, h3, h0⟩ := encodeThree_fields h
    rw [decodeThumb, encodeThree_class h (by decide)]
    simp only [lowRegAt, h6, h3, h0, LowReg.ofBits_bits]
    rfl
  | tLslImm | tLsrImm | tAsrImm | tStrImm | tLdrImm | tStrbImm | tLdrbImm | tStrhImm | tLdrhImm =>
    obtain ⟨himm, h3, h0⟩ := encodeImm5_fields h
    rw [decodeThumb, encodeImm5_class h (by decide)]
    simp only [himm, h3, h0]
    rfl
  | tMovImm | tCmpImm | tAddImm8 | tSubImm8 | tLdrPc | tStrSp | tLdrSp | tAddPc | tAddSp | tStmia | tLdmia =>
    obtain ⟨hrd, himm⟩ := encodeImm8_fields h
    rw [decodeThumb, encodeImm8_class h (by decide)]
    simp only [hrd, himm]
    rfl
  | tAnd | tEor | tLsl | tLsr | tAsr | tAdc | tSbc | tRor | tTst | tNeg | tCmp | tCmn | tOrr | tMul | tBic | tMvn =>
    obtain ⟨hop, hrs, hrd⟩ := encodeAlu_fields h
    rw [decodeThumb, encodeAlu_class h]
    simp only [aluOf, hop, hrs, hrd]
    rfl
  | tAddHi | tCmpHi | tMovHi =>
    obtain ⟨hrd, hrs⟩ := encodeHi_fields h
    rw [decodeThumb, encodeHi_class h hw (by decide)]
    simp only [hrd, hrs]
    rfl
  | tBx rs =>
    obtain ⟨-, hrs⟩ := encodeHi_fields h
    have hclass : ∀ x : BitVec 1, thumbClass (0b010001#6 ++ 0b11#2 ++ (Reg.bits 0).extractLsb' 3 1 ++ x) = .bx := by
      decide
    rw [decodeThumb, encodeHi_index h, hclass, hrs]
  | tSpAdd imm =>
    have hclass : ∀ x : BitVec 1, thumbClass (0b10110000#8 ++ 0#1 ++ x) = .spAdd := by decide
    cases h
    rw [decodeThumb, thumbIndex_nine, hclass]
    simp
  | tSpSub imm =>
    have hclass : ∀ x : BitVec 1, thumbClass (0b10110000#8 ++ 1#1 ++ x) = .spSub := by decide
    cases h
    rw [decodeThumb, thumbIndex_nine, hclass]
    simp
  | tPush lr list =>
    have hclass : ∀ x : BitVec 2, thumbClass (0b1011#4 ++ 0#1 ++ 0b10#2 ++ bit1 lr ++ x) = .push := by
      cases lr <;> decide
    cases h
    rw [decodeThumb, thumbIndex_eight, hclass]
    simp
  | tPop pc list =>
    have hclass : ∀ x : BitVec 2, thumbClass (0b1011#4 ++ 1#1 ++ 0b10#2 ++ bit1 pc ++ x) = .pop := by
      cases pc <;> decide
    cases h
    rw [decodeThumb, thumbIndex_eight, hclass]
    simp
  | tBcond c imm =>
    cases h
    rw [decodeThumb, thumbIndex_eight, thumbClass_bcond hw]
    simp
  | tSwi imm =>
    have hclass : ∀ x : BitVec 2, thumbClass (0b11011111#8 ++ x) = .swi := by decide
    cases h
    rw [decodeThumb, thumbIndex_eight, hclass]
    simp
  | tB imm =>
    have hclass : ∀ x : BitVec 5, thumbClass (0b11100#5 ++ x) = .b := by decide
    cases h
    rw [decodeThumb, thumbIndex_five, hclass]
    simp
  | tBlFirst imm =>
    have hclass : ∀ x : BitVec 5, thumbClass (0b11110#5 ++ x) = .blFirst := by decide
    cases h
    rw [decodeThumb, thumbIndex_five, hclass]
    simp
  | tBlSecond imm =>
    have hclass : ∀ x : BitVec 5, thumbClass (0b11111#5 ++ x) = .blSecond := by decide
    cases h
    rw [decodeThumb, thumbIndex_five, hclass]
    simp
  | tUndefined => cases h; rw [decodeThumb, thumbClass_thumbIndex, undef.mpr hw]
  | tReservedHiLoLo => cases h; rw [decodeThumb, thumbClass_thumbIndex, hiLoLo.mpr hw]
  | tReservedBxH1 => cases h; rw [decodeThumb, thumbClass_thumbIndex, bxH1.mpr hw]
  | tReservedBcondAl => cases h; rw [decodeThumb, thumbClass_thumbIndex, bcondAl.mpr hw]
  | _ => cases hi

end Sys2Proof
end

section
/-! The statements about the encoding (spec/30_encoding.md). -/

namespace Sys2Proof

/-- A code is a word of the 32-bit set. -/
def Code.isArm : Code → Bool
  | .arm _ => true
  | .thumb _ => false

theorem isArm_encodeDp (c : Cond) (op : BitVec 4) (sf : Bool) (rn rd : Reg) (op2 : Operand2) :
    (encodeDp c op sf rn rd op2).isArm = true := by cases op2 <;> rfl

theorem isArm_encodeLdst (c : Cond) (p up b wb l : Bool) (rn rd : Reg) (off : Offset) :
    (encodeLdst c p up b wb l rn rd off).isArm = true := by cases off <;> rfl

theorem isArm_encodeHalf (c : Cond) (ix : Index) (up l : Bool) (sh : BitVec 2) (rn rd : Reg) (off : HalfOffset) :
    (encodeHalf c ix up l sh rn rd off).isArm = true := by cases off <;> rfl

/-- The code of an instruction is of the instruction's set. -/
theorem isArm_encode (i : Instr) : (encode i).isArm = Machine.isArmInstr i := by
  cases i with
  | and | eor | sub | rsb | add | adc | sbc | rsc | tst | teq | cmp | cmn | orr | mov | bic | mvn =>
    exact isArm_encodeDp ..
  | ldr | ldrb | str | strb | ldrt | ldrbt | strt | strbt => exact isArm_encodeLdst ..
  | ldrh | strh | ldrsb | ldrsh => exact isArm_encodeHalf ..
  | _ => rfl

end Sys2Proof

open Sys2Proof Sys2Proof.Machine

/-- Settles O4: the code is a word, as the instruction is of the 32-bit set, and the decoder gives the instruction
back. -/
theorem armDecodeOfEncodeIsTheInstruction : Obligations.ArmDecodeOfEncodeIsTheInstruction := by
  unfold Obligations.ArmDecodeOfEncodeIsTheInstruction
  intro i hi hw
  have hset := isArm_encode i
  cases hcode : encode i with
  | arm w => exact ⟨w, rfl, decodeArm_encode hcode hw⟩
  | thumb w =>
    rw [hcode, hi] at hset
    contradiction

/-- Settles O5: the code is a halfword, as the instruction is of the 16-bit set, and the decoder gives the instruction
back. -/
theorem thumbDecodeOfEncodeIsTheInstruction : Obligations.ThumbDecodeOfEncodeIsTheInstruction := by
  unfold Obligations.ThumbDecodeOfEncodeIsTheInstruction
  intro i hi hw
  have hset := isArm_encode i
  cases hcode : encode i with
  | arm w =>
    rw [hcode, hi] at hset
    contradiction
  | thumb w => exact ⟨w, rfl, decodeThumb_encode hcode hi hw⟩

/-- Settles O6: the set is that of the decoder, and each class with a condition of well-formedness tests it. -/
theorem everyWordDecodesWellFormed : Obligations.EveryWordDecodesWellFormed := by
  unfold Obligations.EveryWordDecodesWellFormed
  exact ⟨fun w => ⟨isArmInstr_decodeArm w, wellFormed_decodeArm w⟩,
    fun w => ⟨isArmInstr_decodeThumb w, wellFormed_decodeThumb w⟩⟩

end

section
/-! The instruction in slot 0 and the bytes it came from, what stages 1, 3 and 4 of a step leave, and an instruction
whose condition fails (spec/30 R110, R111, R115, 40 R160, R163). -/

namespace Sys2Proof.Machine

open Sys2Proof

/-! ## The opcode at an aligned address and its bytes (30 R110, R111) -/

theorem decodeBytes_arm_memory (m : List Host.Cell) {a : Word} (h : Memory.alignWord a = a) :
    decodeBytes false [Memory.readByte m a, Memory.readByte m (a + 1), Memory.readByte m (a + 2),
      Memory.readByte m (a + 3)] = .ok (decodeArm (Memory.read m .word a), []) := by
  rw [Memory.read, Memory.readWord, h]
  rfl

theorem extract_read_half (m : List Host.Cell) (a : Word) :
    (Memory.read m .half a).extractLsb' 0 16 = Memory.readHalf m a := by
  rw [Memory.read, BitVec.extractLsb'_setWidth_of_le (by decide), BitVec.extractLsb'_eq_self]

theorem decodeBytes_thumb_memory (m : List Host.Cell) {a : Word} (h : Memory.alignHalf a = a) :
    decodeBytes true [Memory.readByte m a, Memory.readByte m (a + 1), Memory.readByte m (a + 2),
      Memory.readByte m (a + 3)] =
        .ok (decodeThumb ((Memory.read m .half a).extractLsb' 0 16),
          [Memory.readByte m (a + 2), Memory.readByte m (a + 3)]) := by
  rw [extract_read_half, Memory.readHalf, h]
  rfl

/-- In either set the bytes from an aligned address decode to the instruction of the opcode read there. -/
theorem decodeBytes_memory (m : List Host.Cell) (thumb : Bool) {a : Word} (h : alignPc thumb a = a) :
    ∃ rest, decodeBytes thumb [Memory.readByte m a, Memory.readByte m (a + 1), Memory.readByte m (a + 2),
      Memory.readByte m (a + 3)] =
        .ok (if thumb then decodeThumb ((Memory.read m (opSize thumb) a).extractLsb' 0 16)
          else decodeArm (Memory.read m (opSize thumb) a), rest) := by
  cases thumb
  · exact ⟨_, decodeBytes_arm_memory m h⟩
  · exact ⟨_, decodeBytes_thumb_memory m h⟩

/-- Where slot 0 holds what memory holds at the execution address, the instruction in it is the one that the bytes
there decode to. -/
theorem slotInstr_of_bytes {e : State} {i : Instr} {rest : List Byte}
    (hs : e.slot0 = Memory.read e.world.mem (opSize e.thumb) (execAddr e))
    (hd : decodeBytes e.thumb [Memory.readByte e.world.mem (execAddr e), Memory.readByte e.world.mem (execAddr e + 1),
      Memory.readByte e.world.mem (execAddr e + 2), Memory.readByte e.world.mem (execAddr e + 3)] = .ok (i, rest)) :
    e.slotInstr = i := by
  obtain ⟨_, hm⟩ := decodeBytes_memory e.world.mem e.thumb (execAddr_aligned e)
  rw [hm] at hd
  injection hd with hd
  rw [State.slotInstr, hs]
  exact congrArg Prod.fst hd

/-! ## What stages 1, 3 and 4 leave (40 R160) -/

/-- Of the world, stages 1, 3 and 4 change what one opcode fetch at the aligned r15, and the environment inside it,
change (20 R76). -/
theorem prepare_world_fetch (e : State) :
    e.prepare.world =
      e.world.play [.read (opSize e.thumb) (alignPc e.thumb (e.get regPc)) (codeAcc e.fetchKind)] := by
  rw [State.prepare_world, alignStep_get, if_pos rfl]

/-- Slot 1 takes what the fetch at the aligned r15 finds (10 R43). -/
theorem prepare_slot1 (e : State) :
    e.prepare.slot1 = Memory.read e.heard (opSize e.thumb) (alignPc e.thumb (e.get regPc)) := by
  have hfetch : e.prepare.slot1 = Memory.read e.heard (opSize e.thumb) (e.alignStep.get regPc) := rfl
  rw [hfetch, alignStep_get, if_pos rfl]

/-- The opcode fetch writes nothing. -/
theorem prepare_keepsMemory (e : State) : KeepsMemory e e.prepare := by
  refine keepsMemory_of_play (prepare_world_fetch e) fun c hc => ?_
  rw [List.mem_singleton.mp hc]
  rfl

/-- Where no halt, no degraded state and no interrupt stands before it, a step is that of an instruction. -/
theorem step_instr {s e : State} (he : s.environment = .next e) (hst : e.started = true)
    (hh : e.world.halted = false) (hm : e.modeOk = true) (hi : (e.world.irqLine && !e.irqMaskLatch) = false) :
    step s = e.instrStep :=
  (step_of he).trans (run_instr hst hh hm hi)

/-! ## An instruction whose condition fails (40 R163) -/

/-- `next` with no effect before it. -/
theorem retires_next_self (thumb : Bool) (s : State) :
    Retires thumb { flags := s.flags, kind := s.fetchKind } s (s.next thumb) :=
  retires_next rfl ⟨rfl, rfl⟩ rfl rfl rfl (fun _ _ _ => rfl) ⟨rfl, rfl, rfl⟩ rfl (fun _ _ _ => rfl)
    ⟨rfl, rfl, rfl, rfl⟩

/-- An instruction that carries a condition tests it before everything else it does (30 R115, 40 R160 stage 5). -/
theorem exec_eq_armInstr {i : Instr} {c : Cond} (hi : instrCond i = some c) (s : State) :
    ∃ (regs : List Reg) (body : Res State), exec i s = armInstr c regs s body := by
  -- `cases hi` leaves the constructors of the 32-bit set, each defined as an `armInstr`.
  cases i <;> cases hi <;> exact ⟨_, _, rfl⟩

/-- With a failed condition every instruction of the 32-bit set is `next`. -/
theorem exec_failed {i : Instr} {c : Cond} {s : State} (hi : instrCond i = some c) (hc : s.passes c = false) :
    exec i s = .next (s.next false) := by
  obtain ⟨regs, body, h⟩ := exec_eq_armInstr hi s
  rw [h, armInstr_failed regs hc]

/-- A step whose fetch meets no stop and whose instruction fails its condition is stages 1, 3 and 4, and `next`. -/
theorem instrStep_failed {e : State} {c : Cond} (hi : instrCond e.slotInstr = some c) (hc : e.passes c = false)
    (hs : e.prepare.world.stop = none) : e.instrStep = .next (e.prepare.next false) := by
  rw [instrStep_of hs, exec_failed (s := e.prepare) hi hc, andThen_next]
  exact settle_none hs

end Sys2Proof.Machine
end

section
/-! The statements about the step and its dispatch (spec/40_pipeline_dispatch.md). -/

open Sys2Proof Sys2Proof.Machine

/-- Settles O12: a failed condition is `next`, by itself and after the stages of a step that come before the
instruction. -/
theorem failedConditionDoesOnlyNext : Obligations.FailedConditionDoesOnlyNext := by
  unfold Obligations.FailedConditionDoesOnlyNext
  refine ⟨fun s i c hi hc => ?_, fun s e c he hst hh hm hq hT hi hc hs => ?_⟩
  · have hr := retires_next_self false s
    exact ⟨_, exec_failed hi hc, hr, rfl, hr.keepsMemory (by simp)⟩
  · have hslot : e.slotInstr = decodeArm e.slot0 := by rw [State.slotInstr, hT]; rfl
    have hstep : step s = .next (e.prepare.next false) := by
      rw [step_instr he hst hh hm hq, instrStep_failed (hslot ▸ hi) hc hs]
    have hr := retires_next_self false e.prepare
    have hslot1 := prepare_slot1 e
    have hworld := prepare_world_fetch e
    rw [hT] at hslot1 hworld
    refine ⟨_, hstep, ?_, fun r hne => ?_, rfl, rfl, prepare_keepsMemory e, rfl, hslot1, hworld⟩
    · rw [hr.pc, prepare_get, if_pos rfl, hT]
      rfl
    · rw [hr.frame.regs r hne (by simp), prepare_get, if_neg hne]

/-- Settles O8: the instruction of slot 0 runs on what stages 1, 3 and 4 leave, and is the one that the bytes at the
execution address decode to where slot 0 holds them. -/
theorem stepRunsTheDecodedInstruction : Obligations.StepRunsTheDecodedInstruction := by
  unfold Obligations.StepRunsTheDecodedInstruction
  intro s e he hst hh hm hq
  rw [step_instr he hst hh hm hq]
  refine ⟨fun hs => instrStep_of hs, fun i rest hs hslot hd => ?_, fun f hs => ?_, fun why hs => ?_, ?_, fun r hne => ?_,
    rfl, prepare_slot1 e, rfl, rfl, prepare_world_fetch e, rfl, prepare_keepsMemory e⟩
  · rw [instrStep_of hs, slotInstr_of_bytes hslot hd]
  · rw [State.instrStep, settle_fault hs, andThen_fault]
  · rw [State.instrStep, settle_refused hs, andThen_refused]
  · rw [prepare_get, if_pos rfl]
  · rw [prepare_get, if_neg hne]

end

section
/-! The condition evaluator, the barrel shifter, the adder and the multiplier as functions on numbers
(spec/41_alu_shifter_condition.md, spec/43 R287 to R292). -/

namespace Sys2Proof.Machine

open Sys2Proof

/-! ## Words as numbers -/

/-- Bit 31 is the sign of a word. -/
theorem getLsbD_31_eq_msb (v : Word) : v.getLsbD 31 = v.msb := (BitVec.msb_eq_getLsbD_last v).symm

theorem toInt_emod (v : Word) : v.toInt % 2 ^ 32 = v.toNat := by
  have hv := v.isLt
  rw [BitVec.toInt_eq_toNat_cond]
  split_ifs <;> omega

theorem toInt_bounds (v : Word) : -2 ^ 31 ≤ v.toInt ∧ v.toInt < 2 ^ 31 := ⟨BitVec.le_toInt v, BitVec.toInt_lt⟩

/-! ## Conditions (41 R190, R191) -/

/-- A pair of conditions is read off the table for all flags: NV is the negation of AL too. -/
theorem condHolds_odd_eq_not_even (k : BitVec 3) (f : Flags) :
    condHolds (Cond.ofBits (k ++ 1#1)) f = !condHolds (Cond.ofBits (k ++ 0#1)) f := by
  have table : ∀ (k : BitVec 3) (n z c v : Bool),
      condHolds (Cond.ofBits (k ++ 1#1)) ⟨n, z, c, v⟩ = !condHolds (Cond.ofBits (k ++ 0#1)) ⟨n, z, c, v⟩ := by
    decide
  exact table k f.n f.z f.c f.v

/-! ## The barrel shifter (41 R198, R199, R201)

The case split of each shift on its amount matters to the carry only: the result is the library's shift for every
amount. -/

theorem shiftLsl_fst (v : Word) (n : Nat) (cin : Bool) : (shiftLsl v n cin).1 = v <<< n := by
  unfold shiftLsl
  split_ifs with h0 h1 h2
  · simp [h0]
  · rfl
  · exact (BitVec.shiftLeft_eq_zero (by omega)).symm
  · exact (BitVec.shiftLeft_eq_zero (by omega)).symm

theorem shiftLsl_snd (v : Word) (n : Nat) (cin : Bool) :
    (shiftLsl v n cin).2 = if n = 0 then cin else decide (n ≤ 32) && v.getLsbD (32 - n) := by
  unfold shiftLsl
  split_ifs with h0 h1 h2
  · rfl
  · simp [h1.le]
  · simp [h2]
  · simp [show ¬n ≤ 32 by omega]

theorem shiftLsr_fst (v : Word) (n : Nat) (cin : Bool) : (shiftLsr v n cin).1 = v >>> n := by
  unfold shiftLsr
  split_ifs with h0 h1 h2
  · simp [h0]
  · rfl
  · exact (BitVec.ushiftRight_eq_zero (by omega)).symm
  · exact (BitVec.ushiftRight_eq_zero (by omega)).symm

theorem shiftLsr_snd (v : Word) (n : Nat) (cin : Bool) :
    (shiftLsr v n cin).2 = if n = 0 then cin else v.getLsbD (n - 1) := by
  unfold shiftLsr
  split_ifs with h0 h1 h2
  · rfl
  · rfl
  · rw [h2]
  · exact (BitVec.getLsbD_of_ge v (n - 1) (by omega)).symm

/-- An arithmetic shift by the whole width or more leaves copies of the sign. -/
theorem sshiftRight_of_width_le (v : Word) {n : Nat} (hn : 32 ≤ n) :
    v.sshiftRight n = if v.getLsbD 31 then 0xFFFFFFFF#32 else 0 := by
  have hbit (i : Nat) (hi : i < 32) : (v.sshiftRight n).getLsbD i = v.getLsbD 31 := by
    rw [BitVec.getLsbD_sshiftRight, if_neg (by omega), getLsbD_31_eq_msb]
    simp [hi]
  apply BitVec.eq_of_getLsbD_eq
  intro i hi
  rw [hbit i hi]
  split_ifs with hs
  · rw [hs, show 0xFFFFFFFF#32 = BitVec.allOnes 32 from rfl, BitVec.getLsbD_allOnes, decide_eq_true hi]
  · simpa using hs

theorem shiftAsr_fst (v : Word) (n : Nat) (cin : Bool) : (shiftAsr v n cin).1 = v.sshiftRight n := by
  unfold shiftAsr
  split_ifs with h0 h1 hs
  · simp [h0]
  · rfl
  · rw [sshiftRight_of_width_le v (by omega), if_pos hs]
  · rw [sshiftRight_of_width_le v (by omega), if_neg hs]

theorem shiftAsr_snd (v : Word) (n : Nat) (cin : Bool) :
    (shiftAsr v n cin).2 = if n = 0 then cin else v.getLsbD (min n 32 - 1) := by
  unfold shiftAsr
  split_ifs with h0 h1
  · rfl
  · rw [min_eq_left h1.le]
  all_goals rw [min_eq_right (by omega)]

/-- The rotation goes by the amount modulo 32, so a multiple of 32 leaves the word. -/
theorem getLsbD_shiftRor_fst (v : Word) (n : Nat) (cin : Bool) {k : Nat} (hk : k < 32) :
    (shiftRor v n cin).1.getLsbD k = v.getLsbD ((k + n) % 32) := by
  unfold shiftRor
  split_ifs with h0 h1
  · rw [h0, Nat.add_zero, Nat.mod_eq_of_lt hk]
  · rw [Nat.add_mod, h1, Nat.add_zero, Nat.mod_mod, Nat.mod_eq_of_lt hk]
  · rw [Memory.getLsbD_rotateRight v _ k hk, Nat.add_mod_mod]

theorem shiftRor_snd (v : Word) (n : Nat) (cin : Bool) :
    (shiftRor v n cin).2 = if n = 0 then cin else v.getLsbD ((n + 31) % 32) := by
  unfold shiftRor
  split_ifs with h0 h1
  · rfl
  · rw [show (n + 31) % 32 = 31 by omega]
  · rw [show (n + 31) % 32 = n % 32 - 1 by omega]

/-- The incoming carry comes in at bit 31. -/
theorem getLsbD_rrx_fst (v : Word) (cin : Bool) (k : Nat) :
    (rrx v cin).1.getLsbD k = if k = 31 then cin else v.getLsbD (k + 1) := by
  have htop : (if cin then 0x80000000#32 else 0).getLsbD k = (cin && decide (k = 31)) := by
    cases cin
    · simp
    · rw [if_pos rfl, show 0x80000000#32 = BitVec.twoPow 32 31 from rfl, BitVec.getLsbD_twoPow]
      simp [eq_comm]
  rw [rrx, BitVec.getLsbD_or, htop, BitVec.getLsbD_ushiftRight, Nat.add_comm 1 k]
  split_ifs with h
  · simp [h]
  · simp [h]

theorem shiftImm_of_ne_zero (ty : ShiftType) (v : Word) {imm : BitVec 5} (cin : Bool) (h : imm ≠ 0) :
    shiftImm ty v imm cin = shiftReg ty v imm.toNat cin := if_neg h

theorem getLsbD_rotImm_fst (rot : BitVec 4) (imm : BitVec 8) (cin : Bool) {k : Nat} (hk : k < 32) :
    (rotImm rot imm cin).1.getLsbD k = imm.getLsbD ((k + 2 * rot.toNat) % 32) := by
  rw [rotImm, Memory.getLsbD_rotateRight _ _ k hk, BitVec.getLsbD_setWidth,
    decide_eq_true (Nat.mod_lt _ (by decide)), Bool.true_and]

/-! ## The adder (41 R206, R207) -/

theorem addWithCarry_toNat (a b : Word) (c : Bool) :
    (addWithCarry a b c).value.toNat = (a.toNat + b.toNat + c.toNat) % 2 ^ 32 :=
  BitVec.toNat_ofNat _ _

theorem addWithCarry_n (a b : Word) (c : Bool) :
    (addWithCarry a b c).flags.n = (addWithCarry a b c).value.getLsbD 31 := rfl

theorem addWithCarry_z (a b : Word) (c : Bool) :
    (addWithCarry a b c).flags.z = true ↔ (addWithCarry a b c).value = 0 := beq_iff_eq

theorem addWithCarry_c (a b : Word) (c : Bool) :
    (addWithCarry a b c).flags.c = true ↔ 2 ^ 32 ≤ a.toNat + b.toNat + c.toNat := decide_eq_true_iff

/-- The overflow flag in signs: the operands agree and the result differs. -/
theorem addWithCarry_v_iff_signs (a b : Word) (c : Bool) :
    (addWithCarry a b c).flags.v = true ↔
      ((a.toInt < 0 ↔ b.toInt < 0) ∧ ¬(a.toInt < 0 ↔ (addWithCarry a b c).value.toInt < 0)) := by
  have hv : (addWithCarry a b c).flags.v = (~~~(a ^^^ b) &&& (a ^^^ (addWithCarry a b c).value)).getLsbD 31 := rfl
  rw [hv, getLsbD_31_eq_msb, BitVec.msb_and, BitVec.msb_not, BitVec.msb_xor, BitVec.msb_xor]
  simp only [BitVec.msb_eq_toInt]
  simp

/-- The signed sum and the signed result differ by a multiple of 2^32, and the sign rule says that the two are not the
same. -/
theorem addWithCarry_v (a b : Word) (c : Bool) :
    (addWithCarry a b c).flags.v = true ↔ (addWithCarry a b c).value.toInt ≠ a.toInt + b.toInt + c.toNat := by
  rw [addWithCarry_v_iff_signs]
  have hr := addWithCarry_toNat a b c
  generalize (addWithCarry a b c).value = r at hr
  have hmod : (r.toInt - (a.toInt + b.toInt + c.toNat)) % 2 ^ 32 = 0 := by
    have ha := toInt_emod a
    have hb := toInt_emod b
    have hs := toInt_emod r
    omega
  have hc := c.toNat_le
  have ha := toInt_bounds a
  have hb := toInt_bounds b
  have hs := toInt_bounds r
  omega

/-- Subtraction is addition of the complement, the overflow flag included: the two expressions of R207 for V are the
same function. -/
theorem subWithCarry_eq_addWithCarry_not (a b : Word) (c : Bool) :
    subWithCarry a b c = addWithCarry a (~~~b) c := by
  have hx : a ^^^ b = ~~~(a ^^^ ~~~b) := by rw [BitVec.not_xor_right, BitVec.not_not]
  rw [subWithCarry, hx]
  rfl

theorem toNat_not_add (b : Word) : (~~~b).toNat + b.toNat + 1 = 2 ^ 32 := by
  have hb := b.isLt
  rw [BitVec.toNat_not]
  omega

theorem toInt_not_eq (b : Word) : (~~~b).toInt = -b.toInt - 1 := by
  have hn := toNat_not_add b
  have hi := toInt_emod b
  have hm := toInt_emod (~~~b)
  have hb := toInt_bounds b
  have hc := toInt_bounds (~~~b)
  omega

/-! ## Products and multiplier cycles (43 R287, R289, R292) -/

theorem unsignedProduct_toNat (a b : Word) : (unsignedProduct a b).toNat = a.toNat * b.toNat := by
  have ha : (a.setWidth 64).toNat = a.toNat := BitVec.toNat_setWidth_of_le (by decide)
  have hb : (b.setWidth 64).toNat = b.toNat := BitVec.toNat_setWidth_of_le (by decide)
  rw [unsignedProduct, BitVec.toNat_mul_of_lt, ha, hb]
  rw [ha, hb]
  exact BitVec.toNat_mul_toNat_lt

theorem signedProduct_toInt (a b : Word) : (signedProduct a b).toInt = a.toInt * b.toInt := by
  have hle : a.toInt * b.toInt ≤ 2 ^ 62 := BitVec.toInt_mul_toInt_le
  have hge : -2 ^ 62 ≤ a.toInt * b.toInt := BitVec.le_toInt_mul_toInt
  rw [signedProduct, BitVec.toInt_mul, BitVec.toInt_signExtend_of_le (by decide),
    BitVec.toInt_signExtend_of_le (by decide)]
  exact Int.bmod_eq_of_le_mul_two (by omega) (by omega)

theorem ushiftRight_eq_zero_iff (v : Word) (k : Nat) : v >>> k = 0 ↔ v.toNat < 2 ^ k := by
  rw [← BitVec.toNat_inj, BitVec.toNat_ushiftRight, Nat.shiftRight_eq_div_pow]
  exact Nat.div_eq_zero_iff_lt (Nat.two_pow_pos k)

theorem sshiftRight_eq_allOnes_iff (v : Word) (k : Nat) :
    v.sshiftRight k = 0xFFFFFFFF#32 ↔ -(2 ^ k : Int) ≤ v.toInt ∧ v.toInt < 0 := by
  have hpow : (0 : Int) < 2 ^ k := by positivity
  rw [← BitVec.toInt_inj, BitVec.toInt_sshiftRight, Int.shiftRight_eq_div_pow,
    show (0xFFFFFFFF#32).toInt = -1 from rfl]
  push_cast
  rw [Int.ediv_eq_iff_of_pos hpow]
  omega

theorem topBitsUniform_unsigned (v : Word) (k : Nat) : topBitsUniform v k false = true ↔ v.toNat < 2 ^ k := by
  rw [topBitsUniform, Bool.false_and, Bool.or_false, beq_iff_eq, ushiftRight_eq_zero_iff]

theorem toNat_lt_two_pow_iff (v : Word) {k : Nat} (hk : k < 32) :
    v.toNat < 2 ^ k ↔ 0 ≤ v.toInt ∧ v.toInt < 2 ^ k := by
  have hle : (2 : Int) ^ k ≤ 2 ^ 31 := pow_le_pow_right₀ (by decide) (by omega)
  have hi := toInt_emod v
  have hv := toInt_bounds v
  zify
  omega

/-- The top bits of a non-negative multiplier are 0, those of a negative one 1. -/
theorem topBitsUniform_signed (v : Word) {k : Nat} (hk : k < 32) :
    topBitsUniform v k true = true ↔ -(2 ^ k : Int) ≤ v.toInt ∧ v.toInt < 2 ^ k := by
  have hpow : (0 : Int) < 2 ^ k := by positivity
  rw [topBitsUniform, Bool.true_and, Bool.or_eq_true, beq_iff_eq, beq_iff_eq, ushiftRight_eq_zero_iff,
    sshiftRight_eq_allOnes_iff, toNat_lt_two_pow_iff v hk]
  omega

end Sys2Proof.Machine
end

section
/-! The statements about the condition evaluator, the shifter and the ALU (spec/41_alu_shifter_condition.md). -/

open Sys2Proof Sys2Proof.Machine

/-- Settles O20: the results are the library's shifts, and each carry is the bit that the amount names. -/
theorem shifterResultsAndCarries : Obligations.ShifterResultsAndCarries := by
  unfold Obligations.ShifterResultsAndCarries
  refine ⟨fun v n cin => ⟨?_, shiftLsl_snd v n cin, ?_, shiftLsr_snd v n cin, ?_, shiftAsr_snd v n cin,
    fun k hk => getLsbD_shiftRor_fst v n cin hk, shiftRor_snd v n cin⟩,
    fun v cin => ⟨rfl, rfl, rfl, fun k _ => getLsbD_rrx_fst v cin k, rfl⟩,
    fun ty v imm cin h => shiftImm_of_ne_zero ty v cin h,
    fun rot imm cin => ⟨fun k hk => getLsbD_rotImm_fst rot imm cin hk, rfl⟩⟩
  · rw [shiftLsl_fst, BitVec.toNat_shiftLeft, Nat.shiftLeft_eq]
  · rw [shiftLsr_fst, BitVec.toNat_ushiftRight, Nat.shiftRight_eq_div_pow]
  · rw [shiftAsr_fst, BitVec.toInt_sshiftRight, Int.shiftRight_eq_div_pow, Nat.cast_pow, Nat.cast_ofNat]

/-- Settles O21: the facts about the adder, and for the subtraction the same facts at the complement of `b`. -/
theorem additionAndSubtractionResultsAndFlags : Obligations.AdditionAndSubtractionResultsAndFlags := by
  unfold Obligations.AdditionAndSubtractionResultsAndFlags
  refine ⟨fun a b c => ⟨addWithCarry_toNat a b c, addWithCarry_n a b c, addWithCarry_z a b c, addWithCarry_c a b c,
    addWithCarry_v a b c⟩, fun a b c => ?_⟩
  have hn := toNat_not_add b
  have hc := c.toNat_le
  rw [subWithCarry_eq_addWithCarry_not]
  refine ⟨?_, addWithCarry_n a _ c, addWithCarry_z a _ c, ?_, ?_⟩
  · rw [addWithCarry_toNat]
    omega
  · rw [addWithCarry_c]
    omega
  · rw [addWithCarry_v, toInt_not_eq]
    omega

/-- Settles O22: neither product leaves 64 bits, and uniform top bits are a range of the multiplier. -/
theorem productsAndMultiplierCycles : Obligations.ProductsAndMultiplierCycles := by
  unfold Obligations.ProductsAndMultiplierCycles
  refine ⟨fun a b => ⟨unsignedProduct_toNat a b, signedProduct_toInt a b⟩, fun v => ⟨?_, ?_⟩⟩
  · simp only [mulCycles, topBitsUniform_unsigned]
  · simp only [mulCycles, topBitsUniform_signed v (show 8 < 32 by decide),
      topBitsUniform_signed v (show 16 < 32 by decide), topBitsUniform_signed v (show 24 < 32 by decide)]

/-- Settles O19: a condition reads nothing but the flags, and the odd conditions negate the even ones. -/
theorem conditionTable : Obligations.ConditionTable := by
  unfold Obligations.ConditionTable
  refine ⟨fun s n z c v hf => ?_, fun s k => condHolds_odd_eq_not_even k s.flags⟩
  simp [State.passes, hf, Cond.ofBits, condHolds]

end

section
/-! The data-processing instructions as rows of their table (spec/42 R240 to R261), and the operand checks they share
with the multiplies (spec/43 R285 to R287). -/

namespace Sys2Proof.Machine

open Sys2Proof

/-! ## Operands (42 R241, R242) -/

/-- A register that data processing reads: r15 reads 4 further on where the amount is a register. -/
theorem dpReg_eq (s : State) (byReg : Bool) (r : Reg) :
    dpReg s byReg r = if r = regPc ∧ byReg = true then s.get regPc + 4 else s.get r := by
  by_cases hr : r = regPc
  · subst hr
    cases byReg <;> simp [dpReg]
  · simp [dpReg, hr]

/-- The amount of a register-specified shift is Rs modulo 256. -/
theorem toNat_lowByte (v : Word) : (v.extractLsb' 0 8).toNat = v.toNat % 256 := by
  simp [BitVec.extractLsb'_toNat]

/-! ## The rows of the table -/

/-- Each row with a destination is the shared operation on the result of the row, in the registers that the
instruction touches. -/
theorem exec_row {op : DataOp} (hop : op ∈ arithmeticOps ++ logicalOps) (c : Cond) (sf : Bool) (rn rd : Reg)
    (op2 : Operand2) (s : State) :
    ∃ regs : List Reg, exec (op.instr c sf rn rd op2) s = dataOp c regs sf rd op2 (op.result s rn op2) s ∧
      instrRegs (op.instr c sf rn rd op2) = rd :: regs ++ op2Regs op2 := by
  simp only [arithmeticOps, logicalOps, List.cons_append, List.nil_append, List.mem_cons, List.not_mem_nil,
    or_false] at hop
  -- Every row is its meaning unfolded; the rows of MOV and MVN have no Rn among the registers.
  obtain rfl | rfl | rfl | rfl | rfl | rfl | rfl | rfl | rfl | rfl | rfl | rfl := hop <;> exact ⟨_, rfl, rfl⟩

/-- Each comparison is the shared operation on some flags. -/
theorem exec_comparison {i : Instr} {c : Cond} {rn rd : Reg} {op2 : Operand2}
    (hi : i ∈ [Instr.tst c rn rd op2, .teq c rn rd op2, .cmp c rn rd op2, .cmn c rn rd op2]) (s : State) :
    ∃ f : Flags, exec i s = compareOp c rn rd op2 f s := by
  simp only [List.mem_cons, List.not_mem_nil, or_false] at hi
  obtain rfl | rfl | rfl | rfl := hi <;> exact ⟨_, rfl⟩

/-! ## The exception return after the internal cycle (42 R243, R244) -/

/-- The return after the internal cycle of a register-specified shift: the frame counts the cycle among its calls. -/
theorem op2Cycle_exceptionReturn_next {s : State} {m : Mode} (op2 : Operand2) (target : Word) (hb : s.bank ≠ .shared)
    (hw : s.bankConflict = false) (hm : Mode.ofBits (modeField (s.spsrOf s.bank)) = some m) :
    ∃ t : State, (op2Cycle s op2).exceptionReturn target = .next t ∧
      Returns (s.spsrOf s.bank) target [] (op2Calls op2) s t := by
  obtain ⟨t, ht, hret⟩ := exceptionReturn_next (op2Cycle s op2) target m (by simpa using hb) (by simpa using hw)
    (by simpa using hm)
  rw [op2Cycle_bank, op2Cycle_spsrOf] at hret
  exact ⟨t, ht, returns_from hret (op2Cycle_world s op2) (op2Cycle_spsr s op2) (op2Calls_reads op2) (by simp)
    (by simp)⟩

theorem op2Cycle_exceptionReturn_fault {s : State} (op2 : Operand2) (target : Word) (hb : s.bank ≠ .shared)
    (hw : s.bankConflict = false) (hm : Mode.ofBits (modeField (s.spsrOf s.bank)) = none) :
    (op2Cycle s op2).exceptionReturn target = (s.world.play (op2Calls op2)).stopOr (.fault .invalidMode) := by
  rw [exceptionReturn_fault _ _ (by simpa using hb) (by simpa using hw) (by simpa using hm), op2Cycle_world]

theorem op2Cycle_exceptionReturn_shared {s : State} (op2 : Operand2) (target : Word) (hb : s.bank = .shared) :
    (op2Cycle s op2).exceptionReturn target =
      (s.world.play (op2Calls op2)).stopOr (.refused .returnWithoutSpsr) := by
  rw [exceptionReturn_shared _ _ (by simpa using hb), op2Cycle_world]

/-! ## Refused operands -/

/-- A check of an instruction that holds is its answer, where the condition passes and the window is no obstacle. -/
theorem armInstr_refused {s : State} {c : Cond} {regs : List Reg} {b : Bool} {why : Refusal} {k : Res State}
    (hc : s.passes c = true) (ht : s.MayTouch regs) (hb : b = true) :
    armInstr c regs s (refuseIf b why k) = .refused why := by
  rw [armInstr_eq hc ht, hb, refuseIf_true]

/-- A comparison with a shift amount in r15 is refused (42 R243). -/
theorem compareOp_shiftByPc {c : Cond} {rn : Reg} {op2 : Operand2} {s : State} (rd : Reg) (f : Flags)
    (hc : s.passes c = true) (ht : s.MayTouch (rn :: op2Regs op2)) (hp : op2ShiftByPc op2 = true) :
    compareOp c rn rd op2 f s = .refused .shiftByPc :=
  armInstr_refused hc ht hp

/-- A comparison with Rd = 15 is refused (42 R245). -/
theorem compareOp_comparePc {c : Cond} {rn : Reg} {op2 : Operand2} {s : State} (f : Flags) (hc : s.passes c = true)
    (ht : s.MayTouch (rn :: op2Regs op2)) (hp : op2ShiftByPc op2 = false) :
    compareOp c rn regPc op2 f s = .refused .comparePc := by
  rw [compareOp, hp, refuseIf_false, armInstr_refused hc ht (beq_self_eq_true _)]

/-- The operands that a long multiply refuses (43 R287). -/
theorem mullRefused_iff (rdHi rdLo rs rm : Reg) :
    mullRefused rdHi rdLo rs rm = true ↔
      rdHi = regPc ∨ rdLo = regPc ∨ rm = regPc ∨ rs = regPc ∨ rdHi = rdLo ∨ rdHi = rm ∨ rdLo = rm := by
  simp only [mullRefused, Bool.or_eq_true, beq_iff_eq, or_assoc]

end Sys2Proof.Machine
end

section
/-! The statements about data processing and its operands (spec/42_arm_data_processing.md). -/

open Sys2Proof Sys2Proof.Machine

/-- Settles O25: each row is the shared operation, which retires with the row's result. -/
theorem dataProcessingWritesItsResult : Obligations.DataProcessingWritesItsResult := by
  unfold Obligations.DataProcessingWritesItsResult
  intro op hop c sf rn rd op2 s hc ht hp hd
  obtain ⟨regs, hexec, hregs⟩ := exec_row hop c sf rn rd op2 s
  rw [hregs] at ht
  rw [hexec]
  exact dataOp_done c sf regs rd op2 _ s hc ht hp hd

/-- Settles O27: each comparison is the shared operation on the flags of AND, EOR, SUB or ADD. -/
theorem comparisonsWriteOnlyFlags : Obligations.ComparisonsWriteOnlyFlags := by
  unfold Obligations.ComparisonsWriteOnlyFlags
  intro c rn rd op2 s hc ht hp hd
  have done (f : Flags) := compareOp_done c rn rd op2 f s hc ht hp hd
  exact ⟨done _, done _, done _, done _⟩

/-- Settles O28: each row is the shared operation, which with Rd = 15 and S = 0 is a branch to the row's result. -/
theorem dataProcessingToR15Branches : Obligations.DataProcessingToR15Branches := by
  unfold Obligations.DataProcessingToR15Branches
  intro op hop c rn op2 s hc ht hp
  obtain ⟨regs, hexec, hregs⟩ := exec_row hop c false rn regPc op2 s
  rw [hregs] at ht
  rw [hexec]
  exact dataOp_branch c regs op2 _ s hc ht hp

/-- Settles O29: each row is the exception return to the row's result after the internal cycle, and the bank and the
saved mode decide how that ends. -/
theorem dataProcessingReturnsFromException : Obligations.DataProcessingReturnsFromException := by
  unfold Obligations.DataProcessingReturnsFromException
  intro op hop c rn op2 s hc hp hw
  obtain ⟨regs, hexec, -⟩ := exec_row hop c true rn regPc op2 s
  rw [hexec, dataOp_return c regs op2 _ s hc (.inl hw) hp]
  exact ⟨fun m hb hm => op2Cycle_exceptionReturn_next op2 _ hb hw hm,
    fun hb hm => op2Cycle_exceptionReturn_fault op2 _ hb hw hm, fun hb => op2Cycle_exceptionReturn_shared op2 _ hb⟩

/-- Settles O44: the operands named are those that each instruction's first check refuses. -/
theorem dataOperandRefusals : Obligations.DataOperandRefusals := by
  unfold Obligations.DataOperandRefusals
  refine ⟨?_, ?_, ?_, ?_, ?_, ?_, ?_, ?_⟩
  · intro op hop c sf rn rd ty rm s hc ht
    obtain ⟨regs, hexec, hregs⟩ := exec_row hop c sf rn rd (.shiftReg regPc ty rm) s
    rw [hregs] at ht
    rw [hexec, dataOp_shiftByPc c regs sf rd _ _ s hc ht rfl]
  · intro c rn rd ty rm s hc ht i hi
    obtain ⟨f, hexec⟩ := exec_comparison hi s
    rw [hexec, compareOp_shiftByPc rd f hc ht rfl]
  · intro c rn op2 s hc ht hp
    have refused (f : Flags) := compareOp_comparePc f hc ht hp
    exact ⟨refused _, refused _, refused _, refused _⟩
  · intro c sf rd rs rm s hc ht h
    rw [exec, execMul]
    exact armInstr_refused hc ht (by simpa [or_assoc] using h)
  · intro c sf rd rn rs rm s hc ht h
    rw [exec, execMla]
    exact armInstr_refused hc ht (by simpa [or_assoc] using h)
  · intro c sf rdHi rdLo rs rm s hc ht h
    have refused (k : Res State) := armInstr_refused (why := .mullOperands) (k := k) hc ht
      ((mullRefused_iff rdHi rdLo rs rm).mpr h)
    exact ⟨refused _, refused _, refused _, refused _⟩
  · intro r s
    rw [exec, execTMul, beq_self_eq_true, refuseIf_true]
  · intro rs s ht
    have htouch : s.MayTouch [regPc, rs] := MayTouch.mono ht (by simp [isBanked])
    rw [exec, execTCmpHi, guardBanked_eq htouch, beq_self_eq_true, refuseIf_true]

/-- Settles O7: each word is what the encoder writes for its instruction, and the decoder gives that back. -/
theorem sampleWordsDecodeAsTheSpecSays : Obligations.SampleWordsDecodeAsTheSpecSays := by
  unfold Obligations.SampleWordsDecodeAsTheSpecSays
  exact ⟨decodeArm_encode rfl rfl, decodeArm_encode rfl rfl, decodeArm_encode rfl rfl, decodeArm_encode rfl rfl,
    decodeArm_encode rfl rfl, decodeArm_encode rfl rfl, decodeArm_encode rfl rfl, decodeThumb_encode rfl rfl rfl,
    decodeThumb_encode rfl rfl rfl, decodeThumb_encode rfl rfl rfl⟩

/-- Settles O24: the three forms of the operand, and r15 where the amount is a register. -/
theorem operandsOfDataProcessing : Obligations.OperandsOfDataProcessing := by
  unfold Obligations.OperandsOfDataProcessing
  intro s
  refine ⟨fun rot imm => rfl, fun amt ty rm => rfl, fun rs rm ty => ?_, fun op2 rn => dpReg_eq s (op2ByReg op2) rn⟩
  rw [operand2, dpReg_eq, toNat_lowByte]
  simp only [and_true]

end

section
/-! MRS, MSR and the multiplies, each as its shared operation (spec/43 R280 to R290, 47 R424). -/

namespace Sys2Proof.Machine

open Sys2Proof

/-! ## MRS (43 R280) -/

/-- The status that MRS reads outside the window: in User and System mode the SPSR is CPSR (10 R33, R34). -/
theorem mrs_status {s : State} {p : Bool} (hw : p = true → s.bankConflict = false) :
    (if p then s.getSpsr else s.cpsr) = if p = true ∧ s.bank ≠ .shared then s.spsrOf s.bank else s.cpsr := by
  cases p
  · simp
  · rw [if_pos rfl, State.getSpsr, hw rfl]
    by_cases hb : s.bank = .shared
    · simp [hb, State.spsrOf]
    · simp [hb]

/-- A write of one register other than r15, then `next`. -/
theorem retires_set_next {rd : Reg} (thumb : Bool) (v : Word) (s : State) (hd : rd ≠ regPc) :
    Retires thumb { dst := [rd], flags := s.flags, kind := s.fetchKind } s ((s.set rd v).next thumb) := by
  apply retires_next <;> simp +contextual [State.get_set, hd.symm]

/-- Past the operand checks MRS is one register write. -/
theorem exec_mrs {c : Cond} {p : Bool} {rd : Reg} {s : State} (hc : s.passes c = true) (ht : s.MayTouch [rd])
    (hd : rd ≠ regPc) :
    exec (.mrs c p rd) s = refuseIf (p && s.bankConflict) .bankConflict
      (.next ((s.set rd (if p then s.getSpsr else s.cpsr)).next false)) := by
  rw [exec, execMrs, armInstr_eq hc ht, beq_false_of_ne hd, refuseIf_false]

/-! ## MSR (43 R284) -/

theorem msrWrite_reservedBit {s : State} {p : Bool} {mask : BitVec 4} {op : Word}
    (h : ¬msrKeepsReserved s p mask op) : msrWrite p mask op s = .refused .msrReservedBit := by
  rw [← msrReserved_iff, Bool.not_eq_false] at h
  rw [msrWrite, h, refuseIf_true]

theorem msrWrite_eq {s : State} {p : Bool} {mask : BitVec 4} {op : Word} (h : msrKeepsReserved s p mask op) :
    msrWrite p mask op s =
      if p then msrSpsr (msrMask s p mask) op s else msrCpsr (msrMask s p mask) op s := by
  rw [msrWrite, (msrReserved_iff s p mask op).mpr h, refuseIf_false]

theorem msrSpsr_shared {s : State} (mask op : Word) (h : s.bank = .shared) :
    msrSpsr mask op s = .refused .msrSpsrWithoutSpsr := by
  rw [msrSpsr, h, beq_self_eq_true, refuseIf_true]

/-- A write of an SPSR, then `next`: of the rest only r15 moves. -/
theorem retires_setSpsr_next (s : State) (b : Bank) (w : Word) :
    Retires false { flags := s.flags, kind := s.fetchKind } s
      { (s.setSpsr b w).next false with spsr := s.spsr } := by
  have h : { (s.setSpsr b w).next false with spsr := s.spsr } = s.next false := by
    cases b <;> rfl
  rw [h]
  exact retires_next_self false s

/-- MSR to CPSR in the bits that the field mask names: the control byte is written as a whole or not at all, and
switches the mode. -/
theorem msrCpsr_msrMask (s : State) (mask : BitVec 4) (op : Word) :
    msrCpsr (msrMask s false mask) op s =
      refuseIf (msrWrites s false mask 0 && op.getLsbD 5 != s.thumb) .msrChangesT
        (andThen (if msrWrites s false mask 0 then s.switchMode (modeField op) else .next s) fun s1 =>
          .next ((s1.setCpsr (mergeMask s1.cpsr op (msrMask s false mask))).next false)) := by
  rw [msrCpsr, getLsbD_msrMask _ _ _ 5 (by decide), msrWrites_byte _ _ _ 5 (by decide), msrMask_low]

theorem msrCpsr_changesT {s : State} {mask : BitVec 4} {op : Word} (hw : msrWrites s false mask 0 = true)
    (hT : op.getLsbD 5 ≠ s.thumb) : msrCpsr (msrMask s false mask) op s = .refused .msrChangesT := by
  rw [msrCpsr_msrMask, hw, bne_iff_ne.mpr hT, Bool.true_and, refuseIf_true]

theorem msrCpsr_switchMode {s : State} {mask : BitVec 4} {op : Word} (hw : msrWrites s false mask 0 = true)
    (hT : op.getLsbD 5 = s.thumb) :
    msrCpsr (msrMask s false mask) op s = andThen (s.switchMode (modeField op)) fun s1 =>
      .next ((s1.setCpsr (mergeMask s1.cpsr op (msrMask s false mask))).next false) := by
  rw [msrCpsr_msrMask, hw, hT, bne_self_eq_false, Bool.and_false, refuseIf_false, if_pos rfl]

/-- The mode field after the write is all the operand's or all as it was. -/
theorem modeField_mergeMask (s : State) (mask : BitVec 4) (old op : Word) :
    modeField (mergeMask old op (msrMask s false mask)) =
      if msrWrites s false mask 0 then modeField op else modeField old := by
  apply BitVec.eq_of_getLsbD_eq
  intro k hk
  rw [getLsbD_modeField _ k hk, getLsbD_mergeMask _ _ _ k (by omega), getLsbD_msrMask _ _ _ k (by omega),
    msrWrites_byte _ _ _ k (by omega)]
  split_ifs <;> rw [getLsbD_modeField _ k hk]

/-- Where MSR to CPSR completes: `u`, the state before CPSR is written, already has the mode that the write leaves. It
is the state before, or where the control byte is written the state after the switch. -/
theorem msrCpsr_next {s : State} {mask : BitVec 4} {op : Word}
    (h : msrWrites s false mask 0 = true →
      op.getLsbD 5 = s.thumb ∧ s.bankConflict = false ∧ (Mode.ofBits (modeField op)).isSome = true) :
    ∃ u : State,
      msrCpsr (msrMask s false mask) op s =
        .next ((u.setCpsr (mergeMask u.cpsr op (msrMask s false mask))).next false) ∧
      modeField (mergeMask u.cpsr op (msrMask s false mask)) = modeField u.cpsr ∧
      ((msrWrites s false mask 0 = false ∧ u = s) ∨
        (msrWrites s false mask 0 = true ∧ ∃ m : Mode, u = s.switchTo m)) := by
  cases hw : msrWrites s false mask 0
  · refine ⟨s, ?_, ?_, .inl ⟨rfl, rfl⟩⟩
    · rw [msrCpsr_msrMask, hw]
      rfl
    · rw [modeField_mergeMask, hw]
      rfl
  · obtain ⟨hT, hbc, hsome⟩ := h hw
    obtain ⟨m, hm⟩ := Option.isSome_iff_exists.mp hsome
    refine ⟨s.switchTo m, ?_, ?_, .inr ⟨rfl, m, rfl⟩⟩
    · rw [msrCpsr_switchMode hw hT, switchMode_next hm hbc, andThen_next]
    · rw [modeField_mergeMask, hw, if_pos rfl, State.switchTo_cpsr, modeField_setMode, Mode.bits_of_ofBits hm]

theorem mode_setCpsr {u : State} {w : Word} (h : modeField w = modeField u.cpsr) : (u.setCpsr w).mode = u.mode := by
  rw [State.mode, State.mode, State.setCpsr_cpsr, h]

/-- CPSR written without a change of the mode, then `next`: every mode sees the registers it saw. -/
theorem seenBy_setCpsr_next {u : State} {w : Word} (h : modeField w = modeField u.cpsr) (m : Mode) {r : Reg}
    (hr : r ≠ regPc) : ((u.setCpsr w).next false).seenBy m r = u.seenBy m r := by
  have hbank : (u.setCpsr w).bank = u.bank := by rw [State.bank, mode_setCpsr h, State.bank]
  rw [State.next_seenBy _ _ _ _ hr]
  exact State.seenBy_congr hbank (fun _ _ => rfl) rfl rfl m r hr

/-- What MSR to CPSR does where it completes. -/
theorem msrCpsr_done {s : State} {mask : BitVec 4} {op : Word}
    (h : msrWrites s false mask 0 = true →
      op.getLsbD 5 = s.thumb ∧ s.bankConflict = false ∧ (Mode.ofBits (modeField op)).isSome = true) :
    ∃ t : State, msrCpsr (msrMask s false mask) op s = .next t ∧
      (∀ k : Nat, k < 32 → t.cpsr.getLsbD k = if msrWrites s false mask k then op.getLsbD k else s.cpsr.getLsbD k) ∧
      (∀ (m : Mode) (r : Reg), r ≠ regPc → t.seenBy m r = s.seenBy m r) ∧
      (∀ r : Reg, r ≠ regPc →
        t.get r = if msrWrites s false mask 0 then s.seenBy t.mode r else s.get r) ∧
      t.get regPc = s.get regPc + 4 ∧ t.bankConflict = false ∧
      { t with x := s.x, bankLo := s.bankLo, bankHi := s.bankHi, cpsr := s.cpsr, bankConflict := s.bankConflict } = s := by
  obtain ⟨u, ht, hmode, hu⟩ := msrCpsr_next h
  refine ⟨_, ht, msrCpsr_bit ht, fun m r hr => ?_, fun r hr => ?_, ?_, rfl, ?_⟩
  · rw [seenBy_setCpsr_next hmode m hr]
    obtain ⟨-, rfl⟩ | ⟨-, m', rfl⟩ := hu
    · rfl
    · exact s.switchTo_seenBy m' m r
  · rw [State.next_mode, mode_setCpsr hmode, State.get_next, if_neg hr, State.setCpsr_get]
    obtain ⟨hw, rfl⟩ | ⟨hw, m, rfl⟩ := hu
    · rw [hw]
      rfl
    · rw [hw, if_pos rfl, State.switchTo_mode, State.switchTo_get]
  · rw [(msrCpsr_frame ht).pc]
    rfl
  · obtain ⟨-, rfl⟩ | ⟨-, m, rfl⟩ := hu
    · rfl
    · simp [State.next, State.set, State.setCpsr]

/-! ## Multiplies (43 R285 to R290, 47 R424) -/

/-- The state after the 16-bit multiply: that of MUL with S = 1, one halfword further on (47 R424). -/
def thumbMulFinish (rd : LowReg) (cycles : Nat) (r : Word) (s : State) : State :=
  (((drawFlags true (mulFlags s r) (s.idle cycles)).set (low rd) r).setFetchKind .n).next true

theorem exec_tMul {rs rd : LowReg} (h : rd ≠ rs) (s : State) :
    exec (.tMul rs rd) s =
      .next (thumbMulFinish rd (mulCycles (s.get (low rd)) true) (s.get (low rd) * s.get (low rs)) s) := by
  rw [exec, execTMul, beq_false_of_ne h, refuseIf_false, thumbMulFinish]

theorem thumbMulFinish_done (rd : LowReg) (cycles : Nat) (r : Word) (s : State) :
    (thumbMulFinish rd cycles r s).get (low rd) = r ∧
      Retires true
        { dst := [low rd], flags := mulFlags s r, kind := .n, calls := List.replicate cycles .idle, draws := 1 } s
        (thumbMulFinish rd cycles r s) ∧
      KeepsMemory s (thumbMulFinish rd cycles r s) := by
  have hr : Retires true
      { dst := [low rd], flags := mulFlags s r, kind := .n, calls := List.replicate cycles .idle, draws := 1 } s
      (thumbMulFinish rd cycles r s) := by
    unfold thumbMulFinish
    apply retires_next <;> simp +contextual [State.get_set, pc_ne_low, getLsbD_drawFlags]
  refine ⟨?_, hr, hr.keepsMemory (idles_read cycles)⟩
  rw [thumbMulFinish, State.get_next, if_neg (low_ne_pc rd), State.setFetchKind_get, State.get_set_self]

/-- Every long multiply is this expression, on its own product and cycles. -/
theorem mull_done {c : Cond} {rdHi rdLo rs rm : Reg} {s : State} (sf : Bool) (n : Nat) (p : BitVec 64)
    (hc : s.passes c = true) (ht : s.MayTouch [rdHi, rdLo, rs, rm]) (hok : mullRefused rdHi rdLo rs rm = false) :
    ∃ t : State,
      armInstr c [rdHi, rdLo, rs, rm] s (refuseIf (mullRefused rdHi rdLo rs rm) .mullOperands
        (.next (mullFinish sf rdHi rdLo n p s))) = .next t ∧
      t.get rdHi ++ t.get rdLo = p ∧
      Retires false
        { dst := [rdHi, rdLo], flags := if sf then mullFlags s p else s.flags, kind := .n,
          calls := List.replicate n .idle, draws := sf.toNat } s t ∧
      KeepsMemory s t := by
  have hlegal := mt (mullRefused_iff rdHi rdLo rs rm).mpr (Bool.eq_false_iff.mp hok)
  simp only [not_or] at hlegal
  obtain ⟨hHi, hLo, -, -, hne, -, -⟩ := hlegal
  exact ⟨_, by rw [armInstr_eq hc ht, hok, refuseIf_false], mullFinish_done sf rdHi rdLo n p s hHi hLo hne⟩

end Sys2Proof.Machine
end

section
/-! The statements about status-register transfers, multiplies and the reserved indices
(spec/43_arm_psr_multiply.md). -/

open Sys2Proof Sys2Proof.Machine

/-- Settles O30: MRS is one register write behind two checks. -/
theorem mrsReadsStatus : Obligations.MrsReadsStatus := by
  unfold Obligations.MrsReadsStatus
  intro c p rd s hc ht
  refine ⟨fun hd hw => ?_, fun hd => ?_, fun hd hp hbc => ?_⟩
  · have hr := retires_set_next false (if p then s.getSpsr else s.cpsr) s hd
    refine ⟨_, ?_, ?_, hr, hr.keepsMemory (by simp)⟩
    · have hpass : (p && s.bankConflict) = false := by simpa using hw
      rw [exec_mrs hc ht hd, hpass, refuseIf_false]
    · rw [State.get_next, if_neg hd, State.get_set_self, mrs_status hw]
  · rw [exec, execMrs]
    exact armInstr_refused hc ht (beq_iff_eq.mpr hd)
  · rw [exec_mrs hc ht hd, hp, hbc, Bool.and_self, refuseIf_true]

/-- Settles O31: both forms are the common semantics, which past the reserved-bit check writes CPSR or the SPSR of the
mode. -/
theorem msrWritesItsStatusRegister : Obligations.MsrWritesItsStatusRegister := by
  unfold Obligations.MsrWritesItsStatusRegister
  refine ⟨fun s mask i op hform hkeep hctl => ?_, fun s mask i op hform hkeep hb hbc => ?_⟩
  · rw [hform.exec_eq, msrWrite_eq hkeep]
    exact msrCpsr_done hctl
  · rw [hform.exec_eq, msrWrite_eq hkeep, if_pos rfl, msrSpsr_next _ _ _ hb hbc]
    refine ⟨_, rfl, fun k hk => ?_, fun b hne => ?_, by simp, retires_setSpsr_next s _ _,
      keepsMemory_of_play (cs := []) (by simp) (by simp)⟩
    · rw [State.next_spsrOf, State.spsrOf_setSpsr _ _ _ _ hb, if_pos rfl, getLsbD_mergeMask _ _ _ k hk,
        getLsbD_msrMask _ _ _ k hk]
    · rw [State.next_spsrOf, State.spsrOf_setSpsr _ _ _ _ hb, if_neg hne]

/-- Settles O33: the checks of the common semantics in their order, and the check of Rm before it. -/
theorem msrStops : Obligations.MsrStops := by
  unfold Obligations.MsrStops
  refine ⟨fun s p mask i op hform => ?_, fun c p mask s hc => ?_⟩
  · rw [hform.exec_eq]
    refine ⟨msrWrite_reservedBit, fun hkeep hp hb => ?_, fun hkeep hp hw hT => ?_, fun hkeep hp hw hT hm => ?_⟩
    · rw [msrWrite_eq hkeep, if_pos hp, msrSpsr_shared _ _ hb]
    · subst hp
      rw [msrWrite_eq hkeep]
      exact msrCpsr_changesT hw hT
    · subst hp
      rw [msrWrite_eq hkeep, if_neg Bool.false_ne_true, msrCpsr_switchMode hw hT, switchMode_fault hm, andThen_fault]
  · rw [exec, execMsrReg]
    exact armInstr_refused hc (.inr (by simp [isBanked])) (beq_self_eq_true _)

/-- Settles O34: past the operand checks each is the shared end of the multiplies on its product and cycles, and the
flags are those of the register it wrote. -/
theorem multipliesWriteTheLowWord : Obligations.MultipliesWriteTheLowWord := by
  unfold Obligations.MultipliesWriteTheLowWord
  refine ⟨?_, ?_, ?_⟩
  · intro c sf rd rs rm s hc ht hd hm hs hne
    obtain ⟨hget, hret, hmem⟩ := mulFinish_done sf rd (mulCycles (s.get rs) true) (s.get rm * s.get rs) s hd
    refine ⟨_, ?_, hget, ?_, hmem⟩
    · rw [exec, execMul, armInstr_eq hc ht, beq_false_of_ne hd, beq_false_of_ne hm, beq_false_of_ne hs,
        beq_false_of_ne hne]
      rfl
    · rw [hget]
      exact hret
  · intro c sf rd rn rs rm s hc ht hd hm hs hn hne
    obtain ⟨hget, hret, hmem⟩ :=
      mulFinish_done sf rd (mulCycles (s.get rs) true + 1) (s.get rm * s.get rs + s.get rn) s hd
    refine ⟨_, ?_, hget, ?_, hmem⟩
    · rw [exec, execMla, armInstr_eq hc ht, beq_false_of_ne hd, beq_false_of_ne hm, beq_false_of_ne hs,
        beq_false_of_ne hn, beq_false_of_ne hne]
      rfl
    · rw [hget]
      exact hret
  · intro rs rd s hne
    obtain ⟨hget, hret, hmem⟩ :=
      thumbMulFinish_done rd (mulCycles (s.get (low rd)) true) (s.get (low rd) * s.get (low rs)) s
    refine ⟨_, exec_tMul hne s, hget, ?_, hmem⟩
    rw [hget]
    exact hret

/-- Settles O35: each row is one expression of its product and cycles, which with legal operands completes. -/
theorem longMultipliesWriteBothWords : Obligations.LongMultipliesWriteBothWords := by
  unfold Obligations.LongMultipliesWriteBothWords
  intro c sf rdHi rdLo rs rm s hc ht hHi hLo hm hs hne hHiRm hLoRm row hrow
  have hok : mullRefused rdHi rdLo rs rm = false := by
    rw [Bool.eq_false_iff, Ne, mullRefused_iff]
    simp only [hHi, hLo, hm, hs, hne, hHiRm, hLoRm, or_self, not_false_iff]
  simp only [List.mem_cons, List.not_mem_nil, or_false] at hrow
  obtain rfl | rfl | rfl | rfl := hrow <;> exact mull_done sf _ _ hc ht hok

/-- Settles O46: a reserved index of the 32-bit set touches no register and is refused where its condition passes; one of
the 16-bit set has no condition. -/
theorem reservedEncodingsAreRefused : Obligations.ReservedEncodingsAreRefused := by
  unfold Obligations.ReservedEncodingsAreRefused
  refine ⟨fun c raw s hc => ?_, fun raw s => ⟨rfl, rfl, rfl⟩⟩
  have refused (why : Refusal) : armInstr c [] s (.refused why) = .refused why :=
    armInstr_eq hc (.inr (by simp)) _
  exact ⟨refused _, refused _, refused _, refused _, refused _, refused _⟩

end

section
/-! The addresses of the transfers as unbounded numbers, and their register lists (spec/44 R310, 45 R350, 48 R450 to
R470). -/

namespace Sys2Proof.Machine

open Sys2Proof

/-! ## The indexed address (44 R310) -/

theorem toNat_indexedAddr_up (s : State) (rn : Reg) (off : Word) :
    (indexedAddr s true rn off).toNat = ((s.get rn).toNat + off.toNat) % 2 ^ 32 :=
  BitVec.toNat_add _ _

theorem toNat_indexedAddr_down (s : State) (rn : Reg) (off : Word) :
    (indexedAddr s false rn off).toNat = (2 ^ 32 + (s.get rn).toNat - off.toNat) % 2 ^ 32 := by
  have hoff := off.isLt
  rw [indexedAddr, if_neg Bool.false_ne_true, BitVec.toNat_sub, Nat.sub_add_comm hoff.le]

theorem writesBack_iff (ix : Index) : writesBack ix = true ↔ ix ≠ .offset := by
  cases ix <;> decide

/-! ## Blocks (45 R350) -/

/-- An address `4n` above a base. -/
theorem toNat_add_listBytes (b : Word) (regs : List Reg) :
    ((b + listBytes regs).toNat : Int) = (b.toNat + 4 * regs.length) % 2 ^ 32 := by
  rw [listBytes, BitVec.toNat_add, BitVec.toNat_ofNat, Nat.add_mod_mod]
  push_cast
  rfl

/-- An address `4n` below a base. -/
theorem toNat_sub_listBytes (b : Word) (regs : List Reg) :
    ((b - listBytes regs).toNat : Int) = (b.toNat - 4 * regs.length) % 2 ^ 32 := by
  rw [listBytes, BitVec.toNat_sub, BitVec.toNat_ofNat]
  omega

theorem toNat_add_four (b : Word) : ((b + 4).toNat : Int) = (b.toNat + 4) % 2 ^ 32 := by
  rw [BitVec.toNat_add]
  rfl

theorem toNat_wordAddr (b : Word) (k : Nat) : (wordAddr b k).toNat = (b.toNat + 4 * k) % 2 ^ 32 := by
  rw [wordAddr, BitVec.toNat_add, BitVec.toNat_ofNat, Nat.add_mod_mod]

/-! ## Register lists (45 R350, 48 R467, R468) -/

theorem regList_ascending (list : BitVec 16) : (regList list).Pairwise (fun a b => a.val < b.val) :=
  (by decide : allRegs.Pairwise (fun a b => a.val < b.val)).filter _

/-- The low registers and one more after them ascend. -/
theorem lowList_append_ascending (list : BitVec 8) {r : Reg} (hr : 8 ≤ r.val) :
    (lowList list ++ [r]).Pairwise (fun a b => a.val < b.val) := by
  rw [List.pairwise_append]
  refine ⟨regList_ascending _, List.pairwise_singleton _ _, fun a ha b hb => ?_⟩
  rw [List.mem_singleton.mp hb]
  exact (lowList_lt ha).trans_le hr

theorem mem_pushRegs (lr : Bool) (list : BitVec 8) (r : Reg) :
    r ∈ pushRegs lr list ↔ list.getLsbD r.val = true ∨ (lr = true ∧ r = regLr) := by
  cases lr <;> simp [pushRegs, mem_lowList]

theorem mem_popRegs (pc : Bool) (list : BitVec 8) (r : Reg) :
    r ∈ popRegs pc list ↔ list.getLsbD r.val = true ∨ (pc = true ∧ r = regPc) := by
  cases pc <;> simp [popRegs, mem_lowList]

theorem pushRegs_ascending (lr : Bool) (list : BitVec 8) :
    (pushRegs lr list).Pairwise (fun a b => a.val < b.val) := by
  cases lr
  · exact regList_ascending _
  · exact lowList_append_ascending list (by decide)

theorem popRegs_ascending (pc : Bool) (list : BitVec 8) :
    (popRegs pc list).Pairwise (fun a b => a.val < b.val) := by
  cases pc
  · exact regList_ascending _
  · exact lowList_append_ascending list (by decide)

/-! ## Addresses of the 16-bit set (48 R450 to R466) -/

/-- A scaled immediate above a base. -/
theorem toNat_add_scaled {n : Nat} (b : Word) (imm : BitVec n) (k : Nat) (h : n + k ≤ 32) :
    (b + imm.setWidth 32 <<< k).toNat = (b.toNat + 2 ^ k * imm.toNat) % 2 ^ 32 := by
  have hlt : imm.toNat * 2 ^ k < 2 ^ 32 := calc
    imm.toNat * 2 ^ k < 2 ^ n * 2 ^ k := Nat.mul_lt_mul_of_pos_right imm.isLt (Nat.two_pow_pos k)
    _ = 2 ^ (n + k) := (Nat.pow_add 2 n k).symm
    _ ≤ 2 ^ 32 := Nat.pow_le_pow_right (by decide) h
  rw [BitVec.toNat_add, BitVec.toNat_shiftLeft, BitVec.toNat_setWidth_of_le (by omega), Nat.shiftLeft_eq,
    Nat.mod_eq_of_lt hlt, Nat.mul_comm]

/-- The base of a PC-relative address is r15 less its bit 1 (40 R170). -/
theorem toNat_pcBase (s : State) :
    (pcBase s).toNat = (s.get regPc).toNat - 2 * ((s.get regPc).toNat / 2 % 2) := by
  rw [pcBase]
  generalize s.get regPc = a
  have hbit : (a &&& 2#32).toNat = 2 * (a.toNat / 2 % 2) := by
    rw [BitVec.toNat_and]
    show a.toNat &&& 2 ^ 1 = _
    rw [Nat.and_two_pow, Nat.toNat_testBit, Nat.mul_comm, Nat.pow_one]
  have hdisj : (a &&& 0xFFFFFFFD#32) &&& (a &&& 2#32) = 0 := calc
    (a &&& 0xFFFFFFFD#32) &&& (a &&& 2#32) = (a &&& a) &&& (0xFFFFFFFD#32 &&& 2#32) := by ac_rfl
    _ = 0 := BitVec.and_zero
  have hsum : (a &&& 0xFFFFFFFD#32) + (a &&& 2#32) = a := by
    rw [BitVec.add_eq_or_of_and_eq_zero _ _ hdisj, ← BitVec.and_or_distrib_left]
    exact BitVec.and_allOnes
  have hnat := congrArg BitVec.toNat hsum
  rw [BitVec.toNat_add, hbit] at hnat
  have ha := a.isLt
  have hm := (a &&& 0xFFFFFFFD#32).isLt
  omega

end Sys2Proof.Machine
end

section
/-! The single transfers as their shared operations, and what each operation does past its checks or refuses (spec/44
R310 to R321). -/

namespace Sys2Proof.Machine

open Sys2Proof

section Allowed

variable {c : Cond} {ix : Index} {rn rd : Reg} {s : State} {offPc : Bool} {regs : List Reg}
  (hc : s.passes c = true) (ht : s.MayTouch regs) (ha : TransferAllowed ix rn rd offPc)
include hc ht ha

/-- Past the operand checks of 44 R310 a transfer is its body. -/
theorem transfer_eq (body : Res State) : armInstr c regs s (transferChecks ix rn rd offPc body) = body := by
  rw [armInstr_eq hc ht, transferChecks_eq ha]

/-- A transfer that refuses r15 as its register is its body for another register (44 R311, R313, R317). -/
theorem transfer_notPc_eq (why : Refusal) (hd : rd ≠ regPc) (body : Res State) :
    armInstr c regs s (transferChecks ix rn rd offPc (refuseIf (rd == regPc) why body)) = body := by
  rw [transfer_eq hc ht ha, beq_false_of_ne hd, refuseIf_false]

end Allowed

/-- r15 is in no bank, so the window does not keep it from an instruction (45 R353). -/
theorem mayTouch_with_pc {s : State} {rn : Reg} {regs : List Reg} (ht : s.MayTouch (rn :: regs)) :
    s.MayTouch (rn :: regPc :: regs) :=
  MayTouch.mono ht (by simp +contextual [isBanked])

/-- A transfer that refuses r15 as its register refuses it where 44 R310 refuses nothing (44 R311, R313). -/
theorem transfer_pc_refused {c : Cond} {ix : Index} {rn : Reg} {s : State} {offPc : Bool} {regs : List Reg}
    (hc : s.passes c = true) (ht : s.MayTouch (rn :: regs)) (ha : TransferAllowed ix rn regPc offPc) (why : Refusal)
    (body : Res State) :
    armInstr c (rn :: regPc :: regs) s (transferChecks ix rn regPc offPc (refuseIf (regPc == regPc) why body)) =
      .refused why := by
  rw [transfer_eq hc (mayTouch_with_pc ht) ha, beq_self_eq_true, refuseIf_true]

/-! ## The word and byte transfers (44 R312 to R316) -/

section WordOrByte

variable {c : Cond} {ix : Index} (up : Bool) {rn rd : Reg} {off : Offset} {s : State} (hc : s.passes c = true)
  (ht : s.MayTouch (rn :: rd :: offsetRegs off)) (ha : TransferAllowed ix rn rd (offsetByPc off))
include hc ht ha

theorem loadWordOp_loaded (hd : rd ≠ regPc) :
    ∃ t : State, loadWordOp c ix up rn rd off s = .next t ∧ Loaded ix up rn rd (offsetValue s off) .word
      (Memory.readWordRotate s.heard (transferAddr s ix up rn (offsetValue s off))) s t :=
  ⟨_, transfer_eq hc ht ha _, loadFinish_loaded ha hd⟩

theorem loadByteOp_loaded (hd : rd ≠ regPc) :
    ∃ t : State, loadByteOp c ix up rn rd off s = .next t ∧ Loaded ix up rn rd (offsetValue s off) .byte
      ((Memory.readByte s.heard (transferAddr s ix up rn (offsetValue s off))).setWidth 32) s t :=
  ⟨_, transfer_notPc_eq hc ht ha _ hd _, loadFinish_loaded ha hd⟩

/-- A stored r15 is A + 12, the stored r15 plus 4 (44 R311). -/
theorem storeWordOp_stored :
    ∃ t : State, storeWordOp c ix up rn rd off s = .next t ∧ Stored ix up rn (offsetValue s off) .word
      (if rd = regPc then s.get regPc + 4 else s.get rd) s t :=
  ⟨_, transfer_eq hc ht ha _, storeAccess_stored ha⟩

theorem storeByteOp_stored (hd : rd ≠ regPc) :
    ∃ t : State, storeByteOp c ix up rn rd off s = .next t ∧
      Stored ix up rn (offsetValue s off) .byte (s.get rd) s t :=
  ⟨_, transfer_notPc_eq hc ht ha _ hd _, storeAccess_stored ha⟩

end WordOrByte

/-! ## The halfword and signed transfers (44 R317 to R321) -/

section Half

variable {c : Cond} {ix : Index} (up : Bool) {rn rd : Reg} {off : HalfOffset} {s : State} (hc : s.passes c = true)
  (ht : s.MayTouch (rn :: rd :: halfOffsetRegs off)) (ha : TransferAllowed ix rn rd (halfOffsetByPc off))
  (hd : rd ≠ regPc)
include hc ht ha hd

theorem loadHalfOp_loaded (size : Word → Size) (v : Word → Word) :
    ∃ t : State, loadHalfOp c ix up rn rd off size v s = .next t ∧ Loaded ix up rn rd (halfOffsetValue s off)
      (size (transferAddr s ix up rn (halfOffsetValue s off)))
      (v (transferAddr s ix up rn (halfOffsetValue s off))) s t :=
  ⟨_, transfer_notPc_eq hc ht ha _ hd _, loadFinish_loaded ha hd⟩

theorem execStrh_stored :
    ∃ t : State, execStrh c ix up rn rd off s = .next t ∧
      Stored ix up rn (halfOffsetValue s off) .half (s.get rd) s t :=
  ⟨_, transfer_notPc_eq hc ht ha _ hd _, storeAccess_stored ha⟩

end Half

/-! ## Refusals, whichever check answers first -/

/-- A check refuses, or what follows it does. -/
theorem refuseIf_refused_iff {α : Type} {b : Bool} {why : Refusal} {k : Res α} :
    (∃ w, refuseIf b why k = .refused w) ↔ b = true ∨ ∃ w, k = .refused w := by
  cases b <;> simp

/-- An instruction whose body refuses is refused, by the window or by its body. -/
theorem armInstr_refused_of_body {c : Cond} {regs : List Reg} {s : State} {body : Res State} (hc : s.passes c = true)
    (h : ∃ w, body = .refused w) : ∃ w, armInstr c regs s body = .refused w := by
  rw [armInstr, if_pos hc, guardBanked, refuseIf_refused_iff]
  exact .inr h

/-- The operand checks of a transfer refuse exactly what 44 R310 does not allow. -/
theorem transferChecks_refused_iff {ix : Index} {rn rd : Reg} {offPc : Bool} {body : Res State} :
    (∃ w, transferChecks ix rn rd offPc body = .refused w) ↔
      ¬TransferAllowed ix rn rd offPc ∨ ∃ w, body = .refused w := by
  simp only [transferChecks, refuseIf_refused_iff, TransferAllowed, Bool.and_eq_true, beq_iff_eq, ← Bool.not_eq_true]
  tauto

/-- A transfer with operands that 44 R310 does not allow is refused. -/
theorem transfer_refused {c : Cond} {ix : Index} {rn rd : Reg} {s : State} {offPc : Bool} (regs : List Reg)
    (hc : s.passes c = true) (h : ¬TransferAllowed ix rn rd offPc) (body : Res State) :
    ∃ w, armInstr c regs s (transferChecks ix rn rd offPc body) = .refused w :=
  armInstr_refused_of_body hc (transferChecks_refused_iff.mpr (.inl h))

/-- A transfer that refuses r15 as its register is refused for r15 too (44 R317). -/
theorem transfer_refused_or_pc {c : Cond} {ix : Index} {rn rd : Reg} {s : State} {offPc : Bool} (regs : List Reg)
    (hc : s.passes c = true) (h : ¬TransferAllowed ix rn rd offPc ∨ rd = regPc) (why : Refusal) (body : Res State) :
    ∃ w, armInstr c regs s (transferChecks ix rn rd offPc (refuseIf (rd == regPc) why body)) = .refused w := by
  refine armInstr_refused_of_body hc (transferChecks_refused_iff.mpr (h.imp_right fun hd => ?_))
  exact refuseIf_refused_iff.mpr (.inl (beq_iff_eq.mpr hd))

/-! ## Refused block transfers and swaps (45 R350 to R352, R360, 48 R469) -/

/-- A base in the list that is not its lowest register. -/
theorem isLowest_eq_false {regs : List Reg} {r : Reg} (hm : r ∈ regs) (h : nthReg regs 0 ≠ r) :
    isLowest regs r = false := by
  rw [Bool.eq_false_iff, Ne, isLowest_iff regs r (List.ne_nil_of_mem hm)]
  exact h

theorem execLdm_refused {c : Cond} {m : BlockMode} {sb wb : Bool} {rn : Reg} {list : BitVec 16} {s : State}
    (hc : s.passes c = true)
    (h : rn = regPc ∨ list = 0 ∨ (sb = true ∧ s.bank = .shared) ∨ (sb = true ∧ list.getLsbD 15 = false ∧ wb = true) ∨
      (wb = true ∧ list.getLsbD rn.val = true)) : ∃ w, execLdm c m sb wb rn list s = .refused w := by
  apply armInstr_refused_of_body hc
  simp only [refuseIf_refused_iff, Bool.and_eq_true, Bool.not_eq_true', beq_iff_eq]
  obtain h | h | h | ⟨hs, h15, hw⟩ | h := h
  · exact .inl h
  · exact .inr (.inl h)
  · exact .inr (.inr (.inl h))
  · exact .inr (.inr (.inr (.inl ⟨⟨hs, h15⟩, hw⟩)))
  · exact .inr (.inr (.inr (.inr (.inl h))))

theorem execStm_refused {c : Cond} {m : BlockMode} {sb wb : Bool} {rn : Reg} {list : BitVec 16} {s : State}
    (hc : s.passes c = true)
    (h : rn = regPc ∨ list = 0 ∨ (sb = true ∧ s.bank = .shared) ∨ (sb = true ∧ wb = true) ∨
      (wb = true ∧ list.getLsbD rn.val = true ∧ nthReg (regList list) 0 ≠ rn)) :
    ∃ w, execStm c m sb wb rn list s = .refused w := by
  apply armInstr_refused_of_body hc
  simp only [refuseIf_refused_iff, Bool.and_eq_true, Bool.not_eq_true', beq_iff_eq]
  obtain h | h | h | h | ⟨hw, hm, hn⟩ := h
  · exact .inl h
  · exact .inr (.inl h)
  · exact .inr (.inr (.inl h))
  · exact .inr (.inr (.inr (.inl h)))
  · exact .inr (.inr (.inr (.inr (.inl ⟨⟨hw, hm⟩, isLowest_eq_false ((mem_regList list rn).mpr hm) hn⟩))))

theorem swapOp_refused {c : Cond} {rn rd rm : Reg} {s : State} (size : Size) (v : Word) (hc : s.passes c = true)
    (ht : s.MayTouch [rn, rd, rm]) (h : rn = regPc ∨ rd = regPc ∨ rm = regPc ∨ rn = rm ∨ rn = rd) :
    swapOp c size rn rd rm v s = .refused .swpOperands :=
  armInstr_refused hc ht (by simpa [or_assoc] using h)

theorem execTStmia_baseNotLowest {rb : LowReg} {list : BitVec 8} (s : State) (hm : list.getLsbD rb.val = true)
    (hn : nthReg (lowList list) 0 ≠ low rb) : execTStmia rb list s = .refused .stmBaseNotLowest := by
  have hne : list ≠ 0 := by
    rintro rfl
    simp at hm
  rw [execTStmia, beq_false_of_ne hne, refuseIf_false, baseInList, hm,
    isLowest_eq_false ((mem_lowList list (low rb)).mpr hm) hn]
  rfl

end Sys2Proof.Machine
end

section
/-! The statements about the single transfers and the refused operands of transfers (spec/44_arm_load_store.md). -/

open Sys2Proof Sys2Proof.Machine

/-- Settles O26: each address as a sum or difference modulo 2^32, each list as a filter of the ascending registers. -/
theorem addressesOfTransfers : Obligations.AddressesOfTransfers := by
  unfold Obligations.AddressesOfTransfers
  refine ⟨?_, writesBack_iff, ?_, ?_, ?_, ?_⟩
  · exact fun s rn off => ⟨toNat_indexedAddr_up s rn off, toNat_indexedAddr_down s rn off, fun up => ⟨rfl, rfl, rfl⟩⟩
  · exact fun s imm12 imm8 amt ty rm => ⟨BitVec.toNat_setWidth_of_le (by decide), rfl,
      BitVec.toNat_setWidth_of_le (by decide), rfl⟩
  · intro b regs k
    refine ⟨?_, toNat_add_four b, ?_, toNat_sub_listBytes b regs, toNat_add_listBytes b regs,
      toNat_add_listBytes b regs, toNat_sub_listBytes b regs, toNat_sub_listBytes b regs, toNat_wordAddr b k⟩
    · exact (Int.emod_eq_of_lt (by omega) (by have := b.isLt; omega)).symm
    · rw [blockStart, toNat_add_four, toNat_sub_listBytes, Int.emod_add_emod]
  · exact fun list low8 extra r => ⟨mem_regList list r, regList_ascending list, mem_lowList low8 r,
      mem_pushRegs extra low8 r, pushRegs_ascending extra low8, mem_popRegs extra low8 r, popRegs_ascending extra low8⟩
  · intro s ro rb imm5 imm8 regs
    refine ⟨BitVec.toNat_add _ _, ?_, toNat_add_scaled _ imm5 1 (by decide), toNat_add_scaled _ imm5 2 (by decide),
      toNat_add_scaled _ imm8 2 (by decide), ?_, toNat_sub_listBytes _ regs⟩
    · rw [immAddr, toNat_add_scaled _ imm5 0 (by decide), Nat.pow_zero, Nat.one_mul]
    · rw [pcAddr, imm8x4, toNat_add_scaled _ imm8 2 (by decide), toNat_pcBase]
      rfl

/-- Settles O36: each load is its shared operation, which past the operand checks completes; the T forms are the
post-indexed ones. -/
theorem loadsWriteTheirRegister : Obligations.LoadsWriteTheirRegister := by
  unfold Obligations.LoadsWriteTheirRegister
  refine ⟨?_, ?_⟩
  · intro c ix up rn rd off s hc ht ha hd
    refine ⟨loadWordOp_loaded up hc ht ha hd, loadByteOp_loaded up hc ht ha hd, ?_⟩
    rintro rfl
    exact ⟨loadWordOp_loaded up hc ht ha hd, loadByteOp_loaded up hc ht ha hd⟩
  · intro c ix up rn rd off s hc ht ha hd
    have loaded (size : Word → Size) (v : Word → Word) := loadHalfOp_loaded up hc ht ha hd size v
    exact ⟨loaded (fun _ => .half) (Memory.readHalfRotate s.heard),
      loaded (fun _ => .byte) (Memory.readByteSigned s.heard),
      loaded Memory.halfSignedSize (Memory.readHalfSigned s.heard)⟩

/-- Settles O37: with Rd = 15 the end of the load is a branch; LDRT is the post-indexed LDR. -/
theorem loadsToR15Branch : Obligations.LoadsToR15Branch := by
  unfold Obligations.LoadsToR15Branch
  intro c ix up rn off s hc ht ha i hi
  have hexec : exec i s = loadWordOp c ix up rn regPc off s := by
    rw [List.mem_cons] at hi
    obtain rfl | hi := hi
    · rfl
    · split at hi
      · subst ix
        obtain rfl := List.mem_singleton.mp hi
        rfl
      · exact absurd hi List.not_mem_nil
  obtain ⟨t, rfl, hbranch⟩ := loadFinish_branches (up := up) (off := offsetValue s off) (size := .word)
    (v := Memory.readWordRotate s.heard (transferAddr s ix up rn (offsetValue s off))) (s := s) ha
  exact ⟨_, hexec.trans (transfer_eq hc (mayTouch_with_pc ht) ha _), hbranch⟩

/-- Settles O38: each store is its shared operation, which past the operand checks completes; the T forms are the
post-indexed ones. -/
theorem storesWriteTheirBytes : Obligations.StoresWriteTheirBytes := by
  unfold Obligations.StoresWriteTheirBytes
  refine ⟨?_, fun c ix up rn rd off s hc ht ha hd => execStrh_stored up hc ht ha hd⟩
  intro c ix up rn rd off s hc ht ha
  refine ⟨storeWordOp_stored up hc ht ha, storeByteOp_stored up hc ht ha, ?_⟩
  rintro rfl
  exact ⟨storeWordOp_stored up hc ht ha, storeByteOp_stored up hc ht ha⟩

/-- Settles O45: each form meets a check of its shared operation, the single transfers those of 44 R310 or the one for
r15. -/
theorem transferOperandRefusals : Obligations.TransferOperandRefusals := by
  unfold Obligations.TransferOperandRefusals
  refine ⟨?_, ?_, ?_, ?_, ?_, ?_, ?_, ?_, ?_⟩
  · intro c ix up rn rd off s hc hx i hi
    have refused (body : Res State) := transfer_refused (rn :: rd :: offsetRegs off) hc hx body
    simp only [List.mem_cons, List.not_mem_nil, or_false] at hi
    obtain rfl | rfl | rfl | rfl := hi <;> exact refused _
  · exact fun c ix up rn off s hc ht ha => ⟨transfer_pc_refused hc ht ha _ _, transfer_pc_refused hc ht ha _ _⟩
  · exact fun c up rn off s hc ht ha => ⟨transfer_pc_refused hc ht ha _ _, transfer_pc_refused hc ht ha _ _⟩
  · intro c up rn rd off s hc hx i hi
    have refused (body : Res State) := transfer_refused (rn :: rd :: offsetRegs off) hc hx body
    simp only [List.mem_cons, List.not_mem_nil, or_false] at hi
    obtain rfl | rfl | rfl | rfl := hi <;> exact refused _
  · intro c ix up rn rd off s hc hx i hi
    have refused (body : Res State) := transfer_refused_or_pc (rn :: rd :: halfOffsetRegs off) hc hx .halfPc body
    simp only [List.mem_cons, List.not_mem_nil, or_false] at hi
    obtain rfl | rfl | rfl | rfl := hi <;> exact refused _
  · exact fun c m sb wb rn list s hc => ⟨execLdm_refused hc, execStm_refused hc⟩
  · exact fun c rn rd rm s hc ht h => ⟨swapOp_refused .word _ hc ht h, swapOp_refused .byte _ hc ht h⟩
  · intro s hw
    have touch : s.MayTouch [regSp] := .inl hw
    exact ⟨guardBanked_eq touch _, guardBanked_eq touch _⟩
  · exact fun rb list s => ⟨rfl, rfl, execTStmia_baseNotLowest s⟩

end

section
/-! Block transfers and swaps past their operand checks: loads and stores of the current bank, the exception return of
an LDM, transfers of the User bank, and the swap (spec/45 R350 to R355, R360, R361). -/

namespace Sys2Proof.Machine

open Sys2Proof

/-! ## Operand checks and lists -/

/-- The operands of an LDM that 45 R350 and R351 do not refuse. -/
structure LdmAllowed (sb wb : Bool) (rn : Reg) (list : BitVec 16) (s : State) : Prop where
  base : rn ≠ regPc
  nonempty : list ≠ 0
  spsr : sb = true → s.bank ≠ .shared
  user : sb = true → list.getLsbD 15 = false → wb = false
  baseOut : wb = true → list.getLsbD rn.val = false

/-- Past its operand checks an LDM is the window check and one of its two loops. -/
theorem execLdm_eq {c : Cond} {sb wb : Bool} {rn : Reg} {list : BitVec 16} {s : State} (m : BlockMode)
    (hc : s.passes c = true) (ha : LdmAllowed sb wb rn list s) :
    execLdm c m sb wb rn list s = guardBanked (rn :: regList list) s
      (if sb && !list.getLsbD 15 then ldmUser m rn (regList list) s
       else ldmCurrent m sb wb rn (regList list) s) := by
  obtain ⟨hn, hl, hb, hu, ho⟩ := ha
  have hspsr : (sb && s.bank == .shared) = false := by simpa using hb
  have huser : (sb && !list.getLsbD 15 && wb) = false := by simpa using hu
  have hbase : (wb && list.getLsbD rn.val) = false := by simpa using ho
  rw [execLdm, armInstr, if_pos hc, beq_false_of_ne hn, beq_false_of_ne hl, hspsr, huser, hbase]
  rfl

/-- The operands of an STM that 45 R350 and R352 do not refuse. -/
structure StmAllowed (sb wb : Bool) (rn : Reg) (list : BitVec 16) (s : State) : Prop where
  base : rn ≠ regPc
  nonempty : list ≠ 0
  spsr : sb = true → s.bank ≠ .shared
  user : sb = true → wb = false
  lowest : wb = true → list.getLsbD rn.val = true → nthReg (regList list) 0 = rn

/-- Past its operand checks an STM is the window check and one of its two loops. -/
theorem execStm_eq {c : Cond} {sb wb : Bool} {rn : Reg} {list : BitVec 16} {s : State} (m : BlockMode)
    (hc : s.passes c = true) (ha : StmAllowed sb wb rn list s) :
    execStm c m sb wb rn list s = guardBanked (rn :: regList list) s
      (if sb then stmUser m rn (regList list) s
       else .next ((stmWrites m wb rn (regList list) s (s.setFetchKind .n)).next false)) := by
  obtain ⟨hn, hl, hb, hu, hlow⟩ := ha
  have hspsr : (sb && s.bank == .shared) = false := by simpa using hb
  have huser : (sb && wb) = false := by simpa using hu
  have hbase : (wb && list.getLsbD rn.val && !isLowest (regList list) rn) = false := by
    simpa [isLowest_iff _ _ (regList_ne_nil hl)] using hlow
  rw [execStm, armInstr, if_pos hc, beq_false_of_ne hn, beq_false_of_ne hl, hspsr, huser, hbase]
  rfl

theorem list_ne_zero_of_bit {list : BitVec 16} {k : Nat} (h : list.getLsbD k = true) : list ≠ 0 := by
  rintro rfl
  simp at h

/-- A list without r15. -/
theorem regPc_notMem_regList {list : BitVec 16} (h : list.getLsbD 15 = false) : regPc ∉ regList list := by
  rw [mem_regList]
  simpa using h

/-- The words that a block load returns depend on the world alone. -/
theorem blockWord_congr {s u : State} (h : u.world = s.world) (a : Word) (k : Nat) :
    blockWord u a k = blockWord s a k := by
  rw [blockWord, blockWord, State.memAfter, State.memAfter, h]

/-! ## Loads of the current bank (45 R350, R351) -/

/-- The state after the accesses of an LDM of the current bank, before its end. -/
def afterReads (m : BlockMode) (wb : Bool) (rn : Reg) (list : BitVec 16) (s : State) : State :=
  ldmReads m wb rn (regList list) s (s.setFetchKind .n)

/-- The bus calls of an LDM: its reads, then one internal cycle. -/
abbrev ldmCalls (m : BlockMode) (rn : Reg) (list : BitVec 16) (s : State) : List BusCall :=
  readCalls (blockStart m (s.get rn) (regList list)) (regList list).length ++ [.idle]

/-- The registers that an LDM writes: the base where it is written back, and the list. -/
abbrev ldmDst (wb : Bool) (rn : Reg) (list : BitVec 16) : List Reg := (if wb then [rn] else []) ++ regList list

/-- An LDM without r15 writes r15 neither as a register of its list nor as its base. -/
theorem regPc_notMem_dst {wb : Bool} {rn : Reg} {list : BitVec 16} (hn : rn ≠ regPc) (h : list.getLsbD 15 = false) :
    regPc ∉ ldmDst wb rn list := by
  rw [List.mem_append, not_or]
  refine ⟨?_, regPc_notMem_regList h⟩
  cases wb <;> simp [hn.symm]

/-- With no r15 in its list an LDM of the current bank ends with `next`. -/
theorem ldmCurrent_next {list : BitVec 16} (m : BlockMode) (sb wb : Bool) (rn : Reg) (s : State)
    (h15 : list.getLsbD 15 = false) :
    ldmCurrent m sb wb rn (regList list) s = .next ((afterReads m wb rn list s).next false) := by
  rw [ldmCurrent, contains_regPc, h15, if_neg Bool.false_ne_true, afterReads]

/-- With r15 in its list it ends with a branch, or with the exception return where S is set. -/
theorem ldmCurrent_pc {list : BitVec 16} (m : BlockMode) (sb wb : Bool) (rn : Reg) (s : State)
    (h15 : list.getLsbD 15 = true) :
    ldmCurrent m sb wb rn (regList list) s =
      if sb then (afterReads m wb rn list s).exceptionReturn ((afterReads m wb rn list s).get regPc)
      else .next ((afterReads m wb rn list s).branchTo ((afterReads m wb rn list s).get regPc)) := by
  rw [ldmCurrent, contains_regPc, h15, if_pos rfl, afterReads]

section Reads

variable (m : BlockMode) (wb : Bool) (rn : Reg) (list : BitVec 16) (s : State)

theorem afterReads_get_nth {k : Nat} (hk : k < (regList list).length) :
    (afterReads m wb rn list s).get (nthReg (regList list) k) =
      blockWord s (blockStart m (s.get rn) (regList list)) k :=
  ldmReads_get_nth hk

theorem afterReads_get_base (hl : list ≠ 0) (hwb : wb = true) (ho : wb = true → list.getLsbD rn.val = false) :
    (afterReads m wb rn list s).get rn = blockNewBase m (s.get rn) (regList list) := by
  subst hwb
  exact ldmReads_get_base (regList_ne_nil hl) (by simpa [mem_regList] using ho)

theorem afterReads_get_other {r : Reg} (h : r ∉ ldmDst wb rn list) : (afterReads m wb rn list s).get r = s.get r :=
  ldmReads_get_other h

theorem afterReads_get_pc (h15 : list.getLsbD 15 = true) :
    (afterReads m wb rn list s).get regPc =
      blockWord s (blockStart m (s.get rn) (regList list)) ((regList list).length - 1) := by
  obtain ⟨hlen, hlast⟩ := regList_last h15
  rw [← afterReads_get_nth m wb rn list s (by omega), hlast]

theorem afterReads_world : (afterReads m wb rn list s).world = s.world.play (ldmCalls m rn list s) :=
  ldmReads_world ..

/-- Beside registers and the world, the accesses of an LDM change the kind of the next fetch alone. -/
theorem afterReads_rest :
    ∃ x, afterReads m wb rn list s =
      { s with x := x, world := s.world.play (ldmCalls m rn list s), fetchKind := .n } := by
  obtain ⟨x, hx⟩ := loadRegs_eq (blockWb wb m rn s (regList list)) (regList list) true
    (blockStart m (s.get rn) (regList list)) (s.setFetchKind .n)
  refine ⟨x, ?_⟩
  rw [← afterReads_world m wb rn list s, afterReads, ldmReads, hx]
  rfl

/-- What ends with the registers that the accesses of an LDM left, r15 apart, has the list filled. -/
theorem loadedBlock_of_get {t : State} (h : ∀ r, r ≠ regPc → t.get r = (afterReads m wb rn list s).get r) :
    LoadedBlock (blockStart m (s.get rn) (regList list)) (regList list) s t :=
  fun _ hk hpc => (h _ hpc).trans (afterReads_get_nth m wb rn list s hk)

theorem afterReads_retires (hn : rn ≠ regPc) (h15 : list.getLsbD 15 = false) :
    Retires false { dst := ldmDst wb rn list, flags := s.flags, kind := .n, calls := ldmCalls m rn list s } s
      ((afterReads m wb rn list s).next false) := by
  have hother (r : Reg) := afterReads_get_other m wb rn list s (r := r)
  obtain ⟨x, hx⟩ := afterReads_rest m wb rn list s
  rw [hx] at hother ⊢
  exact retires_next (hother _ (regPc_notMem_dst hn h15)) ⟨rfl, rfl⟩ rfl rfl rfl (fun r _ hd => hother r hd)
    ⟨rfl, rfl, rfl⟩ rfl (fun _ _ _ => rfl) ⟨rfl, rfl, rfl, rfl⟩

theorem afterReads_branches (target : Word) :
    Branches s.thumb target { dst := ldmDst wb rn list, flags := s.flags, calls := ldmCalls m rn list s } s
      ((afterReads m wb rn list s).branchTo target) := by
  have hother (r : Reg) := afterReads_get_other m wb rn list s (r := r)
  obtain ⟨x, hx⟩ := afterReads_rest m wb rn list s
  rw [hx] at hother ⊢
  exact branches_branchTo rfl rfl (fun r _ hd => hother r hd) ⟨rfl, rfl, rfl⟩ rfl (fun _ _ _ => rfl)
    ⟨rfl, rfl, rfl, rfl⟩

theorem afterReads_spsrOf (b : Bank) : (afterReads m wb rn list s).spsrOf b = s.spsrOf b := by
  obtain ⟨x, hx⟩ := afterReads_rest m wb rn list s
  exact State.spsrOf_congr (by rw [hx]) (by rw [hx]) b

theorem afterReads_status : (afterReads m wb rn list s).cpsr = s.cpsr ∧
    (afterReads m wb rn list s).bankConflict = s.bankConflict := by
  obtain ⟨x, hx⟩ := afterReads_rest m wb rn list s
  rw [hx]
  exact ⟨rfl, rfl⟩

theorem afterReads_mode : (afterReads m wb rn list s).mode = s.mode := by
  rw [State.mode, State.mode, (afterReads_status m wb rn list s).1]

theorem afterReads_bank : (afterReads m wb rn list s).bank = s.bank :=
  congrArg Mode.bank (afterReads_mode m wb rn list s)

/-- The accesses of an LDM change of each mode's registers only what the current bank shows. -/
theorem afterReads_seenBy {q : Mode} {r : Reg}
    (h : ¬(r ∈ ldmDst wb rn list ∧ sameRegister q.bank s.bank r = true)) :
    (afterReads m wb rn list s).seenBy q r = s.seenBy q r := by
  have hother := afterReads_get_other m wb rn list s (r := r)
  obtain ⟨x, hx⟩ := afterReads_rest m wb rn list s
  refine State.seenBy_bank (afterReads_bank m wb rn list s) (by rw [hx]) (by rw [hx]) ?_
  by_cases hd : r ∈ ldmDst wb rn list
  · exact .inr (by simpa [hd] using h)
  · exact .inl (hother hd)

/-- The exception return after the accesses of an LDM (45 R354): the current mode's bank keeps what they loaded. -/
theorem afterReads_returns (target : Word) (hb : s.bank ≠ .shared) (hw : s.bankConflict = false)
    (hm : (Mode.ofBits (modeField (s.spsrOf s.bank))).isSome = true) :
    ∃ t, (afterReads m wb rn list s).exceptionReturn target = .next t ∧
      (∀ r, r ≠ regPc → t.seenBy s.mode r = (afterReads m wb rn list s).get r) ∧
      Returns (s.spsrOf s.bank) target (ldmDst wb rn list) (ldmCalls m rn list s) s t := by
  obtain ⟨saved, hsaved⟩ := Option.isSome_iff_exists.mp hm
  have hspsr : (afterReads m wb rn list s).spsrOf (afterReads m wb rn list s).bank = s.spsrOf s.bank := by
    rw [afterReads_bank, afterReads_spsrOf]
  obtain ⟨t, ht, hret⟩ := exceptionReturn_next (afterReads m wb rn list s) target saved
    (by rwa [afterReads_bank]) (by rw [(afterReads_status m wb rn list s).2, hw]) (by rw [hspsr, hsaved])
  rw [hspsr] at hret
  refine ⟨t, ht, fun r hr => ?_, ?_⟩
  · rw [hret.regs s.mode r hr (by simp), ← afterReads_mode m wb rn list s, State.seenBy_mode]
  · obtain ⟨x, hx⟩ := afterReads_rest m wb rn list s
    exact returns_from hret (afterReads_world m wb rn list s) (by rw [hx]) (readCalls_reads _ _)
      (fun q r _ hd => afterReads_seenBy m wb rn list s hd) (by rw [hx]; exact ⟨rfl, rfl, rfl, rfl⟩)

theorem afterReads_returnFault (target : Word) (hb : s.bank ≠ .shared) (hw : s.bankConflict = false)
    (hm : Mode.ofBits (modeField (s.spsrOf s.bank)) = none) :
    (afterReads m wb rn list s).exceptionReturn target =
      (s.world.play (ldmCalls m rn list s)).stopOr (.fault .invalidMode) := by
  rw [exceptionReturn_fault _ _ (by rwa [afterReads_bank]) (by rw [(afterReads_status m wb rn list s).2, hw])
    (by rw [afterReads_bank, afterReads_spsrOf, hm]), afterReads_world]

theorem afterReads_returnConflict (target : Word) (hb : s.bank ≠ .shared) (hw : s.bankConflict = true) :
    (afterReads m wb rn list s).exceptionReturn target =
      (s.world.play (ldmCalls m rn list s)).stopOr (.refused .bankConflict) := by
  rw [exceptionReturn_conflict _ _ (by rwa [afterReads_bank]) (by rw [(afterReads_status m wb rn list s).2, hw]),
    afterReads_world]

end Reads

/-! ## Stores of the current bank (45 R350, R352) -/

/-- The accesses of an STM of the current bank, then `next`. -/
theorem stmWrites_retires {m : BlockMode} {wb : Bool} {rn : Reg} {list : BitVec 16} {s : State} (hn : rn ≠ regPc)
    (h : wb = true → list.getLsbD rn.val = true → nthReg (regList list) 0 = rn) :
    Retires false
      { dst := if wb then [rn] else [], flags := s.flags, kind := .n,
        calls := writeCalls (blockStart m (s.get rn) (regList list)) (regList list).length
          (blockValue s (regList list)) } s
      ((stmWrites m wb rn (regList list) s (s.setFetchKind .n)).next false) := by
  have hother (r : Reg) (hd : r ∉ if wb then [rn] else []) :
      (stmWrites m wb rn (regList list) s (s.setFetchKind .n)).get r = s.get r := stmWrites_get_other hd
  have hworld := (stmWrites_done (m := m) (s := s) (t := s.setFetchKind .n) hn h).2
  obtain ⟨x, cs, hx⟩ := storeRegs_eq (blockWb wb m rn s (regList list)) (regList list) true
    (blockStart m (s.get rn) (regList list)) (s.setFetchKind .n)
  rw [stmWrites, hx] at hother hworld ⊢
  exact retires_next (hother _ (by cases wb <;> simp [hn.symm])) ⟨rfl, rfl⟩ rfl rfl hworld (fun r _ hd => hother r hd)
    ⟨rfl, rfl, rfl⟩ rfl (fun _ _ _ => rfl) ⟨rfl, rfl, rfl, rfl⟩

/-! ## Transfers of the User bank (45 R351 to R355) -/

/-- What a store of the User bank stores: the registers User mode sees, r15 as A + 12. -/
theorem blockValue_usr (s : State) (regs : List Reg) :
    blockValue ((s.setFetchKind .n).switchTo .usr) regs =
      fun k => if nthReg regs k = regPc then s.get regPc + 4 else s.seenBy .usr (nthReg regs k) := by
  funext k
  rw [blockValue, State.switchTo_get, State.switchTo_get, State.seenBy_pc]
  rfl

theorem ldmUser_done {rn : Reg} {list : BitVec 16} {s : State} (m : BlockMode) (hb : s.bank ≠ .shared)
    (hw : s.bankConflict = false) (h15 : list.getLsbD 15 = false) :
    ∃ t, ldmUser m rn (regList list) s = .next t ∧
      (∀ k : Nat, k < (regList list).length →
        t.seenBy .usr (nthReg (regList list) k) = blockWord s (blockStart m (s.get rn) (regList list)) k) ∧
      UserBank (regList list) (ldmCalls m rn list s) true s t := by
  obtain ⟨hbank, hseen⟩ := userBank_of (s := s)
    (w := ldmReads m false rn (regList list) s ((s.setFetchKind .n).switchTo .usr))
    (calls := ldmCalls m rn list s) hb true (by simp [ldmReads]) (by simp) (by simp [ldmReads]) (by simp [ldmReads])
    (fun r hr => ldmReads_get_other (by simpa using hr)) (regPc_notMem_regList h15) (by simp [ldmReads])
  refine ⟨_, by rw [ldmUser, hw, refuseIf_false], fun k hk => ?_, hbank⟩
  have hpc : nthReg (regList list) k ≠ regPc := fun e => regPc_notMem_regList h15 (e ▸ nthReg_mem hk)
  rw [hseen _ hpc, ldmReads_get_nth hk, blockWord_congr (s := s) (by simp)]

theorem stmUser_done {rn : Reg} {list : BitVec 16} {s : State} (m : BlockMode) (hn : rn ≠ regPc)
    (hb : s.bank ≠ .shared) (hw : s.bankConflict = false) :
    ∃ t, stmUser m rn (regList list) s = .next t ∧
      StoredBlock (blockStart m (s.get rn) (regList list)) (regList list).length
        (blockValue ((s.setFetchKind .n).switchTo .usr) (regList list)) s t ∧
      UserBank []
        (writeCalls (blockStart m (s.get rn) (regList list)) (regList list).length
          (blockValue ((s.setFetchKind .n).switchTo .usr) (regList list))) false s t := by
  have hworld := (stmWrites_done (m := m) (wb := false) (list := list) (s := s)
    (t := (s.setFetchKind .n).switchTo .usr) hn (by simp)).2
  rw [State.switchTo_world, State.setFetchKind_world] at hworld
  obtain ⟨hbank, -⟩ := userBank_of (loaded := []) hb false (by simp [stmWrites]) hworld (by simp [stmWrites])
    (by simp [stmWrites]) (fun r _ => stmWrites_get_other (by simp)) (by simp) (by simp [stmWrites])
  refine ⟨_, by rw [stmUser, hw, refuseIf_false]; rfl, ?_, hbank⟩
  exact storedBlock_of_play (regList_length list) (by rw [writeCalls_eq]; exact hbank.world)

/-! ## Swap (45 R360, R361) -/

theorem swapOp_done {c : Cond} {rn rd rm : Reg} {s : State} (size : Size) (v : Word) (hc : s.passes c = true)
    (ht : s.MayTouch [rn, rd, rm]) (hn : rn ≠ regPc) (hd : rd ≠ regPc) (hm : rm ≠ regPc) (hnm : rn ≠ rm)
    (hnd : rn ≠ rd) :
    ∃ t : State, swapOp c size rn rd rm v s = .next t ∧ t.get rd = v ∧ StoredAt size (s.get rn) (s.get rm) s t ∧
      Retires false
        { dst := [rd], flags := s.flags, kind := .n,
          calls := [.read size (s.get rn) lockAcc, .write size (s.get rn) (busValue size (s.get rm)) lockAcc, .idle] }
        s t := by
  have hr : Retires false
      { dst := [rd], flags := s.flags, kind := .n,
        calls := [.read size (s.get rn) lockAcc, .write size (s.get rn) (busValue size (s.get rm)) lockAcc, .idle] } s
      ((((((s.busRead size (s.get rn) lockAcc).busWrite size (s.get rn) (s.get rm) lockAcc).idle 1).set rd
        v).setFetchKind .n).next false) := by
    apply retires_next <;> simp +contextual [State.get_set, hd.symm]
  refine ⟨_, ?_, ?_, ?_, hr⟩
  · rw [swapOp, armInstr_eq hc ht, beq_false_of_ne hn, beq_false_of_ne hd, beq_false_of_ne hm, beq_false_of_ne hnm,
      beq_false_of_ne hnd]
    rfl
  · rw [State.get_next, if_neg hd, State.setFetchKind_get, State.get_set_self]
  · exact storedAt_of_play (cs := [_]) (ds := [_]) hr.world (by simp [World.isWrite]) (by simp [World.isWrite])

end Sys2Proof.Machine
end

section
/-! The bank-conflict window: what it refuses, whichever check answers, and which instruction opens it (spec/45 R353, 10
R46). -/

namespace Sys2Proof.Machine

open Sys2Proof

/-! ## Instructions that name a banked register -/

theorem guardBanked_window {regs : List Reg} {s : State} (hw : s.bankConflict = true)
    (h : ∃ r ∈ regs, isBanked r = true) (body : Res State) : guardBanked regs s body = .refused .bankConflict := by
  rw [guardBanked, hw, List.any_eq_true.mpr h, Bool.and_self, refuseIf_true]

theorem armInstr_window {c : Cond} {regs : List Reg} {s : State} (hc : s.passes c = true) (hw : s.bankConflict = true)
    (h : ∃ r ∈ regs, isBanked r = true) (body : Res State) : armInstr c regs s body = .refused .bankConflict := by
  rw [armInstr, if_pos hc, guardBanked_window hw h]

/-- An instruction whose body is refused in the window is refused there, whichever of its two checks answers. -/
theorem guardBanked_window_of_body {regs : List Reg} {s : State} {body : Res State}
    (h : body = .refused .bankConflict) : guardBanked regs s body = .refused .bankConflict := by
  rw [guardBanked, h, refuseIf, ite_self]

theorem armInstr_window_of_body {c : Cond} {regs : List Reg} {s : State} {body : Res State} (hc : s.passes c = true)
    (h : body = .refused .bankConflict) : armInstr c regs s body = .refused .bankConflict := by
  rw [armInstr, if_pos hc, guardBanked_window_of_body h]

/-- Every instruction of the 32-bit set tests its condition, then the window on the registers that `instrRegs` lists. -/
theorem exec_arm_guard {i : Instr} {c : Cond} (hi : instrCond i = some c) (s : State) :
    ∃ body : Res State, exec i s = armInstr c (instrRegs i) s body := by
  -- `cases hi` leaves the constructors of the 32-bit set, each defined as an `armInstr` on those registers.
  cases i <;> cases hi <;> exact ⟨_, rfl⟩

theorem isBanked_low (r : LowReg) : isBanked (low r) = false := by revert r; decide

theorem isBanked_of_mem_lowList {list : BitVec 8} {r : Reg} (h : r ∈ lowList list) : isBanked r = false := by
  have := lowList_lt h
  simp [isBanked]
  omega

/-- An instruction of the 16-bit set that names a banked register tests the window on one. -/
theorem exec_thumb_guard {i : Instr} (hi : instrCond i = none) (h : ∃ r ∈ instrRegs i, isBanked r = true) (s : State) :
    ∃ (regs : List Reg) (body : Res State),
      exec i s = guardBanked regs s body ∧ ∃ r ∈ regs, isBanked r = true := by
  have hsp : ∃ r ∈ [regSp], isBanked r = true := ⟨regSp, List.mem_cons_self, rfl⟩
  cases i with
  | tAddHi | tCmpHi | tMovHi | tBx | tBlFirst | tBlSecond => exact ⟨_, _, rfl, h⟩
  | tStrSp | tLdrSp | tAddSp | tSpAdd | tSpSub | tPush | tPop => exact ⟨_, _, rfl, hsp⟩
  | tStmia rb list | tLdmia rb list =>
    obtain ⟨r, hr, hbanked⟩ := h
    obtain rfl | hr := List.mem_cons.mp hr
    · exact absurd hbanked (by simp [isBanked_low])
    · exact absurd hbanked (by simp [isBanked_of_mem_lowList hr])
  -- The others carry a condition, or name low registers alone.
  | _ => simp [instrCond, instrRegs, isBanked_low] at hi h

theorem exec_window {i : Instr} {s : State} (hw : s.bankConflict = true) (hc : s.condPasses i)
    (h : ∃ r ∈ instrRegs i, isBanked r = true) : exec i s = .refused .bankConflict := by
  cases hi : instrCond i with
  | some c =>
    obtain ⟨body, hexec⟩ := exec_arm_guard hi s
    rw [hexec, armInstr_window (hc c hi) hw h]
  | none =>
    obtain ⟨regs, body, hexec, hregs⟩ := exec_thumb_guard hi h s
    rw [hexec, guardBanked_window hw hregs]

/-! ## SPSR, mode switches, exceptions and returns -/

theorem takeException_window {s : State} (m : Mode) (vector link : Word) (hw : s.bankConflict = true) :
    s.takeException m vector link = .refused .bankConflict := by
  rw [State.takeException, hw, refuseIf_true]

theorem swiOp_window {s : State} (thumb : Bool) (n : Word) (hw : s.bankConflict = true)
    (hswi : s.world.cfg.swiIntercept = false) : swiOp thumb n s = .refused .bankConflict := by
  rw [swiOp, hswi, if_neg Bool.false_ne_true]
  exact takeException_window _ _ _ hw

theorem switchMode_window {s : State} {b : BitVec 5} {m : Mode} (hw : s.bankConflict = true)
    (hm : Mode.ofBits b = some m) (hne : m.bank ≠ s.bank) : s.switchMode b = .refused .bankConflict := by
  simp only [State.switchMode, hm, hw, bne_iff_ne.mpr hne.symm, Bool.and_self, refuseIf_true]

theorem execMrs_window {c : Cond} {rd : Reg} {s : State} (hw : s.bankConflict = true) (hc : s.passes c = true)
    (hd : rd ≠ regPc) : execMrs c true rd s = .refused .bankConflict := by
  refine armInstr_window_of_body hc ?_
  rw [beq_false_of_ne hd, refuseIf_false, hw, Bool.and_self, refuseIf_true]

theorem msrSpsr_window {s : State} (mask op : Word) (hw : s.bankConflict = true) (hb : s.bank ≠ .shared) :
    msrSpsr mask op s = .refused .bankConflict := by
  rw [msrSpsr, beq_false_of_ne hb, refuseIf_false, hw, refuseIf_true]

/-- In the window a write of SPSR is refused, by the reserved-bit check or by one of its own. -/
theorem msrWrite_spsr_window {s : State} (mask : BitVec 4) (op : Word) (hw : s.bankConflict = true) :
    ∃ why, msrWrite true mask op s = .refused why := by
  rw [msrWrite, refuseIf_refused_iff, if_pos rfl, msrSpsr, refuseIf_refused_iff, hw, refuseIf_true]
  exact .inr (.inr ⟨_, rfl⟩)

theorem msrCpsr_window {s : State} {mask : BitVec 4} {op : Word} {m : Mode} (hw : s.bankConflict = true)
    (hctl : msrWrites s false mask 0 = true) (hT : op.getLsbD 5 = s.thumb)
    (hm : Mode.ofBits (modeField op) = some m) (hne : m.bank ≠ s.bank) :
    msrCpsr (msrMask s false mask) op s = .refused .bankConflict := by
  rw [msrCpsr_switchMode hctl hT, switchMode_window hw hm hne, andThen_refused]

/-- In the window an exception return by data processing that touches no banked register is refused after its internal
cycle. -/
theorem dataOp_return_window {c : Cond} {regs : List Reg} {op2 : Operand2} {s : State} (r : AluResult)
    (hw : s.bankConflict = true) (hc : s.passes c = true) (hp : op2ShiftByPc op2 = false) (hb : s.bank ≠ .shared)
    (h : ∀ q ∈ regPc :: regs ++ op2Regs op2, isBanked q = false) :
    dataOp c regs true regPc op2 r s = (s.world.play (op2Calls op2)).stopOr (.refused .bankConflict) := by
  rw [dataOp_return c regs op2 r s hc (.inr h) hp, exceptionReturn_conflict _ _ (by simpa using hb) (by simpa using hw),
    op2Cycle_world]

/-! ## Block transfers with the S bit -/

/-- In the window an LDM with r15 and S = 1 that touches no banked register is refused after its calls. -/
theorem execLdm_return_window {c : Cond} {wb : Bool} {rn : Reg} {list : BitVec 16} {s : State} (m : BlockMode)
    (hw : s.bankConflict = true) (hc : s.passes c = true) (ha : LdmAllowed true wb rn list s)
    (h15 : list.getLsbD 15 = true) (h : ∀ r ∈ rn :: regList list, isBanked r = false) :
    execLdm c m true wb rn list s = (s.world.play (ldmCalls m rn list s)).stopOr (.refused .bankConflict) := by
  rw [execLdm_eq m hc ha, guardBanked_eq (.inr h), h15, if_neg (by simp), ldmCurrent_pc _ _ _ _ _ h15, if_pos rfl,
    afterReads_returnConflict _ _ _ _ _ _ (ha.spsr rfl) hw]

theorem execLdm_user_window {c : Cond} {rn : Reg} {list : BitVec 16} {s : State} (m : BlockMode)
    (hw : s.bankConflict = true) (hc : s.passes c = true) (ha : LdmAllowed true false rn list s)
    (h15 : list.getLsbD 15 = false) : execLdm c m true false rn list s = .refused .bankConflict := by
  rw [execLdm_eq m hc ha, h15]
  refine guardBanked_window_of_body ?_
  rw [if_pos (by rfl), ldmUser, hw, refuseIf_true]

theorem execStm_user_window {c : Cond} {rn : Reg} {list : BitVec 16} {s : State} (m : BlockMode)
    (hw : s.bankConflict = true) (hc : s.passes c = true) (ha : StmAllowed true false rn list s) :
    execStm c m true false rn list s = .refused .bankConflict := by
  rw [execStm_eq m hc ha]
  refine guardBanked_window_of_body ?_
  rw [if_pos rfl, stmUser, hw, refuseIf_true]

/-! ## Who opens the window -/

/-- Of the ways an instruction can end, only the load of the User bank leaves the flag set. -/
theorem opensWindow {i : Instr} {s t : State} (h : exec i s = .next t) (ht : t.bankConflict = true) :
    ∃ (c : Cond) (m : BlockMode) (wb : Bool) (rn : Reg) (list : BitVec 16),
      i = .ldm c m true wb rn list ∧ list.getLsbD 15 = false ∧ s.passes c = true := by
  cases exec_ends h with
  | ldmUser _ c m rn list hi h15 _ hc _ => exact ⟨c, m, false, rn, list, hi, h15, hc⟩
  | next | callHost | branch | bx => exact absurd ht (by simp)
  | exception m v l _ _ ok => exact absurd ht (by simp [(enter_enters s m v l (bank_of_exception ok)).1.window])
  | exit u _ a _ _ _ ok =>
    obtain ⟨m, _, _, _, rfl⟩ := exceptionReturn_eq ok
    exact absurd ht (by simp)
  | msrCpsr _ _ _ _ _ _ _ _ ok =>
    obtain ⟨_, u, rfl, _⟩ := msrCpsr_eq ok
    exact absurd ht (by simp)
  | msrSpsr _ _ _ _ _ ok =>
    obtain ⟨_, _, rfl⟩ := msrSpsr_eq ok
    exact absurd ht (by simp)
  | stmUser _ _ _ _ _ _ _ hb ok =>
    obtain ⟨calls, hu⟩ := stmUser_frame hb ok
    exact absurd ht (by simp [hu.window])

end Sys2Proof.Machine
end

section
/-! The statements about the block transfers, the swap and the bank-conflict window (spec/45_arm_block_swap.md). -/

open Sys2Proof Sys2Proof.Machine

/-- Settles O39: past its checks the LDM is its accesses and `next`. -/
theorem blockLoadFillsItsList : Obligations.BlockLoadFillsItsList := by
  unfold Obligations.BlockLoadFillsItsList
  intro c m wb rn list s hc ht hn hl h15 ho
  have hexec : exec (.ldm c m false wb rn list) s = .next ((afterReads m wb rn list s).next false) := by
    rw [exec, execLdm_eq m hc ⟨hn, hl, by simp, by simp, ho⟩, guardBanked_eq ht]
    exact ldmCurrent_next m false wb rn s h15
  have hget (r : Reg) (hr : r ≠ regPc) :
      ((afterReads m wb rn list s).next false).get r = (afterReads m wb rn list s).get r := by
    rw [State.get_next, if_neg hr]
  have hret := afterReads_retires m wb rn list s hn h15
  exact ⟨_, hexec, loadedBlock_of_get m wb rn list s hget,
    fun hwb => (hget rn hn).trans (afterReads_get_base m wb rn list s hl hwb ho), hret,
    hret.keepsMemory (readCalls_reads _ _)⟩

/-- Settles O40: the accesses are those of any LDM; the branch or the return after them takes the word in r15. -/
theorem blockLoadOfR15BranchesOrReturns : Obligations.BlockLoadOfR15BranchesOrReturns := by
  unfold Obligations.BlockLoadOfR15BranchesOrReturns
  intro c m wb rn list s hc ht hn h15 ho
  have hl := list_ne_zero_of_bit h15
  have hreturn (hb : s.bank ≠ .shared) : exec (.ldm c m true wb rn list) s =
      (afterReads m wb rn list s).exceptionReturn
        (blockWord s (blockStart m (s.get rn) (regList list)) ((regList list).length - 1)) := by
    rw [exec, execLdm_eq m hc ⟨hn, hl, fun _ => hb, by simp [h15], ho⟩, guardBanked_eq ht, h15, if_neg (by simp),
      ldmCurrent_pc _ _ _ _ _ h15, if_pos rfl, afterReads_get_pc _ _ _ _ _ h15]
  refine ⟨?_, fun hb hw hm => ?_, fun hb hw hm => ?_⟩
  · have hexec : exec (.ldm c m false wb rn list) s = .next ((afterReads m wb rn list s).branchTo
        (blockWord s (blockStart m (s.get rn) (regList list)) ((regList list).length - 1))) := by
      rw [exec, execLdm_eq m hc ⟨hn, hl, by simp, by simp, ho⟩, guardBanked_eq ht, if_neg (by simp),
        ldmCurrent_pc _ _ _ _ _ h15, if_neg Bool.false_ne_true, afterReads_get_pc _ _ _ _ _ h15]
    have hget (target : Word) (r : Reg) (hr : r ≠ regPc) :
        ((afterReads m wb rn list s).branchTo target).get r = (afterReads m wb rn list s).get r := by
      rw [State.get_branchTo, if_neg hr]
    have hbranch := afterReads_branches m wb rn list s
      (blockWord s (blockStart m (s.get rn) (regList list)) ((regList list).length - 1))
    exact ⟨_, hexec, loadedBlock_of_get m wb rn list s (hget _),
      fun hwb => (hget _ rn hn).trans (afterReads_get_base m wb rn list s hl hwb ho), hbranch,
      (afterReads_status m wb rn list s).1, hbranch.reload.keepsMemory (readCalls_reads _ _)⟩
  · obtain ⟨t, ht, hseen, hret⟩ := afterReads_returns m wb rn list s
      (blockWord s (blockStart m (s.get rn) (regList list)) ((regList list).length - 1)) hb hw hm
    exact ⟨t, (hreturn hb).trans ht, fun k hk hpc => (hseen _ hpc).trans (afterReads_get_nth m wb rn list s hk),
      fun hwb => (hseen rn hn).trans (afterReads_get_base m wb rn list s hl hwb ho), hret⟩
  · rw [hreturn hb, afterReads_returnFault _ _ _ _ _ _ hb hw hm]

/-- Settles O41: past its checks the STM is its writes and `next`. -/
theorem blockStoreWritesItsList : Obligations.BlockStoreWritesItsList := by
  unfold Obligations.BlockStoreWritesItsList
  intro c m wb rn list s hc ht hn hl hlow
  have hexec : exec (.stm c m false wb rn list) s =
      .next ((stmWrites m wb rn (regList list) s (s.setFetchKind .n)).next false) := by
    rw [exec, execStm_eq m hc ⟨hn, hl, by simp, by simp, hlow⟩, guardBanked_eq ht, if_neg Bool.false_ne_true]
  have hret := stmWrites_retires (m := m) (s := s) hn hlow
  refine ⟨_, hexec, storedBlock_of_play (regList_length list) (by rw [writeCalls_eq]; exact hret.world), ?_, hret⟩
  rintro rfl
  rw [State.get_next, if_neg hn, stmWrites_get_base (regList_ne_nil hl)]

/-- Settles O42: the accesses stand between two mode switches, of which the frame of 45 R355 is known. -/
theorem userBankTransfers : Obligations.UserBankTransfers := by
  unfold Obligations.UserBankTransfers
  intro c m rn list s hc hn hl hb hw
  refine ⟨fun h15 => ?_, ?_⟩
  · obtain ⟨t, ht, hloaded, hbank⟩ := ldmUser_done (rn := rn) m hb hw h15
    refine ⟨t, ?_, hloaded, hbank, keepsMemory_of_play hbank.world (readCalls_reads _ _)⟩
    rw [exec, execLdm_eq m hc ⟨hn, hl, fun _ => hb, by simp, by simp⟩, guardBanked_eq (.inl hw), h15, ← ht]
    rfl
  · obtain ⟨t, ht, hstored, hbank⟩ := stmUser_done (list := list) m hn hb hw
    rw [blockValue_usr] at hstored hbank
    refine ⟨t, ?_, hstored, hbank⟩
    rw [exec, execStm_eq m hc ⟨hn, hl, fun _ => hb, by simp, by simp⟩, guardBanked_eq (.inl hw), if_pos rfl, ht]

/-- Settles O43: both are the shared operation, on the word read and on the byte read. -/
theorem swapExchangesRegisterAndMemory : Obligations.SwapExchangesRegisterAndMemory := by
  unfold Obligations.SwapExchangesRegisterAndMemory
  intro c rn rd rm s hc ht hn hd hm hnm hnd
  have done (size : Size) (v : Word) := swapOp_done size v hc ht hn hd hm hnm hnd
  exact ⟨done .word _, done .byte _⟩

/-- Settles O15: what names a banked register meets the window check before its own work; what touches SPSR, a bank or
the pipeline of another mode meets a check of its own, after the calls it has made. -/
theorem bankConflictRefusesBankedRegisters : Obligations.BankConflictRefusesBankedRegisters := by
  unfold Obligations.BankConflictRefusesBankedRegisters
  refine ⟨fun i s hw hc h => exec_window hw hc h, fun c imm raw s hw hc => ?_, fun imm raw s hw => ?_,
    fun c rd s hw hc hd => execMrs_window hw hc hd, fun s mask i op hform hw => ?_,
    fun s mask i op m hform hw hkeep hctl hT hm hne => ?_, fun op hop c rn op2 s hw hc hp hb => ?_,
    fun c m wb rn list s hw hc hn hl hb => ?_, fun i s t h ht => opensWindow h ht⟩
  · exact ⟨fun hswi => armInstr_window_of_body hc (swiOp_window _ _ hw hswi),
      armInstr_window_of_body hc (takeException_window _ _ _ hw),
      armInstr_window_of_body hc (takeException_window _ _ _ hw)⟩
  · exact ⟨swiOp_window _ _ hw, takeException_window _ _ _ hw⟩
  · rw [hform.exec_eq]
    refine ⟨msrWrite_spsr_window mask op hw, fun hkeep hb => ?_⟩
    rw [msrWrite_eq hkeep, if_pos rfl, msrSpsr_window _ _ hw hb]
  · rw [hform.exec_eq, msrWrite_eq hkeep, if_neg Bool.false_ne_true, msrCpsr_window hw hctl hT hm hne]
  · obtain ⟨regs, hexec, hregs⟩ := exec_row hop c true rn regPc op2 s
    rw [hexec, hregs]
    exact ⟨fun h => armInstr_window hc hw h _, fun h => dataOp_return_window _ hw hc hp hb h⟩
  · refine ⟨fun h15 ho => ⟨fun h => armInstr_window hc hw h _, fun h => ?_⟩, fun h15 => ?_, ?_⟩
    · exact execLdm_return_window m hw hc ⟨hn, hl, fun _ => hb, by simp [h15], ho⟩ h15 h
    · exact execLdm_user_window m hw hc ⟨hn, hl, fun _ => hb, by simp, by simp⟩ h15
    · exact execStm_user_window m hw hc ⟨hn, hl, fun _ => hb, by simp, by simp⟩

end

section
/-! Branches of the 32-bit set, and the software exceptions of both sets, each as its shared operation (spec/46 R380 to
R385, 49 R495, R496). -/

namespace Sys2Proof.Machine

open Sys2Proof

/-! ## Branch targets and the branch (46 R380, R381) -/

theorem branchOffset_eq (imm : BitVec 24) : branchOffset imm = BitVec.ofInt 32 (4 * imm.toInt) :=
  signExtend_append_zero imm

theorem branchTo_branches (s : State) (target : Word) :
    Branches s.thumb target { flags := s.flags } s (s.branchTo target) := by
  apply branches_branchTo <;> simp

/-- A write of one register other than r15, then a branch. -/
theorem set_branchTo_branches (s : State) (r : Reg) (v target : Word) :
    Branches s.thumb target { dst := [r], flags := s.flags } s ((s.set r v).branchTo target) := by
  apply branches_branchTo <;> simp +contextual [State.get_set]

/-! ## Exceptions and the callback (60 R524, R540) -/

/-- Outside the window an exception is its entry, which leaves the latch. -/
theorem takeException_enters {s : State} {m : Mode} (vector link : Word) (hm : m.bank ≠ .shared)
    (hw : s.bankConflict = false) :
    ∃ t, s.takeException m vector link = .next t ∧ t.irqMaskLatch = s.irqMaskLatch ∧ Enters m vector link s t := by
  obtain ⟨henters, hlatch⟩ := enter_enters s m vector link hm
  exact ⟨_, takeException_next s m vector link hw, hlatch, henters⟩

/-- Without interception a software interrupt enters Supervisor mode (60 R527). -/
theorem swiOp_enters {s : State} (thumb : Bool) (n : Word) (hw : s.bankConflict = false)
    (hswi : s.world.cfg.swiIntercept = false) :
    ∃ t, swiOp thumb n s = .next t ∧ t.irqMaskLatch = s.irqMaskLatch ∧
      Enters .svc Config.vecSwi (s.linkAfter thumb) s t := by
  rw [swiOp, hswi, if_neg Bool.false_ne_true]
  exact takeException_enters _ _ (by decide) hw

/-- An undefined instruction enters Undefined mode (60 R528). -/
theorem raiseUndefined_enters {s : State} (thumb : Bool) (hw : s.bankConflict = false) :
    ∃ t, s.raiseUndefined thumb = .next t ∧ t.irqMaskLatch = s.irqMaskLatch ∧
      Enters .und Config.vecUnd (s.linkAfter thumb) s t :=
  takeException_enters _ _ (by decide) hw

theorem retires_callHost_next (s : State) (thumb : Bool) (note : HostNote) :
    Retires thumb { flags := s.flags, kind := s.fetchKind, notes := [note] } s
      (({ s with world := s.world.callHost note } : State).next thumb) := by
  apply retires_next
  case world => rfl
  all_goals simp [State.get, State.thumb, State.flags]

/-- With interception a software interrupt is the host's callback and `next` (60 R540). -/
theorem swiOp_callHost {s : State} (thumb : Bool) {n : Nat} (imm : BitVec n)
    (hswi : s.world.cfg.swiIntercept = true) :
    ∃ t, swiOp thumb (imm.setWidth 32) s = .next t ∧ t.cpsr = s.cpsr ∧ KeepsMemory s t ∧
      Retires thumb
        { flags := s.flags, kind := s.fetchKind, notes := [.swiCallback (BitVec.ofNat 32 imm.toNat)] } s t := by
  have hretires := retires_callHost_next s thumb (.swiCallback (BitVec.ofNat 32 imm.toNat))
  have hop : swiOp thumb (imm.setWidth 32) s = .next
      (({ s with world := s.world.callHost (.swiCallback (BitVec.ofNat 32 imm.toNat)) } : State).next thumb) := by
    rw [swiOp, if_pos hswi, BitVec.ofNat_toNat]
  exact ⟨_, hop, rfl, hretires.keepsMemory (by simp), hretires⟩

end Sys2Proof.Machine
end

section
/-! The statements about branches and software exceptions (spec/46_arm_branch_system.md). -/

open Sys2Proof Sys2Proof.Machine

/-- Settles O47: past the condition and the window each is one branch, BL after its write of r14, BX after its choice of
the set. -/
theorem branchesOfThe32BitSet : Obligations.BranchesOfThe32BitSet := by
  unfold Obligations.BranchesOfThe32BitSet
  refine ⟨fun c imm s hc => ?_, fun c imm s hc hw => ?_, fun c rm s hc ht => ?_⟩
  · have hbranch := branchTo_branches s (s.get regPc + BitVec.ofInt 32 (4 * imm.toInt))
    refine ⟨_, ?_, hbranch, rfl, hbranch.reload.keepsMemory (by simp)⟩
    rw [exec, execB, armInstr_eq hc (.inr (by simp)), branchOffset_eq]
  · have hbranch := set_branchTo_branches s regLr (s.get regPc - 4) (s.get regPc + BitVec.ofInt 32 (4 * imm.toInt))
    refine ⟨_, ?_, ?_, hbranch, rfl, hbranch.reload.keepsMemory (by simp)⟩
    · rw [exec, execBl, armInstr_eq hc (.inl hw), branchOffset_eq]
    · rw [State.get_branchTo, if_neg (by decide), State.get_set_self]
  · rw [exec, execBx, armInstr_eq hc ht]
    refine ⟨bxTo_next s (s.get rm), fun h0 h1 => ?_⟩
    rw [bxTo, h0, h1, Bool.not_false, Bool.and_self, refuseIf_true]

/-- Settles O48: past the condition each instruction is the shared operation of both sets, whose outcome the
configuration decides. -/
theorem softwareExceptionsEnterOrCallTheHost : Obligations.SoftwareExceptionsEnterOrCallTheHost := by
  unfold Obligations.SoftwareExceptionsEnterOrCallTheHost
  have arm {c : Cond} {s : State} (hc : s.passes c = true) (body : Res State) : armInstr c [] s body = body :=
    armInstr_eq hc (.inr (by simp)) body
  refine ⟨fun s hw => ⟨fun c imm hc hswi => ?_, fun c raw hc => ⟨?_, ?_⟩, fun imm hswi => swiOp_enters true _ hw hswi,
    fun raw => raiseUndefined_enters true hw⟩,
    fun s hswi => ⟨fun c imm hc => ?_, fun imm => swiOp_callHost true imm hswi⟩⟩
  · rw [exec, execSwi, arm hc]
    exact swiOp_enters false _ hw hswi
  · rw [exec, execUndefined, arm hc]
    exact raiseUndefined_enters false hw
  · rw [exec, execCoprocessor, arm hc]
    exact raiseUndefined_enters false hw
  · rw [exec, execSwi, arm hc]
    exact swiOp_callHost false imm hswi

end

section
/-! The instructions of the 16-bit ALU set as their shared ends: a low register with flags, flags alone, a register
without flags, a branch (spec/47 R400 to R433). -/

namespace Sys2Proof.Machine

open Sys2Proof

/-! ## A low register with the flags (47 R434) -/

theorem thumbWrite_shiftResult (rd : LowReg) (p : Word × Bool) (s : State) :
    ∃ t, thumbWrite rd (shiftResult s p) s = .next t ∧ ThumbResult s t rd p.1 (thumbShiftFlags s p) :=
  thumbWrite_result rd (shiftResult s p) s

theorem thumbWrite_thumbLogical (rd : LowReg) (v : Word) (s : State) :
    ∃ t, thumbWrite rd (thumbLogical s v) s = .next t ∧ ThumbResult s t rd v (thumbLogicalFlags s v) :=
  thumbWrite_result rd (thumbLogical s v) s

/-! ## A register without flags (47 R427, R429 to R433) -/

/-- An immediate in words is 4 times its number (30 R142). -/
theorem setWidth_shiftLeft_two {n : Nat} (imm : BitVec n) :
    (imm.setWidth 32 <<< 2 : Word) = BitVec.ofNat 32 (4 * imm.toNat) := by
  rw [BitVec.shiftLeft_eq_mul_twoPow, BitVec.mul_comm, BitVec.ofNat_mul, BitVec.ofNat_toNat]
  rfl

/-- A write of one register other than r15, then `next`, of which only the register, r15 and the window change. -/
theorem set_next_done {rd : Reg} (v : Word) (s : State) (hd : rd ≠ regPc) :
    ((s.set rd v).next true).get rd = v ∧ KeepsMemory s ((s.set rd v).next true) ∧
      Retires true { dst := [rd], flags := s.flags, kind := s.fetchKind } s ((s.set rd v).next true) := by
  have hretires := retires_set_next true v s hd
  refine ⟨?_, hretires.keepsMemory (by simp), hretires⟩
  rw [State.get_next, if_neg hd, State.get_set_self]

theorem set_low_next_result (rd : LowReg) (v : Word) (s : State) :
    ThumbResult s ((s.set (low rd) v).next true) rd v s.flags := by
  obtain ⟨hvalue, hmemory, hretires⟩ := set_next_done v s (low_ne_pc rd)
  exact ⟨hvalue, hretires, hmemory⟩

/-- A format 5 result is a register write, or with Rd = 15 a branch within the set (47 R427, R429). -/
theorem hiWrite_done (rd : Reg) (v : Word) (s : State) :
    ∃ t, hiWrite rd v s = .next t ∧ KeepsMemory s t ∧
      (rd ≠ regPc → t.get rd = v ∧ Retires true { dst := [rd], flags := s.flags, kind := s.fetchKind } s t) ∧
      (rd = regPc → t.cpsr = s.cpsr ∧ Branches s.thumb v { flags := s.flags } s t) := by
  by_cases hd : rd = regPc
  · have hbranch := branchTo_branches s v
    exact ⟨_, if_pos hd, hbranch.reload.keepsMemory (by simp), fun hne => absurd hd hne, fun _ => ⟨rfl, hbranch⟩⟩
  · obtain ⟨hvalue, hmemory, hretires⟩ := set_next_done v s hd
    exact ⟨_, if_neg hd, hmemory, fun _ => ⟨hvalue, hretires⟩, fun heq => absurd heq hd⟩

end Sys2Proof.Machine
end

section
/-! The statements about shifts, arithmetic, logic and moves of the 16-bit set (spec/47_thumb_alu.md). -/

open Sys2Proof Sys2Proof.Machine

/-- Settles O49: an immediate shift writes the shifter's result, a register shift does so after its internal cycle. -/
theorem thumbShifts : Obligations.ThumbShifts := by
  unfold Obligations.ThumbShifts
  refine ⟨fun imm rs rd s => ?_, fun rs rd s => ?_⟩
  · have write (p : Word × Bool) := thumbWrite_shiftResult rd p s
    exact ⟨write _, write _, write _⟩
  · have shift (ty : ShiftType) := thumbShiftReg_done ty rs rd s
    exact ⟨shift .lsl, shift .lsr, shift .asr, shift .ror⟩

/-- Settles O50: each arithmetic row writes the adder's result with its flags, each logical row its result with the
logical flags. -/
theorem thumbArithmeticAndLogic : Obligations.ThumbArithmeticAndLogic := by
  unfold Obligations.ThumbArithmeticAndLogic
  simp only [BitVec.ofNat_toNat, List.forall_mem_cons]
  refine ⟨fun rn rs rd imm3 imm8 s => ?_, fun rs rd imm8 s => ?_⟩
  · have write (r : AluResult) := thumbWrite_result rd r s
    exact ⟨write _, write _, write _, write _, write _, write _, write _, write _, write _, List.forall_mem_nil _⟩
  · have write (v : Word) := thumbWrite_thumbLogical rd v s
    exact ⟨write _, write _, write _, write _, write _, write _, List.forall_mem_nil _⟩

/-- Settles O51: each comparison ends with its flags alone, the hi-register form past the window and the check of
r15. -/
theorem thumbComparisons : Obligations.ThumbComparisons := by
  unfold Obligations.ThumbComparisons
  simp only [BitVec.ofNat_toNat, List.forall_mem_cons]
  refine ⟨fun rs rd imm8 s => ?_, fun rd rs s ht hd => ?_⟩
  · have compare (f : Flags) := thumbFlags_done f s
    exact ⟨compare _, compare _, compare _, compare _, List.forall_mem_nil _⟩
  · rw [exec, execTCmpHi, guardBanked_eq ht, beq_false_of_ne hd, refuseIf_false]
    exact thumbFlags_done _ s

/-- Settles O52: past the window each is the write of one register, which with Rd = 15 is a branch. -/
theorem thumbHighRegistersAndAddresses : Obligations.ThumbHighRegistersAndAddresses := by
  unfold Obligations.ThumbHighRegistersAndAddresses
  simp only [← setWidth_shiftLeft_two, List.forall_mem_cons]
  refine ⟨fun rd rs s ht => ⟨?_, ?_, List.forall_mem_nil _⟩, fun rd imm s => ⟨?_, fun hw => ?_⟩,
    fun imm s hw => ⟨?_, ?_, List.forall_mem_nil _⟩⟩
  · rw [exec, execTAddHi, guardBanked_eq ht]
    exact hiWrite_done rd _ s
  · rw [exec, execTMovHi, guardBanked_eq ht]
    exact hiWrite_done rd _ s
  · exact ⟨_, rfl, set_low_next_result rd _ s⟩
  · rw [exec, execTAddSp, guardBanked_eq (.inl hw)]
    exact ⟨_, rfl, set_low_next_result rd _ s⟩
  · rw [exec, execTSpAdd, guardBanked_eq (.inl hw)]
    exact ⟨_, rfl, set_next_done _ s (by decide)⟩
  · rw [exec, execTSpSub, guardBanked_eq (.inl hw)]
    exact ⟨_, rfl, set_next_done _ s (by decide)⟩

end

section
/-! The accesses of PUSH, POP and the multiple transfers of the 16-bit set, and the frames of what ends after them
(spec/48 R467 to R471). -/

namespace Sys2Proof.Machine

open Sys2Proof

/-! ## States after accesses -/

/-- `u` differs from `s` by the bus calls `calls`, the kind of the next fetch and registers of `dst`. -/
structure Accessed (dst : List Reg) (calls : List BusCall) (s u : State) : Prop where
  rest : ∃ x, u = { s with x := x, world := s.world.play calls, fetchKind := .n }
  other : ∀ r, r ∉ dst → u.get r = s.get r

section Accessed

variable {dst : List Reg} {calls : List BusCall} {s u : State}

/-- A write of a register of `dst`. -/
theorem Accessed.set (h : Accessed dst calls s u) {r : Reg} (v : Word) (hr : r ∈ dst) :
    Accessed dst calls s (u.set r v) := by
  obtain ⟨⟨x, hx⟩, hother⟩ := h
  refine ⟨⟨x.set r.val v, by rw [hx]; rfl⟩, fun q hq => ?_⟩
  have hne : q ≠ r := fun e => hq (e ▸ hr)
  rw [State.get_set_ne _ hne, hother q hq]

/-- One internal cycle more. -/
theorem Accessed.idle (h : Accessed dst calls s u) : Accessed dst (calls ++ [.idle]) s (u.idle 1) := by
  obtain ⟨⟨x, hx⟩, hother⟩ := h
  exact ⟨⟨x, by rw [hx, World.play_append]; rfl⟩, hother⟩

theorem Accessed.mono (h : Accessed dst calls s u) {dst' : List Reg} (hsub : dst ⊆ dst') : Accessed dst' calls s u :=
  ⟨h.rest, fun r hr => h.other r fun hd => hr (hsub hd)⟩

/-- `next` after accesses that leave r15 (40 R165). -/
theorem Accessed.retires (h : Accessed dst calls s u) (hpc : regPc ∉ dst) :
    Retires true { dst := dst, flags := s.flags, kind := .n, calls := calls } s (u.next true) := by
  obtain ⟨⟨x, rfl⟩, hother⟩ := h
  exact retires_next (hother _ hpc) ⟨rfl, rfl⟩ rfl rfl rfl (fun r _ hd => hother r hd) ⟨rfl, rfl, rfl⟩ rfl
    (fun _ _ _ => rfl) ⟨rfl, rfl, rfl, rfl⟩

/-- A branch within the set after accesses (40 R166). -/
theorem Accessed.branches (h : Accessed dst calls s u) (target : Word) :
    Branches s.thumb target { dst := dst, flags := s.flags, calls := calls } s (u.branchTo target) := by
  obtain ⟨⟨x, rfl⟩, hother⟩ := h
  exact branches_branchTo rfl rfl (fun r _ hd => hother r hd) ⟨rfl, rfl, rfl⟩ rfl (fun _ _ _ => rfl)
    ⟨rfl, rfl, rfl, rfl⟩

theorem Accessed.cpsr (h : Accessed dst calls s u) : u.cpsr = s.cpsr := by
  obtain ⟨⟨x, rfl⟩, _⟩ := h
  rfl

end Accessed

/-! ## Stores -/

/-- A list without r15 names it at no place. -/
theorem nthReg_ne_pc {regs : List Reg} (h : regPc ∉ regs) (k : Nat) : nthReg regs k ≠ regPc := by
  by_cases hk : k < regs.length
  · exact fun e => h (e ▸ nthReg_mem hk)
  · rw [nthReg, List.getD_eq_default _ _ (by omega)]
    decide

/-- A block store of a list without r15 stores the registers themselves. -/
theorem blockValue_of_notMem {regs : List Reg} (s : State) (h : regPc ∉ regs) :
    blockValue s regs = fun k => s.get (nthReg regs k) :=
  funext fun k => if_neg (nthReg_ne_pc h k)

theorem regPc_notMem_pushRegs (lr : Bool) (list : BitVec 8) : regPc ∉ pushRegs lr list := by
  rw [mem_pushRegs]
  rintro (h | ⟨_, h⟩)
  · exact absurd h (by simp)
  · exact absurd h (by decide)

theorem regSp_notMem_popRegs (pc : Bool) (list : BitVec 8) : regSp ∉ popRegs pc list := by
  rw [mem_popRegs]
  rintro (h | ⟨_, h⟩)
  · exact absurd h (by simp)
  · exact absurd h (by decide)

/-- The writes of a list without r15 whose base, where it is written back, is its lowest register or not in it. -/
theorem storeRegs_accessed {wb : Option (Reg × Word)} {regs : List Reg} (a : Word) (s : State) (hpc : regPc ∉ regs)
    (htail : ∀ q ∈ regs.tail, q ∉ wbReg wb) (hwb : regPc ∉ wbReg wb) :
    Accessed (wbReg wb) (writeCalls a regs.length fun k => s.get (nthReg regs k)) s
      (storeRegs wb true regs a (s.setFetchKind .n)) := by
  have hworld := storeRegs_calls wb regs true a (s.setFetchKind .n) htail hwb (by simp)
  rw [writeCalls_eq, blockValue_of_notMem _ hpc] at hworld
  obtain ⟨x, cs, hx⟩ := storeRegs_eq wb regs true a (s.setFetchKind .n)
  refine ⟨⟨x, ?_⟩, fun r hr => storeRegs_get_other wb regs true a _ r hr⟩
  rw [hx] at hworld ⊢
  exact congrArg (fun w => ({ s with x := x, world := w, fetchKind := .n } : State)) hworld

/-- What retires with the writes of at most 16 words has stored them. -/
theorem Retires.storedBlock {thumb : Bool} {dst : List Reg} {f : Flags} {k : AccessKind} {a : Word} {n : Nat}
    {v : Nat → Word} {s t : State}
    (h : Retires thumb { dst := dst, flags := f, kind := k, calls := writeCalls a n v } s t) (hn : n ≤ 16) :
    StoredBlock a n v s t :=
  storedBlock_of_play hn (by rw [writeCalls_eq]; exact h.world)

/-! ## Loads -/

/-- The reads of a list (48 R468, R470). -/
theorem loadRegs_accessed (regs : List Reg) (a : Word) (s : State) :
    Accessed regs (readCalls a regs.length) s (loadRegs none true regs a (s.setFetchKind .n)) := by
  obtain ⟨x, hx⟩ := loadRegs_eq none regs true a (s.setFetchKind .n)
  rw [readCalls_eq] at hx
  exact ⟨⟨x, hx⟩, fun r hr => loadRegs_get_other none regs true a _ r hr (by simp [wbReg])⟩

theorem loadRegs_get_word {regs : List Reg} (a : Word) (s : State) (hn : regs.Nodup) {k : Nat}
    (hk : k < regs.length) :
    (loadRegs none true regs a (s.setFetchKind .n)).get (nthReg regs k) = blockWord s a k := by
  rw [loadRegs_get_nth none regs true a _ k hn hk, readCalls_eq]
  rfl

/-- The reads of a POP, its new stack pointer and its internal cycle. -/
theorem popReads_accessed (regs : List Reg) (s : State) :
    Accessed (regSp :: regs) (readCalls (s.get regSp) regs.length ++ [.idle]) s (popReads regs s) :=
  (((loadRegs_accessed regs _ s).mono (List.subset_cons_self _ _)).set _ List.mem_cons_self).idle

theorem popReads_get_sp (regs : List Reg) (s : State) :
    (popReads regs s).get regSp = s.get regSp + BitVec.ofNat 32 (4 * regs.length) :=
  State.get_set_self _ _ _

/-- A loaded register after the reads of a POP. -/
theorem popReads_get_word {pc : Bool} {list : BitVec 8} (s : State) {k : Nat} (hk : k < (popRegs pc list).length) :
    (popReads (popRegs pc list) s).get (nthReg (popRegs pc list) k) = blockWord s (s.get regSp) k := by
  have hne : nthReg (popRegs pc list) k ≠ regSp := fun e => regSp_notMem_popRegs pc list (e ▸ nthReg_mem hk)
  rw [popReads, State.idle_get, State.get_set_ne _ hne, loadRegs_get_word _ s (popRegs_nodup pc list) hk]

theorem popReads_get_pc (list : BitVec 8) (s : State) :
    (popReads (popRegs true list) s).get regPc = blockWord s (s.get regSp) ((popRegs true list).length - 1) := by
  obtain ⟨hlen, hlast⟩ := popRegs_last list
  rw [← popReads_get_word s (Nat.sub_one_lt_of_lt hlen), hlast]

/-- The state of an LDMIA before `next`: the reads, the internal cycle, and the base where it was not loaded. -/
def ldmiaReads (rb : LowReg) (list : BitVec 8) (s : State) : State :=
  let t := (loadRegs none true (lowList list) (s.get (low rb)) (s.setFetchKind .n)).idle 1
  if baseInList rb list then t else t.set (low rb) (multipleBase s rb (lowList list))

theorem execTLdmia_eq {rb : LowReg} {list : BitVec 8} (s : State) (h : list ≠ 0) :
    execTLdmia rb list s = .next ((ldmiaReads rb list s).next true) := by
  rw [execTLdmia, beq_false_of_ne h, refuseIf_false, ldmiaReads]

theorem ldmiaReads_accessed (rb : LowReg) (list : BitVec 8) (s : State) :
    Accessed (low rb :: lowList list) (readCalls (s.get (low rb)) (lowList list).length ++ [.idle]) s
      (ldmiaReads rb list s) := by
  have hreads := ((loadRegs_accessed (lowList list) (s.get (low rb)) s).mono
    (List.subset_cons_self (low rb) _)).idle
  rw [ldmiaReads]
  split
  · exact hreads
  · exact hreads.set _ List.mem_cons_self

theorem ldmiaReads_get_base {rb : LowReg} {list : BitVec 8} (s : State) (h : list.getLsbD rb.val = false) :
    (ldmiaReads rb list s).get (low rb) = s.get (low rb) + BitVec.ofNat 32 (4 * (lowList list).length) := by
  rw [ldmiaReads, baseInList, h, if_neg Bool.false_ne_true, State.get_set_self]
  rfl

/-- A loaded register after an LDMIA, the base among them where it is in the list. -/
theorem ldmiaReads_get_word (rb : LowReg) {list : BitVec 8} (s : State) {k : Nat} (hk : k < (lowList list).length) :
    (ldmiaReads rb list s).get (nthReg (lowList list) k) = blockWord s (s.get (low rb)) k := by
  have hword := loadRegs_get_word (s.get (low rb)) s (lowList_nodup list) hk
  rw [ldmiaReads]
  split
  · exact hword
  · next hbase =>
    have hne : nthReg (lowList list) k ≠ low rb := by
      intro e
      have hmem := nthReg_mem hk
      rw [e, mem_lowList] at hmem
      exact hbase hmem
    rw [State.get_set_ne _ hne]
    exact hword

/-! ## The lists that are refused -/

/-- A PUSH or POP with a register to transfer passes its check (48 R467, R468). -/
theorem list_check {list : BitVec 8} {extra : Bool} (h : list ≠ 0 ∨ extra = true) :
    (list == 0 && !extra) = false := by
  obtain h | rfl := h
  · rw [beq_false_of_ne h, Bool.false_and]
  · exact Bool.and_false _

/-- An STMIA whose base is its lowest register, or not in its list, passes its checks (48 R469). -/
theorem execTStmia_eq {rb : LowReg} {list : BitVec 8} (s : State) (h : list ≠ 0)
    (hlow : list.getLsbD rb.val = true → nthReg (lowList list) 0 = low rb) :
    execTStmia rb list s = .next ((storeRegs (some (low rb, multipleBase s rb (lowList list))) true (lowList list)
      (s.get (low rb)) (s.setFetchKind .n)).next true) := by
  have hbase : (baseInList rb list && !isLowest (lowList list) (low rb)) = false := by
    simpa [baseInList, isLowest_iff _ _ (lowList_ne_nil h)] using hlow
  rw [execTStmia, beq_false_of_ne h, hbase, refuseIf_false, refuseIf_false]

/-- A base that is lowest in its list, or not in it, is not stored after the first access. -/
theorem low_notMem_tail {rb : LowReg} {list : BitVec 8}
    (hlow : list.getLsbD rb.val = true → nthReg (lowList list) 0 = low rb) : low rb ∉ (lowList list).tail := by
  intro hmem
  have hbit := (mem_lowList list (low rb)).mp (List.mem_of_mem_tail hmem)
  exact regList_tail_base (hlow hbit) hmem

end Sys2Proof.Machine
end

section
/-! The statements about loads, stores and block transfers of the 16-bit set (spec/48_thumb_load_store.md). -/

open Sys2Proof Sys2Proof.Machine

/-- Settles O53: each load is the common sequence of R471, the SP form past the window check. -/
theorem thumbLoads : Obligations.ThumbLoads := by
  unfold Obligations.ThumbLoads
  intro rd rb ro imm8 imm5 s
  have load (size : Size) (a v : Word) := thumbLoad_loaded rd size a v s
  refine ⟨load _ _ _, load _ _ _, load _ _ _, load _ _ _, load _ _ _, load _ _ _, load _ _ _, load _ _ _, load _ _ _,
    fun hw => ?_⟩
  rw [exec, execTLdrSp, guardBanked_eq (.inl hw)]
  exact load _ _ _

/-- Settles O54: each store is the common sequence of R471, the SP form past the window check. -/
theorem thumbStores : Obligations.ThumbStores := by
  unfold Obligations.ThumbStores
  intro rd rb ro imm8 imm5 s
  have store (size : Size) (a : Word) := thumbStore_stored rd size a s
  refine ⟨store _ _, store _ _, store _ _, store _ _, store _ _, store _ _, fun hw => ?_⟩
  rw [exec, execTStrSp, guardBanked_eq (.inl hw)]
  exact store _ _

/-- Settles O55: past its checks each is its accesses, the write of its base, and `next` or a branch. -/
theorem thumbBlockTransfers : Obligations.ThumbBlockTransfers := by
  unfold Obligations.ThumbBlockTransfers
  refine ⟨fun lr list s hw hl => ?_, fun rb list s hl hlow => ?_, fun pc list s hw hl => ?_, fun rb list s hl => ?_⟩
  · have haccess := ((storeRegs_accessed (wb := none) (pushStart s (pushRegs lr list)) s
      (regPc_notMem_pushRegs lr list) (by simp [wbReg]) (by simp [wbReg])).mono (List.nil_subset [regSp])).set
        (pushStart s (pushRegs lr list)) List.mem_cons_self
    have hret := haccess.retires (by decide)
    refine ⟨_, ?_, hret.storedBlock (pushRegs_length lr list), ?_, hret⟩
    · rw [exec, execTPush, guardBanked_eq (.inl hw), list_check hl, refuseIf_false]
    · rw [State.get_next, if_neg (by decide), State.get_set_self]
  · have haccess := storeRegs_accessed (wb := some (low rb, multipleBase s rb (lowList list))) (s.get (low rb)) s
      (pc_notMem_low list) (fun q hq e => low_notMem_tail hlow ((List.mem_singleton.mp e : q = low rb) ▸ hq))
      (fun e => pc_ne_low rb (List.mem_singleton.mp e))
    have hret := haccess.retires fun e => pc_ne_low rb (List.mem_singleton.mp e)
    refine ⟨_, execTStmia_eq s hl hlow, hret.storedBlock ((lowList_length list).trans (by decide)), ?_, hret⟩
    rw [State.get_next, if_neg (low_ne_pc rb), storeRegs_get_base (lowList_ne_nil hl)]
    rfl
  · have haccess := popReads_accessed (popRegs pc list) s
    have hexec : exec (.tPop pc list) s = .next (if pc then
        (popReads (popRegs pc list) s).branchTo ((popReads (popRegs pc list) s).get regPc)
        else (popReads (popRegs pc list) s).next true) := by
      rw [exec, execTPop, guardBanked_eq (.inl hw), list_check hl, refuseIf_false]
    cases pc with
    | false =>
      have hret := haccess.retires (List.not_mem_cons_of_ne_of_not_mem (by decide) (pc_notMem_low list))
      have hget (r : Reg) (hr : r ≠ regPc) :
          ((popReads (popRegs false list) s).next true).get r = (popReads (popRegs false list) s).get r := by
        rw [State.get_next, if_neg hr]
      exact ⟨_, hexec, fun k hk hpc => (hget _ hpc).trans (popReads_get_word s hk),
        (hget _ (by decide)).trans (popReads_get_sp _ s), hret.keepsMemory (readCalls_reads _ _), fun _ => hret,
        fun h => absurd h Bool.false_ne_true⟩
    | true =>
      rw [popReads_get_pc] at hexec
      have hbranch := haccess.branches (blockWord s (s.get regSp) ((popRegs true list).length - 1))
      have hget (target : Word) (r : Reg) (hr : r ≠ regPc) :
          ((popReads (popRegs true list) s).branchTo target).get r = (popReads (popRegs true list) s).get r := by
        rw [State.get_branchTo, if_neg hr]
      exact ⟨_, hexec, fun k hk hpc => (hget _ _ hpc).trans (popReads_get_word s hk),
        (hget _ _ (by decide)).trans (popReads_get_sp _ s), hbranch.reload.keepsMemory (readCalls_reads _ _),
        fun h => absurd h.symm Bool.false_ne_true, fun _ => ⟨haccess.cpsr, hbranch⟩⟩
  · have hret := (ldmiaReads_accessed rb list s).retires
      (List.not_mem_cons_of_ne_of_not_mem (pc_ne_low rb) (pc_notMem_low list))
    have hget (r : Reg) (hr : r ≠ regPc) :
        ((ldmiaReads rb list s).next true).get r = (ldmiaReads rb list s).get r := by
      rw [State.get_next, if_neg hr]
    exact ⟨_, execTLdmia_eq s hl, fun k hk hpc => (hget _ hpc).trans (ldmiaReads_get_word rb s hk),
      fun hbase => (hget _ (low_ne_pc rb)).trans (ldmiaReads_get_base s hbase),
      hret.keepsMemory (readCalls_reads _ _), hret⟩

end

section
/-! The statement about branches of the 16-bit set (spec/49_thumb_branch_system.md). -/

open Sys2Proof Sys2Proof.Machine

/-- Settles O57: each is one branch, or one register write and `next`; the second half of BL branches after its write of
r14, to a target from the old r14. -/
theorem branchesOfThe16BitSet : Obligations.BranchesOfThe16BitSet := by
  unfold Obligations.BranchesOfThe16BitSet
  refine ⟨fun c imm s => ?_, fun imm s => ?_, fun imm s hw => ⟨?_, ?_⟩, fun rs s ht => ?_⟩
  · rw [exec, execTBcond, thumbCondOffset, signExtend_append_zero]
    cases hc : s.passes c
    · have hret := retires_next_self true s
      exact ⟨_, rfl, rfl, hret.keepsMemory (by simp), fun h => absurd h Bool.false_ne_true, fun _ => hret⟩
    · have hbranch := branchTo_branches s (s.get regPc + BitVec.ofInt 32 (2 ^ 1 * imm.toInt))
      exact ⟨_, rfl, rfl, hbranch.reload.keepsMemory (by simp), fun _ => hbranch,
        fun h => absurd h.symm Bool.false_ne_true⟩
  · rw [exec, execTB, thumbBranchOffset, signExtend_append_zero]
    have hbranch := branchTo_branches s (s.get regPc + BitVec.ofInt 32 (2 ^ 1 * imm.toInt))
    exact ⟨_, rfl, rfl, hbranch.reload.keepsMemory (by simp), hbranch⟩
  · rw [exec, execTBlFirst, guardBanked_eq (.inl hw), thumbBlHigh, shiftLeft_signExtend]
    exact ⟨_, rfl, set_next_done _ s (by decide)⟩
  · have hlow : thumbBlLow imm = BitVec.ofNat 32 (2 * imm.toNat) := by
      rw [thumbBlLow, BitVec.shiftLeft_eq_mul_twoPow, BitVec.mul_comm, BitVec.ofNat_mul, BitVec.ofNat_toNat]
      rfl
    rw [exec, execTBlSecond, guardBanked_eq (.inl hw), hlow]
    have hbranch := set_branchTo_branches s regLr ((s.get regPc - 2) ||| 1)
      (s.get regLr + BitVec.ofNat 32 (2 * imm.toNat))
    refine ⟨_, rfl, ?_, rfl, hbranch.reload.keepsMemory (by simp), hbranch⟩
    rw [State.get_branchTo, if_neg (by decide), State.get_set_self]
  · rw [exec, execTBx, guardBanked_eq ht]
    refine ⟨bxTo_next s (s.get rs), fun h0 h1 => ?_⟩
    rw [bxTo, h0, h1, Bool.not_false, Bool.and_self, refuseIf_true]

end

section
/-! A step that takes the interrupt, and what an instruction or a step may do to CPSR.M, I and F in User mode (spec/60
R520, R526, R550). -/

namespace Sys2Proof.Machine

open Sys2Proof

/-! ## The interrupt (60 R524 to R526) -/

/-- The link of an interrupt: the aligned stored r15, less 4 in the 32-bit set (60 R526). -/
def irqLink (e : State) : Word :=
  if e.thumb then alignPc true (e.get regPc) else alignPc false (e.get regPc) - 4

theorem alignStep_irqLink (e : State) :
    (if e.thumb then e.alignStep.get regPc else e.alignStep.get regPc - 4) = irqLink e := by
  rw [alignStep_get, if_pos rfl, irqLink]
  cases e.thumb <;> rfl

/-- The entry of the interrupt step, its latch update included, as an entry from the state before stage 1. -/
theorem irq_enters (e : State) :
    Enters .irq Config.vecIrq (irqLink e) e
      (e.alignStep.enter .irq Config.vecIrq (irqLink e)).latchIrqMask :=
  enters_align (enter_enters e.alignStep .irq _ _ (by decide)).1

/-- After the entry of an interrupt the latch is set, as the entry has set CPSR.I (10 R44). -/
theorem irq_latch (e : State) :
    (e.alignStep.enter .irq Config.vecIrq (irqLink e)).latchIrqMask.irqMaskLatch = true :=
  (irq_enters e).masked

/-- Outside the window the interrupt step is its entry and the latch update, where its two fetches meet no stop. -/
theorem irqStep_next {e : State} (hw : e.bankConflict = false)
    (hs : (e.world.play [fetch0 false Config.vecIrq, fetch1 false Config.vecIrq]).stop = none) :
    e.irqStep = .next (e.alignStep.enter .irq Config.vecIrq (irqLink e)).latchIrqMask := by
  have hraise : e.alignStep.raiseIrq = .next (e.alignStep.enter .irq Config.vecIrq (irqLink e)) := by
    rw [← alignStep_irqLink]
    exact takeException_next e.alignStep _ _ _ hw
  rw [State.irqStep, hraise, andThen_next]
  refine settle_none ?_
  rw [(irq_enters e).reload.world]
  exact hs

/-- In the window the interrupt is refused (60 R525). -/
theorem irqStep_window {e : State} (hw : e.bankConflict = true) : e.irqStep = .refused .bankConflict := by
  rw [State.irqStep, State.raiseIrq, takeException_window (s := e.alignStep) _ _ _ hw, andThen_refused]

/-! ## User mode (60 R520, R550) -/

/-- CPSR.M, I and F are as before: the low byte without T. -/
def KeepsControl (s t : State) : Prop := ∀ k : Nat, k < 8 → k ≠ 5 → t.cpsr.getLsbD k = s.cpsr.getLsbD k

theorem Local.keepsControl {i : Instr} {s u : State} (h : Local i s u) : KeepsControl s u :=
  fun k hk _ => h.bit k (by omega)

/-- In User mode MSR writes no bit of the control byte (43 R284). -/
theorem msrCpsr_keepsControl {s t : State} {mask : BitVec 4} {op : Word} (hm : s.mode = .usr)
    (h : msrCpsr (msrMask s false mask) op s = .next t) : KeepsControl s t := by
  intro k hk _
  have hwrites : msrWrites s false mask k = false := by simp [msrWrites, hm, show ¬24 ≤ k by omega]
  rw [msrCpsr_bit h k (by omega), hwrites, if_neg Bool.false_ne_true]

/-- In User mode an instruction leaves M, I and F, or takes the SWI or the Undefined exception: every other way of
ending needs an SPSR. -/
theorem exec_usr {i : Instr} {s t : State} (hu : modeField s.cpsr = Mode.usr.bits) (h : exec i s = .next t) :
    KeepsControl s t ∨ (∃ link : Word, Enters .svc Config.vecSwi link s t) ∨
      (∃ link : Word, Enters .und Config.vecUnd link s t) := by
  obtain ⟨hmode, hbank⟩ := mode_usr hu
  cases exec_ends h with
  | next u hl => exact .inl hl.keepsControl
  | callHost => exact .inl fun _ _ _ => rfl
  | branch u a hl => exact .inl hl.keepsControl
  | bx a =>
    refine .inl fun k hk h5 => ?_
    rw [State.branchTo_cpsr, State.setCpsr_cpsr, getLsbD_setBit _ _ _ _ (by omega), if_neg h5]
  | exception m v l _ _ ok =>
    have henters := (enter_enters s m v l (bank_of_exception ok)).1
    obtain ⟨rfl, rfl⟩ | ⟨rfl, rfl⟩ := ok
    · exact .inr (.inl ⟨l, henters⟩)
    · exact .inr (.inr ⟨l, henters⟩)
  | exit u _ a hl _ _ ok =>
    obtain ⟨_, _, hne, _⟩ := exceptionReturn_eq ok
    exact absurd (hl.bank.trans hbank) hne
  | msrCpsr _ _ _ _ _ _ _ _ ok => exact .inl (msrCpsr_keepsControl hmode ok)
  | msrSpsr _ _ _ _ _ ok => exact absurd hbank (msrSpsr_eq ok).1
  | ldmUser _ _ _ _ _ _ _ hne => exact absurd hbank hne
  | stmUser _ _ _ _ _ _ _ hne => exact absurd hbank hne

end Sys2Proof.Machine
end

section
/-! The statements about interrupts, User mode and the halted step (spec/60_exceptions.md). -/

open Sys2Proof Sys2Proof.Machine

/-- Settles O10: the step is the interrupt step, whose entry reads r15 as stage 1 aligned it and sets the mask that the
latch then takes. -/
theorem stepTakesTheInterrupt : Obligations.StepTakesTheInterrupt := by
  unfold Obligations.StepTakesTheInterrupt
  intro s e he hst hh hm hline hlatch
  have htaken : (e.world.irqLine && !e.irqMaskLatch) = true := by rw [hline, hlatch]; rfl
  have hstep : step s = e.irqStep := (step_of he).trans (run_irq hst hh hm htaken)
  rw [hstep]
  exact ⟨fun hw hs => ⟨_, irqStep_next hw hs, irq_latch e, irq_enters e⟩, irqStep_window⟩

/-- Settles O13: by what an instruction can do in User mode, and for the step by the three ways it goes on. -/
theorem userModeIsLeftOnlyByAnException : Obligations.UserModeIsLeftOnlyByAnException := by
  unfold Obligations.UserModeIsLeftOnlyByAnException
  refine ⟨fun i s t => exec_usr, fun s e t he hu h => ?_⟩
  rw [step_of he] at h
  obtain ⟨_, rfl, _⟩ | ⟨htaken, _, _, ht⟩ | ⟨_, _, hx, _⟩ := run_next h
  · exact .inl fun _ _ _ => rfl
  · rw [alignStep_irqLink] at ht
    obtain ⟨hline, hlatch⟩ : e.world.irqLine = true ∧ e.irqMaskLatch = false := by simpa [State.irqTaken] using htaken
    exact .inr (.inr (.inr ⟨hline, hlatch, irqLink e, ht ▸ irq_enters e⟩))
  · obtain hkeep | hsvc | hund := exec_usr (s := e.prepare) hu hx
    · exact .inl hkeep
    · exact .inr (.inl hsvc)
    · exact .inr (.inr (.inl hund))

/-- Settles O9: `Run()` looks at `HALTED` before the pipeline, the latch and the wire. -/
theorem haltedStepOnlyIdles : Obligations.HaltedStepOnlyIdles := by
  unfold Obligations.HaltedStepOnlyIdles
  intro s e he hst hh
  rw [step_of he, run_halted hst hh]
  exact ⟨settle_none (s := e.idle 1), fun _ => settle_fault (s := e.idle 1),
    fun _ => settle_refused (s := e.idle 1)⟩

end

section
/-! What `Add`, `Cancel`, the queries and the firing loop do to a well-formed scheduler (spec/65 R573 to R583). -/

namespace Sys2Proof.Machine

open Sys2Proof

namespace Sched

/-! ## Well-formed schedulers -/

section Formed

variable {sc : Sched} {d e : Event} (hw : wf sc = true)
include hw

/-- A pending event is known by its handle (65 R576). -/
theorem eq_of_handle (hd : d ∈ sc.pending) (he : e ∈ sc.pending) (h : d.handle = e.handle) : d = e := by
  obtain ⟨_, hnodup, hseq⟩ := wf_iff.mp hw
  rw [(hseq d hd).2, (hseq e he).2] at h
  exact List.inj_on_of_nodup_map hnodup hd he h

theorem pending_nodup : sc.pending.Nodup := (wf_iff.mp hw).2.1.of_map _

/-- The submission counter is the handle of no pending event. -/
theorem handle_ne_seq (he : e ∈ sc.pending) : e.handle ≠ sc.seq := by
  obtain ⟨hlt, hhandle⟩ := (wf_iff.mp hw).2.2 e he
  omega

variable (he : e ∈ sc.pending)
include he

/-- Cancelling by handle removes the one event that has it. -/
theorem filter_handle : (sc.pending.filter fun x => x.handle != e.handle) = sc.pending.filter fun x => x != e := by
  refine List.filter_congr fun x hx => ?_
  rw [Bool.eq_iff_iff, bne_iff_ne, bne_iff_ne]
  exact not_congr ⟨eq_of_handle hw hx he, congrArg Event.handle⟩

theorem length_filter_ne : (sc.pending.filter fun x => x != e).length + 1 = sc.pending.length := by
  rw [← (pending_nodup hw).erase_eq_filter e, List.length_erase_of_mem he]
  have hpos := List.length_pos_of_mem he
  omega

/-- The event that is before every other one is the head of the pending events (65 R573). -/
theorem pending_of_first (hfirst : ∀ d ∈ sc.pending, d ≠ e → e.before d = true) :
    sc.pending = e :: sc.pending.filter fun x => x != e := by
  have hnodup := pending_nodup hw
  have hsorted := (wf_iff.mp hw).1
  generalize sc.pending = l at *
  cases l with
  | nil => exact absurd he List.not_mem_nil
  | cons d es =>
    have hde : d = e := by
      by_contra hne
      have hback := sortedFrom_mem hsorted e ((List.mem_cons.mp he).resolve_left fun h => hne h.symm)
      have hloop := Event.before_trans (hfirst d List.mem_cons_self hne) hback
      rw [Event.before_iff] at hloop
      omega
    subst hde
    rw [← hnodup.erase_eq_filter d, List.erase_cons_head]

/-- The earliest timestamp is the target of the scheduler (65 R583). -/
theorem target_of_min (hmin : ∀ d ∈ sc.pending, e.timestamp ≤ d.timestamp) : sc.target = .next e.timestamp := by
  have hsorted := (wf_iff.mp hw).1
  rw [target]
  generalize sc.pending = l at *
  cases l with
  | nil => exact absurd he List.not_mem_nil
  | cons d es =>
    have hle : d.timestamp ≤ e.timestamp := by
      obtain rfl | he := List.mem_cons.mp he
      · exact le_rfl
      · exact Event.before_time (sortedFrom_mem hsorted e he)
    exact congrArg _ (hle.antisymm (hmin d List.mem_cons_self))

end Formed

/-! ## `Add` (65 R575, R576) -/

/-- The event that `Add` submits. -/
def submitted (sc : Sched) (delay cls priority : Nat) : Event :=
  { cls := cls, timestamp := sc.now + delay, priority := priority, seq := sc.seq, handle := sc.seq }

section Add

variable {cfg : Config} {sc : Sched} {cls priority : Nat} (delay : Nat)

theorem add_capacity (cls priority : Nat) (h : cfg.schedCapacity ≤ sc.pending.length + 1) :
    sc.add cfg delay cls priority = .fault .schedulerCapacity := if_pos h

theorem add_unregistered (priority : Nat) (hcap : sc.pending.length + 1 < cfg.schedCapacity)
    (hcls : cls ∉ cfg.classes) : sc.add cfg delay cls priority = .refused .unregisteredClass := by
  rw [add, if_neg (by omega), if_pos (by simpa using hcls)]

theorem add_priority (hcap : sc.pending.length + 1 < cfg.schedCapacity) (hcls : cls ∈ cfg.classes)
    (hprio : cfg.schedPrioMax < priority) : sc.add cfg delay cls priority = .refused .priorityOutOfRange := by
  rw [add, if_neg (by omega), if_neg (by simpa using hcls), if_pos hprio]

theorem add_submitted (hcap : sc.pending.length + 1 < cfg.schedCapacity) (hcls : cls ∈ cfg.classes)
    (hprio : priority ≤ cfg.schedPrioMax) :
    sc.add cfg delay cls priority =
      .next ({ sc with pending := insert sc.pending (sc.submitted delay cls priority), seq := sc.seq + 1 },
        sc.seq) := by
  rw [add, if_neg (by omega), if_neg (by simpa using hcls), if_neg (by omega), submitted]

end Add

/-! ## `Cancel` (65 R577) -/

theorem cancel_live {sc : Sched} {e : Event} (hw : wf sc = true) (he : e ∈ sc.pending) :
    sc.cancel e.handle = .next { sc with pending := sc.pending.filter fun x => x != e } := by
  rw [cancel, if_pos (hasHandle_iff.mpr ⟨e, he, rfl⟩), filter_handle hw he]

theorem cancel_dead {sc : Sched} {h : Nat} (hd : ∀ e ∈ sc.pending, e.handle ≠ h) :
    sc.cancel h = .refused .deadHandle := by
  rw [cancel, if_neg]
  rw [hasHandle_iff]
  rintro ⟨e, he, heq⟩
  exact hd e he heq

end Sched

/-! ## `AddCycles` (65 R580) -/

namespace World

/-- With nothing due, `AddCycles(n)` advances the time alone. -/
theorem addCycles_none_due {w : World} {n : Nat} (script : List CallbackAct) (scripts : List (List CallbackAct))
    (h : ∀ e ∈ w.sched.pending, w.sched.now + n < e.timestamp) :
    w.addCycles n (script :: scripts) = .next { w with sched := { w.sched with now := w.sched.now + n } } := by
  rw [addCycles, fireLoop]
  split
  · rfl
  · next e es hp =>
    have hlater : w.sched.now + n < e.timestamp := h e (by rw [show w.sched.pending = e :: es from hp]; simp)
    exact if_neg (by simpa using hlater)

/-- With its head due, `AddCycles(n)` runs the callback of the head, and looks at the pending events afresh. -/
theorem addCycles_head_due {w : World} {n : Nat} {e : Event} (script : List CallbackAct)
    (scripts : List (List CallbackAct)) (hp : w.sched.pending = e :: w.sched.pending.filter fun x => x != e)
    (hdue : e.timestamp ≤ w.sched.now + n) :
    w.addCycles n (script :: scripts) =
      andThen (runCallback script (w.inCallback n e)) fun v => v.addCycles 0 scripts := by
  rw [addCycles, fireLoop]
  split
  · next hnil => exact absurd (hnil.symm.trans hp) (List.cons_ne_nil _ _).symm
  · next d es hcons =>
    obtain ⟨rfl, rfl⟩ : d = e ∧ es = w.sched.pending.filter fun x => x != e := by
      simpa using hcons.symm.trans hp
    exact if_pos hdue

/-! ## Inside a callback (65 R582) -/

section InCallback

variable {w : World} (n : Nat) {e : Event} (hw : Sched.wf w.sched = true)

include hw in
theorem inCallback_wf : Sched.wf (w.inCallback n e).sched = true := Sched.wf_filter _ _ hw

theorem mem_inCallback {d : Event} : d ∈ (w.inCallback n e).sched.pending ↔ d ∈ w.sched.pending ∧ d ≠ e := by
  simp [inCallback]

include hw in
/-- In its own callback an event's handle is dead. -/
theorem inCallback_cancel_self (he : e ∈ w.sched.pending) :
    (w.inCallback n e).applyCommon (.cancel e.handle) = .refused .deadHandle := by
  have hdead : ∀ d ∈ (w.inCallback n e).sched.pending, d.handle ≠ e.handle := by
    intro d hd heq
    obtain ⟨hmem, hne⟩ := (mem_inCallback n).mp hd
    exact hne (Sched.eq_of_handle hw hmem he heq)
  rw [applyCommon, schedCancel, Sched.cancel_dead hdead, andThen_refused]

end InCallback

/-- `Add` on the world, past its checks: the event is submitted, and the host hears the handle. -/
theorem applyCommon_add {w : World} {cls priority : Nat} (delay : Nat)
    (hcap : w.sched.pending.length + 1 < w.cfg.schedCapacity) (hcls : cls ∈ w.cfg.classes)
    (hprio : priority ≤ w.cfg.schedPrioMax) :
    w.applyCommon (.add delay cls priority) = .next
      { w with
        sched := { w.sched with
          pending := Sched.insert w.sched.pending (w.sched.submitted delay cls priority), seq := w.sched.seq + 1 }
        host := w.host ++ [.handle w.sched.seq] } := by
  rw [applyCommon, schedAdd, Sched.add_submitted delay hcap hcls hprio, andThen_next]
  rfl

/-- `Cancel` of a live handle on the world. -/
theorem applyCommon_cancel {w : World} {e : Event} (hw : Sched.wf w.sched = true) (he : e ∈ w.sched.pending) :
    w.applyCommon (.cancel e.handle) = .next
      { w with sched := { w.sched with pending := w.sched.pending.filter fun x => x != e } } := by
  rw [applyCommon, schedCancel, Sched.cancel_live hw he, andThen_next]

end World

end Sys2Proof.Machine
end

section
/-! The statements about the event scheduler (spec/65_scheduler.md). -/

open Sys2Proof Sys2Proof.Machine

/-- Settles O58: with callbacks that do nothing the loop takes the due events off the head one by one. -/
theorem addCyclesFiresDueEventsInOrder : Obligations.AddCyclesFiresDueEventsInOrder := by
  unfold Obligations.AddCyclesFiresDueEventsInOrder
  intro w n hw
  have hsorted := (Sched.wf_iff.mp hw).1
  have hfire := Sched.fireQuiet_eq w.sched.pending { w with sched := { w.sched with now := w.sched.now + n } } rfl
    hsorted
  exact ⟨_, congrArg _ hfire, rfl, rfl, Sched.sorted_filter _ hsorted, rfl⟩

/-- Settles O59: each check of `Add` in its order, the event that it puts in key order, and the one event that a live
handle names. -/
theorem schedulerAddAndCancel : Obligations.SchedulerAddAndCancel := by
  unfold Obligations.SchedulerAddAndCancel
  refine ⟨fun cfg sc delay cls priority hw => ⟨Sched.add_capacity delay cls priority,
    Sched.add_unregistered delay priority, Sched.add_priority delay, fun hcap hcls hprio => ?_⟩,
    fun sc h hw => ⟨?_, Sched.cancel_dead⟩⟩
  · have hadd := Sched.add_submitted delay hcap hcls hprio
    exact ⟨_, _, hadd, Sched.wf_add hadd hw, rfl, rfl, fun e => Sched.handle_ne_seq hw, Sched.length_insert _ _,
      fun e => Sched.mem_insert⟩
  · rintro ⟨e, he, rfl⟩
    have hcancel := Sched.cancel_live hw he
    refine ⟨_, hcancel, Sched.wf_cancel hcancel hw, rfl, rfl, Sched.length_filter_ne hw he, fun x => ?_⟩
    rw [← Sched.filter_handle hw he, List.mem_filter, bne_iff_ne]

/-- Settles O32: the loop step by step, the acts of a callback one by one, the acts on the firing event's handle, place
and neighbours, and the queries. -/
theorem schedulerCallbacksAndQueries : Obligations.SchedulerCallbacksAndQueries := by
  unfold Obligations.SchedulerCallbacksAndQueries
  refine ⟨fun w n script scripts hw => ⟨World.addCycles_none_due script scripts, fun e he hdue hfirst => ?_⟩,
    fun w n a acts => ⟨rfl, rfl, rfl, rfl, rfl, rfl⟩, fun w n hw e he => ⟨World.inCallback_cancel_self n hw he, ?_, ?_⟩,
    fun w => ⟨rfl, fun hp => ?_, fun hw e he hmin => ?_⟩⟩
  · exact World.addCycles_head_due script scripts (Sched.pending_of_first hw he hfirst) hdue
  · intro delay hcap hcls hprio
    have hlen : (w.inCallback n e).sched.pending.length + 1 = w.sched.pending.length := Sched.length_filter_ne hw he
    have hcap' : (w.inCallback n e).sched.pending.length + 1 < (w.inCallback n e).cfg.schedCapacity := hlen ▸ hcap
    have hadd := Sched.add_submitted (cfg := w.cfg) delay hcap' hcls hprio
    refine ⟨_, World.applyCommon_add delay hcap' hcls hprio, Sched.wf_add hadd (World.inCallback_wf n hw),
      (Sched.length_insert _ _).trans hlen, rfl, _, Sched.mem_insert.mpr (.inr rfl), rfl, rfl, rfl, fun hmem => ?_⟩
    exact Sched.handle_ne_seq hw hmem rfl
  · intro d hd hne
    have hmem := (World.mem_inCallback n).mpr ⟨hd, hne⟩
    have hwf := World.inCallback_wf n (e := e) hw
    refine ⟨_, World.applyCommon_cancel hwf hmem, Sched.wf_filter _ _ hwf, fun x => ?_⟩
    rw [List.mem_filter, World.mem_inCallback, bne_iff_ne, and_assoc]
  · rw [World.applyCommon, World.applyCommon, Sched.remaining, Sched.target, hp]
    exact ⟨rfl, rfl⟩
  · rw [World.applyCommon, World.applyCommon, Sched.remaining, Sched.target_of_min hw he hmin]
    exact ⟨rfl, rfl⟩

end

section
/-! What `Reset()` leaves (spec/10 R50, 65 R574, 70 R620, R622): it is one branch from a cleared CPU. -/

namespace Sys2Proof.Machine

open Sys2Proof

/-- The world that `Reset()` leaves before its two fetches: the scheduler and the wire are clear. -/
def resetWorld (w : World) : World := { w with sched := { now := 0, pending := [], seq := 0 }, irqLine := false }

/-- The state that `Reset()` leaves before its two fetches. -/
def clearedForReset (s : State) : State :=
  { s with
    world := resetWorld s.world
    x := Vector.replicate 16 0
    bankLo :=
      { shared := Pair.zero, fiq := Pair.zero, irq := Pair.zero, svc := Pair.zero, abt := Pair.zero,
        und := Pair.zero }
    bankHi := { shared := Vector.replicate 5 0, fiq := Vector.replicate 5 0 }
    spsr := { fiq := 0, irq := 0, svc := 0, abt := 0, und := 0 }
    cpsr := s.world.cfg.resetCpsr
    invalidMode := false
    bankConflict := false
    started := true
    irqMaskLatch := s.world.cfg.resetCpsr.getLsbD 7 }

/-- `Reset()` ends with `pc <- RESET_VECTOR`; there is no window for the branch to close. -/
theorem doReset_eq (s : State) : s.doReset = (clearedForReset s).branchTo s.world.cfg.resetVector := rfl

theorem clearedForReset_get (s : State) (r : Reg) : (clearedForReset s).get r = 0 :=
  Vector.getElem_replicate _

theorem clearedForReset_hiBank (s : State) (fiq : Bool) (k : Fin 5) : ((clearedForReset s).hiBank fiq)[k] = 0 := by
  cases fiq <;> exact Vector.getElem_replicate _

theorem clearedForReset_loBank (s : State) (b : Bank) : (clearedForReset s).loBank b = { r13 := 0, r14 := 0 } := by
  cases b <;> rfl

theorem clearedForReset_spsrOf (s : State) {b : Bank} (h : b ≠ .shared) : (clearedForReset s).spsrOf b = 0 := by
  cases b with
  | shared => exact absurd rfl h
  | fiq | irq | svc | abt | und => rfl

/-- Legal parameters reset into the 32-bit set, at a vector that is aligned to it (10 R50). -/
theorem cfgValid_reset {cfg : Config} (h : cfgValid cfg = true) :
    cfg.resetCpsr.getLsbD 5 = false ∧ alignPc false cfg.resetVector = cfg.resetVector := by
  simp only [cfgValid, Bool.and_eq_true, Bool.not_eq_true', beq_iff_eq] at h
  obtain ⟨⟨⟨_, hthumb⟩, _⟩, hvector⟩ := h
  exact ⟨hthumb, hvector⟩

/-- `Reset()` reloads the pipeline at `RESET_VECTOR` in the 32-bit set (70 R620). -/
theorem doReset_reloaded {s : State} (h : cfgValid s.world.cfg = true) :
    Reloaded false s.world.cfg.resetVector [] { s with world := resetWorld s.world } s.doReset := by
  have hthumb : (clearedForReset s).thumb = false := (cfgValid_reset h).1
  have hreload := reloaded_branchTo { s with world := resetWorld s.world } (clearedForReset s)
    s.world.cfg.resetVector [] rfl
  rwa [hthumb] at hreload

theorem doReset_get {s : State} {r : Reg} (hr : r ≠ regPc) : s.doReset.get r = 0 := by
  rw [doReset_eq, State.get_branchTo, if_neg hr, clearedForReset_get]

theorem doReset_pc {s : State} (h : cfgValid s.world.cfg = true) :
    s.doReset.get regPc = s.world.cfg.resetVector + 8 := by
  rw [(doReset_reloaded h).pc, (cfgValid_reset h).2, BitVec.add_assoc]
  rfl

/-- The parameters stay (70 R622). -/
theorem doReset_cfg (s : State) : s.doReset.world.cfg = s.world.cfg := by
  rw [doReset_eq, State.branchTo_world, World.play_cfg]
  rfl

/-- Where the environment does nothing inside the two fetches, of the world `Reset()` changes the scheduler, the wire
and the trace (70 R622). -/
theorem doReset_quiet {s : State} (h : s.world.inside = []) :
    { s.doReset.world with bus := s.world.bus } = resetWorld s.world := by
  have hplay := World.play_quiet (w := resetWorld s.world) (cs := [fetch0 (clearedForReset s).thumb
    s.world.cfg.resetVector, fetch1 (clearedForReset s).thumb s.world.cfg.resetVector]) h
      (reload_reads (cs := []) (by simp) _ _)
  rw [doReset_eq, State.branchTo_world]
  exact congrArg (fun w : World => { w with bus := s.world.bus }) hplay

end Sys2Proof.Machine
end

section
/-! The statements about `Reset()` (spec/70_reset_and_hazards.md). -/

open Sys2Proof Sys2Proof.Machine

/-- Settles O1: the reload reads what a clear CPU and world leave to it, and it writes r15, the slots and the next fetch
alone. -/
theorem resetLeavesTheStartState : Obligations.ResetLeavesTheStartState := by
  unfold Obligations.ResetLeavesTheStartState
  intro s hcfg
  have hreload := doReset_reloaded hcfg
  exact ⟨hreload, doReset_pc hcfg, fun r => doReset_get, clearedForReset_loBank s, clearedForReset_hiBank s,
    fun b => clearedForReset_spsrOf s, rfl, rfl, rfl, rfl, rfl, doReset_cfg s, hreload.keepsMemory (by simp),
    doReset_quiet⟩

/-- Settles O2: the reset state is a closed term, so it is `Reset()` of itself by evaluation; `Reset()` of a world in
form satisfies the invariant. -/
theorem resetStateSatisfiesTheInvariant : Obligations.ResetStateSatisfiesTheInvariant := by
  unfold Obligations.ResetStateSatisfiesTheInvariant
  have hreset : State.doReset { State.reset with world := { State.reset.world with bus := [] } } = State.reset := by
    decide
  refine ⟨?_, hreset⟩
  rw [← hreset]
  refine doReset_inv ?_ (by rw [hreset]; rfl)
  exact ⟨by decide, by decide, by decide⟩

end
